-- ==== Sys2Proof/Word.lean ====
section
/-! DEFINITION. The word types of the KX-8 and the canonical sparse store in which memories and register files are held. -/

namespace Sys2Proof

/-- A byte, the unit of every address space (R194). -/
abbrev Byte := BitVec 8
/-- A 32-bit register value (R113). -/
abbrev Word := BitVec 32
/-- A 64-bit value: a register pair, a PC, an address (R66, R92). -/
abbrev Dword := BitVec 64
/-- An instruction word (R54). -/
abbrev Code := BitVec 96
/-- A brand, bits 31:0 first in registers and memory (R355). -/
abbrev Brand := BitVec 128

/-- A store of `w`-bit cells by natural-number key: keys strictly rising, no cell equal to zero.
A key that is not listed reads as zero. -/
abbrev Cells (w : Nat) := List (Nat × BitVec w)

end Sys2Proof
end

