-- ==== Sys2Proof/Config.lean ====
section
/-! DEFINITION. What the manual leaves free. Each constant has no body, so nothing can be proved of its values; it is
applied to the machine's counter of free values, so each use is fresh. -/

namespace Sys2Proof.Config

/-- A free bit: which of two allowed outcomes happens, or what an open flag reads.
DESIGN CHOICE (log 14; safe). -/
opaque freeBool : Nat → Bool
/-- A free number: a time that passes, or which of many allowed outcomes happens.
DESIGN CHOICE (log 14; safe). -/
opaque freeNat : Nat → Nat
/-- A free 32-bit value.
DESIGN CHOICE (log 14; safe). -/
opaque freeWord : Nat → Word
/-- A free 64-bit value.
DESIGN CHOICE (log 14; safe). -/
opaque freeDword : Nat → Dword
end Sys2Proof.Config
end

