-- ==== Sys2Proof/Machine/Cells.lean ====
section
/-! DEFINITION. The canonical sparse store: reading and writing cells, and runs of bytes, words and double words. -/

namespace Sys2Proof.Machine

namespace Cells

/-- The cell of a key; an unlisted key reads as zero.
DESIGN CHOICE (log 1; unsafe). -/
def get {w : Nat} (c : Cells w) (a : Nat) : BitVec w :=
  match c with
  | [] => 0
  | (k, x) :: rest => if k == a then x else get rest a

/-- A cell in front of a store, left out where it is zero. -/
def cons {w : Nat} (a : Nat) (x : BitVec w) (rest : Cells w) : Cells w := if x == 0 then rest else (a, x) :: rest

/-- Write a cell, keeping the keys rising and no cell zero.
DESIGN CHOICE (log 1; unsafe). -/
def set {w : Nat} (c : Cells w) (a : Nat) (x : BitVec w) : Cells w :=
  match c with
  | [] => cons a x []
  | (k, y) :: rest =>
    if a < k then cons a x ((k, y) :: rest)
    else if a == k then cons a x rest
    else (k, y) :: set rest a x

/-- Whether every key is above a bound, the keys rise, and no cell is zero. -/
def wfFrom {w : Nat} : Option Nat → Cells w → Bool
  | _, [] => true
  | lo, (k, x) :: rest => (match lo with | some l => decide (l < k) | none => true) && x != 0 && wfFrom (some k) rest

/-- The canonical form. -/
def wf {w : Nat} (c : Cells w) : Bool := wfFrom none c

/-- `n` bytes from an address, the lowest first. -/
def bytes (c : Cells 8) (a : Nat) : Nat → List Byte
  | 0 => []
  | n + 1 => get c a :: bytes c (a + 1) n

/-- Write bytes from an address on. -/
def setBytes (c : Cells 8) (a : Nat) : List Byte → Cells 8
  | [] => c
  | x :: rest => setBytes (set c a x) (a + 1) rest

end Cells

/-- The number a list of bytes holds, little-endian. -/
def leNat : List Byte → Nat
  | [] => 0
  | x :: rest => x.toNat + 256 * leNat rest

/-- The `n` bytes of a number, little-endian. -/
def toLe : Nat → Nat → List Byte
  | 0, _ => []
  | n + 1, x => BitVec.ofNat 8 x :: toLe n (x / 256)

/-- Whether memory has its canonical form: keys rising, and no byte listed that an unlisted address reads as.
DESIGN CHOICE (log 1; unsafe). -/
def Memory.wf (m : Cells 8) : Bool := Cells.wf m

end Sys2Proof.Machine
end

