-- ==== Sys2Proof/Syntax.lean ====
section
/-! DEFINITION. The instructions and events of the KX-8: one constructor of `Instr` for each row of the opcode table. -/

namespace Sys2Proof

/-- Integer types of class 0 (R119, Table 3-8). -/
inductive IntTy where
  | s32 | n32 | s64 | n64 | s16x2 | n16x2
  deriving DecidableEq, Repr

/-- The code of each name, in the order of its table. -/
def IntTy.code : IntTy → Nat
  | .s32 => 0
  | .n32 => 1
  | .s64 => 2
  | .n64 => 3
  | .s16x2 => 4
  | .n16x2 => 5

/-- The name a code stands for; none for a code the table does not list. -/
def IntTy.ofCode : Nat → Option IntTy
  | 0 => some .s32
  | 1 => some .n32
  | 2 => some .s64
  | 3 => some .n64
  | 4 => some .s16x2
  | 5 => some .n16x2
  | _ => none

/-- Formats of classes FP and SFU (Table 3-8). -/
inductive FFmt where
  | f32 | f16x2 | bf16x2
  deriving DecidableEq, Repr

/-- The code of each name, in the order of its table. -/
def FFmt.code : FFmt → Nat
  | .f32 => 0
  | .f16x2 => 1
  | .bf16x2 => 2

/-- The name a code stands for; none for a code the table does not list. -/
def FFmt.ofCode : Nat → Option FFmt
  | 0 => some .f32
  | 1 => some .f16x2
  | 2 => some .bf16x2
  | _ => none

/-- Rounding codes (R72, Table 3-7). -/
inductive Rnd where
  | rne | rtz | rpi | rmi
  deriving DecidableEq, Repr

/-- The code of each name, in the order of its table. -/
def Rnd.code : Rnd → Nat
  | .rne => 0
  | .rtz => 1
  | .rpi => 2
  | .rmi => 3

/-- The name a code stands for; none for a code the table does not list. -/
def Rnd.ofCode : Nat → Option Rnd
  | 0 => some .rne
  | 1 => some .rtz
  | 2 => some .rpi
  | 3 => some .rmi
  | _ => none

/-- Type codes (R71, Table 3-6). -/
inductive Ty where
  | f32 | f16 | bf16 | s32 | n32 | s16 | n16 | s8 | n8 | s64 | n64 | bpi8
  deriving DecidableEq, Repr

/-- The code of each name, in the order of its table. -/
def Ty.code : Ty → Nat
  | .f32 => 0
  | .f16 => 1
  | .bf16 => 2
  | .s32 => 3
  | .n32 => 4
  | .s16 => 5
  | .n16 => 6
  | .s8 => 7
  | .n8 => 8
  | .s64 => 9
  | .n64 => 10
  | .bpi8 => 11

/-- The name a code stands for; none for a code the table does not list. -/
def Ty.ofCode : Nat → Option Ty
  | 0 => some .f32
  | 1 => some .f16
  | 2 => some .bf16
  | 3 => some .s32
  | 4 => some .n32
  | 5 => some .s16
  | 6 => some .n16
  | 7 => some .s8
  | 8 => some .n8
  | 9 => some .s64
  | 10 => some .n64
  | 11 => some .bpi8
  | _ => none

/-- Conditions of `icmp` (Table 5-3). -/
inductive ICond where
  | eq | ne | lt | le | gt | ge
  deriving DecidableEq, Repr

/-- The code of each name, in the order of its table. -/
def ICond.code : ICond → Nat
  | .eq => 0
  | .ne => 1
  | .lt => 2
  | .le => 3
  | .gt => 4
  | .ge => 5

/-- The name a code stands for; none for a code the table does not list. -/
def ICond.ofCode : Nat → Option ICond
  | 0 => some .eq
  | 1 => some .ne
  | 2 => some .lt
  | 3 => some .le
  | 4 => some .gt
  | 5 => some .ge
  | _ => none

/-- Conditions of `fcmp` (Table 5-8). -/
inductive FCond where
  | eq | ne | lt | le | gt | ge | un | or
  deriving DecidableEq, Repr

/-- The code of each name, in the order of its table. -/
def FCond.code : FCond → Nat
  | .eq => 0
  | .ne => 1
  | .lt => 2
  | .le => 3
  | .gt => 4
  | .ge => 5
  | .un => 6
  | .or => 7

/-- The name a code stands for; none for a code the table does not list. -/
def FCond.ofCode : Nat → Option FCond
  | 0 => some .eq
  | 1 => some .ne
  | 2 => some .lt
  | 3 => some .le
  | 4 => some .gt
  | 5 => some .ge
  | 6 => some .un
  | 7 => some .or
  | _ => none

/-- Access sizes (R217). -/
inductive Size where
  | b32 | b64 | b128 | b8 | b16
  deriving DecidableEq, Repr

/-- The code of each name, in the order of its table. -/
def Size.code : Size → Nat
  | .b32 => 0
  | .b64 => 1
  | .b128 => 2
  | .b8 => 3
  | .b16 => 4

/-- The name a code stands for; none for a code the table does not list. -/
def Size.ofCode : Nat → Option Size
  | 0 => some .b32
  | 1 => some .b64
  | 2 => some .b128
  | 3 => some .b8
  | 4 => some .b16
  | _ => none

/-- Scopes (R257, Table 3-7). -/
inductive Scope where
  | grp | team | clus | dev | sys | pod
  deriving DecidableEq, Repr

/-- The code of each name, in the order of its table. -/
def Scope.code : Scope → Nat
  | .grp => 0
  | .team => 1
  | .clus => 2
  | .dev => 3
  | .sys => 4
  | .pod => 5

/-- The name a code stands for; none for a code the table does not list. -/
def Scope.ofCode : Nat → Option Scope
  | 0 => some .grp
  | 1 => some .team
  | 2 => some .clus
  | 3 => some .dev
  | 4 => some .sys
  | 5 => some .pod
  | _ => none

/-- Run codes of the cross-lane class (R159). -/
inductive Run where
  | wg | w8 | w16 | w32 | w64
  deriving DecidableEq, Repr

/-- The code of each name, in the order of its table. -/
def Run.code : Run → Nat
  | .wg => 0
  | .w8 => 1
  | .w16 => 2
  | .w32 => 3
  | .w64 => 4

/-- The name a code stands for; none for a code the table does not list. -/
def Run.ofCode : Nat → Option Run
  | 0 => some .wg
  | 1 => some .w8
  | 2 => some .w16
  | 3 => some .w32
  | 4 => some .w64
  | _ => none

/-- Operations of `shfl` (R163). -/
inductive ShflOp where
  | up | down | xor | rot
  deriving DecidableEq, Repr

/-- The code of each name, in the order of its table. -/
def ShflOp.code : ShflOp → Nat
  | .up => 0
  | .down => 1
  | .xor => 2
  | .rot => 3

/-- The name a code stands for; none for a code the table does not list. -/
def ShflOp.ofCode : Nat → Option ShflOp
  | 0 => some .up
  | 1 => some .down
  | 2 => some .xor
  | 3 => some .rot
  | _ => none

/-- Operations of `poll` (R164). -/
inductive PollOp where
  | every | anyOf | same | mask
  deriving DecidableEq, Repr

/-- The code of each name, in the order of its table. -/
def PollOp.code : PollOp → Nat
  | .every => 0
  | .anyOf => 1
  | .same => 2
  | .mask => 3

/-- The name a code stands for; none for a code the table does not list. -/
def PollOp.ofCode : Nat → Option PollOp
  | 0 => some .every
  | 1 => some .anyOf
  | 2 => some .same
  | 3 => some .mask
  | _ => none

/-- Operations of `red` and `scan` (R166). -/
inductive RedOp where
  | add | min | max | and | or | xor | adds
  deriving DecidableEq, Repr

/-- The code of each name, in the order of its table. -/
def RedOp.code : RedOp → Nat
  | .add => 0
  | .min => 1
  | .max => 2
  | .and => 3
  | .or => 4
  | .xor => 5
  | .adds => 6

/-- The name a code stands for; none for a code the table does not list. -/
def RedOp.ofCode : Nat → Option RedOp
  | 0 => some .add
  | 1 => some .min
  | 2 => some .max
  | 3 => some .and
  | 4 => some .or
  | 5 => some .xor
  | 6 => some .adds
  | _ => none

/-- Operations of `srt` (R167). -/
inductive SrtOp where
  | asc | desc | asckv | desckv
  deriving DecidableEq, Repr

/-- The code of each name, in the order of its table. -/
def SrtOp.code : SrtOp → Nat
  | .asc => 0
  | .desc => 1
  | .asckv => 2
  | .desckv => 3

/-- The name a code stands for; none for a code the table does not list. -/
def SrtOp.ofCode : Nat → Option SrtOp
  | 0 => some .asc
  | 1 => some .desc
  | 2 => some .asckv
  | 3 => some .desckv
  | _ => none

/-- Operator codes (R296, Table 13-1). -/
inductive Opr where
  | load | store | addI32 | addI64 | addF32 | subfF32 | subfI32 | maxS32 | maxN32 | minS32 | minN32 | maxF32 | minF32 | and | or | xor | mulF32 | xchg | cas
  deriving DecidableEq, Repr

/-- The code of each name, in the order of its table. -/
def Opr.code : Opr → Nat
  | .load => 0
  | .store => 1
  | .addI32 => 2
  | .addI64 => 3
  | .addF32 => 4
  | .subfF32 => 5
  | .subfI32 => 6
  | .maxS32 => 7
  | .maxN32 => 8
  | .minS32 => 9
  | .minN32 => 10
  | .maxF32 => 11
  | .minF32 => 12
  | .and => 13
  | .or => 14
  | .xor => 15
  | .mulF32 => 16
  | .xchg => 17
  | .cas => 18

/-- The name a code stands for; none for a code the table does not list. -/
def Opr.ofCode : Nat → Option Opr
  | 0 => some .load
  | 1 => some .store
  | 2 => some .addI32
  | 3 => some .addI64
  | 4 => some .addF32
  | 5 => some .subfF32
  | 6 => some .subfI32
  | 7 => some .maxS32
  | 8 => some .maxN32
  | 9 => some .minS32
  | 10 => some .minN32
  | 11 => some .maxF32
  | 12 => some .minF32
  | 13 => some .and
  | 14 => some .or
  | 15 => some .xor
  | 16 => some .mulF32
  | 17 => some .xchg
  | 18 => some .cas
  | _ => none

/-- The counter `wt` names (R375). -/
inductive Ctr where
  | cc | mc | oc
  deriving DecidableEq, Repr

/-- The code of each name, in the order of its table. -/
def Ctr.code : Ctr → Nat
  | .cc => 0
  | .mc => 1
  | .oc => 2

/-- The name a code stands for; none for a code the table does not list. -/
def Ctr.ofCode : Nat → Option Ctr
  | 0 => some .cc
  | 1 => some .mc
  | 2 => some .oc
  | _ => none

/-- Conditions of `wfl` (R382). -/
inductive WflCond where
  | eq | ne | ltn | gen | lts | ges
  deriving DecidableEq, Repr

/-- The code of each name, in the order of its table. -/
def WflCond.code : WflCond → Nat
  | .eq => 0
  | .ne => 1
  | .ltn => 2
  | .gen => 3
  | .lts => 4
  | .ges => 5

/-- The name a code stands for; none for a code the table does not list. -/
def WflCond.ofCode : Nat → Option WflCond
  | 0 => some .eq
  | 1 => some .ne
  | 2 => some .ltn
  | 3 => some .gen
  | 4 => some .lts
  | 5 => some .ges
  | _ => none

/-- Brand kinds that a record may hold (R357, Table 15-8). -/
inductive Kind where
  | kernel | cobj | cgrp | stream | queue | ctx
  deriving DecidableEq, Repr

/-- The kind codes of Table 15-8. -/
def Kind.code : Kind → Nat
  | .kernel => 1
  | .cobj => 2
  | .cgrp => 3
  | .stream => 4
  | .queue => 5
  | .ctx => 6

/-- The kind a code names; codes 0 and 7 to 15 name none. -/
def Kind.ofCode : Nat → Option Kind
  | 1 => some .kernel
  | 2 => some .cobj
  | 3 => some .cgrp
  | 4 => some .stream
  | 5 => some .queue
  | 6 => some .ctx
  | _ => none

/-- Guard and hints of a word (R54, R55, R56): GRD 85:82 and HNT 76:72.
DESIGN CHOICE (log 63; safe). -/
structure Hdr where
  neg : Bool
  pred : BitVec 3
  yld : Bool
  hold : Bool
  stall : BitVec 3
  deriving DecidableEq, Repr

/-- A destination field (R58, Table 3-2). `nw` is NW = 1 with kind 00 and number 0. -/
inductive Dst where
  | none
  | v (n : BitVec 8) (pair : Bool)
  | k (n : BitVec 6) (pair : Bool)
  | p (n : BitVec 3)
  | nw (pair : Bool)
  deriving DecidableEq, Repr

/-- A source field (R59, Table 3-3). -/
inductive Src where
  | v (n : BitVec 8) (neg abs pair : Bool)
  | latch (n : BitVec 2)
  | imm (x : BitVec 14)
  | k (n : BitVec 6) (neg pair : Bool)
  | p (n : BitVec 3)
  deriving DecidableEq, Repr

/-- A branch target (R61): word bits 31:4 a signed line delta, bits 3:0 a slot. -/
structure Target where
  delta : BitVec 28
  slot : BitVec 4
  deriving DecidableEq, Repr

/-- The fields of a fence (R269): which kinds it names. -/
structure Kinds where
  ld : Bool
  st : Bool
  po : Bool
  deriving DecidableEq, Repr

/-- Space, write mode and chain of a matrix instruction (R245): true is `.pool`, `.ovw`, `.split`. -/
structure MtxMod where
  pool : Bool
  ovw : Bool
  split : Bool
  deriving DecidableEq, Repr

/-- Why a word encodes no instruction (R75, Table 3-9). Every reason raises ILL. -/
inductive NotInstr where
  | zeroOpcode | unassigned | guardNever | hints | dest | source | latch3 | slotRange | modField | header
  deriving DecidableEq, Repr

/-- Where an uncorrectable error is met (R208, R210, R256). -/
inductive ErrAt where
  | regs (tid : Nat)
  | spad (tid : Nat)
  | peer (tid : Nat)
  | pool (tid lid cluster word : Nat)
  | acc (quad bank : Nat)
  | dram (word : Nat)
  deriving DecidableEq, Repr

/-- A register the host writes (R188, R284): of a die, or of a letterbox, or the map of a letterbox page. -/
inductive RegAt where
  | die (d num : Nat)
  | letterbox (lb off : Nat)
  | mapLetterbox (lb ctx prio : Nat) (walker : Bool) (die width groups consumers lanes spadLines pool : Nat) (flags : BitVec 8) (done : Dword)
  deriving DecidableEq, Repr

/-- Where the routing table sends a chip number (R354). -/
inductive Route where
  | port (f : Nat)
  | self
  | none
  deriving DecidableEq, Repr

/-- One write of the fabric manager to the routing table (R354). -/
inductive RouteWrite where
  | chip (c : Nat) (r : Route)
  | home (serial : BitVec 48) (boot : BitVec 24) (c : Nat)
  | moved (ctx c : Nat)
  deriving DecidableEq, Repr

/-- A tile that arrives (R325): one of this chip's own `cpx` at a target rank; a packet from another chip with the destination record's image, the tile
index, the sender and the elements in order (none: poisoned at its source); more of a tile that has begun to arrive, or that waits; or a tile that a
port's courier forwards on a channel to another chip (R332). -/
inductive TileSrc where
  | own (id rank : Nat)
  | remote (ctx : Nat) (rec : List Byte) (td sender : Nat) (elems : List (Option Dword))
  | rest (tile : Nat)
  | through (port channel chip bytes : Nat)
  deriving DecidableEq, Repr

/-- The rewrites of an adjacent pair (R298, Table 13-2). -/
inductive Rewrite where
  | swap | absorb | forward | compose | cancel
  deriving DecidableEq, Repr

/-- The operations and events of the opcode table: the 153 instructions of level N3 (R70), each with its guard and
hints, and the events of the device, the host and the pod, each with the data the event brings. -/
inductive Instr where
  | iadd (h : Hdr) (ty : IntTy) (sat : Bool) (d : Dst) (a b : Src)
  | isub (h : Hdr) (ty : IntTy) (sat : Bool) (d : Dst) (a b : Src)
  | imul (h : Hdr) (ty : IntTy) (sat hi : Bool) (d : Dst) (a b : Src)
  | imad (h : Hdr) (ty : IntTy) (sat : Bool) (d : Dst) (a b c : Src)
  | imin (h : Hdr) (ty : IntTy) (d : Dst) (a b : Src)
  | imax (h : Hdr) (ty : IntTy) (d : Dst) (a b : Src)
  | iabs (h : Hdr) (ty : IntTy) (sat : Bool) (d : Dst) (a : Src)
  | and (h : Hdr) (ty : IntTy) (d : Dst) (a b : Src)
  | or (h : Hdr) (ty : IntTy) (d : Dst) (a b : Src)
  | xor (h : Hdr) (ty : IntTy) (d : Dst) (a b : Src)
  | andn (h : Hdr) (ty : IntTy) (d : Dst) (a b : Src)
  | shl (h : Hdr) (ty : IntTy) (sat : Bool) (d : Dst) (a b : Src)
  | shr (h : Hdr) (ty : IntTy) (d : Dst) (a b : Src)
  | rot (h : Hdr) (ty : IntTy) (d : Dst) (a b : Src)
  | bfe (h : Hdr) (ty : IntTy) (d : Dst) (a b : Src)
  | bfi (h : Hdr) (ty : IntTy) (d : Dst) (a b c : Src)
  | popc (h : Hdr) (ty : IntTy) (d : Dst) (a : Src)
  | clz (h : Hdr) (ty : IntTy) (d : Dst) (a : Src)
  | brev (h : Hdr) (ty : IntTy) (d : Dst) (a : Src)
  | icmp (h : Hdr) (cond : ICond) (ty : IntTy) (d : Dst) (a b : Src)
  | sel (h : Hdr) (ty : IntTy) (d : Dst) (a b c : Src)
  | mov (h : Hdr) (ty : IntTy) (d : Dst) (a : Src)
  | movi (h : Hdr) (d : Dst) (imm : Word)
  | lea (h : Hdr) (sh : BitVec 3) (ty : IntTy) (d : Dst) (a b : Src)
  | iaddc (h : Hdr) (co : BitVec 3) (d : Dst) (a b c : Src)
  | sreg (h : Hdr) (d : Dst) (a : Src)
  | fadd (h : Hdr) (rnd : Rnd) (ftz clamp : Bool) (d : Dst) (a b : Src)
  | fsub (h : Hdr) (rnd : Rnd) (ftz clamp : Bool) (d : Dst) (a b : Src)
  | fmul (h : Hdr) (rnd : Rnd) (ftz clamp : Bool) (d : Dst) (a b : Src)
  | ffma (h : Hdr) (rnd : Rnd) (ftz clamp : Bool) (d : Dst) (a b c : Src)
  | fmin (h : Hdr) (ftz clamp : Bool) (d : Dst) (a b : Src)
  | fmax (h : Hdr) (ftz clamp : Bool) (d : Dst) (a b : Src)
  | fcmp (h : Hdr) (cond : FCond) (ftz : Bool) (d : Dst) (a b : Src)
  | fclass (h : Hdr) (ftz : Bool) (d : Dst) (a : Src)
  | frnd (h : Hdr) (rnd : Rnd) (ftz clamp : Bool) (d : Dst) (a : Src)
  | fscale (h : Hdr) (rnd : Rnd) (ftz clamp : Bool) (d : Dst) (a b : Src)
  | fadd2 (h : Hdr) (fmt : FFmt) (rnd : Rnd) (ftz clamp : Bool) (d : Dst) (a b : Src)
  | fmul2 (h : Hdr) (fmt : FFmt) (rnd : Rnd) (ftz clamp : Bool) (d : Dst) (a b : Src)
  | ffma2 (h : Hdr) (fmt : FFmt) (rnd : Rnd) (ftz clamp : Bool) (d : Dst) (a b c : Src)
  | cvt (h : Hdr) (dt st : Ty) (rnd : Rnd) (d : Dst) (a : Src)
  | cvti (h : Hdr) (dt st : Ty) (rnd : Rnd) (d : Dst) (a b : Src)
  | pk16 (h : Hdr) (dt st : Ty) (rnd : Rnd) (d : Dst) (a b : Src)
  | upk16 (h : Hdr) (dt st : Ty) (d : Dst) (a b : Src)
  | qnt (h : Hdr) (d : Dst) (a b c : Src)
  | dqnt (h : Hdr) (dt : Ty) (d : Dst) (a b c : Src)
  | bpt (h : Hdr) (d : Dst) (a b : Src)
  | bpr (h : Hdr) (d : Dst) (a b c : Src)
  | olst (h : Hdr) (d : Dst) (a b c : Src)
  | rcps (h : Hdr) (fmt : FFmt) (ftz : Bool) (d : Dst) (a : Src)
  | rsqs (h : Hdr) (fmt : FFmt) (ftz : Bool) (d : Dst) (a : Src)
  | ex2 (h : Hdr) (fmt : FFmt) (ftz : Bool) (d : Dst) (a : Src)
  | lg2 (h : Hdr) (fmt : FFmt) (ftz : Bool) (d : Dst) (a : Src)
  | sinp (h : Hdr) (fmt : FFmt) (ftz : Bool) (d : Dst) (a : Src)
  | cosp (h : Hdr) (fmt : FFmt) (ftz : Bool) (d : Dst) (a : Src)
  | tnh (h : Hdr) (fmt : FFmt) (ftz : Bool) (d : Dst) (a : Src)
  | perm (h : Hdr) (ty : Ty) (d : Dst) (a b : Src)
  | shfl (h : Hdr) (op : ShflOp) (run : Run) (ty : Ty) (d : Dst) (a b : Src)
  | bcst (h : Hdr) (run : Run) (ty : Ty) (d : Dst) (a b : Src)
  | poll (h : Hdr) (op : PollOp) (run : Run) (d : Dst) (a : Src)
  | red (h : Hdr) (op : RedOp) (run : Run) (ty : Ty) (d : Dst) (a : Src)
  | scan (h : Hdr) (op : RedOp) (run : Run) (ty : Ty) (d : Dst) (a : Src)
  | mcnt (h : Hdr) (rank : Bool) (run : Run) (ty : Ty) (d : Dst) (a : Src)
  | cmpt (h : Hdr) (run : Run) (ty : Ty) (d : Dst) (a b : Src)
  | l2k (h : Hdr) (ty : Ty) (d : Dst) (a b : Src)
  | srt (h : Hdr) (op : SrtOp) (run : Run) (ty : Ty) (d : Dst) (a : Src)
  | bra (h : Hdr) (t : Target)
  | brx (h : Hdr) (a : Src)
  | call (h : Hdr) (d : Dst) (t : Target)
  | ret (h : Hdr) (a : Src)
  | enrol (h : Hdr) (m : BitVec 3)
  | join (h : Hdr) (m : BitVec 3)
  | exit (h : Hdr)
  | width (h : Hdr) (d : Dst) (a : Src)
  | yield (h : Hdr)
  | nop (h : Hdr)
  | trap (h : Hdr) (a : Src)
  | lp (h : Hdr) (d : Dst) (t : Target)
  | brk (h : Hdr) (a : Src)
  | ld (h : Hdr) (sz : Size) (sx : Bool) (d : Dst) (a b : Src)
  | st (h : Hdr) (sz : Size) (col : BitVec 3) (a b c : Src)
  | lds (h : Hdr) (sz : Size) (sx : Bool) (d : Dst) (a b : Src)
  | sts (h : Hdr) (sz : Size) (col : BitVec 3) (a b c : Src)
  | ldc (h : Hdr) (sz : Size) (sx : Bool) (d : Dst) (a b : Src)
  | stc (h : Hdr) (sz : Size) (col : BitVec 3) (a b c : Src)
  | ldx (h : Hdr) (sz : Size) (sx : Bool) (d : Dst) (a b : Src)
  | stx (h : Hdr) (sz : Size) (col : BitVec 3) (a b c : Src)
  | ldk (h : Hdr) (sz : Size) (sx : Bool) (d : Dst) (a b : Src)
  | stk (h : Hdr) (sz : Size) (col : BitVec 3) (a b c : Src)
  | prf (h : Hdr) (a b : Src)
  | tlk (h : Hdr) (d : Dst) (a : Src)
  | tset (h : Hdr) (lck : Bool) (a b : Src)
  | tinv (h : Hdr) (a : Src)
  | tlck (h : Hdr) (a : Src)
  | tulk (h : Hdr) (a : Src)
  | prsq (h : Hdr) (d : Dst) (a : Src)
  | prsc (h : Hdr) (set : Bool) (a b : Src)
  | ops (h : Hdr) (op : Opr) (col : BitVec 3) (a b c : Src)
  | opf (h : Hdr) (op : Opr) (col : BitVec 3) (d : Dst) (a b c : Src)
  | ocas (h : Hdr) (col : BitVec 3) (d : Dst) (a b c : Src)
  | sat (h : Hdr) (op : Opr) (col : BitVec 3) (d : Dst) (a b : Src) (c : Option Src)
  | txb (h : Hdr) (d : Dst) (a : Src)
  | txs (h : Hdr) (col : BitVec 3) (a b c : Src)
  | txc (h : Hdr) (d : Dst) (a : Src)
  | txa (h : Hdr) (a : Src)
  | ewk (h : Hdr) (a b : Src)
  | fnc (h : Hdr) (ks : Kinds) (sc : Scope) (a : Src)
  | ofnc (h : Hdr)
  | wt (h : Hdr) (ctr : Ctr) (a : Src)
  | bari (h : Hdr) (a b : Src)
  | bara (h : Hdr) (d : Dst) (a b : Src)
  | barw (h : Hdr) (par : Bool) (d : Dst) (a b : Src)
  | bard (h : Hdr) (d : Dst) (a b : Src)
  | wfl (h : Hdr) (cond : WflCond) (d : Dst) (a b : Src)
  | phs (h : Hdr) (idle : Bool) (sc : Scope)
  | aalc (h : Hdr) (d : Dst) (a : Src)
  | afre (h : Hdr) (a : Src)
  | mlds (h : Hdr) (pool : Bool) (a b c : Src)
  | mswp (h : Hdr) (a : Src)
  | mstr (h : Hdr) (m : MtxMod) (ty : Ty) (a b c : Src)
  | mlp (h : Hdr) (m : MtxMod) (ty : Ty) (a b : Src)
  | macr (h : Hdr) (ty : Ty) (d : Dst) (a b : Src) (c : Option Src)
  | macw (h : Hdr) (a b c : Src)
  | mzro (h : Hdr) (a b : Src)
  | shp (h : Hdr) (h32 : BitVec 5) (a b : Src)
  | cpy (h : Hdr) (h32 : BitVec 5) (a b c : Src)
  | cpx (h : Hdr) (h32 : BitVec 5) (a b c : Src)
  | cpc (h : Hdr) (h32 : BitVec 5) (d : Dst) (a b : Src)
  | cpq (h : Hdr) (h32 : BitVec 5) (d : Dst)
  | algl (h : Hdr) (t : BitVec 3) (a : Src)
  | algq (h : Hdr) (t : BitVec 3) (d : Dst) (a : Src)
  | cmpl (h : Hdr) (t : BitVec 3) (a : Src)
  | rgi (h : Hdr) (d : Dst) (a b : Src)
  | rgr (h : Hdr) (a : Src)
  | tlbi (h : Hdr) (a : Option Src)
  | bnew (h : Hdr) (kd : Kind) (d : Dst) (a : Src)
  | bres (h : Hdr) (kd : Option Kind) (d : Dst) (a c : Src)
  | bcas (h : Hdr) (d : Dst) (a b c : Src)
  | bkil (h : Hdr) (a : Src)
  | bshd (h : Hdr)
  | bref (h : Hdr) (a : Src)
  | bdrp (h : Hdr) (a : Src)
  | rnd (h : Hdr) (sr : BitVec 6) (d : Dst) (a : Src)
  | rndu (h : Hdr) (sr : BitVec 6) (d : Dst) (a : Src)
  | rsal (h : Hdr) (sr : BitVec 6) (a : Src)
  | rsfr (h : Hdr) (sr : BitVec 6)
  | pcr (h : Hdr) (d : Dst) (a : Src)
  | lgm (h : Hdr) (a : Src)
  | trt (h : Hdr)
  | icinv (h : Hdr) (a b : Src)
  | sysr (h : Hdr) (d : Dst) (a : Src)
  | sysw (h : Hdr) (a b : Src)
  | lnch (h : Hdr) (d : Dst) (a b : Src)
  | hlt (h : Hdr)
  | faultHeldWritten (die : Nat)
  | fbrelRetry (die : Nat) (index : BitVec 10)
  | fbrelSkip (die : Nat) (index : BitVec 10)
  | fbrelKill (die : Nat) (index : BitVec 10)
  | fbtailWrite (die : Nat) (x : Word)
  | shctlThaw (ctx : Nat)
  | shctlDestroy (ctx : Nat)
  | shepherdWindow (ctx : Nat)
  | registerWrite (r : RegAt) (x : Dword)
  | islfreq (die : Nat) (x : Word)
  | frequencySettled (island : Nat)
  | packagePowerLimit (mhz : Nat)
  | templimExceeded (die mhz : Nat)
  | csctlStop (die ctx : Nat)
  | contextStopped (ctx : Nat)
  | csctlSave (die ctx : Nat)
  | contextSeal (ctx : Nat)
  | contextImageWrite (die ctx : Nat)
  | csctlRestore (die ctx : Nat)
  | csctlResume (die ctx : Nat)
  | csctlDestroy (die ctx : Nat)
  | contextCreate (rec : Nat)
  | queueCreate (ctx base m prio : Nat)
  | doorbell (q : Nat) (va : Dword)
  | doorbellHeldTaken (q : Nat)
  | launch (q : Nat)
  | replace (q : Nat)
  | unload (q : Nat)
  | mark (q : Nat)
  | waitm (q : Nat)
  | waitmComplete (q : Nat)
  | phase (q : Nat)
  | launchComplete (lid : Nat)
  | letterboxGrid (lb : Nat) (x : Dword)
  | letterboxGridHeld (lb : Nat)
  | walkerLetterbox (lb : Nat) (x : Dword)
  | teamPlace (lid : Nat)
  | starvationPreempt (lid : Nat)
  | teamResume (tid core : Nat)
  | compactorMove (tid gix octet slice : Nat)
  | widthRoomFreed (tid gix : Nat)
  | issueAgeLimit (tid gix : Nat)
  | holdChainLimit (tid gix : Nat)
  | laneExitComplete (tid gix lane : Nat)
  | teamRetire (tid : Nat)
  | loadDataArrival (id : Nat)
  | operatorReturn (id : Nat)
  | storePerformedAtHome (id : Nat)
  | dirtyLogTailAdvance (ctx : Nat) (x : Word)
  | entryArrival (id : Nat)
  | entryRewrite (dw pos : Nat) (rw : Rewrite)
  | entryRetire (dw : Nat)
  | retirementBound (dw pos : Nat)
  | walkerRecord (agent : Nat)
  | copySectorArrival (id sector : Nat)
  | copyComplete (id : Nat)
  | cpxTileArrival (src : TileSrc)
  | cpxComplete (id : Nat)
  | claimGrant (tid gix : Nat)
  | courierScheduleStep (port : Nat)
  | matrixGrant (quad idx : Nat)
  | matrixComplete (quad idx : Nat)
  | aalcBanksFree (quad : Nat)
  | wflTest (tid gix : Nat)
  | phaseEndSweep (ctx : Nat)
  | idleWireWait (ctx : Nat)
  | brandResolve (core : Nat) (b : Brand)
  | uncorrectableError (loc : ErrAt)
  | replayHeldRelease (ctx : Nat)
  | flitCrcFail (port seq : Nat)
  | fabricLinkDown (port : Nat)
  | ucieFlitCrcFail (m seq : Nat)
  | ucieModuleDown (m : Nat)
  | hostWrite (gpa : Nat) (bytes : List Byte)
  | routingTableWrite (w : RouteWrite)
  | reductionWindowProgram (lo hi : Nat)
  | brandTableBaseSet (base : Nat)
  | courierFirmwareLoad (port : Nat) (img : List Byte)
  | attestationReport (nonce : List Byte)
  | coldReset
  | nonInstructionEncoding (why : NotInstr)
  | ucieLinkReturn (m : Nat)
  | hostDieFirmwareLoad (img : List Byte)
  | hostBrandMint (ctx : Nat) (kd : Kind) (payload : Brand)
  deriving DecidableEq, Repr

end Sys2Proof
end

