-- ==== Sys2Proof/Machine/State.lean ====
section
/-! DEFINITION. The whole state of one KX-8 package as plain data, and the state after cold reset. -/

namespace Sys2Proof.Machine

/-- A short id of a fault code of Table 7-3. -/
abbrev FCode := Nat

/-- What a fault entry or a handler entry reports beside its code (Tables 7-4 and 12-7). -/
structure Flt where
  code : FCode
  alt : Bool
  remote : Bool
  num : Nat
  addr : Dword
  deriving DecidableEq, Repr

/-- The load whose data a latch awaits: the access and the word of it (R220). -/
structure Await where
  acc : Nat
  word : Nat
  deriving DecidableEq, Repr

/-- A bypass latch (R63). -/
structure Latch where
  val : Word
  valid : Bool
  src : Option Await
  deriving DecidableEq, Repr

/-- A fault waiting to be written, or written (Table 12-7); `tid` and `gix` name the group whose lanes it carries. -/
structure FEntry where
  ctx : Nat
  core : Nat
  slot : Nat
  flt : Flt
  halt : Bool
  nested : Bool
  kill : Bool
  lanes : Dword
  pc : Dword
  who : Option (Nat × Nat)
  serial : Nat
  deriving DecidableEq, Repr

/-- Memory as it stood when a command was issued or fetches were ordered, but for the doublewords at which entries were waiting then: what is read of
those is as memory stands (R304, R314, R322, R415). -/
structure Snap where
  mem : Cells 8
  skip : List Nat
  deriving DecidableEq, Repr

/-- Why a lane is parked (R21). `succ` and `resume` are the PCs that a release gives; `buffer` waits on the entry written at an index of a die's buffer
(R292), `heldFault` on an entry not written yet (R291). -/
inductive Park where
  | join (m : Nat) (succ : Dword)
  | sector (tid sec : Nat)
  | buffer (die index : Nat) (e : FEntry) (resume succ : Dword)
  | heldFault (e : FEntry) (resume succ : Dword)
  | dirtyLog
  | exiting
  | barrier (b : Nat) (phase : BitVec 16) (succ : Dword)
  | counter (c : Ctr) (n : Nat) (succ : Dword)
  | word (succ : Dword)
  | phase (pod : Bool) (succ : Dword)
  deriving DecidableEq, Repr

/-- The states of Table 2-2. -/
inductive LaneSt where
  | active
  | parked (why : Park)
  | exited
  | never
  deriving DecidableEq, Repr

/-- One logical lane (R18, R21, R23, R63, R64, R183). `lastHold` is the HOLD bit of the last instruction it issued;
`retry` says the next issue keeps the latches; `held` is trap-held, and `woke` says the kept reason was satisfied
meanwhile (true: latches kept for a retry); `halted` marks a lane of a halted group (R191). -/
structure Lane where
  st : LaneSt
  pc : Dword
  v : Cells 32
  p : BitVec 7
  latches : List Latch
  saved : List Latch
  lastHold : Bool
  retry : Bool
  held : Bool
  woke : Option Bool
  halted : Bool
  deriving DecidableEq, Repr

/-- A wait of a group at issue that an event of the table ends (R29, R246, R328): with the lanes that wait, their
successor and the HOLD bit of the word. -/
inductive Wait where
  | banks (n : Nat) (d : Dst) (lanes : List Nat) (next : Dword) (hold : Bool)
  | width (d : Nat) (req : Nat)
  | claim (brand : Brand) (n : Nat) (d : Dst) (lanes : List Nat) (next : Dword) (hold : Bool)
  deriving DecidableEq, Repr

/-- One `wfl` in progress (R382); `probe` is the access of a test that has not been answered. -/
structure Wfl where
  lanes : List Nat
  va : Dword
  gpa : Nat
  alg : Nat
  cond : WflCond
  v : Word
  d : Dst
  succ : Dword
  probe : Option Nat
  deriving DecidableEq, Repr

/-- The last copy command of a group per destination slot, as `cpq` reports it (R338). -/
structure Last where
  slot : Nat
  id : Nat
  done : Nat
  complete : Bool
  deriving DecidableEq, Repr

/-- A `cmpl` that waits (R350): its lanes, and the matrix requests that were under way when it was issued. -/
structure Behind where
  lanes : List Nat
  owed : List Nat
  deriving DecidableEq, Repr

/-- Bytes that were overwritten in a scratchpad or a pool: where, what they were, and the lane of the same group that
stored (64: a lane of another group, or an engine). What an engine's port may still see (R241, R242, R271). -/
structure Stale where
  pool : Bool
  addr : Nat
  olds : List Byte
  lane : Nat
  deriving DecidableEq, Repr

/-- Where the registers of an octet lie (R25, R50): a slice, and the first register per lane of its range there. -/
structure Oct where
  slice : Nat
  base : Nat
  deriving DecidableEq, Repr

/-- One group (R16 to R31, R89, R183, R374, R387). `slotNo` is its group slot on the core; `octets` the range of each
octet; `wait` a wait at issue; `chain` the length of its HOLD chain and `tip` the lanes that issued its last instruction; `yieldTo` the groups that go first after a yield; `seen` the stores
still in the store path that each lane has read (R268); `behind` what a `cmpl` waits for (R350); `ahead` memory as it stood when the group
last ordered its fetches, which may be made ahead of issue (R415; none: as memory stands). `tpend` is the PC that TPC stands for where the
slot is not known yet (R67). -/
structure Group where
  gix : Nat
  role : Nat
  budget : Nat
  grant : Nat
  grch : Bool
  slotNo : Nat
  octets : List Oct
  lanes : List Lane
  k : Cells 32
  j : Cells 64
  fpst : BitVec 5
  cc : Nat
  mc : Nat
  oc : Nat
  handler : Bool
  tcause : Word
  tmask : Dword
  tpc : Dword
  tpend : Option Dword
  tword : Code
  taddr : Dword
  tscr : Cells 32
  gissue : Dword
  gwait : Dword
  gpass : Dword
  gpark : Dword
  wait : Option Wait
  chain : Nat
  tip : List Nat
  yieldTo : List (Nat × Nat)
  wfls : List Wfl
  last : List Last
  stale : List Stale
  seen : List (Nat × Nat)
  behind : Option Behind
  ahead : Option Snap
  deriving DecidableEq, Repr

/-- A tag entry: valid, lock and bits 55:9 of the address (R214). -/
structure Tag where
  slot : Nat
  lock : Bool
  line : Nat
  deriving DecidableEq, Repr

/-- A weight binding (R233, R248), with what its bytes were since it was made (R242). -/
structure Binding where
  pool : Bool
  off : Nat
  fw : Word
  hist : List Stale
  deriving DecidableEq, Repr

/-- An accumulator allocation (R233). `words` holds the word of row r, column c at 64 r + c. -/
structure Alloc where
  tag : Nat
  first : Nat
  banks : List Nat
  active : Option Binding
  shadow : Option Binding
  words : Cells 32
  deriving DecidableEq, Repr

/-- A claim on a collective group (R328, R337): its count, channels and staging, and the members when granted. -/
structure Claim where
  brand : Brand
  count : Nat
  n : Nat
  ports : List Nat
  members : List Nat
  deriving DecidableEq, Repr

/-- The life of a team. -/
inductive TeamSt where
  | waiting      -- placed, waiting for its co-resident grid (R45)
  | resident
  | saved        -- pre-empted, in the sorter (R46)
  deriving DecidableEq, Repr

/-- One team (R17, R18, R40, R209, R211 to R214, R233, R316, R376). `pin` is the cluster in which a restored team must be placed (R403).
`placed` tells the teams placed earlier from those placed later (R289).
`flaw` says that a peer's read of its scratchpad may meet an uncorrectable error (R208). `spadLines` lines of scratchpad are its allocation, from line `spadBase` of its core on (R50). -/
structure Team where
  tid : Nat
  lid : Nat
  t : Nat
  core : Nat
  lcore : Nat
  ctx : Nat
  prio : Nat
  st : TeamSt
  kills : Nat
  placed : Nat
  pin : Option Nat
  ngroups : Nat
  spadLines : Nat
  spadBase : Nat
  spad : Cells 8
  flaw : Bool
  absent : List Nat
  tags : List Tag
  ptrs : Cells 3
  bars : Cells 64
  shapes : Cells 8
  allocSerial : BitVec 8
  allocs : List Alloc
  claims : List Claim
  groups : List Group
  deriving DecidableEq, Repr

/-- A packet as appended (Tables 12-2 to 12-4). -/
structure Packet where
  kind : Nat
  cores : Bool
  det : Bool
  split : Bool
  after : Bool
  brand : Brand
  arg : Dword
  nx : Nat
  ny : Nat
  nz : Nat
  width : Nat
  groups : Nat
  consumers : Nat
  lanes : Nat
  spadLines : Nat
  pool : Nat
  payload : Brand
  compl : Dword
  deriving DecidableEq, Repr

/-- What a kernel record gives a launch (Table 15-8). -/
structure Kernel where
  entry : Dword
  width : Nat
  idem : Bool
  split : Bool
  budgetA : Nat
  budgetB : Nat
  mmrev : Nat
  deriving DecidableEq, Repr

/-- One launch (R283, R288). `next` is the least team that has not been placed, `ahead` those above it that have been (R44), `again` the teams to place afresh with their kill
counts and the core they leave (R209), `live` how many of its teams have not retired, `seq` its packet's place in its queue, `die` the die of the letterbox
whose sorter holds it (R285), and `killed` the code of the first kill through a fault buffer (R278). -/
structure Launch where
  lid : Nat
  ctx : Nat
  queue : Option Nat
  pkt : Packet
  kern : Kernel
  prio : Nat
  next : Nat
  ahead : List Nat
  again : List (Nat × Nat × Nat)
  live : Nat
  status : Nat
  seq : Nat
  die : Option Nat
  killed : Option Nat
  deriving DecidableEq, Repr

/-- A cluster-pool allocation of a grid (R215). -/
structure Pool where
  lid : Nat
  cluster : Nat
  bytes : Nat
  data : Cells 8
  bad : List Nat
  deriving DecidableEq, Repr

/-- A packet dispatched and not complete: its position in the ring and its completion address. -/
structure Flight where
  seq : Nat
  compl : Dword
  deriving DecidableEq, Repr

/-- A host command queue (R277, R282, R287). `rd` and `wr` count the packets dispatched and appended; `age` is w of R287 at the last decision,
`ripe` whether the head was eligible then; `refs` are the code objects it holds a reference on (R414). -/
structure Queue where
  q : Nat
  brand : Brand
  ctx : Nat
  base : Nat
  m : Nat
  prio : Nat
  mark : Dword
  rd : Nat
  wr : Nat
  age : Nat
  ripe : Bool
  refs : List Brand
  flights : List Flight
  waiting : Option (Brand × Dword)
  held : List Dword
  deriving DecidableEq, Repr

/-- A letterbox page (R284 to R286). `held` are the stores that wait: the register's offset and the value.
DESIGN CHOICE (log 9; unsafe). -/
structure Letterbox where
  lb : Nat
  ctx : Nat
  prio : Nat
  walker : Bool
  die : Nat
  width : Nat
  groups : Nat
  consumers : Nat
  lanes : Nat
  spadLines : Nat
  pool : Nat
  flags : BitVec 8
  compl : Dword
  brandLo : Dword
  brandHi : Dword
  arg : Dword
  taken : Word
  reject : Word
  held : List (Nat × Dword)
  deriving DecidableEq, Repr

/-- A stream register (R153): `on` is its allocated bit; one that is not allocated keeps its brand and key. -/
structure Stream where
  n : Nat
  on : Bool
  brand : Brand
  keyLo : Word
  keyHi : Word
  deriving DecidableEq, Repr

/-- What set a range-table entry: `rgi`, the source box of a `cpx`, or a tile that is arriving (R327, R351). -/
inductive RangeOwner where
  | rgi
  | source (id : Nat)
  | tile (id : Nat)
  deriving DecidableEq, Repr

/-- A range-table entry (R327, R351). -/
structure Range where
  die : Nat
  index : Nat
  base : Nat
  len : Nat
  owner : RangeOwner
  deriving DecidableEq, Repr

/-- A request for a phase end in progress (R384 to R386): of a lane group's `phs`, or of a queue's packet. -/
inductive PhaseReq where
  | lanes (tid gix : Nat) (pod idle : Bool)
  | packet (q seq : Nat) (pod : Bool)
  deriving DecidableEq, Repr

/-- The nodes of a chip that send and receive messages (R383). -/
inductive Node where
  | core (n : Nat)
  | copyUnit (core : Nat)
  | engine (quad : Nat)
  | agent (n : Nat)
  | courier (port : Nat)
  | host
  deriving DecidableEq, Repr

/-- The sent and received counters of a node for one context (R383). -/
structure Traffic where
  node : Node
  sent : Dword
  received : Dword
  deriving DecidableEq, Repr

/-- The STATE of CSSTAT (R399). -/
inductive CtxSt where
  | running | stopping | stopped | sealed | saved | restoring | logFull | replayEnded
  deriving DecidableEq, Repr

/-- One context (Table 21-1, Tables 7-5, 15-1, 18-1). The algebra tables hold their 256 bytes, the companding tables
their 17 pairs; a table that is not listed holds its creation value. -/
structure Context where
  ctx : Nat
  record : Nat
  ptroot : Nat
  dlbase : Nat
  dln : Nat
  dlhead : Word
  dltail : Word
  priv : Bool
  fixed : Bool
  log : Bool
  replay : Bool
  nlcore : Nat
  lmap : List Nat
  pmbase : Nat
  pmlen : Nat
  pmpos : Nat
  nrank : Nat × Nat × Nat
  rankTable : List (Nat × Nat)
  blist : Nat
  bcap : Nat
  bcount : Nat
  bovf : Bool
  thnd : Dword
  ten : Word
  fence : Bool
  alg : List (Nat × List Byte)
  cmp : List (Nat × List (Word × Word))
  streams : List Stream
  ranges : List Range
  st : CtxSt
  frozen : Bool
  saving : Option Nat
  progress : Nat
  traffic : List Traffic
  phases : List PhaseReq
  replayPos : List Nat
  heldEvents : List (Nat × Instr)
  deriving DecidableEq, Repr

/-- The space an access is made in, with its place there: a global physical address, a byte of a team's scratchpad, a
byte of a pool, an accumulator word, or a device register. -/
inductive Place where
  | mem (gpa : Nat)
  | spad (tid off : Nat)
  | pool (lid cluster off : Nat)
  | acc (tid tag word : Nat)
  deriving DecidableEq, Repr

/-- What an access does. -/
inductive AccKind where
  | load
  | store
  | post (op : Opr)
  | fetch (op : Opr)
  | tx (handle : Word)
  deriving DecidableEq, Repr

/-- How a returned value becomes the words of a destination: extended, or scaled as `macr` does (R251);
`probe` marks a test of `wfl`, which has no destination (R382). -/
inductive Shape where
  | plain
  | signed
  | probe
  | scale (ty : Ty) (s : Word)
  deriving DecidableEq, Repr

/-- One outstanding access of a lane (R257 to R263); `also` are the other lanes of its instruction that read the same word
(R221, R222). `arrived` says it has been appended to a pigeonhole; `val` holds a returned value that has not reached the
lane. `cls` is the class of its page (R203); `party` names the group in a postmark (R405). `path` orders the stores that have entered the core's
store path (R258), `left` says that an access to another chip has left its port, and `fixedAt` orders a load among the stores of its group where a
later load of the lane has its value (R265). `cover` holds what the stores of the path write over a load that waits in a pigeonhole: an address and its
bytes, in their order (R258). A load of part of a word reads the whole word: `picks` gives the lanes' first bytes in it, `each` how many
each lane takes (R221). -/
structure Acc where
  id : Nat
  instr : Nat
  core : Nat
  tid : Nat
  gix : Nat
  lane : Nat
  also : List Nat
  ctx : Nat
  kind : AccKind
  place : Place
  va : Dword
  size : Nat
  data : List Byte
  cmp : Word
  alg : Nat
  cls : Nat
  colour : Nat
  d : Dst
  shape : Shape
  party : Nat
  arrived : Bool
  val : Option (List Byte)
  path : Option Nat
  left : Bool
  fixedAt : Option Nat
  picks : List (Nat × Nat)
  each : Nat
  cover : List (Nat × List Byte)
  deriving DecidableEq, Repr

/-- One waiting operator at a pigeonhole (R295). `lanes` are those it is of; `fetching` marks one of `opf` or `ocas`, whether or not a lane still awaits it. -/
structure Entry where
  op : Opr
  gpa : Nat
  size : Nat
  data : List Byte
  cmp : Word
  table : Option (Nat × Nat)
  lanes : List (Nat × Nat × Nat)
  acc : Option Nat
  fetching : Bool
  va : Dword
  ctx : Nat
  deriving DecidableEq, Repr

/-- The pigeonhole of a doubleword (R294). -/
structure Hole where
  dw : Nat
  entries : List Entry
  deriving DecidableEq, Repr

/-- A recorded row of a transactional group: its number and the bytes recorded (R310). -/
structure TxRow where
  row : Nat
  bytes : List (Nat × Byte)
  deriving DecidableEq, Repr

/-- A transactional group (R309, R310). -/
structure Tx where
  slot : Nat
  serial : BitVec 16
  tid : Nat
  aborted : Bool
  rows : List TxRow
  deriving DecidableEq, Repr

/-- A lookup record waiting for a walker (R313, R315, R286). `snap` is memory when it was posted: what the walker reads
may still be old (R314). -/
structure Lookup where
  va : Dword
  ctx : Nat
  tid : Option Nat
  snap : Snap
  deriving DecidableEq, Repr

/-- One memory agent (R294, R309, R313). The pigeonholes stand in least-recently-used order. `buffer` names the
2 KiB granules that its buffer holds for `prf`, the latest first (R9, R223). -/
structure Agent where
  buffer : List Nat
  holes : List Hole
  txs : List Tx
  serial : BitVec 16
  walker : List Lookup
  deriving DecidableEq, Repr

/-- One pass of a matrix request: the rows it writes, its activations, its modes and the binding it streams against (R239, R243). -/
structure Pass where
  tag : Nat
  row : Nat
  pool : Bool
  off : Nat
  m : Nat
  kk : Nat
  ty : Ty
  ovw : Bool
  split : Bool
  weights : Binding
  deriving DecidableEq, Repr

inductive ReqKind where
  | bind
  | pass
  | zero
  deriving DecidableEq, Repr

/-- One write of a granted request: the word's allocation and index, its content before and after. -/
structure MWrite where
  tag : Nat
  idx : Nat
  old : Word
  new : Word
  deriving DecidableEq, Repr

/-- A request in a quad's reservation table (R239). `hist` is what its operand bytes were since its issue (R242); `grant`
numbers the grants in their order. -/
structure MReq where
  id : Nat
  tid : Nat
  gix : Nat
  prio : Nat
  kind : ReqKind
  tag : Nat
  passes : List Pass
  zrow : Nat
  zcount : Nat
  grant : Option Nat
  hist : List Stale
  writes : List MWrite
  deriving DecidableEq, Repr

/-- A group waiting for banks, in arrival order (R246). -/
structure BankWait where
  tid : Nat
  gix : Nat
  deriving DecidableEq, Repr

/-- One matrix engine (R232, R233, R239). -/
structure Quad where
  owner : List (Nat × Nat)
  reqs : List MReq
  waits : List BankWait
  deriving DecidableEq, Repr

/-- A translation found: the leaf, its page size in bits and where the entry stands. -/
structure Leaf where
  e : Dword
  bits : Nat
  ptr : Nat
  deriving DecidableEq, Repr

/-- One piece of a copy, an element or the half of an 8-byte one: where it is written and read (none: out of bounds, the
pad bytes), the unit in which it arrives, a sector of scratchpad or a word elsewhere, the source element it belongs to (R323), for a virtual
destination its address and page, and the class of its source's page (R203). -/
structure Piece where
  dst : Place
  src : Option Place
  pad : List Byte
  unit : Nat
  el : Nat
  page : Option (Dword × Leaf)
  cls : Nat
  done : Bool
  deriving DecidableEq, Repr

/-- A copy command in flight (R316, R320 to R327). `slot` is its destination slot; `hist` and `snap` say what its source
bytes may still be: in the scratchpad or the pool for its port (R271, R322), and in memory as it stood at issue (R322); `got` are the words that elements
narrower than a word have been read from. For a
`cpx` the pieces are the elements in destination order and `data` what was read (none: poisoned); `targets` are the ranks
that have not acknowledged; `remote` says it holds a place in its claim's staging. -/
structure Copy where
  id : Nat
  core : Nat
  tid : Nat
  gix : Nat
  ctx : Nat
  cpx : Bool
  srcRec : List Byte
  dstRec : List Byte
  ts : Nat
  td : Nat
  pieces : List Piece
  hist : List Stale
  snap : Snap
  got : List (Place × List Byte)
  data : Option (List (Option (List Byte)))
  targets : List Nat
  slot : Nat
  status : Nat
  remote : Bool
  deriving DecidableEq, Repr

/-- A tile at a rank of this chip (R325 to R327): of a `cpx` of this chip, for one of its ranks, or of another chip's. `begun` says that its first byte has
arrived, `landed` which of its words have, `bad` that one of them met poison. Until it has begun it waits in its sender's staging (R330). -/
structure Tile where
  id : Nat
  own : Option (Nat × Nat)
  ctx : Nat
  shape : List Byte
  td : Nat
  sender : Nat
  data : List (Option (List Byte))
  begun : Bool
  landed : List Nat
  bad : Bool
  deriving DecidableEq, Repr

/-- A cached translation: the leaf entry and the page it maps (R197). -/
structure TlbEntry where
  ctx : Nat
  page : Nat
  bits : Nat
  leaf : Dword
  ptr : Nat
  deriving DecidableEq, Repr

/-- A cached code line (R189). -/
structure ILine where
  ctx : Nat
  va : Nat
  bits : BitVec 1024
  deriving DecidableEq, Repr

/-- A brand record (Table 15-7). -/
structure BRec where
  seq : Nat
  kind : Nat
  st : Nat
  origin : Nat
  refs : Nat
  version : Word
  payload : Brand
  deriving DecidableEq, Repr

/-- A cached brand with the record it resolved to (R359). -/
structure BCache where
  brand : Brand
  got : BRec
  deriving DecidableEq, Repr

/-- One core: its counters and caches (R114, R189, R197, R359, R387). The counters stand as they were last sampled. -/
structure CoreSt where
  cycle : Dword
  issue : Dword
  tlb : List TlbEntry
  ilines : List ILine
  brands : List BCache
  deriving DecidableEq, Repr

/-- One island (R7, R8, R423). -/
structure Island where
  freq : Nat
  current : Nat
  settling : Bool
  cap : Nat
  deriving DecidableEq, Repr

/-- A written entry still named by FBREL (R292). -/
structure Written where
  index : Nat
  entry : FEntry
  deriving DecidableEq, Repr

/-- One die (Tables 12-8, 12-9, 18-4, 21-2, 22-4). `written` holds the latest entry of each index, `msix` counts the raises of its
vector (R11), `msixDue` those that wait for the link (R418). -/
structure Die where
  fbbase : Nat
  fbhead : Nat
  fbtail : Nat
  fbovf : Word
  ovf : Bool
  shwin : Nat
  heldFaults : List FEntry
  written : List Written
  msix : Nat
  msixDue : Nat
  islsel : Nat
  templim : Word
  csimg : Dword
  cslen : Word
  csrec : Word
  cserr : Nat
  csctx : Nat
  cecc : Dword
  tlb : List TlbEntry
  deriving DecidableEq, Repr

/-- What a flit's header names: its number, the number of the flit last taken, and its virtual class (R331, R417). -/
structure Flit where
  seq : Nat
  ack : Nat
  cls : Nat
  deriving DecidableEq, Repr

/-- One end of a link of flits (R331, R418): the number of the next flit to send and of the next to take, the flits sent that the peer has not
acknowledged, and how many were sent again. -/
structure FlitLink where
  seq : Nat
  taken : Nat
  replay : List Flit
  resent : Nat
  deriving DecidableEq, Repr

/-- A tile for a chip that is not a neighbour, in a port's forwarding buffer (R332): its channel, its chip and its bytes. -/
structure Forward where
  channel : Nat
  chip : Nat
  bytes : Nat
  deriving DecidableEq, Repr

/-- One fabric port with its courier (R328 to R332, R387). -/
structure Port where
  up : Bool
  late : Dword
  undeliv : Dword
  channels : Nat
  staging : Nat
  firmware : Option (List Byte)
  valid : Bool
  flits : FlitLink
  steps : List Nat
  forwards : List Forward
  deriving DecidableEq, Repr

/-- One UCIe module (R417, R418): as a port, with the end at the host die, `flits`, and the end at the compute dies. -/
structure Ucie where
  up : Bool
  flits : FlitLink
  far : FlitLink
  deriving DecidableEq, Repr

/-- A reduction window (R333): global physical addresses from `lo` to `hi`. -/
structure Window where
  lo : Nat
  hi : Nat
  deriving DecidableEq, Repr

/-- The chip's identity key (R419, R421): the 16-byte identifier and the 32-byte seed of its top tree, which are secret, and for each of its one or two levels the
codes of the tree and of its one-time signatures.
DESIGN CHOICE (log 25; unsafe). -/
structure Identity where
  id : List Byte
  seed : List Byte
  levels : List (Nat × Nat)
  deriving DecidableEq, Repr

/-- What the image of a context saves, beside its bytes, which are found by their digest (R401, R402). Its names lie below `top`. -/
structure Image where
  digest : List Byte
  c : Context
  teams : List Team
  launches : List Launch
  queues : List Queue
  pools : List Pool
  records : List (Brand × BRec)
  copies : List Copy
  txs : List (Nat × Tx)
  faults : List FEntry
  top : Nat
  deriving DecidableEq, Repr

/-- An attestation report that left the chip (R421). -/
structure Report where
  nonce : List Byte
  serial : BitVec 48
  boot : BitVec 24
  hostDigest : List Byte
  courierDigests : List (List Byte)
  leaf : Nat
  signer : Identity
  signature : List Byte
  deriving DecidableEq, Repr

/-- A trap of word A that is entered after word B (R180): the fault, its lanes, the PC and the word. -/
structure Trap where
  flt : Flt
  lanes : List Nat
  pc : Dword
  next : Dword
  word : Code
  deriving DecidableEq, Repr

/-- The issue cycle of a core that the last slot used (R32 to R35): the kernel and the PC of word A and, where word B is in use, of word B; the groups that
have issued in it and the slices of their octets; the lanes of the last of them that have issued; and the passes that it has taken. A kernel is named by its
context and its brand. -/
structure Cycle where
  core : Nat
  a : (Nat × Brand) × Dword
  b : Option ((Nat × Brand) × Dword)
  groups : List (Nat × Nat)
  slices : List Nat
  lanes : List Nat
  passes : Nat
  deriving DecidableEq, Repr

/-- The issue slot in progress (R32, R33): the word, the lanes that issue it, the sequential successor, the lanes as
they stood before the slot (R161), word B still to come, whether this is word B, and a trap of word A. Accesses whose names are not below
`born` were made in the slot. -/
structure Slot where
  tid : Nat
  gix : Nat
  pc : Dword
  word : Code
  lanes : List Nat
  next : Dword
  pre : List Lane
  other : Option (Dword × List Nat)
  second : Bool
  trap : Option Trap
  aFault : Bool
  born : Nat
  deriving DecidableEq, Repr

/-- A change of a brand's record that its group has made and not yet completed: until every brand cache has dropped the record, a resolve may meet it (R366). -/
structure Change where
  brand : Brand
  old : BRec
  tid : Nat
  gix : Nat
  deriving DecidableEq, Repr

/-- The state of the package. `setup` says which items of step 7 of bring-up the host has done (R422); `pasts` what the records of brands were before
their last change (R366); `linkHeld` and `hostHeld` the acts of the host that wait, for the link (R418) or for their own effect (R206, R407), and `due` what a store to a device register
has begun (R203); `otpKey` is the
digest of the key that firmware is verified against, `idKey` the chip's own (R420, R421). The fields from `events` on are the model's own; `blocked`
marks an effect that needs an arrival out of its place in a log, and `unforeseen` the context whose log names no such arrival (R407). -/
structure State where
  chip : Nat
  mem : Cells 8
  poison : List Nat
  serial : BitVec 48
  boot : BitVec 24
  brandSeq : Nat
  brandBase : Option Nat
  brands : List (Nat × BRec)
  origins : List (BitVec 48 × BitVec 24)
  routes : List (Nat × Route)
  homes : List (BitVec 48 × BitVec 24 × Nat)
  launchOpen : Bool
  setup : List Nat
  pasts : List Change
  ports : List Port
  stagingFree : Nat
  windows : List Window
  ucies : List Ucie
  linkHeld : List Instr
  hostHeld : List Instr
  due : List Instr
  otpKey : List Byte
  idKey : Identity
  otpLeaf : Nat
  otpLeft : Nat
  hostFw : List Byte
  fwFailures : Nat
  reports : List Report
  islands : List Island
  dies : List Die
  cores : List (Nat × CoreSt)
  quads : List (Nat × Quad)
  agents : List Agent
  ctxs : List Context
  queues : List Queue
  rr : List (Nat × Nat)
  letterboxes : List Letterbox
  launches : List Launch
  pools : List Pool
  teams : List Team
  accs : List Acc
  copies : List Copy
  tiles : List Tile
  images : List Image
  events : List Instr
  slot : Option Slot
  cycle : Option Cycle
  stalled : List (Nat × Nat)
  urgent : Option (Nat × Nat)
  blocked : Bool
  unforeseen : Option Nat
  fresh : Nat
  nextId : Nat
  deriving DecidableEq, Repr

/-- The reasons the model stops with a fault. Faults of the hardware are next states; these are the model's own. -/
inductive Fault where
  /-- Raised by `exec` of an instruction when no group is issuing one. Safe: `step` never does so. -/
  | noIssue
  deriving DecidableEq, Repr

/-- The reasons the model refuses. -/
inductive Refusal where
  /-- Raised by `exec` for an instruction without a meaning. Safe. -/
  | notModelled (mnemonic : String)
  deriving DecidableEq, Repr

/-- An island after the rails come up (R422 step 1).
DESIGN CHOICE (log 5; unsafe). -/
def Island.reset : Island := ⟨400, 400, false, 1050⟩

/-- A die after cold reset (Tables 12-8, 12-9).
DESIGN CHOICE (log 6; unsafe). -/
def Die.reset : Die :=
  { fbbase := 0, fbhead := 0, fbtail := 0, fbovf := 0, ovf := false, shwin := 24, heldFaults := [], written := [], msix := 0, msixDue := 0
    islsel := 0, templim := 0x7FFFFFFF, csimg := 0, cslen := 0, csrec := 0, cserr := 0
    csctx := 0, cecc := 0, tlb := [] }

/-- A link's end after training. -/
def FlitLink.reset : FlitLink := ⟨0, 0, [], 0⟩

/-- A port after cold reset.
DESIGN CHOICE (log 3; unsafe). -/
def Port.reset : Port :=
  { up := true, late := 0, undeliv := 0, channels := 16, staging := 0, firmware := none, valid := false
    flits := FlitLink.reset, steps := [], forwards := [] }

/-- A UCIe module after training (R422 step 3).
DESIGN CHOICE (log 3; unsafe). -/
def Ucie.reset : Ucie := ⟨true, FlitLink.reset, FlitLink.reset⟩

/-- An agent after cold reset.
DESIGN CHOICE (log 7; unsafe). -/
def Agent.reset : Agent := ⟨[], [], [], 0, []⟩

/-- A core after cold reset; cores that are not listed stand so. -/
def CoreSt.reset : CoreSt := ⟨0, 0, [], [], []⟩

/-- An engine after cold reset; engines that are not listed stand so. -/
def Quad.reset : Quad := ⟨[], [], []⟩

/-- The machine right after cold reset, before the host's step 7 of R422: nothing is launched, memory lists nothing.
DESIGN CHOICE (log 1, 2, 3, 4; unsafe); DESIGN CHOICE (log 10; safe). -/
def State.reset : State :=
  { chip := 0, mem := [], poison := [], serial := 1, boot := 1, brandSeq := 1, brandBase := none, brands := [], origins := []
    routes := [(0, .self)], homes := [(1, 1, 0)], launchOpen := false, setup := [], pasts := [], ports := List.replicate 18 Port.reset, stagingFree := 256
    windows := [], ucies := List.replicate 4 Ucie.reset, linkHeld := [], hostHeld := [], due := []
    otpKey := List.replicate 32 0, idKey := ⟨List.replicate 16 0, List.replicate 32 0, [(8, 4)]⟩, otpLeaf := 0, otpLeft := 1048576, hostFw := []
    fwFailures := 0, reports := [], islands := List.replicate 16 Island.reset, dies := List.replicate 8 Die.reset, cores := []
    quads := [], agents := List.replicate 16 Agent.reset, ctxs := [], queues := [], rr := [], letterboxes := [], launches := []
    pools := [], teams := [], accs := [], copies := [], tiles := [], images := [], events := [], slot := none, cycle := none, stalled := [], urgent := none
    blocked := false, unforeseen := none, fresh := 0, nextId := 0 }

end Sys2Proof.Machine
end

