-- ==== Sys2Proof/Machine/Lens.lean ====
section
/-! DEFINITION. Finding and changing one item of the state, free values, memory, messages and the fault buffer. -/

namespace Sys2Proof.Machine

/-- Change every element that a test picks. -/
def modWhere {α : Type} (p : α → Bool) (f : α → α) (l : List α) : List α := l.map fun x => if p x then f x else x

/-- The value of a key in an association list. -/
def lookupKey {α : Type} (n : Nat) (d : α) : List (Nat × α) → α
  | [] => d
  | (k, x) :: rest => if k == n then x else lookupKey n d rest

/-- Set the value of a key, keeping the keys rising. -/
def setKey {α : Type} (n : Nat) (x : α) : List (Nat × α) → List (Nat × α)
  | [] => [(n, x)]
  | (k, y) :: rest => if n < k then (n, x) :: (k, y) :: rest else if n == k then (n, x) :: rest else (k, y) :: setKey n x rest

/-- Insert a number in a rising list without repeats. -/
def insertNat (n : Nat) : List Nat → List Nat
  | [] => [n]
  | k :: rest => if n < k then n :: k :: rest else if n == k then k :: rest else k :: insertNat n rest

/-- Insert an item in a list that rises by a key, before its equals, and sort by a key, keeping the order of equals. -/
def insertBy {α : Type} (key : α → Nat) (x : α) : List α → List α
  | [] => [x]
  | y :: rest => if key x ≤ key y then x :: y :: rest else y :: insertBy key x rest
def sortBy {α : Type} (key : α → Nat) (l : List α) : List α := l.foldr (insertBy key) []

namespace State

def team? (s : State) (tid : Nat) : Option Team := s.teams.find? (·.tid == tid)
def modTeam (s : State) (tid : Nat) (f : Team → Team) : State := { s with teams := modWhere (·.tid == tid) f s.teams }
def group? (s : State) (tid gix : Nat) : Option Group := (s.team? tid).bind fun t => t.groups.find? (·.gix == gix)
def modGroup (s : State) (tid gix : Nat) (f : Group → Group) : State :=
  s.modTeam tid fun t => { t with groups := modWhere (·.gix == gix) f t.groups }
def modLane (s : State) (tid gix lane : Nat) (f : Lane → Lane) : State :=
  s.modGroup tid gix fun g => { g with lanes := g.lanes.modify lane f }
def lane? (s : State) (tid gix lane : Nat) : Option Lane := (s.group? tid gix).bind fun g => g.lanes[lane]?

def ctx? (s : State) (c : Nat) : Option Context := s.ctxs.find? (·.ctx == c)
def modCtx (s : State) (c : Nat) (f : Context → Context) : State := { s with ctxs := modWhere (·.ctx == c) f s.ctxs }
def die? (s : State) (d : Nat) : Option Die := s.dies[d]?
def modDie (s : State) (d : Nat) (f : Die → Die) : State := { s with dies := s.dies.modify d f }
def core (s : State) (n : Nat) : CoreSt := lookupKey n CoreSt.reset s.cores
def modCore (s : State) (n : Nat) (f : CoreSt → CoreSt) : State := { s with cores := setKey n (f (s.core n)) s.cores }
def quad (s : State) (n : Nat) : Quad := lookupKey n Quad.reset s.quads
def modQuad (s : State) (n : Nat) (f : Quad → Quad) : State := { s with quads := setKey n (f (s.quad n)) s.quads }
def agent (s : State) (n : Nat) : Agent := s.agents.getD n Agent.reset
def modAgent (s : State) (n : Nat) (f : Agent → Agent) : State := { s with agents := s.agents.modify n f }
def port? (s : State) (n : Nat) : Option Port := s.ports[n]?
def modPort (s : State) (n : Nat) (f : Port → Port) : State := { s with ports := s.ports.modify n f }
def queue? (s : State) (q : Nat) : Option Queue := s.queues.find? (·.q == q)
def modQueue (s : State) (q : Nat) (f : Queue → Queue) : State := { s with queues := modWhere (·.q == q) f s.queues }
def launch? (s : State) (l : Nat) : Option Launch := s.launches.find? (·.lid == l)
def modLaunch (s : State) (l : Nat) (f : Launch → Launch) : State := { s with launches := modWhere (·.lid == l) f s.launches }
def copy? (s : State) (id : Nat) : Option Copy := s.copies.find? (·.id == id)
def modCopy (s : State) (id : Nat) (f : Copy → Copy) : State := { s with copies := modWhere (·.id == id) f s.copies }
def acc? (s : State) (id : Nat) : Option Acc := s.accs.find? (·.id == id)
def modAcc (s : State) (id : Nat) (f : Acc → Acc) : State := { s with accs := modWhere (·.id == id) f s.accs }
def box? (s : State) (lb : Nat) : Option Letterbox := s.letterboxes.find? (·.lb == lb)
def modBox (s : State) (lb : Nat) (f : Letterbox → Letterbox) : State := { s with letterboxes := modWhere (·.lb == lb) f s.letterboxes }
def pool? (s : State) (lid cl : Nat) : Option Pool := s.pools.find? fun p => p.lid == lid && p.cluster == cl
def modPool (s : State) (lid cl : Nat) (f : Pool → Pool) : State :=
  { s with pools := modWhere (fun p => p.lid == lid && p.cluster == cl) f s.pools }

/-- A fresh name for an access, a command or a fault.
DESIGN CHOICE (log 10; safe). -/
def newId (s : State) : Nat × State := (s.nextId, { s with nextId := s.nextId + 1 })

/-- A fresh free number, free bit, free word.
DESIGN CHOICE (log 14; safe). -/
def freeNat (s : State) : Nat × State := (Config.freeNat s.fresh, { s with fresh := s.fresh + 1 })
/-- DESIGN CHOICE (log 14; safe). -/
def freeBool (s : State) : Bool × State := (Config.freeBool s.fresh, { s with fresh := s.fresh + 1 })
/-- DESIGN CHOICE (log 14; safe). -/
def freeWord (s : State) : Word × State := (Config.freeWord s.fresh, { s with fresh := s.fresh + 1 })
/-- DESIGN CHOICE (log 14; safe). -/
def freeDword (s : State) : Dword × State := (Config.freeDword s.fresh, { s with fresh := s.fresh + 1 })

/-- Free bytes, whole doublewords of them.
DESIGN CHOICE (log 14; safe). -/
def freeBytes (s : State) (n : Nat) : List Byte × State :=
  (List.range (n / 8)).foldl (fun (w : List Byte × State) _ => let (x, s) := freeDword w.2; (w.1 ++ toLe 8 x.toNat, s)) ([], s)

/-- What an event of the table does: its effect, or nothing where the machine's rules give it none in this state: the hardware does not
make that move then.
DESIGN CHOICE (log 12; safe). -/
def occurs (s : State) (o : Option State) : Host.Outcome State Fault Refusal := .next (o.getD s)

end State

/-! ### Numbering (R6, Table 1-2) -/

def dieOf (core : Nat) : Nat := core / 192
def clusterOf (core : Nat) : Nat := core / 48
def quadOf (core : Nat) : Nat := core / 4
def islandOf (core : Nat) : Nat := core / 96

/-- The chip a global physical address names, and its local part (R194). -/
def chipOf (gpa : Nat) : Nat := gpa / 2 ^ 50
def localOf (gpa : Nat) : Nat := gpa % 2 ^ 50
def State.gpaOf (s : State) (loc : Nat) : Nat := s.chip * 2 ^ 50 + loc

/-- The agent that homes an address (R196). -/
def stackOf (gpa : Nat) : Nat := gpa / 2048 % 16

/-- Whether a local address is device DRAM (Table 8-2). -/
def isDram (gpa : Nat) : Bool := localOf gpa < 0xC000000000
/-- Whether a local address is in the device-register range (Table 8-2). -/
def isDevice (gpa : Nat) : Bool := 0x2000000000000 ≤ localOf gpa && localOf gpa < 0x2000100000000

/-- Where the routing table sends a chip (R354).
DESIGN CHOICE (log 3; unsafe). -/
def State.route (s : State) (chip : Nat) : Route := lookupKey chip .none s.routes

/-- Whether any module of the link between the host die and the compute dies is up (R418). -/
def State.linkUp (s : State) : Bool := s.ucies.any (·.up)

/-- Whether a module is the only one that is up. -/
def State.lastModule (s : State) (m : Nat) : Bool := s.linkUp && s.ucies.zipIdx.all fun p => p.1.up == (p.2 == m)

/-- Whether a chip can be reached: itself, or through a port that is up (R354), over the link to the host die, where the ports stand (R418).
DESIGN CHOICE (log 3; unsafe); DEDUCED (log 20; unsafe). -/
def State.reachable (s : State) (chip : Nat) : Bool :=
  match s.route chip with
  | .self => true
  | .port f => ((s.port? f).map (·.up)).getD false && s.linkUp
  | .none => false

/-- Number and keep `k` flits of a class, the numbers modulo `m` where that is not 0. The peer has acknowledged the `acked` oldest, and those that the 512
places of the buffer no longer hold (R331, R418).
DEDUCED (log 57; unsafe). -/
def FlitLink.send (m k cls acked : Nat) (l : FlitLink) : FlitLink :=
  let at' (i : Nat) : Nat := if m == 0 then l.seq + i else (l.seq + i) % m
  let kept := l.replay.drop acked ++ (List.range k).map fun i => ⟨at' i, l.taken, cls⟩
  { l with seq := at' k, replay := kept.drop (kept.length - 512) }

/-- Take `k` flits: each number once (R331). -/
def FlitLink.take (m k : Nat) (l : FlitLink) : FlitLink := { l with taken := if m == 0 then l.taken + k else (l.taken + k) % m }

/-- Take a flit by its number; one that has been taken is discarded (R331, R418). -/
def FlitLink.accept (m : Nat) (l : FlitLink) (n : Nat) : FlitLink := if n == l.taken then l.take m 1 else l

/-- Flits go over a module, to the compute dies or to the host die, under 12-bit numbers (R417); `acked` of those that the sending end keeps have been
acknowledged. -/
def Ucie.carry (down : Bool) (k cls acked : Nat) (u : Ucie) : Ucie :=
  let a := if down then u.flits else u.far
  let b := ((List.range k).map fun i => (a.seq + i) % 4096).foldl (FlitLink.accept 4096) (if down then u.far else u.flits)
  let a := a.send 4096 k cls acked
  { u with flits := if down then a else b, far := if down then b else a }

/-- The flits that some bytes take over a module, 240 bytes of payload each (R417). -/
def ucieFlits (bytes : Nat) : Nat := max 1 ((bytes + 239) / 240)

/-- Some bytes cross the link between the host die and the compute dies by the first module that is up; the flits acknowledged meanwhile are free.
DEDUCED (log 57; safe). -/
def State.crosses (s : State) (down : Bool) (bytes cls : Nat) : State :=
  let i := s.ucies.findIdx (·.up)
  let n := ((s.ucies[i]?).map fun m => (if down then m.flits else m.far).replay.length).getD 0
  let (a, s) := if n == 0 then (0, s) else s.freeNat
  { s with ucies := s.ucies.modify i (Ucie.carry down (ucieFlits bytes) cls (a % (n + 1))) }

/-- Whether a flit is kept; a flit is sent again; the link is lost with the flits it kept. -/
def FlitLink.holds (l : FlitLink) (n : Nat) : Bool := l.replay.any (·.seq == n)
def FlitLink.again (l : FlitLink) : FlitLink := { l with resent := l.resent + 1 }
def FlitLink.lose (l : FlitLink) : FlitLink := { l with replay := [] }

/-- The flits of a packet, 256 bytes each (R331). -/
def flitsOf (bytes : Nat) : Nat := max 1 ((bytes + 255) / 256)

/-- A packet of some bytes leaves for another chip on a virtual class, over the link to the host die, where the ports stand: its port numbers its flits and keeps
them until the peer acknowledges them, which is at a free time (R331, R417).
DEDUCED (log 57; safe). -/
def State.leaves (s : State) (chip bytes cls : Nat) : State :=
  match s.route chip with
  | .port f =>
    match s.port? f with
    | none => s
    | some p =>
      let (a, s) := if p.flits.replay.isEmpty then (0, s) else s.freeNat
      (s.crosses false bytes cls).modPort f fun p => { p with flits := p.flits.send 0 (flitsOf bytes) cls (a % (p.flits.replay.length + 1)) }
  | _ => s

/-- A packet of some bytes comes in from another chip. -/
def State.comes (s : State) (chip bytes : Nat) : State :=
  match s.route chip with
  | .port f => (s.crosses true bytes 0).modPort f fun p => { p with flits := p.flits.take 0 (flitsOf bytes) }
  | _ => s

/-- Whether an address lies on this chip.
DESIGN CHOICE (log 19; unsafe). -/
def State.onChip (s : State) (gpa : Nat) : Bool := chipOf gpa == s.chip

/-! ### Agents' buffers (R193, R203, R223) -/

/-- The granules that an agent's buffer can hold: 4 MiB, less the mebibyte of staging (Table 1-3, R328). -/
def bufferCap : Nat := 1536

/-- An agent's buffer takes a granule of its stack (R193, R223); what is read or written there on a page of class 1 bypasses it (R203).
DESIGN CHOICE (log 67; safe). -/
def State.hold (s : State) (cls gpa : Nat) : State :=
  if cls != 0 || !s.onChip gpa || !isDram gpa then s
  else s.modAgent (stackOf gpa) fun a => { a with buffer := (gpa / 2048 :: a.buffer.filter (· != gpa / 2048)).take bufferCap }

/-! ### Memory -/

/-- `n` bytes of memory.
DESIGN CHOICE (log 1, 19; unsafe). -/
def State.read (s : State) (gpa n : Nat) : List Byte := Cells.bytes s.mem gpa n
/-- A little-endian number of `n` bytes. -/
def State.readNat (s : State) (gpa n : Nat) : Nat := leNat (s.read gpa n)

/-- The 32-bit words that a run of bytes touches, and those it covers wholly. -/
def wordsOf (gpa n : Nat) : List Nat := if n == 0 then [] else (List.range ((gpa + n - 1) / 4 - gpa / 4 + 1)).map (gpa / 4 + ·)
def wholeWords (gpa n : Nat) : List Nat := (wordsOf gpa n).filter fun w => gpa ≤ 4 * w && 4 * w + 4 ≤ gpa + n

/-- Whether a run of bytes meets a poisoned word (R210). -/
def State.poisoned (s : State) (gpa n : Nat) : Bool := (wordsOf gpa n).any fun w => s.poison.contains w

/-- Write bytes; a word wholly written loses its poison (R210). -/
def State.write (s : State) (gpa : Nat) (bs : List Byte) : State :=
  { s with mem := Cells.setBytes s.mem gpa bs, poison := if s.poison.isEmpty then [] else s.poison.filter fun w => !(wholeWords gpa bs.length).contains w }

/-- Memory as it stands, without the doublewords at which entries wait: those are still to be performed on it. -/
def State.asItStands (s : State) : Snap := ⟨s.mem, s.agents.flatMap fun a => a.holes.map (·.dw)⟩

/-- Bytes as they stood in a snapshot. -/
def Snap.bytes (m : Snap) (s : State) (gpa n : Nat) : List Byte :=
  (Cells.bytes m.mem gpa n).zipIdx.map fun p => if m.skip.contains ((gpa + p.2) / 8) then Cells.get s.mem (gpa + p.2) else p.1

/-! ### Bring-up (R422) -/

/-- Whether step 7 is over: every die has its fault buffer (items 0 to 7), the brand table its base (8), the routing table has been written (9), and a courier's
firmware has been loaded (10 and its port).
DEDUCED (log 59; unsafe). -/
def setupOver (l : List Nat) : Bool := (List.range 10).all l.contains && l.any (10 ≤ ·)

/-- Launches are dispatched once the host die runs a firmware that has verified, and step 7 is over.
DEDUCED (log 59; unsafe). -/
def State.opened (s : State) : State := { s with launchOpen := s.launchOpen || (setupOver s.setup && !s.hostFw.isEmpty) }

/-- The host does an item of step 7. -/
def State.didSetup (s : State) (n : Nat) : State := { s with setup := insertNat n s.setup }.opened

/-! ### Messages between nodes (R383) -/

def modTraffic (n : Node) (f : Traffic → Traffic) (l : List Traffic) : List Traffic :=
  if l.any (·.node == n) then modWhere (·.node == n) f l else l ++ [f ⟨n, 0, 0⟩]

/-- A node sends a message for a context. -/
def State.send (s : State) (ctx : Nat) (n : Node) : State :=
  s.modCtx ctx fun c => { c with traffic := modTraffic n (fun t => { t with sent := t.sent + 1 }) c.traffic }
/-- A message is performed at the node that receives it. -/
def State.recv (s : State) (ctx : Nat) (n : Node) : State :=
  s.modCtx ctx fun c => { c with traffic := modTraffic n (fun t => { t with received := t.received + 1 }) c.traffic }
/-- A message from one node to another, sent and performed. -/
def State.pass (s : State) (ctx : Nat) (src dst : Node) : State := (s.send ctx src).recv ctx dst

/-- The node at which an access to memory is performed: an agent, the host interface for a device register, or the port of another chip (R383). -/
def State.nodeAt (s : State) (gpa : Nat) : Node :=
  if !s.onChip gpa then .courier (match s.route (chipOf gpa) with | .port f => f | _ => 0) else if isDevice gpa then .host else .agent (stackOf gpa)

/-- A node has a word read or written where it is homed, which for a page of class 0 the agent's buffer then holds: a request, and for a read a response
(R193, R383). -/
def State.visit (s : State) (ctx : Nat) (n : Node) (cls gpa : Nat) (reads : Bool) : State :=
  let s := (s.hold cls gpa).pass ctx n (s.nodeAt gpa)
  if reads then s.pass ctx (s.nodeAt gpa) n else s

/-- Progress of a partition in the shepherd's window (R293).
DEDUCED (log 54; unsafe). -/
def State.tick (s : State) (ctx : Nat) : State := s.modCtx ctx fun c => { c with progress := c.progress + 1 }

/-! ### Fault codes (Table 7-3) -/

namespace Code

def ill : FCode := 0x01
def btgt : FCode := 0x02
def latch : FCode := 0x03
def fmtdiv : FCode := 0x04
def barcnt : FCode := 0x05
def pgf : FCode := 0x06
def prot : FCode := 0x07
def rngc : FCode := 0x08
def atomio : FCode := 0x09
def bgone : FCode := 0x0A
def align : FCode := 0x0B
def acch : FCode := 0x0C
def stall : FCode := 0x0D
def eccu : FCode := 0x0E
def trap : FCode := 0x0F
def brk : FCode := 0x10
def width : FCode := 0x11
def algv : FCode := 0x12
def replay : FCode := 0x13
def txov : FCode := 0x14
def shape : FCode := 0x15
def qpkt : FCode := 0x16

end Code

namespace Flt

/-- A fault without further report. -/
def mk' (code : FCode) : Flt := ⟨code, false, false, 0, 0⟩
/-- A fault at a virtual address. -/
def at' (code : FCode) (va : Dword) : Flt := ⟨code, false, false, 0, va⟩

end Flt

/-! ### The fault buffer (R290 to R292) -/

/-- The 32 bytes of an entry (Table 12-7) at index `h`. -/
def FEntry.bytes (e : FEntry) (h : Nat) : List Byte :=
  let w0 := (h / 1024 % 2) * 2 ^ 63 + (e.ctx % 2 ^ 15) * 2 ^ 48 + (e.core % 2 ^ 11) * 2 ^ 37 + (e.slot % 64) * 2 ^ 31
    + (if e.flt.alt then 4096 else 0) + (if e.halt then 2048 else 0) + (if e.nested then 1024 else 0)
    + (if e.flt.remote then 512 else 0) + (if e.kill then 256 else 0) + e.flt.code % 256
  let addr : Nat := if e.flt.code == Code.trap || e.flt.code == Code.brk then e.flt.num else e.flt.addr.toNat
  toLe 8 w0 ++ toLe 8 e.lanes.toNat ++ toLe 8 e.pc.toNat ++ toLe 8 addr

/-- How many entries the host has not yet read. -/
def Die.count (d : Die) : Nat := (d.fbhead + 2 ^ 32 - d.fbtail) % 2 ^ 32

/-- Write an entry at the head of a die's ring: memory first, then the head and the MSI-X raise, which crosses the link, or waits for it (R11, R290, R417, R418). -/
def State.writeEntry (s : State) (d : Nat) (e : FEntry) : State :=
  match s.die? d with
  | none => s
  | some die =>
    let i := die.fbhead % 1024
    let s := s.write (s.gpaOf (die.fbbase + 32 * i)) (e.bytes die.fbhead)
    let up := s.linkUp
    let s := if up then s.crosses false 4 0 else s
    s.modDie d fun x =>
      { x with fbhead := (x.fbhead + 1) % 2 ^ 32, msix := if up then x.msix + 1 else x.msix, msixDue := if up then x.msixDue else x.msixDue + 1, written := ⟨i, e⟩ :: x.written.filter (·.index != i) }

/-- Report a fault: written, or held where the buffer is full (R291). -/
def State.report (s : State) (d : Nat) (e : FEntry) : State :=
  match s.die? d with
  | none => s
  | some die =>
    if die.count == 1024 || !die.heldFaults.isEmpty then
      s.modDie d fun x => { x with heldFaults := x.heldFaults ++ [e], ovf := true, fbovf := if x.fbovf == 0xFFFFFFFF then x.fbovf else x.fbovf + 1 }
    else s.writeEntry d e

/-- Where a reported fault's lanes park: at the entry just written, or at the held fault. -/
def State.reportPark (s : State) (d : Nat) (serial : Nat) : Option Nat :=
  match s.die? d with
  | none => none
  | some die => if die.heldFaults.any (·.serial == serial) then none else some ((die.fbhead + 2 ^ 32 - 1) % 2 ^ 32)

/-- The die that holds logical core 0 of a context (R290).
DEDUCED (log 47; unsafe). -/
def State.homeDie (s : State) (ctx : Nat) : Nat := dieOf (((s.ctx? ctx).bind fun c => c.lmap.head?).getD 0)

/-- Report a fault without lanes against a context (R290).
DEDUCED (log 47; unsafe). -/
def State.reportBare (s : State) (ctx : Nat) (f : Flt) (kill : Bool) : State :=
  s.report (s.homeDie ctx) ⟨ctx, 0, 0, f, false, false, kill, 0, 0, none, 0⟩

/-- A mask of lanes. -/
def laneMask (lanes : List Nat) : Dword := lanes.foldl (fun m j => m ||| (1#64 <<< j)) 0

end Sys2Proof.Machine
end

