-- ==== Sys2Proof/Machine/DieRead.lean ====
section
/-! DEFINITION. Reading the registers of a die: context save control, faults and the shepherd, islands and monitors (Tables 7-5, 12-8, 12-9, 21-2, 22-4). -/

namespace Sys2Proof.Machine

/-- CSSTAT (Table 21-2). -/
def CtxSt.code : CtxSt → Nat
  | .running => 0
  | .stopping => 1
  | .stopped => 2
  | .sealed => 3
  | .saved => 4
  | .restoring => 5
  | .logFull => 6
  | .replayEnded => 7

def State.csstat (s : State) (d : Nat) : Word :=
  match s.die? d with
  | none => 0
  | some die =>
    let st := match s.ctx? die.csctx with | some c => c.st.code | none => if 1 ≤ die.cserr && die.cserr ≤ 3 then 4 else 0
    BitVec.ofNat 32 (st + 256 * die.cserr + 65536 * die.csctx)

/-- The island that a die's ISLSEL selects. -/
def State.selected (s : State) (d : Nat) : Island := s.islands.getD (((s.die? d).map (·.islsel)).getD 0) Island.reset

/-- FBSTAT (Table 12-9). -/
def State.fbstat (s : State) (d : Nat) (die : Die) : Word :=
  let frozen := s.ctxs.any fun c => c.frozen && c.lmap.any fun n => dieOf n == d
  BitVec.ofNat 32 ((if die.ovf then 2 ^ 31 else 0) + (if frozen then 2 ^ 30 else 0) + die.count % 2 ^ 11)

/-- Whether a temperature is above TEMPLIM: both in 1/16 °C. -/
def Die.overLimit (d : Die) (temp : Word) : Bool := d.templim.slt temp

/-- Read a die's register; whether the package is over its power rating and how hot the die is are free.
DESIGN CHOICE (log 17; safe). -/
def State.dieRead (s : State) (d num : Nat) : Word × State :=
  match s.die? d with
  | none => (0, s)
  | some die =>
    let w (n : Nat) : Word × State := (BitVec.ofNat 32 n, s)
    let i := s.selected d
    match num with
    | 0x021 => (s.csstat d, s)
    | 0x022 => (die.csimg.extractLsb' 0 32, s)
    | 0x023 => (die.csimg.extractLsb' 32 32, s)
    | 0x024 => (die.cslen, s)
    | 0x025 => (die.csrec, s)
    | 0x030 => (s.fbstat d die, s)
    | 0x031 => (die.fbovf, s)
    | 0x032 => w (die.fbbase % 2 ^ 32)
    | 0x033 => w (die.fbbase / 2 ^ 32)
    | 0x034 => w die.fbhead
    | 0x035 => w die.fbtail
    | 0x037 => w die.shwin
    | 0x040 => w die.islsel
    | 0x041 => w i.freq
    | 0x042 => w (i.current + if i.settling then 2 ^ 31 else 0)
    | 0x043 => w i.cap
    | 0x044 => (die.templim, s)
    | 0x045 =>
      let (power, s) := s.freeBool
      let (temp, s) := s.freeWord
      ((if power then 1 else 0) ||| (if die.overLimit temp then 2 else 0), s)
    | _ => (0, s)

/-- The registers of a die that can be read; others are write-only, or have no number. -/
def dieReadable (num : Nat) : Bool :=
  [0x021, 0x022, 0x023, 0x024, 0x025, 0x030, 0x031, 0x032, 0x033, 0x034, 0x035, 0x037, 0x040, 0x041, 0x042, 0x043, 0x044, 0x045].contains num

end Sys2Proof.Machine
end

