-- ==== Sys2Proof/Machine/Form.lean ====
section
/-! DEFINITION. The encoding tables: for every instruction its opcode, MOD field and operand fields, with what each field accepts. -/

namespace Sys2Proof

/-- Widths of operands: one register, an even pair, a quad (R58, R60, R217). -/
inductive Wd where
  | w32 | w64 | w128
  deriving DecidableEq, Repr

/-- Registers an operand of this width covers. -/
def Wd.regs : Wd → Nat
  | .w32 => 1
  | .w64 => 2
  | .w128 => 4

/-- What a destination field accepts. -/
structure DReq where
  v : Bool
  k : Bool
  p : Bool
  none : Bool
  wd : Wd
  mult : Nat
  deriving DecidableEq, Repr

/-- What a source field accepts: the kinds, the modifiers, the width, the range of a short immediate and the
multiple a uniform register number must be. -/
structure SReq where
  v : Bool
  l : Bool
  i : Bool
  k : Bool
  p : Bool
  neg : Bool
  abs : Bool
  wd : Wd
  lo : Int
  hi : Int
  mult : Nat
  deriving DecidableEq, Repr

/-- A source field with what it accepts. -/
structure SField where
  src : Src
  req : SReq
  deriving DecidableEq, Repr

/-- The fields of one instruction word (R54) with what each accepts. `tail` is SB:SC read as one field. -/
structure Form where
  opc : Nat
  hdr : Hdr
  mod : Nat
  modOk : Bool
  dst : Dst
  dreq : DReq
  sa : Option SField
  sb : Option SField
  sc : Option SField
  tail : Option Word
  slotOk : Bool
  deriving DecidableEq, Repr

namespace Req

def dNone : DReq := ⟨false, false, false, true, .w32, 1⟩
/-- DEDUCED (log 32; unsafe). -/
def dV (w : Wd) : DReq := ⟨true, false, false, false, w, 1⟩
def dVK (w : Wd) : DReq := ⟨true, true, false, false, w, 1⟩
def dK (w : Wd) : DReq := ⟨false, true, false, false, w, 1⟩
def dKm (m : Nat) : DReq := ⟨false, true, false, false, .w32, m⟩
def dP : DReq := ⟨false, false, true, false, .w32, 1⟩
def dVP : DReq := ⟨true, false, true, false, .w32, 1⟩
def dVKP (w : Wd) : DReq := ⟨true, true, w == .w32, false, w, 1⟩

/-- A class-0 source: every kind, a predicate only where it is 32 bits (R60). -/
def int (w : Wd) (neg : Bool) : SReq := ⟨true, true, true, true, w == .w32, neg, false, w, -8192, 8191, 1⟩
/-- A source of any register kind, a latch or a short immediate, without modifiers. -/
def any (w : Wd) : SReq := ⟨true, true, true, true, false, false, false, w, -8192, 8191, 1⟩
/-- A floating-point source with negate and absolute value.
DEDUCED (log 32; unsafe). -/
def fp : SReq := ⟨true, true, true, true, false, true, true, .w32, -8192, 8191, 1⟩
/-- An integer source of the FP or CVT class that accepts negate only. -/
def negInt : SReq := ⟨true, true, true, true, false, true, false, .w32, -8192, 8191, 1⟩
/-- A register or a latch. -/
def reg (w : Wd) : SReq := ⟨true, true, false, true, false, false, false, w, 0, 0, 1⟩
/-- A vector or uniform register. -/
def vk (w : Wd) : SReq := ⟨true, false, false, true, false, false, false, w, 0, 0, 1⟩
/-- A vector register. -/
def vOnly (w : Wd) : SReq := ⟨true, false, false, false, false, false, false, w, 0, 0, 1⟩
/-- A uniform register. -/
def k (w : Wd) : SReq := ⟨false, false, false, true, false, false, false, w, 0, 0, 1⟩
/-- A uniform register whose number is a multiple of `m`. -/
def km (m : Nat) : SReq := ⟨false, false, false, true, false, false, false, .w32, 0, 0, m⟩
/-- A uniform register or a short immediate. -/
def ki : SReq := ⟨false, false, true, true, false, false, false, .w32, -8192, 8191, 1⟩
/-- A uniform register or a short immediate in a range. -/
def kin (lo hi : Int) : SReq := ⟨false, false, true, true, false, false, false, .w32, lo, hi, 1⟩
/-- A short immediate in a range. -/
def imm (lo hi : Int) : SReq := ⟨false, false, true, false, false, false, false, .w32, lo, hi, 1⟩
/-- A predicate as value. -/
def pred : SReq := ⟨false, false, false, false, true, false, false, .w32, 0, 0, 1⟩
/-- A predicate as value or a short immediate (the SC of `iaddc`). -/
def predImm : SReq := ⟨false, false, true, false, true, false, false, .w32, -8192, 8191, 1⟩
/-- Store data (R217): an immediate only up to 32 bits, a latch only up to 64. -/
def data (w : Wd) : SReq := ⟨true, w != .w128, w == .w32, true, false, false, false, w, -8192, 8191, 1⟩
/-- Store data of `stk`. -/
def kdata (w : Wd) : SReq := ⟨false, false, w == .w32, true, false, false, false, w, -8192, 8191, 1⟩

end Req

def IntTy.wd : IntTy → Wd
  | .s64 => .w64
  | .n64 => .w64
  | _ => .w32

/-- The types of Table 5-3 that are not packed. -/
def IntTy.scalar : IntTy → Bool
  | .s16x2 => false
  | .n16x2 => false
  | _ => true

def Ty.wd : Ty → Wd
  | .s64 => .w64
  | .n64 => .w64
  | _ => .w32

def Ty.isFp : Ty → Bool
  | .f32 => true
  | .f16 => true
  | .bf16 => true
  | _ => false

def Ty.isInt : Ty → Bool
  | .f32 => false
  | .f16 => false
  | .bf16 => false
  | .bpi8 => false
  | _ => true

/-- Types of the moves of the cross-lane class (Table 6-7). -/
def Ty.isMove : Ty → Bool
  | .f32 => true
  | .s32 => true
  | .n32 => true
  | .s64 => true
  | .n64 => true
  | _ => false

/-- Conversions that are always exact take rounding 0 (R138). -/
def cvtExact (dt st : Ty) : Bool :=
  match dt, st with
  | .f32, .f16 => true
  | .f32, .bf16 => true
  | .f32, .s8 => true
  | .f32, .n8 => true
  | .f32, .s16 => true
  | .f32, .n16 => true
  | _, _ => dt.isInt && st.isInt

def Size.wd : Size → Wd
  | .b64 => .w64
  | .b128 => .w128
  | _ => .w32

def Size.bytes : Size → Nat
  | .b32 => 4
  | .b64 => 8
  | .b128 => 16
  | .b8 => 1
  | .b16 => 2

/-- Operators on 64-bit words (Table 13-1). -/
def Opr.wd : Opr → Wd
  | .addI64 => .w64
  | _ => .w32

/-- The operators whose operand is an FP32 value (R306). -/
def Opr.isFp : Opr → Bool
  | .addF32 => true
  | .subfF32 => true
  | .maxF32 => true
  | .minF32 => true
  | .mulF32 => true
  | _ => false

def bit (b : Bool) (n : Nat) : Nat := if b then n else 0

/-- The system registers of Table 7-5, 12-8, 21-2 and 22-4.
DEDUCED (log 33; unsafe). -/
def sysRegKnown (n : Nat) : Bool :=
  n ≤ 0x00D || (0x010 ≤ n && n ≤ 0x012) || (0x020 ≤ n && n ≤ 0x025) || (0x030 ≤ n && n ≤ 0x038) || (0x040 ≤ n && n ≤ 0x045)

def Src.immVal : Src → Int
  | .imm x => x.toInt
  | _ => 0

def Src.immIs (a : Src) (n : Int) : Bool :=
  match a with
  | .imm x => x.toInt == n
  | _ => false

def Src.isPair : Src → Bool
  | .v _ _ _ pair => pair
  | .k _ _ pair => pair
  | _ => false

/-- The SB:SC field of a branch or call (R61). -/
def Target.word (t : Target) : Word := t.delta ++ t.slot

namespace Form

def mk0 (opc : Nat) (h : Hdr) (mod : Nat) : Form :=
  ⟨opc, h, mod, true, .none, Req.dNone, none, none, none, none, true⟩
def setDst (f : Form) (d : Dst) (r : DReq) : Form := { f with dst := d, dreq := r }
def a (f : Form) (x : Src) (r : SReq) : Form := { f with sa := some ⟨x, r⟩ }
def b (f : Form) (x : Src) (r : SReq) : Form := { f with sb := some ⟨x, r⟩ }
def c (f : Form) (x : Src) (r : SReq) : Form := { f with sc := some ⟨x, r⟩ }
def ok (f : Form) (b : Bool) : Form := { f with modOk := b }
def goal (f : Form) (t : Target) : Form := { f with tail := some t.word, slotOk := t.slot.toNat < 10 }

end Form

open Form in
/-- The encoding of each instruction: Tables 5-3, 5-6, 6-1, 6-4, 6-6, 6-7, 7-1, 8-6, 8-7, 9-6, 10-8, 13-4, 13-6,
14-4, 15-5, 15-9 and 18-6. An event has none.
DEDUCED (log 32; unsafe). -/
def formOf : Instr → Option Form
  | .iadd h ty sat d a b => some <| (mk0 0x001 h (ty.code + bit sat 8)).setDst d (Req.dVK ty.wd) |>.a a (Req.int ty.wd true) |>.b b (Req.int ty.wd true)
  | .isub h ty sat d a b => some <| (mk0 0x002 h (ty.code + bit sat 8)).setDst d (Req.dVK ty.wd) |>.a a (Req.int ty.wd true) |>.b b (Req.int ty.wd true)
  | .imul h ty sat hi d a b => some <| (mk0 0x003 h (ty.code + bit sat 8 + bit hi 16)).setDst d (Req.dVK ty.wd) |>.a a (Req.int ty.wd true) |>.b b (Req.int ty.wd true) |>.ok (!(sat && hi))
  | .imad h ty sat d a b c => some <| (mk0 0x004 h (ty.code + bit sat 8)).setDst d (Req.dVK ty.wd) |>.a a (Req.int ty.wd true) |>.b b (Req.int ty.wd true) |>.c c (Req.int ty.wd true)
  | .imin h ty d a b => some <| (mk0 0x005 h ty.code).setDst d (Req.dVK ty.wd) |>.a a (Req.int ty.wd true) |>.b b (Req.int ty.wd true)
  | .imax h ty d a b => some <| (mk0 0x006 h ty.code).setDst d (Req.dVK ty.wd) |>.a a (Req.int ty.wd true) |>.b b (Req.int ty.wd true)
  | .iabs h ty sat d a => some <| (mk0 0x007 h (ty.code + bit sat 8)).setDst d (Req.dVK ty.wd) |>.a a (Req.int ty.wd false) |>.ok (ty == .s32 || ty == .s64 || ty == .s16x2)
  | .and h ty d a b => some <| (mk0 0x008 h ty.code).setDst d (Req.dVKP ty.wd) |>.a a (Req.int ty.wd false) |>.b b (Req.int ty.wd false) |>.ok ty.scalar
  | .or h ty d a b => some <| (mk0 0x009 h ty.code).setDst d (Req.dVKP ty.wd) |>.a a (Req.int ty.wd false) |>.b b (Req.int ty.wd false) |>.ok ty.scalar
  | .xor h ty d a b => some <| (mk0 0x00A h ty.code).setDst d (Req.dVKP ty.wd) |>.a a (Req.int ty.wd false) |>.b b (Req.int ty.wd false) |>.ok ty.scalar
  | .andn h ty d a b => some <| (mk0 0x00B h ty.code).setDst d (Req.dVKP ty.wd) |>.a a (Req.int ty.wd false) |>.b b (Req.int ty.wd false) |>.ok ty.scalar
  | .shl h ty sat d a b => some <| (mk0 0x00C h (ty.code + bit sat 8)).setDst d (Req.dVK ty.wd) |>.a a (Req.int ty.wd false) |>.b b (Req.int .w32 false)
  | .shr h ty d a b => some <| (mk0 0x00D h ty.code).setDst d (Req.dVK ty.wd) |>.a a (Req.int ty.wd false) |>.b b (Req.int .w32 false)
  | .rot h ty d a b => some <| (mk0 0x00E h ty.code).setDst d (Req.dVK ty.wd) |>.a a (Req.int ty.wd false) |>.b b (Req.int .w32 false)
  | .bfe h ty d a b => some <| (mk0 0x00F h ty.code).setDst d (Req.dVK ty.wd) |>.a a (Req.int ty.wd false) |>.b b (Req.int .w32 false) |>.ok ty.scalar
  | .bfi h ty d a b c => some <| (mk0 0x010 h ty.code).setDst d (Req.dVK ty.wd) |>.a a (Req.int ty.wd false) |>.b b (Req.int ty.wd false) |>.c c (Req.int .w32 false) |>.ok ty.scalar
  | .popc h ty d a => some <| (mk0 0x011 h ty.code).setDst d (Req.dVK .w32) |>.a a (Req.int ty.wd false) |>.ok ty.scalar
  | .clz h ty d a => some <| (mk0 0x012 h ty.code).setDst d (Req.dVK .w32) |>.a a (Req.int ty.wd false) |>.ok ty.scalar
  | .brev h ty d a => some <| (mk0 0x013 h ty.code).setDst d (Req.dVK ty.wd) |>.a a (Req.int ty.wd false) |>.ok ty.scalar
  | .icmp h cond ty d a b => some <| (mk0 0x014 h (ty.code + 16 * cond.code)).setDst d Req.dVP |>.a a (Req.int ty.wd true) |>.b b (Req.int ty.wd true) |>.ok ty.scalar
  | .sel h ty d a b c => some <| (mk0 0x015 h ty.code).setDst d (Req.dVK ty.wd) |>.a a (Req.int ty.wd false) |>.b b (Req.int ty.wd false) |>.c c Req.pred |>.ok ty.scalar
  | .mov h ty d a => some <| (mk0 0x016 h ty.code).setDst d (Req.dVKP ty.wd) |>.a a (Req.int ty.wd false) |>.ok ty.scalar
  | .movi h d imm => some { (mk0 0x017 h 0).setDst d (Req.dVK .w32) with tail := some imm }
  | .lea h sh ty d a b => some <| (mk0 0x018 h (ty.code + 16 * sh.toNat)).setDst d (Req.dVK .w64) |>.a a (Req.int .w64 false) |>.b b (Req.int .w32 false) |>.ok (ty == .s32 || ty == .n32)
  | .iaddc h co d a b c => some <| (mk0 0x019 h (16 * co.toNat)).setDst d (Req.dVK .w32) |>.a a (Req.int .w32 false) |>.b b (Req.int .w32 false) |>.c c Req.predImm
  | .sreg h d a => some <| (mk0 0x01A h 0).setDst d (Req.dVK (if a.immIs 0x19 then .w64 else .w32)) |>.a a (Req.imm 0 0x19)
  | .fadd h r ftz cl d a b => some <| (mk0 0x040 h (r.code + bit ftz 16 + bit cl 32)).setDst d (Req.dVK .w32) |>.a a Req.fp |>.b b Req.fp
  | .fsub h r ftz cl d a b => some <| (mk0 0x041 h (r.code + bit ftz 16 + bit cl 32)).setDst d (Req.dVK .w32) |>.a a Req.fp |>.b b Req.fp
  | .fmul h r ftz cl d a b => some <| (mk0 0x042 h (r.code + bit ftz 16 + bit cl 32)).setDst d (Req.dVK .w32) |>.a a Req.fp |>.b b Req.fp
  | .ffma h r ftz cl d a b c => some <| (mk0 0x043 h (r.code + bit ftz 16 + bit cl 32)).setDst d (Req.dVK .w32) |>.a a Req.fp |>.b b Req.fp |>.c c Req.fp
  | .fmin h ftz cl d a b => some <| (mk0 0x044 h (bit ftz 16 + bit cl 32)).setDst d (Req.dVK .w32) |>.a a Req.fp |>.b b Req.fp
  | .fmax h ftz cl d a b => some <| (mk0 0x045 h (bit ftz 16 + bit cl 32)).setDst d (Req.dVK .w32) |>.a a Req.fp |>.b b Req.fp
  | .fcmp h cond ftz d a b => some <| (mk0 0x046 h (bit ftz 16 + 64 * cond.code)).setDst d Req.dVP |>.a a Req.fp |>.b b Req.fp
  | .fclass h ftz d a => some <| (mk0 0x047 h (bit ftz 16)).setDst d (Req.dVK .w32) |>.a a (Req.any .w32)
  | .frnd h r ftz cl d a => some <| (mk0 0x048 h (r.code + bit ftz 16 + bit cl 32)).setDst d (Req.dVK .w32) |>.a a Req.fp
  | .fscale h r ftz cl d a b => some <| (mk0 0x049 h (r.code + bit ftz 16 + bit cl 32)).setDst d (Req.dVK .w32) |>.a a Req.fp |>.b b Req.negInt
  | .fadd2 h f r ftz cl d a b => some <| (mk0 0x04A h (r.code + 4 * f.code + bit ftz 16 + bit cl 32)).setDst d (Req.dVK .w32) |>.a a Req.fp |>.b b Req.fp |>.ok (f != .f32)
  | .fmul2 h f r ftz cl d a b => some <| (mk0 0x04B h (r.code + 4 * f.code + bit ftz 16 + bit cl 32)).setDst d (Req.dVK .w32) |>.a a Req.fp |>.b b Req.fp |>.ok (f != .f32)
  | .ffma2 h f r ftz cl d a b c => some <| (mk0 0x04C h (r.code + 4 * f.code + bit ftz 16 + bit cl 32)).setDst d (Req.dVK .w32) |>.a a Req.fp |>.b b Req.fp |>.c c Req.fp |>.ok (f != .f32)
  | .cvt h dt st r d a => some <| (mk0 0x080 h (dt.code + 16 * st.code + 256 * r.code)).setDst d (Req.dVK dt.wd) |>.a a { Req.any st.wd with neg := true, abs := st.isFp } |>.ok (dt != st && dt != .bpi8 && st != .bpi8 && (r == .rne || !cvtExact dt st))
  | .cvti h dt st r d a b => some <| (mk0 0x081 h (dt.code + 16 * st.code + 256 * r.code)).setDst d (Req.dVK dt.wd) |>.a a { Req.any st.wd with neg := true, abs := st.isFp } |>.b b Req.negInt |>.ok ((st == .f32 && dt.isInt) || (st.isInt && dt == .f32))
  | .pk16 h dt st r d a b => some <| (mk0 0x082 h (dt.code + 16 * st.code + 256 * r.code)).setDst d (Req.dVK .w32) |>.a a { Req.any .w32 with neg := true, abs := st.isFp } |>.b b { Req.any .w32 with neg := true, abs := st.isFp } |>.ok ((st == .f32 && (dt == .f16 || dt == .bf16)) || ((st == .s32 || st == .n32) && (dt == .s16 || dt == .n16) && r == .rne))
  | .upk16 h dt st d a b => some <| (mk0 0x083 h (dt.code + 16 * st.code)).setDst d (Req.dVK .w32) |>.a a (Req.any .w32) |>.b b (Req.imm 0 1) |>.ok (((st == .f16 || st == .bf16) && dt == .f32) || ((st == .s16 || st == .n16) && (dt == .s32 || dt == .n32)))
  | .qnt h d a b c => some <| (mk0 0x084 h 11).setDst d (Req.dVK .w32) |>.a a Req.fp |>.b b (Req.any .w32) |>.c c (Req.any .w64)
  | .dqnt h dt d a b c => some <| (mk0 0x085 h (11 * 16 + dt.code)).setDst d (Req.dVK .w32) |>.a a (Req.any .w32) |>.b b (Req.any .w32) |>.c c (Req.any .w32) |>.ok (dt == .f32 || dt == .bf16)
  | .bpt h d a b => some <| (mk0 0x086 h (11 * 16 + 11)).setDst d (Req.dV .w32) |>.a a (Req.any .w32) |>.b b (Req.imm 0 7)
  | .bpr h d a b c => some <| (mk0 0x087 h (11 * 16 + 11)).setDst d (Req.dV .w32) |>.a a (Req.any .w32) |>.b b (Req.any .w32) |>.c c (Req.imm 0 7)
  | .olst h d a b c => some <| (mk0 0x088 h 2).setDst d (Req.dV .w32) |>.a a (Req.any .w32) |>.b b (Req.any .w32) |>.c c (Req.k .w32)
  | .rcps h f ftz d a => some <| (mk0 0x0C0 h (4 * f.code + bit ftz 16)).setDst d (Req.dVK .w32) |>.a a Req.fp
  | .rsqs h f ftz d a => some <| (mk0 0x0C1 h (4 * f.code + bit ftz 16)).setDst d (Req.dVK .w32) |>.a a Req.fp
  | .ex2 h f ftz d a => some <| (mk0 0x0C2 h (4 * f.code + bit ftz 16)).setDst d (Req.dVK .w32) |>.a a Req.fp
  | .lg2 h f ftz d a => some <| (mk0 0x0C3 h (4 * f.code + bit ftz 16)).setDst d (Req.dVK .w32) |>.a a Req.fp
  | .sinp h f ftz d a => some <| (mk0 0x0C4 h (4 * f.code + bit ftz 16)).setDst d (Req.dVK .w32) |>.a a Req.fp
  | .cosp h f ftz d a => some <| (mk0 0x0C5 h (4 * f.code + bit ftz 16)).setDst d (Req.dVK .w32) |>.a a Req.fp
  | .tnh h f ftz d a => some <| (mk0 0x0C6 h (4 * f.code + bit ftz 16)).setDst d (Req.dVK .w32) |>.a a Req.fp
  | .perm h ty d a b => some <| (mk0 0x100 h ty.code).setDst d (Req.dV ty.wd) |>.a a (Req.vOnly ty.wd) |>.b b (Req.any .w32) |>.ok ty.isMove
  | .shfl h op r ty d a b => some <| (mk0 0x101 h (ty.code + 16 * op.code + 128 * r.code)).setDst d (Req.dV ty.wd) |>.a a (Req.vOnly ty.wd) |>.b b (Req.any .w32) |>.ok ty.isMove
  | .bcst h r ty d a b => some <| (mk0 0x102 h (ty.code + 128 * r.code)).setDst d (Req.dV ty.wd) |>.a a (Req.vOnly ty.wd) |>.b b Req.ki |>.ok ty.isMove
  | .poll h op r d a => some <| (mk0 0x103 h (16 * op.code + 128 * r.code)).setDst d (Req.dVKP (if op == .mask then .w64 else .w32)) |>.a a (Req.any .w32)
  | .red h op r ty d a => some <| (mk0 0x104 h (ty.code + 16 * op.code + 128 * r.code)).setDst d (Req.dVK ty.wd) |>.a a (Req.any ty.wd) |>.ok (ty.isMove && (ty != .f32 || op == .add || op == .min || op == .max))
  | .scan h op r ty d a => some <| (mk0 0x105 h (ty.code + 16 * op.code + 128 * r.code)).setDst d (Req.dV ty.wd) |>.a a (Req.any ty.wd) |>.ok (ty.isMove && (ty != .f32 || op == .add || op == .min || op == .max))
  | .mcnt h rk r ty d a => some <| (mk0 0x106 h (ty.code + bit rk 16 + 128 * r.code)).setDst d (Req.dV .w32) |>.a a (Req.any ty.wd) |>.ok ty.isMove
  | .cmpt h r ty d a b => some <| (mk0 0x107 h (ty.code + 128 * r.code)).setDst d (Req.dV ty.wd) |>.a a (Req.any ty.wd) |>.b b Req.pred |>.ok ty.isMove
  | .l2k h ty d a b => some <| (mk0 0x108 h ty.code).setDst d (Req.dK ty.wd) |>.a a (Req.vOnly ty.wd) |>.b b (Req.any .w32) |>.ok ty.isMove
  | .srt h op r ty d a => some <| (mk0 0x109 h (ty.code + 16 * op.code + 128 * r.code)).setDst d (Req.dV (if op == .asckv || op == .desckv then .w64 else .w32)) |>.a a (if op == .asckv || op == .desckv then Req.any .w64 else Req.any .w32) |>.ok (ty == .f32 || ty == .s32 || ty == .n32)
  | .bra h t => some <| (mk0 0x140 h 0).goal t
  | .brx h a => some <| (mk0 0x141 h 0).a a (Req.vk .w64)
  | .call h d t => some <| ((mk0 0x142 h 0).setDst d (Req.dVK .w64)).goal t
  | .ret h a => some <| (mk0 0x143 h 0).a a (Req.vk .w64)
  | .enrol h m => some <| mk0 0x144 h m.toNat
  | .join h m => some <| mk0 0x145 h m.toNat
  | .exit h => some <| mk0 0x146 h 0
  | .width h d a => some <| (mk0 0x147 h 0).setDst d (Req.dK .w32) |>.a a Req.ki
  | .yield h => some <| (mk0 0x148 h 0).ok (!h.hold)
  | .nop h => some <| mk0 0x149 h 0
  | .trap h a => some <| (mk0 0x14A h 0).a a (Req.imm 0 8191)
  | .lp h d t => some <| ((mk0 0x14B h 0).setDst d (Req.dK .w32)).goal t
  | .brk h a => some <| (mk0 0x14C h 0).a a (Req.imm 0 8191)
  | .ld h sz sx d a b => some <| (mk0 0x180 h (sz.code + bit sx 8)).setDst d (Req.dV sz.wd) |>.a a (Req.reg .w64) |>.b b (Req.any .w32) |>.ok (!sx || sz == .b8 || sz == .b16)
  | .st h sz col a b c => some <| (mk0 0x181 h (sz.code + 16 * col.toNat)).a a (Req.reg .w64) |>.b b (Req.any .w32) |>.c c (Req.data sz.wd)
  | .lds h sz sx d a b => some <| (mk0 0x182 h (sz.code + bit sx 8)).setDst d (Req.dV sz.wd) |>.a a (Req.reg .w32) |>.b b (Req.any .w32) |>.ok (!sx || sz == .b8 || sz == .b16)
  | .sts h sz col a b c => some <| (mk0 0x183 h (sz.code + 16 * col.toNat)).a a (Req.reg .w32) |>.b b (Req.any .w32) |>.c c (Req.data sz.wd)
  | .ldc h sz sx d a b => some <| (mk0 0x184 h (sz.code + bit sx 8)).setDst d (Req.dV sz.wd) |>.a a (Req.reg .w32) |>.b b (Req.any .w32) |>.ok (!sx || sz == .b8 || sz == .b16)
  | .stc h sz col a b c => some <| (mk0 0x185 h (sz.code + 16 * col.toNat)).a a (Req.reg .w32) |>.b b (Req.any .w32) |>.c c (Req.data sz.wd)
  | .ldx h sz sx d a b => some <| (mk0 0x186 h (sz.code + bit sx 8)).setDst d (Req.dV sz.wd) |>.a a (Req.any .w32) |>.b b (Req.any .w32) |>.ok (!sx || sz == .b8 || sz == .b16)
  | .stx h sz col a b c => some <| (mk0 0x187 h (sz.code + 16 * col.toNat)).a a (Req.any .w32) |>.b b (Req.any .w32) |>.c c (Req.data sz.wd)
  | .ldk h sz sx d a b => some <| (mk0 0x188 h (sz.code + bit sx 8)).setDst d (Req.dK sz.wd) |>.a a (Req.k .w64) |>.b b Req.ki |>.ok (!sx || sz == .b8 || sz == .b16)
  | .stk h sz col a b c => some <| (mk0 0x189 h (sz.code + 16 * col.toNat)).a a (Req.k .w64) |>.b b Req.ki |>.c c (Req.kdata sz.wd)
  | .prf h a b => some <| (mk0 0x18A h 0).a a (Req.reg .w64) |>.b b (Req.any .w32)
  | .tlk h d a => some <| (mk0 0x1C0 h 0).setDst d (Req.dVK .w32) |>.a a (Req.reg .w64)
  | .tset h lck a b => some <| (mk0 0x1C1 h (bit lck 1)).a a (Req.any .w32) |>.b b (Req.reg .w64)
  | .tinv h a => some <| (mk0 0x1C2 h 0).a a (Req.any .w32)
  | .tlck h a => some <| (mk0 0x1C3 h 0).a a (Req.any .w32)
  | .tulk h a => some <| (mk0 0x1C4 h 0).a a (Req.any .w32)
  | .prsq h d a => some <| (mk0 0x1C5 h 0).setDst d (Req.dVK .w32) |>.a a (Req.reg .w32)
  | .prsc h set a b => some <| (mk0 0x1C6 h (bit set 1)).a a (Req.reg .w32) |>.b b (Req.any .w32)
  | .ops h op col a b c => some <| (mk0 0x200 h (op.code + 64 * col.toNat)).a a (Req.reg .w64) |>.b b (Req.any .w32) |>.c c (Req.any op.wd) |>.ok (0x01 ≤ op.code && op.code ≤ 0x10)
  | .opf h op col d a b c => some <| (mk0 0x201 h (op.code + 64 * col.toNat)).setDst d (Req.dV op.wd) |>.a a (Req.reg .w64) |>.b b (Req.any .w32) |>.c c (Req.any op.wd) |>.ok (0x02 ≤ op.code && op.code ≤ 0x11)
  | .ocas h col d a b c => some <| (mk0 0x202 h (0x12 + 64 * col.toNat)).setDst d (Req.dV .w32) |>.a a (Req.reg .w64) |>.b b (Req.any .w32) |>.c c (Req.any .w32)
  | .sat h op col d a b c => some <|
      let f := (mk0 0x203 h (op.code + 64 * col.toNat)).setDst d (Req.dV op.wd) |>.a a (Req.reg .w32) |>.b b (Req.any op.wd) |>.ok (0x02 ≤ op.code && (op == .cas) == c.isSome)
      match c with
      | some x => f.c x (Req.any .w32)
      | none => f
  | .txb h d a => some <| (mk0 0x204 h 0).setDst d (Req.dK .w32) |>.a a (Req.reg .w64)
  | .txs h col a b c => some <| (mk0 0x205 h (64 * col.toNat)).a a (Req.k .w32) |>.b b (Req.reg .w64) |>.c c (Req.any (if c.isPair then .w64 else .w32))
  | .txc h d a => some <| (mk0 0x206 h 0).setDst d (Req.dK .w32) |>.a a (Req.k .w32)
  | .txa h a => some <| (mk0 0x207 h 0).a a (Req.k .w32)
  | .ewk h a b => some <| (mk0 0x208 h 0).a a (Req.reg .w64) |>.b b (Req.any .w32)
  | .fnc h ks sc a => some <| (mk0 0x240 h (sc.code + bit ks.ld 8 + bit ks.st 16 + bit ks.po 32)).a a (Req.imm 1 255) |>.ok (ks.ld || ks.st || ks.po)
  | .ofnc h => some <| mk0 0x241 h 0
  | .wt h c a => some <| (mk0 0x242 h (64 * c.code)).a a Req.ki
  | .bari h a b => some <| (mk0 0x243 h 0).a a (Req.imm 0 31) |>.b b (Req.kin 1 255)
  | .bara h d a b => some <| (mk0 0x244 h 0).setDst d (Req.dK .w32) |>.a a (Req.imm 0 31) |>.b b (Req.kin 0 255)
  | .barw h par d a b => some <| (mk0 0x245 h (bit par 64)).setDst d Req.dP |>.a a (Req.imm 0 31) |>.b b (if par then Req.imm 0 1 else Req.k .w32)
  | .bard h d a b => some <| (mk0 0x246 h 0).setDst d (Req.dK .w32) |>.a a (Req.imm 0 31) |>.b b (Req.kin 0 255)
  | .wfl h c d a b => some <| (mk0 0x247 h (64 * c.code)).setDst d (Req.dK .w32) |>.a a (Req.k .w64) |>.b b Req.ki
  | .phs h idle sc => some <| (mk0 0x248 h (sc.code + bit idle 64)).ok ((sc == .dev || sc == .pod) && !(idle && sc == .pod))
  | .aalc h d a => some <| (mk0 0x280 h 0).setDst d (Req.dK .w32) |>.a a Req.ki
  | .afre h a => some <| (mk0 0x281 h 0).a a (Req.k .w32)
  | .mlds h pool a b c => some <| (mk0 0x282 h (bit pool 64)).a a Req.ki |>.b b (Req.k .w32) |>.c c (Req.vk .w32)
  | .mswp h a => some <| (mk0 0x283 h 0).a a (Req.k .w32)
  | .mstr h m ty a b c => some <| (mk0 0x284 h (ty.code + bit m.pool 64 + bit m.ovw 32 + bit m.split 16)).a a Req.ki |>.b b (Req.k .w64) |>.c c (Req.vk .w32) |>.ok (ty == .f16 || ty == .bf16 || ty == .s8)
  | .mlp h m ty a b => some <| (mk0 0x285 h (ty.code + bit m.pool 64 + bit m.ovw 32 + bit m.split 16)).a a (Req.km 8) |>.b b (Req.vk .w32) |>.ok (ty == .f16 || ty == .bf16 || ty == .s8)
  | .macr h ty d a b c => some <|
      let f := (mk0 0x286 h ty.code).setDst d (Req.dVK .w32) |>.a a (Req.k .w32) |>.b b (Req.any .w32) |>.ok ((ty == .f32 || ty == .s32 || ty == .n32) && (ty == .n32) == c.isNone)
      match c with
      | some x => f.c x (Req.any .w32)
      | none => f
  | .macw h a b c => some <| (mk0 0x287 h 0).a a (Req.k .w32) |>.b b (Req.any .w32) |>.c c (Req.any .w32)
  | .mzro h a b => some <| (mk0 0x288 h 0).a a (Req.k .w32) |>.b b Req.ki
  | .shp h n a b => some <| (mk0 0x2C0 h n.toNat).a a (if b.immIs 1 then Req.k .w64 else Req.ki) |>.b b (Req.imm 0 3)
  | .cpy h n a b c => some <| (mk0 0x2C1 h n.toNat).a a (Req.imm 0 31) |>.b b Req.ki |>.c c Req.ki
  | .cpx h n a b c => some <| (mk0 0x2C2 h n.toNat).a a (Req.imm 0 31) |>.b b Req.ki |>.c c Req.ki
  | .cpc h n d a b => some <| (mk0 0x2C3 h n.toNat).setDst d (Req.dK .w32) |>.a a (if b.immIs 1 then Req.imm 0 0 else Req.kin 1 16) |>.b b (Req.imm 0 1)
  | .cpq h n d => some <| (mk0 0x2C4 h n.toNat).setDst d (Req.dK .w32)
  | .algl h t a => some <| (mk0 0x300 h t.toNat).a a (Req.k .w64) |>.ok (t != 0)
  | .algq h t d a => some <| (mk0 0x301 h t.toNat).setDst d (Req.dK .w32) |>.a a Req.ki
  | .cmpl h t a => some <| (mk0 0x302 h t.toNat).a a (Req.k .w64) |>.ok (t != 0)
  | .rgi h d a b => some <| (mk0 0x303 h 0).setDst d (Req.dK .w32) |>.a a (Req.k .w64) |>.b b Req.ki
  | .rgr h a => some <| (mk0 0x304 h 0).a a Req.ki
  | .tlbi h a => some <|
      match a with
      | some x => (mk0 0x305 h 0).a x (Req.k .w64)
      | none => mk0 0x305 h 1
  | .bnew h kd d a => some <| (mk0 0x340 h kd.code).setDst d (Req.dKm 4) |>.a a (Req.km 4)
  | .bres h kd d a c => some <| (mk0 0x341 h (kd.elim 0 Kind.code)).setDst d (Req.dKm 8) |>.a a (Req.km 4) |>.c c Req.pred
  | .bcas h d a b c => some <| (mk0 0x342 h 0).setDst d (Req.dK .w32) |>.a a (Req.km 4) |>.b b (Req.km 4) |>.c c Req.ki
  | .bkil h a => some <| (mk0 0x343 h 0).a a (Req.km 4)
  | .bshd h => some <| mk0 0x344 h 0
  | .bref h a => some <| (mk0 0x345 h 0).a a (Req.km 4)
  | .bdrp h a => some <| (mk0 0x346 h 0).a a (Req.km 4)
  | .rnd h sr d a => some <| (mk0 0x380 h sr.toNat).setDst d (Req.dVK .w32) |>.a a (Req.any .w32)
  | .rndu h sr d a => some <| (mk0 0x381 h sr.toNat).setDst d (Req.dVK .w32) |>.a a (Req.any .w32)
  | .rsal h sr a => some <| (mk0 0x382 h sr.toNat).a a (Req.km 4)
  | .rsfr h sr => some <| mk0 0x383 h sr.toNat
  | .pcr h d a => some <| (mk0 0x384 h 0).setDst d (Req.dVK .w64) |>.a a Req.ki
  | .lgm h a => some <| (mk0 0x385 h 0).a a (Req.k .w64)
  | .trt h => some <| mk0 0x3C0 h 0
  | .icinv h a b => some <| (mk0 0x3C1 h 0).a a (Req.vk .w64) |>.b b (Req.imm 1 64)
  | .sysr h d a => some <| (mk0 0x3C2 h 0).setDst d (Req.dVK .w32) |>.a a (Req.imm 0 8191) |>.ok (sysRegKnown a.immVal.toNat)
  | .sysw h a b => some <| (mk0 0x3C3 h 0).a a (Req.imm 0 8191) |>.b b (Req.vk .w32) |>.ok (sysRegKnown a.immVal.toNat)
  | .lnch h d a b => some <| (mk0 0x3C4 h 0).setDst d (Req.dK .w32) |>.a a (Req.km 4) |>.b b (Req.vk .w64)
  | .hlt h => some <| mk0 0x3C5 h 0
  | .faultHeldWritten _ => none
  | .fbrelRetry _ _ => none
  | .fbrelSkip _ _ => none
  | .fbrelKill _ _ => none
  | .fbtailWrite _ _ => none
  | .shctlThaw _ => none
  | .shctlDestroy _ => none
  | .shepherdWindow _ => none
  | .registerWrite _ _ => none
  | .islfreq _ _ => none
  | .frequencySettled _ => none
  | .packagePowerLimit _ => none
  | .templimExceeded _ _ => none
  | .csctlStop _ _ => none
  | .contextStopped _ => none
  | .csctlSave _ _ => none
  | .contextSeal _ => none
  | .contextImageWrite _ _ => none
  | .csctlRestore _ _ => none
  | .csctlResume _ _ => none
  | .csctlDestroy _ _ => none
  | .contextCreate _ => none
  | .queueCreate _ _ _ _ => none
  | .doorbell _ _ => none
  | .doorbellHeldTaken _ => none
  | .launch _ => none
  | .replace _ => none
  | .unload _ => none
  | .mark _ => none
  | .waitm _ => none
  | .waitmComplete _ => none
  | .phase _ => none
  | .launchComplete _ => none
  | .letterboxGrid _ _ => none
  | .letterboxGridHeld _ => none
  | .walkerLetterbox _ _ => none
  | .teamPlace _ => none
  | .starvationPreempt _ => none
  | .teamResume _ _ => none
  | .compactorMove _ _ _ _ => none
  | .widthRoomFreed _ _ => none
  | .issueAgeLimit _ _ => none
  | .holdChainLimit _ _ => none
  | .laneExitComplete _ _ _ => none
  | .teamRetire _ => none
  | .loadDataArrival _ => none
  | .operatorReturn _ => none
  | .storePerformedAtHome _ => none
  | .dirtyLogTailAdvance _ _ => none
  | .entryArrival _ => none
  | .entryRewrite _ _ _ => none
  | .entryRetire _ => none
  | .retirementBound _ _ => none
  | .walkerRecord _ => none
  | .copySectorArrival _ _ => none
  | .copyComplete _ => none
  | .cpxTileArrival _ => none
  | .cpxComplete _ => none
  | .claimGrant _ _ => none
  | .courierScheduleStep _ => none
  | .matrixGrant _ _ => none
  | .matrixComplete _ _ => none
  | .aalcBanksFree _ => none
  | .wflTest _ _ => none
  | .phaseEndSweep _ => none
  | .idleWireWait _ => none
  | .brandResolve _ _ => none
  | .uncorrectableError _ => none
  | .replayHeldRelease _ => none
  | .flitCrcFail _ _ => none
  | .fabricLinkDown _ => none
  | .ucieFlitCrcFail _ _ => none
  | .ucieModuleDown _ => none
  | .hostWrite _ _ => none
  | .routingTableWrite _ => none
  | .reductionWindowProgram _ _ => none
  | .brandTableBaseSet _ => none
  | .courierFirmwareLoad _ _ => none
  | .attestationReport _ => none
  | .coldReset => none
  | .nonInstructionEncoding _ => none
  | .ucieLinkReturn _ => none
  | .hostDieFirmwareLoad _ => none
  | .hostBrandMint _ _ _ => none

/-- Whether a destination field is accepted (R58). -/
def DReq.accepts (r : DReq) : Dst → Bool
  | .none => r.none
  | .v n pair => r.v && pair == (r.wd != .w32) && n.toNat % r.wd.regs == 0
  | .k n pair => r.k && pair == (r.wd != .w32) && n.toNat % r.wd.regs == 0 && n.toNat % r.mult == 0
  | .p _ => r.p
  | .nw pair => r.v && pair == (r.wd != .w32)

/-- Whether a source's kind, modifiers, width and range are accepted (R59 to R61, R217). -/
def SReq.accepts (r : SReq) : Src → Bool
  | .v n neg abs pair => r.v && (!neg || r.neg) && (!abs || r.abs) && pair == (r.wd != .w32) && n.toNat % r.wd.regs == 0
  | .latch _ => r.l && r.wd != .w128
  | .imm x => r.i && r.wd != .w128 && r.lo ≤ x.toInt && x.toInt ≤ r.hi
  | .k n neg pair => r.k && (!neg || r.neg) && pair == (r.wd != .w32) && n.toNat % r.wd.regs == 0 && n.toNat % r.mult == 0
  | .p _ => r.p

/-- A latch source of a 64-bit operand names l0 to l2 (R62). -/
def SReq.latchOk (r : SReq) : Src → Bool
  | .latch n => r.wd == .w32 || n.toNat < 3
  | _ => true

def SField.ok (f : SField) : Bool := f.req.accepts f.src
def SField.latchOk (f : SField) : Bool := f.req.latchOk f.src

/-- The source fields of a word in the order SA, SB, SC. -/
def Form.fields (f : Form) : List SField := f.sa.toList ++ f.sb.toList ++ f.sc.toList

/-- The first encoding check of Table 3-9 that a word's fields fail; none when all pass.
DEDUCED (log 32; unsafe). -/
def Form.check (f : Form) : Option NotInstr :=
  if f.hdr.neg && f.hdr.pred == 7 then some .guardNever
  else if f.hdr.yld && f.hdr.hold then some .hints
  else if !f.dreq.accepts f.dst then some .dest
  else if f.fields.any (fun x => !x.latchOk) then some .latch3
  else if f.fields.any (fun x => !x.ok) then some .source
  else if !f.slotOk then some .slotRange
  else if !f.modOk then some .modField
  else none

/-- The destination field's 14 bits (Table 3-2). -/
def Dst.bits : Dst → BitVec 14
  | .none => 0x1800#14
  | .v n pair => 0#1 ++ 0#2 ++ BitVec.ofBool pair ++ 0#2 ++ n
  | .k n pair => 0#1 ++ 1#2 ++ BitVec.ofBool pair ++ 0#4 ++ n
  | .p n => 0#1 ++ 2#2 ++ 0#8 ++ n
  | .nw pair => 1#1 ++ 0#2 ++ BitVec.ofBool pair ++ 0#10

/-- A source field's 16 bits (Table 3-3). -/
def Src.bits : Src → BitVec 16
  | .v n neg abs pair => 0#5 ++ BitVec.ofBool pair ++ BitVec.ofBool abs ++ BitVec.ofBool neg ++ n
  | .latch n => 1#2 ++ 0#12 ++ n
  | .imm x => 2#2 ++ x
  | .k n neg pair => 12#4 ++ 0#1 ++ BitVec.ofBool pair ++ 0#1 ++ BitVec.ofBool neg ++ 0#2 ++ n
  | .p n => 13#4 ++ 0#9 ++ n

def fieldBits : Option SField → BitVec 16
  | some f => f.src.bits
  | none => 0

/-- The 96 bits of a word (Table 3-1). -/
def Form.bits (f : Form) : Code :=
  let tail : Word :=
    match f.tail with
    | some x => x
    | none => fieldBits f.sb ++ fieldBits f.sc
  BitVec.ofNat 10 f.opc ++ BitVec.ofBool f.hdr.neg ++ f.hdr.pred ++ 0#5 ++ BitVec.ofBool f.hdr.yld ++ BitVec.ofBool f.hdr.hold
    ++ f.hdr.stall ++ BitVec.ofNat 10 f.mod ++ f.dst.bits ++ fieldBits f.sa ++ tail

end Sys2Proof
end

