-- ==== Sys2Proof/Machine/Flags.lean ====
section
/-! DEFINITION. The floating-point status flags and the one rounding function that sets them. -/

namespace Sys2Proof

/-- The five sticky flags of FPST (Table 4-3): NV 4, DZ 3, OF 2, UF 1, NX 0. -/
abbrev FpFlags := BitVec 5

namespace FpFlags

def none : FpFlags := 0
def nx : FpFlags := 1
def uf : FpFlags := 2
def of : FpFlags := 4
def dz : FpFlags := 8
def nv : FpFlags := 16

/-- A flag that is set on a condition. -/
def when (b : Bool) (f : FpFlags) : FpFlags := if b then f else 0

end FpFlags

/-- The three floating-point formats (R85). -/
inductive FpFmt where
  | f32 | f16 | bf16
  deriving DecidableEq, Repr

namespace FpFmt

/-- Fraction bits (Table 4-1). -/
def fbits : FpFmt → Nat
  | .f32 => 23
  | .f16 => 10
  | .bf16 => 7

/-- Exponent bits (Table 4-1). -/
def ebits : FpFmt → Nat
  | .f16 => 5
  | _ => 8

/-- Width of the encoding. -/
def width (f : FpFmt) : Nat := 1 + f.ebits + f.fbits

/-- Exponent bias (Table 4-1). -/
def bias : FpFmt → Nat
  | .f16 => 15
  | _ => 127

/-- The exponent of the smallest subnormal. -/
def qmin (f : FpFmt) : Int := 1 - (f.bias : Int) - f.fbits

/-- The bits of infinity, without sign. -/
def infBits (f : FpFmt) : Nat := (2 ^ f.ebits - 1) * 2 ^ f.fbits

/-- The sign bit. -/
def signBit (f : FpFmt) : Nat := 2 ^ (f.width - 1)

/-- The canonical NaN (Table 4-1). -/
def nan (f : FpFmt) : Nat := f.infBits + 2 ^ (f.fbits - 1)

/-- An infinity of a sign. -/
def inf (f : FpFmt) (neg : Bool) : Nat := f.infBits + bit neg f.signBit

/-- The largest finite value of a sign. -/
def maxFin (f : FpFmt) (neg : Bool) : Nat := f.infBits - 1 + bit neg f.signBit

/-- A zero of a sign. -/
def zero (f : FpFmt) (neg : Bool) : Nat := bit neg f.signBit

end FpFmt

/-- A bit pattern with the flags of the operation that gave it. -/
structure FRes where
  bits : Nat
  flags : FpFlags
  deriving DecidableEq, Repr

/-- Overflowed results (R87, Table 4-2). -/
def overflowed (f : FpFmt) (rc : Rnd) (neg : Bool) : Nat :=
  match rc with
  | .rne => f.inf neg
  | .rtz => f.maxFin neg
  | .rpi => if neg then f.maxFin true else f.inf false
  | .rmi => if neg then f.inf true else f.maxFin false

/-- Whether a kept magnitude rounds up: `rem` of `2 ^ sh` parts were cut off, `jam` says more lies below them. -/
def roundsUp (rc : Rnd) (neg : Bool) (keep rem sh : Nat) (jam : Bool) : Bool :=
  let inexact := rem != 0 || jam
  match rc with
  | .rtz => false
  | .rpi => inexact && !neg
  | .rmi => inexact && neg
  | .rne => 2 * rem > 2 ^ sh || (2 * rem == 2 ^ sh && sh != 0 && (jam || keep % 2 == 1))

/-- A magnitude `m * 2 ^ e`, and a little more where `jam`, cut to multiples of `2 ^ q`: the kept multiple after
rounding and whether the result is inexact. -/
def cutTo (rc : Rnd) (neg : Bool) (m : Nat) (e q : Int) (jam : Bool) : Nat × Bool :=
  if q ≤ e then (m * 2 ^ (e - q).toNat + (if roundsUp rc neg 0 0 0 jam then 1 else 0), jam)
  else
    let sh := (q - e).toNat
    if m.log2 + 2 < sh then
      let inexact := m != 0 || jam
      ((if inexact && ((rc == .rpi && !neg) || (rc == .rmi && neg)) then 1 else 0), inexact)
    else
      let keep := m / 2 ^ sh
      let rem := m % 2 ^ sh
      (keep + (if roundsUp rc neg keep rem sh jam then 1 else 0), rem != 0 || jam)

/-- Round the real `(-1)^neg * m * 2 ^ e` (and a little more in magnitude where `jam`) to a format, with overflow
(R87), tininess after rounding and flush (R88). A zero keeps its sign. Where `jam` is set, `m` must have more bits
than the format keeps. -/
def roundTo (f : FpFmt) (rc : Rnd) (ftz neg : Bool) (m : Nat) (e : Int) (jam : Bool) : FRes :=
  if m == 0 then ⟨f.zero neg, 0⟩
  else
    let top : Int := e + m.log2
    let q : Int := max (top - f.fbits) f.qmin
    let r := cutTo rc neg m e q jam
    let body := (q - f.qmin).toNat * 2 ^ f.fbits + r.1
    if f.infBits ≤ body then ⟨overflowed f rc neg, FpFlags.of ||| FpFlags.nx⟩
    else
      let subnormal := body < 2 ^ f.fbits && body != 0
      if ftz && subnormal then ⟨f.zero neg, FpFlags.uf ||| FpFlags.nx⟩
      else
        let wide := (cutTo rc neg m e (top - f.fbits) jam).1
        let tiny := top < f.qmin + f.fbits && !(top == f.qmin + f.fbits - 1 && wide == 2 ^ (f.fbits + 1))
        ⟨body + bit neg f.signBit, FpFlags.when r.2 FpFlags.nx ||| FpFlags.when (tiny && r.2) FpFlags.uf⟩

/-- Round the ratio `num / den`, of a sign, to a format. -/
def roundRatio (f : FpFmt) (rc : Rnd) (ftz neg : Bool) (num den : Nat) : FRes :=
  if num == 0 || den == 0 then ⟨f.zero neg, 0⟩
  else
    let k := den.log2 + 64
    roundTo f rc ftz neg (num * 2 ^ k / den) (-(k : Int)) (num * 2 ^ k % den != 0)

/-- Round the ratio of two naturals to an integer, ties to even. -/
def rneRatio (num den : Nat) : Nat :=
  let keep := num / den
  let rem := num % den
  if 2 * rem > den || (2 * rem == den && keep % 2 == 1) then keep + 1 else keep

end Sys2Proof
end

