-- ==== Sys2Proof/Machine/Float.lean ====
section
/-! DEFINITION. Floating-point values and the arithmetic of class FP (R129 to R137) and of the engines (R107). -/

namespace Sys2Proof

/-- A floating-point operand read exactly: `fin neg m e` is `(-1)^neg * m * 2 ^ e`. -/
inductive Fp where
  | nan (signalling : Bool)
  | inf (neg : Bool)
  | fin (neg : Bool) (m : Nat) (e : Int)
  deriving DecidableEq, Repr

namespace Fp

/-- The value of an encoding (R85, R86); under `ftz` a subnormal reads as zero of its sign (R88). -/
def read (f : FpFmt) (ftz : Bool) (x : Nat) : Fp :=
  let neg := x / f.signBit % 2 == 1
  let ex := x / 2 ^ f.fbits % 2 ^ f.ebits
  let fr := x % 2 ^ f.fbits
  if ex == 2 ^ f.ebits - 1 then (if fr == 0 then .inf neg else .nan (fr < 2 ^ (f.fbits - 1)))
  else if ex == 0 then .fin neg (if ftz then 0 else fr) f.qmin
  else .fin neg (2 ^ f.fbits + fr) (f.qmin + ex - 1)

def isNan : Fp → Bool
  | .nan _ => true
  | _ => false

def isSignalling : Fp → Bool
  | .nan s => s
  | _ => false

def isZero : Fp → Bool
  | .fin _ m _ => m == 0
  | _ => false

def isNeg : Fp → Bool
  | .nan _ => false
  | .inf n => n
  | .fin n _ _ => n

def negate : Fp → Fp
  | .nan s => .nan s
  | .inf n => .inf !n
  | .fin n m e => .fin (!n) m e

/-- The numerator of a finite value over `2 ^ e`, for `e` at most its own exponent. -/
def signedAt (neg : Bool) (m : Nat) (e goal : Int) : Int :=
  let x : Int := m * 2 ^ (e - goal).toNat
  if neg then -x else x

/-- A three-way comparison of numbers, -0 equal to +0: negative, zero or positive. Not used on a NaN. -/
def order (a b : Fp) : Int :=
  match a, b with
  | .nan _, _ => 0
  | _, .nan _ => 0
  | .inf n, .inf k => if n == k then 0 else if n then -1 else 1
  | .inf n, _ => if n then -1 else 1
  | _, .inf n => if n then 1 else -1
  | .fin n m e, .fin n' m' e' =>
    let lo := min e e'
    signedAt n m e lo - signedAt n' m' e' lo

/-- Write a value that needs no rounding back to its format. -/
def write (f : FpFmt) (x : Fp) : Nat :=
  match x with
  | .nan _ => f.nan
  | .inf n => f.inf n
  | .fin n m e => (roundTo f .rne false n m e false).bits

/-- NV where any operand is a signalling NaN (R86). -/
def signalFlags (xs : List Fp) : FpFlags := FpFlags.when (xs.any isSignalling) FpFlags.nv

/-- The exact sum of two finite values, rounded once; an exact zero takes the sign of R131. -/
def addFin (f : FpFmt) (rc : Rnd) (ftz : Bool) (n : Bool) (m : Nat) (e : Int) (n' : Bool) (m' : Nat) (e' : Int) : FRes :=
  let lo := min e e'
  let s := signedAt n m e lo + signedAt n' m' e' lo
  if s == 0 then ⟨f.zero (if m == 0 && m' == 0 && n == n' then n else rc == .rmi), 0⟩
  else roundTo f rc ftz (s < 0) s.natAbs lo false

/-- `a + b` (Table 5-7). -/
def add (f : FpFmt) (rc : Rnd) (ftz : Bool) (a b : Fp) : FRes :=
  match a, b with
  | .nan _, _ => ⟨f.nan, signalFlags [a, b]⟩
  | _, .nan _ => ⟨f.nan, signalFlags [a, b]⟩
  | .inf n, .inf k => if n == k then ⟨f.inf n, 0⟩ else ⟨f.nan, FpFlags.nv⟩
  | .inf n, _ => ⟨f.inf n, 0⟩
  | _, .inf n => ⟨f.inf n, 0⟩
  | .fin n m e, .fin n' m' e' => addFin f rc ftz n m e n' m' e'

/-- The exact product of two operands; none where it is `0 × ∞`. A NaN gives a NaN. -/
def product (a b : Fp) : Option Fp :=
  match a, b with
  | .nan s, _ => some (.nan s)
  | _, .nan s => some (.nan s)
  | .inf n, .inf k => some (.inf (n != k))
  | .inf n, .fin k m _ => if m == 0 then none else some (.inf (n != k))
  | .fin k m _, .inf n => if m == 0 then none else some (.inf (n != k))
  | .fin n m e, .fin n' m' e' => some (.fin (n != n') (m * m') (e + e'))

/-- `a * b` (Table 5-7). -/
def mul (f : FpFmt) (rc : Rnd) (ftz : Bool) (a b : Fp) : FRes :=
  match product a b with
  | none => ⟨f.nan, FpFlags.nv⟩
  | some (.nan _) => ⟨f.nan, signalFlags [a, b]⟩
  | some (.inf n) => ⟨f.inf n, 0⟩
  | some (.fin n m e) => roundTo f rc ftz n m e false

/-- `a * b + c` with one rounding (Table 5-7). -/
def fma (f : FpFmt) (rc : Rnd) (ftz : Bool) (a b c : Fp) : FRes :=
  match product a b with
  | none => ⟨f.nan, FpFlags.nv⟩
  | some p =>
    let r := add f rc ftz p c
    ⟨r.bits, r.flags ||| signalFlags [a, b, c]⟩

/-- Clamp to [0, 1] (R132). -/
def clamp01 (f : FpFmt) (x : Nat) : Nat :=
  match read f false x with
  | .nan _ => 0
  | .inf n => if n then 0 else f.bias * 2 ^ f.fbits
  | .fin n m _ => if n || m == 0 then 0 else min x (f.bias * 2 ^ f.fbits)

/-- The total order of minimumNumber: -0 is less than +0 (R91). -/
def less (a b : Fp) : Bool := order a b < 0 || (order a b == 0 && a.isNeg && !b.isNeg)

/-- minimumNumber or maximumNumber of two FP32 values (R91, R133). -/
def minMax (f : FpFmt) (isMax : Bool) (a b : Fp) : FRes :=
  let fl := signalFlags [a, b]
  if a.isNan && b.isNan then ⟨f.nan, fl⟩
  else if a.isNan then ⟨b.write f, fl⟩
  else if b.isNan then ⟨a.write f, fl⟩
  else ⟨(if (if isMax then less a b else less b a) then b else a).write f, fl⟩

/-- The outcome of a comparison and its flags (R134, Table 5-8). -/
def compare (cond : FCond) (a b : Fp) : Bool × FpFlags :=
  let un := a.isNan || b.isNan
  let o := order a b
  let ordered := cond == .lt || cond == .le || cond == .gt || cond == .ge
  let out :=
    match cond with
    | .eq => !un && o == 0
    | .ne => un || o != 0
    | .lt => !un && o < 0
    | .le => !un && o ≤ 0
    | .gt => !un && 0 < o
    | .ge => !un && 0 ≤ o
    | .un => un
    | .or => !un
  (out, signalFlags [a, b] ||| FpFlags.when (un && ordered) FpFlags.nv)

/-- The class mask of an FP32 value (Table 5-9). -/
def classMask (x : Fp) : Nat :=
  match x with
  | .nan s => if s then 1 else 2
  | .inf n => if n then 4 else 512
  | .fin n m _ =>
    if m == 0 then (if n then 32 else 64)
    else if m < 2 ^ 23 then (if n then 16 else 128)
    else (if n then 8 else 256)

/-- The integer that a rounding code selects from `(-1)^neg * m * 2 ^ e`, and whether it is inexact. -/
def toInt (rc : Rnd) (neg : Bool) (m : Nat) (e : Int) : Int × Bool :=
  let r := cutTo rc neg m e 0 false
  (if neg then -(r.1 : Int) else r.1, r.2)

/-- Round to an integral value; only NV is ever set (R136). -/
def integral (f : FpFmt) (rc : Rnd) (x : Fp) : FRes :=
  match x with
  | .nan s => ⟨f.nan, FpFlags.when s FpFlags.nv⟩
  | .inf n => ⟨f.inf n, 0⟩
  | .fin n m e => if 0 ≤ e then ⟨x.write f, 0⟩ else ⟨(roundTo f .rne false n (cutTo rc n m e 0 false).1 0 false).bits, 0⟩

/-- `a * 2 ^ n` (R137). -/
def scale (f : FpFmt) (rc : Rnd) (ftz : Bool) (a : Fp) (n : Int) : FRes :=
  match a with
  | .nan s => ⟨f.nan, FpFlags.when s FpFlags.nv⟩
  | .inf k => ⟨f.inf k, 0⟩
  | .fin k m e => roundTo f rc ftz k m (e + n) false

end Fp

/-- The format of one element of a packed or plain operand. -/
def FFmt.elem : FFmt → FpFmt
  | .f32 => .f32
  | .f16x2 => .f16
  | .bf16x2 => .bf16

/-- Apply an operation to each element of operands of a format and OR the flags (R90). -/
def onElems (fm : FFmt) (op : List Nat → FRes) (xs : List Nat) : FRes :=
  match fm with
  | .f32 => op xs
  | _ =>
    let lo := op (xs.map (· % 65536))
    let hi := op (xs.map (· / 65536 % 65536))
    ⟨lo.bits + 65536 * hi.bits, lo.flags ||| hi.flags⟩

/-- Clamp a result where the word says so (R132). -/
def clampRes (f : FpFmt) (cl : Bool) (r : FRes) : FRes := if cl then ⟨Fp.clamp01 f r.bits, r.flags⟩ else r

/-- Sum of FP32 bits with rne and no flag, as the engines form it (R106, R107). -/
def f32Add (a b : Nat) : Nat := (Fp.add .f32 .rne false (Fp.read .f32 false a) (Fp.read .f32 false b)).bits
/-- Product of FP32 bits with rne and no flag. -/
def f32Mul (a b : Nat) : Nat := (Fp.mul .f32 .rne false (Fp.read .f32 false a) (Fp.read .f32 false b)).bits
/-- Widen an FP16 or BF16 encoding to FP32 exactly, a NaN to the canonical NaN. -/
def widen (f : FpFmt) (x : Nat) : Nat := (Fp.read f false x).write .f32
/-- Round an FP32 encoding to a narrower format with rne. -/
def narrow (f : FpFmt) (x : Nat) : Nat :=
  match Fp.read .f32 false x with
  | .nan _ => f.nan
  | .inf n => f.inf n
  | .fin n m e => (roundTo f .rne false n m e false).bits

end Sys2Proof
end

