-- ==== Sys2Proof/Machine/Integer.lean ====
section
/-! DEFINITION. The integer results of class INT on operand values (R119 to R127). A 32-bit operand is held in the low
half of a 64-bit value. -/

namespace Sys2Proof

namespace IntTy

/-- Element width (R92). -/
def width : IntTy → Nat
  | .s32 => 32
  | .n32 => 32
  | .s64 => 64
  | .n64 => 64
  | .s16x2 => 16
  | .n16x2 => 16

def signed : IntTy → Bool
  | .s32 => true
  | .s64 => true
  | .s16x2 => true
  | _ => false

/-- An element read as the type reads it: two's complement or natural (R92). -/
def toInt (ty : IntTy) (x : Nat) : Int := if ty.signed && 2 ^ (ty.width - 1) ≤ x then (x : Int) - 2 ^ ty.width else x

/-- The range of the type (R92). -/
def lo (ty : IntTy) : Int := if ty.signed then -(2 ^ (ty.width - 1)) else 0
def hi (ty : IntTy) : Int := if ty.signed then 2 ^ (ty.width - 1) - 1 else 2 ^ ty.width - 1

/-- Saturate to the type or wrap modulo `2 ^ w` (R92). -/
def fit (ty : IntTy) (sat : Bool) (x : Int) : Nat :=
  ((if sat then max ty.lo (min ty.hi x) else x) % (2 ^ ty.width : Int)).toNat

/-- The elements of an operand, element 0 first. -/
def elems (ty : IntTy) (x : Dword) : List Nat :=
  match ty with
  | .s64 => [x.toNat]
  | .n64 => [x.toNat]
  | .s32 => [x.toNat % 2 ^ 32]
  | .n32 => [x.toNat % 2 ^ 32]
  | _ => [x.toNat % 2 ^ 16, x.toNat / 2 ^ 16 % 2 ^ 16]

/-- The operand that elements make, element 0 in the low bits. -/
def join (ty : IntTy) (xs : List Nat) : Dword :=
  match xs with
  | [x] => BitVec.ofNat 64 x
  | x :: y :: _ => if ty.width == 16 then BitVec.ofNat 64 (x + 2 ^ 16 * y) else BitVec.ofNat 64 x
  | [] => 0

/-- Apply an element operation to two operands (R120). -/
def map2 (ty : IntTy) (f : Nat → Nat → Nat) (a b : Dword) : Dword := ty.join ((ty.elems a).zipWith f (ty.elems b))

/-- Apply an element operation to one operand. -/
def map1 (ty : IntTy) (f : Nat → Nat) (a : Dword) : Dword := ty.join ((ty.elems a).map f)

end IntTy

namespace IntOp

/-- `a + b` (Table 5-4). -/
def add (ty : IntTy) (sat : Bool) (a b : Dword) : Dword := ty.map2 (fun x y => ty.fit sat (ty.toInt x + ty.toInt y)) a b
/-- `a - b`. -/
def sub (ty : IntTy) (sat : Bool) (a b : Dword) : Dword := ty.map2 (fun x y => ty.fit sat (ty.toInt x - ty.toInt y)) a b
/-- `a * b`, or its high half. -/
def mul (ty : IntTy) (sat hi : Bool) (a b : Dword) : Dword :=
  ty.map2 (fun x y => let p := ty.toInt x * ty.toInt y; if hi then ty.fit false (p / 2 ^ ty.width) else ty.fit sat p) a b
/-- `a * b + c`. -/
def mad (ty : IntTy) (sat : Bool) (a b c : Dword) : Dword :=
  ty.join (((ty.elems a).zip (ty.elems b)).zipWith (fun xy z => ty.fit sat (ty.toInt xy.1 * ty.toInt xy.2 + ty.toInt z)) (ty.elems c))
def min (ty : IntTy) (a b : Dword) : Dword := ty.map2 (fun x y => if ty.toInt y < ty.toInt x then y else x) a b
def max (ty : IntTy) (a b : Dword) : Dword := ty.map2 (fun x y => if ty.toInt x < ty.toInt y then y else x) a b
def abs (ty : IntTy) (sat : Bool) (a : Dword) : Dword := ty.map1 (fun x => ty.fit sat ((ty.toInt x).natAbs : Int)) a
/-- The negation of each element (R60, R117). -/
def neg (ty : IntTy) (a : Dword) : Dword := ty.map1 (fun x => ty.fit false (-(ty.toInt x))) a

/-- The amounts of a shift: the elements of SB, natural numbers of 32 bits or of 16 (R121). -/
def amounts (ty : IntTy) (b : Dword) : List Nat :=
  if ty.width == 16 then [b.toNat % 2 ^ 16, b.toNat / 2 ^ 16 % 2 ^ 16] else [b.toNat % 2 ^ 32]

def shl1 (ty : IntTy) (sat : Bool) (x n : Nat) : Nat :=
  let a := ty.toInt x
  if ty.width ≤ n then
    (if sat then (if a == 0 then 0 else if 0 < a then ty.fit false ty.hi else ty.fit false ty.lo) else 0)
  else ty.fit sat (a * 2 ^ n)
def shr1 (ty : IntTy) (x n : Nat) : Nat :=
  let a := ty.toInt x
  if ty.width ≤ n then (if a < 0 then 2 ^ ty.width - 1 else 0) else ty.fit false (a / 2 ^ n)
def rot1 (ty : IntTy) (x n : Nat) : Nat :=
  let k := n % ty.width
  (x * 2 ^ k) % 2 ^ ty.width + x / 2 ^ (ty.width - k)

/-- `a * 2 ^ n` (R121). -/
def shl (ty : IntTy) (sat : Bool) (a b : Dword) : Dword := ty.join ((ty.elems a).zipWith (shl1 ty sat) (amounts ty b))
/-- `floor (a / 2 ^ n)` (R121). -/
def shr (ty : IntTy) (a b : Dword) : Dword := ty.join ((ty.elems a).zipWith (shr1 ty) (amounts ty b))
/-- Rotate left (R121). -/
def rot (ty : IntTy) (a b : Dword) : Dword := ty.join ((ty.elems a).zipWith (rot1 ty) (amounts ty b))

/-- Extract a field (R122). -/
def bfe (ty : IntTy) (a fd : Dword) : Dword :=
  let w := ty.width
  let s := fd.toNat % 128
  let len := Nat.min (fd.toNat / 128 % 128) w
  let wide := (ty.toInt ((ty.elems a).headD 0)) / 2 ^ s % 2 ^ len
  let x : Int := if ty.signed && 0 < len && 2 ^ (len - 1) ≤ wide then wide - 2 ^ len else wide
  BitVec.ofNat 64 (ty.fit false x)

/-- Insert a field (R122). -/
def bfi (ty : IntTy) (a b fd : Dword) : Dword :=
  let w := ty.width
  let s := fd.toNat % 128
  let len := Nat.min (fd.toNat / 128 % 128) w
  let mask := (2 ^ len - 1) * 2 ^ s % 2 ^ w
  let x := a.toNat * 2 ^ s % 2 ^ w
  BitVec.ofNat 64 ((x &&& mask) ||| ((b.toNat % 2 ^ w) &&& (2 ^ w - 1 - mask)))

def ones : Nat → Nat → Nat
  | 0, _ => 0
  | n + 1, x => x % 2 + ones n (x / 2)

def reverse : Nat → Nat → Nat
  | 0, _ => 0
  | n + 1, x => x % 2 * 2 ^ n + reverse n (x / 2)

/-- Set bits (R123). -/
def popc (ty : IntTy) (a : Dword) : Dword := BitVec.ofNat 64 (ones ty.width (a.toNat % 2 ^ ty.width))
/-- Zero bits above the highest set bit (R123). -/
def clz (ty : IntTy) (a : Dword) : Dword :=
  let x := a.toNat % 2 ^ ty.width
  BitVec.ofNat 64 (if x == 0 then ty.width else ty.width - 1 - x.log2)
/-- Bits in the other order (R123). -/
def brev (ty : IntTy) (a : Dword) : Dword := BitVec.ofNat 64 (reverse ty.width (a.toNat % 2 ^ ty.width))

/-- The outcome of a comparison (R124). -/
def compare (cond : ICond) (ty : IntTy) (a b : Dword) : Bool :=
  let x := ty.toInt ((ty.elems a).headD 0)
  let y := ty.toInt ((ty.elems b).headD 0)
  match cond with
  | .eq => x == y
  | .ne => x != y
  | .lt => x < y
  | .le => x ≤ y
  | .gt => y < x
  | .ge => y ≤ x

/-- `a + (ext b << n)` (R126). -/
def lea (ty : IntTy) (sh : BitVec 3) (a b : Dword) : Dword :=
  let x := b.extractLsb' 0 32
  a + ((if ty.signed then x.signExtend 64 else x.zeroExtend 64) <<< sh.toNat)

/-- The sum of `iaddc` and its carry (R127). -/
def addc (a b c : Dword) : Nat := a.toNat % 2 ^ 32 + b.toNat % 2 ^ 32 + c.toNat % 2

end IntOp

end Sys2Proof
end

