-- ==== Sys2Proof/Machine/Operands.lean ====
section
/-! DEFINITION. How a source field's value is formed: immediates and the negate and absolute-value modifiers. -/

namespace Sys2Proof

/-- How an instruction reads a source (R60, R61, R117): a 32-bit or 64-bit integer, packed 16-bit integers, an FP32
value, packed FP elements, or one 16-bit FP value in bits 15:0. -/
inductive Rd where
  | i32 | i64 | i16x2 | f32 | f2 (fm : FpFmt) | f1 (fm : FpFmt)
  deriving DecidableEq, Repr

namespace Rd

/-- The reading of an operand of an integer type. -/
def ofInt (ty : IntTy) : Rd :=
  match ty.width with
  | 16 => .i16x2
  | 64 => .i64
  | _ => .i32

/-- The reading of an operand of a format of classes FP and SFU. -/
def ofFmt : FFmt → Rd
  | .f32 => .f32
  | .f16x2 => .f2 .f16
  | .bf16x2 => .f2 .bf16

/-- The reading of an operand of a type code (R139). -/
def ofTy : Ty → Rd
  | .f32 => .f32
  | .f16 => .f1 .f16
  | .bf16 => .f1 .bf16
  | .s64 => .i64
  | .n64 => .i64
  | _ => .i32

/-- Two copies of a 16-bit value. -/
def twice (x : Nat) : Dword := BitVec.ofNat 64 (x + 65536 * x)

/-- The value of a short immediate (R61). -/
def imm (r : Rd) (x : BitVec 14) : Dword :=
  match r with
  | .i32 => (x.signExtend 32).zeroExtend 64
  | .i64 => x.signExtend 64
  | .i16x2 => twice (x.signExtend 16).toNat
  | .f32 => BitVec.ofNat 64 (x.toNat * 2 ^ 18)
  | .f2 fm => twice (narrow fm (x.toNat * 2 ^ 18))
  | .f1 fm => twice (narrow fm (x.toNat * 2 ^ 18))

/-- The sign bits of a floating-point reading. -/
def signMask : Rd → Dword
  | .f32 => 0x80000000
  | .f2 _ => 0x80008000
  | .f1 _ => 0x8000
  | _ => 0

/-- Absolute value, which only floating-point operands take (R60). -/
def abs (r : Rd) (x : Dword) : Dword := x &&& ~~~r.signMask

/-- Negation: the sign bit of a floating-point operand, two's complement of an integer one (R60, R117). -/
def neg (r : Rd) (x : Dword) : Dword :=
  match r with
  | .i32 => IntOp.neg .s32 x
  | .i64 => IntOp.neg .s64 x
  | .i16x2 => IntOp.neg .s16x2 x
  | _ => x ^^^ r.signMask

/-- A register value with its modifiers applied, absolute value before negation (R60). -/
def modify (r : Rd) (neg abs : Bool) (x : Dword) : Dword :=
  let y := if abs then r.abs x else x
  if neg then r.neg y else y

end Rd

end Sys2Proof
end

