-- ==== Sys2Proof/Machine/Convert.lean ====
section
/-! DEFINITION. Conversions, quantisation and bit planes on operand values (R138 to R148, R97 to R104). -/

namespace Sys2Proof

/-- The integer width of a type code; 32 for the types that are not integers. -/
def Ty.iwidth : Ty → Nat
  | .s16 => 16
  | .n16 => 16
  | .s8 => 8
  | .n8 => 8
  | .s64 => 64
  | .n64 => 64
  | _ => 32

def Ty.isSigned : Ty → Bool
  | .s32 => true
  | .s16 => true
  | .s8 => true
  | .s64 => true
  | _ => false

/-- The floating-point format a type code names. -/
def Ty.fp : Ty → FpFmt
  | .f16 => .f16
  | .bf16 => .bf16
  | _ => .f32

/-- The range of an integer type (R92). -/
def Ty.lo (t : Ty) : Int := if t.isSigned then -(2 ^ (t.iwidth - 1)) else 0
def Ty.hi (t : Ty) : Int := if t.isSigned then 2 ^ (t.iwidth - 1) - 1 else 2 ^ t.iwidth - 1

/-- The integer that the low bits of a register hold in a type (R139). -/
def Ty.readInt (t : Ty) (x : Dword) : Int :=
  let v := x.toNat % 2 ^ t.iwidth
  if t.isSigned && 2 ^ (t.iwidth - 1) ≤ v then (v : Int) - 2 ^ t.iwidth else v

/-- The register value of an integer in a type's range: sign- or zero-extended to 32 bits, or 64 bits (R139). -/
def Ty.writeInt (t : Ty) (x : Int) : Nat := (x % (2 ^ (if t.wd == .w64 then 64 else 32) : Int)).toNat

def Ty.clamp (t : Ty) (x : Int) : Int := max t.lo (min t.hi x)

/-- The exact value of a source of a conversion: an FP value, or an integer as one with exponent 0. -/
def Ty.readExact (t : Ty) (x : Dword) : Fp :=
  if t.isFp then Fp.read t.fp false (x.toNat % 2 ^ t.fp.width)
  else
    let v := t.readInt x
    .fin (v < 0) v.natAbs 0

/-- Convert an exact value, a NaN or an infinity to a destination type (Table 6-2). -/
def convertTo (dt : Ty) (rc : Rnd) (x : Fp) : FRes :=
  if dt.isFp then
    match x with
    | .nan s => ⟨dt.fp.nan, FpFlags.when s FpFlags.nv⟩
    | .inf n => ⟨dt.fp.inf n, 0⟩
    | .fin n m e => roundTo dt.fp rc false n m e false
  else
    match x with
    | .nan _ => ⟨0, FpFlags.nv⟩
    | .inf n => ⟨dt.writeInt (if n then dt.lo else dt.hi), FpFlags.nv⟩
    | .fin n m e =>
      let r := Fp.toInt rc n m (if 70 < e && m != 0 then 70 else e)
      if r.1 < dt.lo then ⟨dt.writeInt dt.lo, FpFlags.nv⟩
      else if dt.hi < r.1 then ⟨dt.writeInt dt.hi, FpFlags.nv⟩
      else ⟨dt.writeInt r.1, FpFlags.when r.2 FpFlags.nx⟩

/-- `cvt` (R140): integers convert to integers by clamping, without flags. -/
def convert (dt st : Ty) (rc : Rnd) (x : Dword) : FRes :=
  if dt.isInt && st.isInt then ⟨dt.writeInt (dt.clamp (st.readInt x)), 0⟩
  else convertTo dt rc (st.readExact x)

/-- `cvti` (R141): the exact value `a * 2 ^ n`. -/
def convertScaled (dt st : Ty) (rc : Rnd) (x : Dword) (n : Int) : FRes :=
  match st.readExact x with
  | .fin k m e => convertTo dt rc (.fin k m (e + n))
  | y => convertTo dt rc y

/-- `pk16` (R142). -/
def pack16 (dt st : Ty) (rc : Rnd) (a b : Dword) : FRes :=
  let x := convert dt st rc a
  let y := convert dt st rc b
  ⟨x.bits % 65536 + 65536 * (y.bits % 65536), x.flags ||| y.flags⟩

/-- `upk16` (R143). -/
def unpack16 (dt st : Ty) (a : Dword) (e : Nat) : FRes := convert dt st .rne (a >>> (16 * e))

/-- Whether a format word is invalid (R104); `qnt` ignores PLANES. -/
def fmtInvalid (planesToo : Bool) (w : Word) : Bool :=
  let x := w.toNat
  let kind := x % 16
  x / 4096 != 0 || 3 < kind
    || (kind == 3 && ((planesToo && x / 16 % 8 == 0) || 7 < x / 256 % 16))
    || (kind < 3 && x / 16 % 256 != 0)

/-- The format words two lanes must agree in for `qnt`: KIND, TABLE and the reserved bits (R146). -/
def fmtKey (planesToo : Bool) (w : Word) : Word := if planesToo then w else w &&& 0xFFFFFF0F#32

def fmtTable (w : Word) : Nat := w.toNat / 256 % 16
def fmtMid (w : Word) : Bool := w.getLsbD 7
def fmtPlanes (w : Word) : Nat := w.toNat / 16 % 8 + 1
def fmtKind (w : Word) : Nat := w.toNat % 16

/-- The 17 breakpoints of a companding table as FP32 bits, x before y (R99). -/
abbrev CmpTable := List (Word × Word)

/-- The identity of table 0 and of tables not loaded: breakpoints at multiples of 1/16 (R99). -/
def cmpIdentity : CmpTable :=
  (List.range 17).map fun i => let b := BitVec.ofNat 32 (roundRatio .f32 .rne false false i 16).bits; (b, b)

/-- A non-negative finite FP32 value times `2 ^ 149`. -/
def f32Scaled (x : Word) : Nat :=
  match Fp.read .f32 false x.toNat with
  | .fin _ m e => m * 2 ^ (e + 149).toNat
  | _ => 0

/-- The piecewise-linear function through breakpoints, from coordinate lists scaled by `2 ^ 149`, at `num / den`:
the exact result as a ratio. Beyond the last breakpoint the last segment extends (R99). -/
def piecewise : List (Nat × Nat) → Nat → Nat → Nat × Nat
  | (x0, y0) :: (x1, y1) :: rest, num, den =>
    if num * 2 ^ 149 < x1 * den || rest.isEmpty then
      let dx := x1 - x0
      let dy := y1 - y0
      (y0 * den * dx + (num * 2 ^ 149 - x0 * den) * dy, den * dx * 2 ^ 149)
    else piecewise ((x1, y1) :: rest) num den
  | _, num, den => (num, den)

/-- `C_t` at a ratio. -/
def compand (t : CmpTable) (num den : Nat) : Nat × Nat := piecewise (t.map fun p => (f32Scaled p.1, f32Scaled p.2)) num den
/-- The inverse of `C_t` at a ratio. -/
def expand (t : CmpTable) (num den : Nat) : Nat × Nat := piecewise (t.map fun p => (f32Scaled p.2, f32Scaled p.1)) num den

/-- A magnitude as a ratio of naturals; none for an infinity or a NaN. -/
def Fp.ratio : Fp → Option (Nat × Nat)
  | .fin _ m e => some (m * 2 ^ e.toNat, 2 ^ (-e).toNat)
  | _ => none

/-- Whether a scale is positive and finite (R100). -/
def scaleOk : Fp → Bool
  | .fin n m _ => !n && m != 0
  | _ => false

/-- The word of `qnt` (R100, R144) and its flags.
DESIGN CHOICE (log 68; unsafe). -/
def quantise (t : CmpTable) (x s theta : Word) : FRes :=
  let fx := Fp.read .f32 false x.toNat
  let fs := Fp.read .f32 false s.toNat
  let ft := Fp.read .f32 false theta.toNat
  if !scaleOk fs then ⟨256, FpFlags.nv⟩
  else
    match fs.ratio with
    | none => ⟨256, FpFlags.nv⟩
    | some (sn, sd) =>
      let code (c : Nat) : FRes := ⟨if fx.isNeg then (256 - c) % 256 else c, 0⟩
      match fx, ft with
      | .nan _, _ => ⟨256, 0⟩
      | _, .nan _ => ⟨256, 0⟩
      | .inf _, .inf n => if n then ⟨256, 0⟩ else code 127
      | .inf _, .fin _ _ _ => ⟨256, 0⟩
      | .fin _ m e, th =>
        let num := m * 2 ^ e.toNat * sd
        let den := 2 ^ (-e).toNat * sn
        let within :=
          match th with
          | .nan _ => false
          | .inf n => !n
          | .fin n tm te => num * 2 ^ (-te).toNat ≤ (if n then 0 else tm) * 2 ^ te.toNat * den && (!n || tm == 0)
        if !within then ⟨256, 0⟩
        else
          let c := compand t num den
          code (min 127 (rneRatio (127 * c.1) c.2))

/-- The integer reconstructed from the first `k` planes of a code (R98). -/
def reconstruct (k : Nat) (mid : Bool) (c : Int) : Int :=
  let d : Int := 2 ^ (8 - k)
  c / d * d + (if k < 8 && mid then 2 ^ (7 - k) else 0)

/-- The value of a reconstructed integer under a table and a scale, rounded to BF16 (R101). -/
def decodeBpi (t : CmpTable) (r : Int) (s : Word) : FRes :=
  match Fp.read .f32 false s.toNat with
  | .nan sg => ⟨FpFmt.bf16.nan, FpFlags.when sg FpFlags.nv⟩
  | .inf n => if r == 0 then ⟨0, 0⟩ else ⟨FpFmt.bf16.inf ((r < 0) != n), 0⟩
  | .fin n m e =>
    if r == 0 then ⟨0, 0⟩
    else if m == 0 then ⟨FpFmt.bf16.zero ((r < 0) != n), 0⟩
    else
      let c := expand t r.natAbs 127
      roundRatio .bf16 .rne false ((r < 0) != n) (c.1 * m * 2 ^ e.toNat) (c.2 * 2 ^ (-e).toNat)

/-- The signed code in bits 7:0. -/
def codeOf (x : Word) : Int := Ty.readInt .s8 (x.zeroExtend 64)

/-- `dqnt` (R145): an outlier decodes to +0. -/
def dequantise (dt : Ty) (t : CmpTable) (x fw s : Word) : FRes :=
  if x.getLsbD 8 then ⟨0, 0⟩
  else
    let r := decodeBpi t (reconstruct (fmtPlanes fw) (fmtMid fw) (codeOf x)) s
    ⟨if dt == .f32 then r.bits * 65536 else r.bits, r.flags⟩

/-- `bpr` (R148). -/
def planeInsert (c w : Word) (j p : Nat) : Word :=
  let m : Word := 1 <<< (7 - p)
  let b := w.getLsbD (j % 32)
  ((c &&& 0xFF) &&& ~~~m) ||| (if b then m else 0)

end Sys2Proof
end

