-- ==== Sys2Proof/Machine/Translate.lean ====
section
/-! DEFINITION. Page-table walks, translation caches, dirty bits and the dirty log, and the checks of an address. -/

namespace Sys2Proof.Machine

namespace Pte

/-- The fields of a page-table entry (Table 8-4). -/
def v (e : Dword) : Bool := e.getLsbD 0
def leaf (e : Dword) : Bool := e.getLsbD 1
def r (e : Dword) : Bool := e.getLsbD 2
def w (e : Dword) : Bool := e.getLsbD 3
def x (e : Dword) : Bool := e.getLsbD 4
def d (e : Dword) : Bool := e.getLsbD 5
def alg (e : Dword) : Nat := (e.extractLsb' 7 3).toNat
def cls (e : Dword) : Nat := (e.extractLsb' 10 2).toNat
def addr (e : Dword) : Nat := (e.extractLsb' 12 48).toNat * 4096

/-- Whether a valid entry at a level is malformed (R200). `bits` is the page size of a leaf at the level. -/
def malformed (level bits : Nat) (e : Dword) : Bool :=
  (e.extractLsb' 60 4) != 0 || e.getLsbD 6
    || (if leaf e then
          level == 0 || addr e % 2 ^ bits != 0 || cls e == 3 || (w e && !r e) || (alg e != 0 && cls e != 0)
            || !(isDram (addr e) || isDevice (addr e)) || (isDevice (addr e) && cls e != 2)
        else level == 3 || e.extractLsb' 2 10 != 0)

end Pte

/-- The table index of a level, and the page size of a leaf there (Table 8-3). -/
def levelIndex (level : Nat) (va : Nat) : Nat :=
  match level with
  | 0 => va / 2 ^ 41 % 2 ^ 15
  | 1 => va / 2 ^ 25 % 2 ^ 16
  | 2 => va / 2 ^ 21 % 2 ^ 4
  | _ => va / 2 ^ 16 % 2 ^ 5
def levelBits (level : Nat) : Nat :=
  match level with
  | 0 => 41
  | 1 => 25
  | 2 => 21
  | _ => 16

/-- Walk from a table at a level down; `fuel` levels remain. A failure says whether an entry was malformed (R200). -/
def walkFrom (mem : Cells 8) (va : Nat) : Nat → Nat → Nat → Except Bool Leaf
  | 0, _, _ => .error true
  | fuel + 1, level, table =>
    let ptr := table + 8 * levelIndex level va
    let e := BitVec.ofNat 64 (leNat (Cells.bytes mem ptr 8))
    if !Pte.v e then .error false
    else if Pte.malformed level (levelBits level) e then .error true
    else if Pte.leaf e then .ok ⟨e, levelBits level, ptr⟩
    else walkFrom mem va fuel (level + 1) (Pte.addr e)

/-- Walk a context's page table (R198). -/
def State.walk (s : State) (c : Context) (va : Nat) : Except Bool Leaf := walkFrom s.mem va 4 0 (s.gpaOf c.ptroot)

/-- The entries that a walk reads, the levels in order (R198). -/
def walkReads (mem : Cells 8) (va : Nat) : Nat → Nat → Nat → List Nat
  | 0, _, _ => []
  | fuel + 1, level, table =>
    let ptr := table + 8 * levelIndex level va
    let e := BitVec.ofNat 64 (leNat (Cells.bytes mem ptr 8))
    ptr :: (if !Pte.v e || Pte.malformed level (levelBits level) e || Pte.leaf e then [] else walkReads mem va fuel (level + 1) (Pte.addr e))

/-- The reads of a walk, each at its agent (R193, R383). -/
def State.walked (s : State) (core : Nat) (c : Context) (va : Nat) : State :=
  (walkReads s.mem va 4 0 (s.gpaOf c.ptroot)).foldl (fun s p => s.visit c.ctx (.core core) 0 p true) s

/-- The bytes that a table of a level takes (Table 8-3). -/
def tableBytes (level : Nat) : Nat :=
  match level with
  | 0 => 8 * 2 ^ 15
  | 1 => 8 * 2 ^ 16
  | 2 => 8 * 2 ^ 4
  | _ => 8 * 2 ^ 5

/-- Whether a table at a level, or one below it, leads to an address by a page of class 0; `fuel` levels remain. -/
def leadsTo (mem : Cells 8) (gpa : Nat) : Nat → Nat → Nat → Bool
  | 0, _, _ => false
  | fuel + 1, level, table =>
    let ptrs := ((mem.filter fun p => table ≤ p.1 && p.1 < table + tableBytes level).map fun p => p.1 / 8 * 8).eraseDups
    ptrs.any fun ptr =>
      let e := BitVec.ofNat 64 (leNat (Cells.bytes mem ptr 8))
      Pte.v e && !Pte.malformed level (levelBits level) e
        && (if Pte.leaf e then Pte.cls e == 0 && Pte.addr e ≤ gpa && gpa < Pte.addr e + 2 ^ levelBits level else leadsTo mem gpa fuel (level + 1) (Pte.addr e))

/-- Whether a context's page table leads to an address by a page that takes operators (R198, R203). -/
def State.maps (s : State) (c : Context) (gpa : Nat) : Bool := leadsTo s.mem gpa 4 0 (s.gpaOf c.ptroot)

/-- A cached translation that covers an address (R197). -/
def findTlb (ctx va : Nat) (l : List TlbEntry) : Option TlbEntry := l.find? fun e => e.ctx == ctx && e.page == va / 2 ^ e.bits

def addTlb (cap ctx va : Nat) (f : Leaf) (l : List TlbEntry) : List TlbEntry :=
  (⟨ctx, va / 2 ^ f.bits, f.bits, f.e, f.ptr⟩ :: l.filter fun e => !(e.ctx == ctx && e.page == va / 2 ^ e.bits)).take cap

def State.fillTlb (s : State) (core ctx va : Nat) (f : Leaf) : State :=
  let s := s.modCore core fun c => { c with tlb := addTlb 256 ctx va f c.tlb }
  s.modDie (dieOf core) fun d => { d with tlb := addTlb 24576 ctx va f d.tlb }

/-- Translate through a core: by the entry as memory holds it, or by a cached copy that no `tlbi` has dropped; which
of the two, where they differ, is free (R197, R202).
DESIGN CHOICE (log 15; unsafe). -/
def State.translate (s : State) (core : Nat) (c : Context) (va : Nat) : Except Bool Leaf × State :=
  let now := s.walk c va
  let cached :=
    match findTlb c.ctx va (s.core core).tlb with
    | some e => some e
    | none => (s.die? (dieOf core)).bind fun d => findTlb c.ctx va d.tlb
  match cached with
  | none => let s := s.walked core c va; (now, match now with | .ok f => s.fillTlb core c.ctx va f | .error _ => s)
  | some e =>
    let old : Leaf := ⟨e.leaf, e.bits, e.ptr⟩
    if (match now with | .ok f => f == old | .error _ => false) then (now, s)
    else
      let (keep, s) := s.freeBool
      if keep then (.ok old, s) else let s := s.walked core c va; (now, match now with | .ok f => s.fillTlb core c.ctx va f | .error _ => s)

/-- The global physical address under a leaf. -/
def Leaf.gpa (f : Leaf) (va : Nat) : Nat := Pte.addr f.e / 2 ^ f.bits * 2 ^ f.bits + va % 2 ^ f.bits

/-- What an access needs of its page. -/
structure Need where
  r : Bool
  w : Bool
  x : Bool
  deriving DecidableEq, Repr

def Need.read : Need := ⟨true, false, false⟩
def Need.write : Need := ⟨false, true, false⟩
def Need.both : Need := ⟨true, true, false⟩
def Need.fetch : Need := ⟨false, false, true⟩

def Need.ok (n : Need) (e : Dword) : Bool := (!n.r || Pte.r e) && (!n.w || Pte.w e) && (!n.x || Pte.x e)

/-- Whether the size is refused by the page: narrow on an algebra page, or not 32 or 64 bits on a class-2 page (R200). -/
def sizeRefused (e : Dword) (size : Nat) : Bool :=
  (size < 4 && Pte.alg e != 0) || ((size < 4 || size == 16) && Pte.cls e == 2)

/-- Whether the context's range table on a die covers a byte of an access (R219, R351). -/
def rangeHit (c : Context) (die va size : Nat) : Bool :=
  c.ranges.any fun r => r.die == die && r.base < va + size && va < r.base + r.len

/-- What a checked virtual address gives. -/
structure Checked where
  gpa : Nat
  leaf : Leaf
  deriving DecidableEq, Repr

/-- The faults of an address alone: PROT for bits 63:56, then ALIGN (R219).
DEDUCED (log 34; unsafe). -/
def vaFault (va : Dword) (align : Nat) : Option Flt :=
  if va.extractLsb' 56 8 != 0 then some (Flt.at' Code.prot va) else if va.toNat % align != 0 then some (Flt.at' Code.align va) else none

/-- What a translation gives an access: PGF, PROT for permission or size, ATOMIO for an operator on a page that is not
of class 0 (R203, R307), RNGC; or the address (R200, R219).
DEDUCED (log 34; unsafe). -/
def leafCheck (core : Nat) (c : Context) (va : Dword) (size : Nat) (need : Need) (operator ranged : Bool) (r : Except Bool Leaf) : Except Flt Checked :=
  match r with
  | .error bad => .error { Flt.at' Code.pgf va with alt := bad }
  | .ok f =>
    if !need.ok f.e || sizeRefused f.e size then .error (Flt.at' Code.prot va)
    else if operator && Pte.cls f.e != 0 then .error (Flt.at' Code.atomio va)
    else if ranged && rangeHit c (dieOf core) va.toNat size then .error (Flt.at' Code.rngc va)
    else .ok ⟨f.gpa va.toNat, f⟩

/-- Check one virtual access in the order of R219.
DEDUCED (log 34; unsafe). -/
def State.checkVa (s : State) (core : Nat) (c : Context) (va : Dword) (size align : Nat) (need : Need) (operator ranged : Bool) :
    Except Flt Checked × State :=
  match vaFault va align with
  | some f => (.error f, s)
  | none =>
    let r := s.translate core c va.toNat
    (leafCheck core c va size need operator ranged r.1, r.2)

/-- The translations that one instruction has made: each page once (R197). -/
structure Seen where
  bits : Nat
  page : Nat
  got : Except Bool Leaf
  deriving Repr

def seenPage (va : Nat) (l : List Seen) : Option (Except Bool Leaf) := (l.find? fun e => va / 2 ^ e.bits == e.page).map (·.got)

/-- Check one lane's access, translating its page unless another lane of the instruction has. -/
def State.checkSeen (s : State) (seen : List Seen) (core : Nat) (c : Context) (va : Dword) (size align : Nat) (need : Need) (operator ranged : Bool) :
    Except Flt Checked × List Seen × State :=
  match vaFault va align with
  | some f => (.error f, seen, s)
  | none =>
    match seenPage va.toNat seen with
    | some r => (leafCheck core c va size need operator ranged r, seen, s)
    | none =>
      let r := s.translate core c va.toNat
      let bits := match r.1 with | .ok f => f.bits | .error _ => 16
      (leafCheck core c va size need operator ranged r.1, ⟨bits, va.toNat / 2 ^ bits, r.1⟩ :: seen, r.2)

/-- The outcome of the read-and-set of a dirty bit. -/
inductive Dirtied where
  | done (s : State)
  | full
  | flt (f : Flt)
  deriving DecidableEq, Repr

/-- Room in a context's dirty log (R206); a context without a log always has it (R205). -/
def Context.logRoom (c : Context) : Bool := c.dln == 0 || (c.dlhead - c.dltail).toNat < 2 ^ c.dln

/-- The dirty-log entry of a page at a head index (Table 8-5). -/
def dirtyEntry (n : Nat) (head : Word) (bits va : Nat) : Nat :=
  head.toNat / 2 ^ n % 2 * 2 ^ 63 + (if bits == 21 then 1 else if bits == 25 then 2 else 0) * 2 ^ 56
    + va / 2 ^ bits * 2 ^ bits / 2 ^ 16 % 2 ^ 40 * 2 ^ 16

/-- The device's own writes to a record in memory, at a byte offset of it. -/
def State.writeRec (s : State) (c : Context) (off n x : Nat) : State := s.write (s.gpaOf (c.record + off)) (toLe n x)

/-- The indivisible read-and-set of D before a write through a leaf, with its dirty-log entry (R204 to R206).
DESIGN CHOICE (log 17, 72; unsafe). -/
def State.dirty (s : State) (ctx : Nat) (va : Dword) (f : Leaf) : Dirtied :=
  if Pte.d f.e then .done s
  else
    match s.ctx? ctx with
    | none => .done s
    | some c =>
      let s := s.visit ctx (.core (c.lmap.headD 0)) 0 f.ptr true
      let e := BitVec.ofNat 64 (s.readNat f.ptr 8)
      if !Pte.v e then .flt { Flt.at' Code.pgf va with alt := false }
      else if !Pte.leaf e || Pte.malformed (if f.bits == 16 then 3 else if f.bits == 21 then 2 else 1) f.bits e then
        .flt { Flt.at' Code.pgf va with alt := true }
      else if !Pte.w e then .flt (Flt.at' Code.prot va)
      else if Pte.d e then .done s
      else if !c.logRoom then .full
      else
        let s := s.write f.ptr (toLe 8 (e ||| 32#64).toNat)
        let fix (l : List TlbEntry) : List TlbEntry := modWhere (·.ptr == f.ptr) (fun t => { t with leaf := t.leaf ||| 32#64 }) l
        let s := { s with cores := s.cores.map fun p => (p.1, { p.2 with tlb := fix p.2.tlb })
                          dies := s.dies.map fun d => { d with tlb := fix d.tlb } }
        if c.dln == 0 then .done s
        else
          let h := c.dlhead
          let slot := s.gpaOf (c.dlbase + 8 * (h.toNat % 2 ^ c.dln))
          let s := (s.visit ctx (.core (c.lmap.headD 0)) 0 slot false).write slot (toLe 8 (dirtyEntry c.dln h f.bits va.toNat))
          let s := s.writeRec c 40 4 (h + 1).toNat
          .done (s.modCtx ctx fun c => { c with dlhead := h + 1 })

/-- Drop the translations of a context that cover an address, or all of them, from every cache of the chip (R353). -/
def State.dropTlb (s : State) (ctx : Nat) (va : Option Nat) : State :=
  let keep (l : List TlbEntry) : List TlbEntry :=
    l.filter fun e => !(e.ctx == ctx && (match va with | none => true | some a => e.page == a / 65536 * 65536 / 2 ^ e.bits))
  { s with cores := s.cores.map fun p => (p.1, { p.2 with tlb := keep p.2.tlb })
           dies := s.dies.map fun d => { d with tlb := keep d.tlb } }

/-- Whether a line's header is one of code (R65, R68).
DEDUCED (log 27; unsafe). -/
def headerOk (line : BitVec 1024) : Bool :=
  line.extractLsb' 24 40 == 0 && line.extractLsb' 20 4 == 0 && line.extractLsb' 0 10 != 0
    && (line.extractLsb' 10 10 &&& ~~~(line.extractLsb' 0 10)) == 0

/-- DEDUCED (log 27; unsafe). -/
def slotValid (line : BitVec 1024) (i : Nat) : Bool := i < 10 && line.getLsbD i
def slotTarget (line : BitVec 1024) (i : Nat) : Bool := i < 10 && line.getLsbD (10 + i)
/-- The word in slot `i` (R65). -/
def slotWord (line : BitVec 1024) (i : Nat) : Code := line.extractLsb' (64 + 96 * i) 96

/-- The lowest valid slot at or above `i`.
DEDUCED (log 27; unsafe). -/
def validFrom (line : BitVec 1024) (i : Nat) : Option Nat := (List.range 10).find? fun n => i ≤ n && slotValid line n

/-- Line address and slot of a PC, and whether the PC is well formed (R66). -/
def pcLine (pc : Dword) : Nat := pc.toNat / 128 * 128
def pcSlot (pc : Dword) : Nat := pc.toNat % 16

/-- A PC whose slot is not known yet, since its line could not be fetched: bits 6:4 are ones, which no PC has, and it stands for the lowest valid slot from
`pcFrom` on (R67). `openPc` makes it: from 10 on it is of the next line.
DEDUCED (log 27; unsafe). -/
def pcOpen (pc : Dword) : Bool := pc.extractLsb' 4 3 == 7
def pcFrom (pc : Dword) : Nat := (pcSlot pc + 1) % 16
def openPc (line from' : Nat) : Dword := BitVec.ofNat 64 (if from' < 10 then line + 112 + (from' + 15) % 16 else line + 255)

/-- The successor of a PC whose line could not be fetched (R67, R292).
DEDUCED (log 27; unsafe). -/
def afterPc (pc : Dword) : Dword := openPc (pcLine pc) (pcSlot pc + 1)

/-- A PC as software sees it: one that is not known yet reads the first slot that it may stand for.
DEDUCED (log 27; unsafe). -/
def shownPc (pc : Dword) : Dword := if pcOpen pc then BitVec.ofNat 64 (pcLine pc + pcFrom pc) else pc

/-- An open PC now that its line is known: the lowest valid slot, or, where the line has none from there on, that of the next line (R67). A line without
a valid slot leaves it open.
DEDUCED (log 27; unsafe). -/
def landed (pc : Dword) (line : BitVec 1024) : Dword :=
  match validFrom line (pcFrom pc) with
  | some i => BitVec.ofNat 64 (pcLine pc + i)
  | none => if pcFrom pc == 0 then pc else openPc (pcLine pc + 128) 0

/-- DEDUCED (log 28; unsafe). -/
def pcOk (pc : Dword) : Bool := pc.extractLsb' 4 3 == 0 && pcSlot pc < 10 && pc.extractLsb' 56 8 == 0

end Sys2Proof.Machine
end

