-- ==== Sys2Proof/Machine/Brand.lean ====
section
/-! DEFINITION. Brands, their table and caches, and the postmarks of choice sites (R354 to R366, R405 to R407). -/

namespace Sys2Proof.Machine

/-- The parts of a brand (Table 15-6). -/
def bSerial (b : Brand) : BitVec 48 := b.extractLsb' 80 48
def bBoot (b : Brand) : BitVec 24 := b.extractLsb' 56 24
def bSeq (b : Brand) : Nat := (b.extractLsb' 0 56).toNat
/-- Word `i` of a brand or payload, bits 31:0 first (R355). -/
def bWord (b : Brand) (i : Nat) : Word := b.extractLsb' (32 * i) 32
/-- Byte `i` of a payload. -/
def bByte (b : Brand) (i : Nat) : Nat := (b.extractLsb' (8 * i) 8).toNat
def bMake (sr : BitVec 48) (bt : BitVec 24) (sq : Nat) : Brand := sr ++ bt ++ BitVec.ofNat 56 sq

/-- Kind codes of Table 15-8. -/
def kindKernel : Nat := 1
def kindCobj : Nat := 2
def kindCgrp : Nat := 3
def kindStream : Nat := 4
def kindQueue : Nat := 5

/-- What a resolve answers (R358). -/
inductive Resolved where
  | live (r : BRec)
  | gone
  | unreach
  deriving DecidableEq, Repr

/-- The origin index of a brand's pair at its home, if it has one (R356, R358). -/
def State.originOf (s : State) (b : Brand) : Option Nat :=
  if bSerial b == s.serial && bBoot b == s.boot then some 0
  else
    let i := s.origins.findIdx (· == (bSerial b, bBoot b))
    if i < s.origins.length then some (i + 1) else none

/-- The first slot of a probe (R358). -/
def probeStart (sq o : Nat) : Nat := (sq ^^^ (sq / 2 ^ 20) ^^^ (sq / 2 ^ 40) ^^^ (o * 256)) % 2 ^ 20

/-- The record at a slot of the brand table; an unlisted one is free. -/
def State.brandAt (s : State) (i : Nat) : Option BRec := (s.brands.find? (·.1 == i)).map (·.2)

/-- Probe for a record that is live or moved (R358): its slot and itself. -/
def probeFor (s : State) (sq o h : Nat) : Nat → Nat → Option (Nat × BRec)
  | 0, _ => none
  | fuel + 1, i =>
    let k := (h + i) % 2 ^ 20
    match s.brandAt k with
    | none => none
    | some r =>
      if r.st == 0 then none
      else if r.seq == sq && r.origin == o && r.st != 2 then some (k, r)
      else probeFor s sq o h fuel (i + 1)

/-- The record of a brand at this chip, with its slot. -/
def State.findRec (s : State) (b : Brand) : Option (Nat × BRec) :=
  (s.originOf b).bind fun o => probeFor s (bSeq b) o (probeStart (bSeq b) o) 16 0

/-- The chip number of a brand's home (R354, R358). -/
def State.homeOf (s : State) (b : Brand) : Option Nat :=
  (s.homes.find? fun h => h.1 == bSerial b && h.2.1 == bBoot b).map (·.2.2)

/-- The answer of another chip, whose brand table is not part of this package: any record, or none.
DESIGN CHOICE (log 18; safe). -/
def State.remoteResolve (s : State) : Resolved × State :=
  let (dead, s) := s.freeBool
  if dead then (.gone, s)
  else
    let (k, s) := s.freeNat
    let (v, s) := s.freeWord
    let (n, s) := s.freeNat
    let (lo, s) := s.freeDword
    let (hi, s) := s.freeDword
    (.live ⟨0, k % 6 + 1, 1, 0, n % 2 ^ 20, v, hi ++ lo⟩, s)

/-- Where a brand's record is. -/
inductive Home where
  | here (r : BRec)
  | away
  | gone
  | unreach
  deriving DecidableEq, Repr

/-- Find a brand's home and its record there (R358, R360). A moved record that names this chip, or one that cannot be reached, leads nowhere.
DESIGN CHOICE (log 75; unsafe). -/
def State.home (s : State) (b : Brand) : Home :=
  if bSeq b == 0 then .gone
  else
    match s.homeOf b with
    | none => .unreach
    | some h =>
      if !s.reachable h then .unreach
      else if h != s.chip then .away
      else if bSerial b == s.serial && bBoot b < s.boot then .gone
      else
        match s.findRec b with
        | none => .gone
        | some (_, r) =>
          if r.st == 3 then
            let goal := (r.payload.extractLsb' 0 10).toNat
            if s.reachable goal && goal != s.chip then .away else .unreach
          else .here r

/-- Resolve a brand at its home (R358). -/
def State.resolve (s : State) (b : Brand) : Resolved × State :=
  match s.home b with
  | .here r => (.live r, s)
  | .away => s.remoteResolve
  | .gone => (.gone, s)
  | .unreach => (.unreach, s)

/-- Resolve through a core's brand cache, which holds live records of brands homed on this chip alone (R359).
DESIGN CHOICE (log 74; unsafe). -/
def State.resolveCached (s : State) (core : Nat) (b : Brand) : Resolved × State :=
  match (if s.homeOf b == some s.chip then (s.core core).brands.find? (·.brand == b) else none) with
  | some c => (.live c.got, s)
  | none =>
    match s.home b with
    | .here r => (.live r, s.modCore core fun c => { c with brands := (⟨b, r⟩ :: c.brands).take 64 })
    | _ => s.resolve b

/-- Every brand cache of the chip drops a record (R366). -/
def State.shootDown (s : State) (b : Brand) : State :=
  { s with cores := s.cores.map fun p => (p.1, { p.2 with brands := p.2.brands.filter (·.brand != b) }) }

/-- Change the record of a brand homed here. -/
def State.modRec (s : State) (b : Brand) (f : BRec → BRec) : State :=
  match s.findRec b with
  | none => s
  | some (k, _) => { s with brands := s.brands.map fun p => if p.1 == k then (p.1, f p.2) else p }

/-- A group has changed a record: the change is under way until the group goes on (R366).
DEDUCED (log 44; unsafe). -/
def State.changing (s : State) (b : Brand) (old : BRec) (tid gix : Nat) : State := { s with pasts := s.pasts ++ [⟨b, old, tid, gix⟩] }

/-- The changes of some groups are complete. -/
def State.changed (s : State) (p : Change → Bool) : State := { s with pasts := s.pasts.filter fun c => !p c }

/-- The record of a brand before the last change of it that is under way, if there is one. -/
def State.past? (s : State) (b : Brand) : Option BRec := ((s.pasts.filter (·.brand == b)).getLast?).map (·.old)

/-- The first slot of a probe whose record is free or dead (R362, R360). -/
def freeSlot (s : State) (h : Nat) : Option Nat :=
  ((List.range 16).map fun i => (h + i) % 2 ^ 20).find? fun k => match s.brandAt k with | none => true | some r => r.st == 0 || r.st == 2

/-- Put a record in a slot. -/
def State.putRec (s : State) (k : Nat) (r : BRec) : State := { s with brands := setKey k r s.brands }

/-- Append a brand to a context's brand list, or set OVF (R398). -/
def State.listBrand (s : State) (ctx : Nat) (b : Brand) : State :=
  match s.ctx? ctx with
  | none => s
  | some c =>
    if c.bcount == c.bcap then
      let s := s.writeRec c 108 4 (c.bcount + 2 ^ 31)
      s.modCtx ctx fun c => { c with bovf := true }
    else
      let s := s.write (s.gpaOf (c.blist + 16 * c.bcount)) (toLe 16 b.toNat)
      let s := s.writeRec c 108 4 (c.bcount + 1 + (if c.bovf then 2 ^ 31 else 0))
      s.modCtx ctx fun c => { c with bcount := c.bcount + 1 }

/-- Mint a brand of a kind with a payload for a context; zero where no slot or no number is left (R362, R422).
DESIGN CHOICE (log 2; unsafe). -/
def State.mint (s : State) (ctx kind : Nat) (payload : Brand) : Brand × State :=
  let sq := s.brandSeq
  if s.brandBase.isNone || sq == 0 || 2 ^ 56 ≤ sq then (0, s)
  else
    match freeSlot s (probeStart sq 0) with
    | none => (0, s)
    | some k =>
      let b := bMake s.serial s.boot sq
      let s := ({ s with brandSeq := sq + 1 }).putRec k ⟨sq, kind, 1, 0, 1, 0, payload⟩
      (b, s.listBrand ctx b)

/-! ### Postmarks and replay (R405 to R407) -/

/-- What a choice site may do now. -/
inductive Verdict where
  | go (s : State)
  | hold
  | stop (s : State)
  deriving DecidableEq, Repr

/-- A postmark (R405).
DEDUCED (log 44; unsafe). -/
def postmarkOf (kind site payload : Nat) : Nat := kind % 16 * 2 ^ 60 + site % 2 ^ 12 * 2 ^ 48 + payload % 2 ^ 48

/-- Stop a context on its own account with a state and an error (R406, R407). -/
def State.haltCtx (s : State) (ctx : Nat) (st : CtxSt) (err : Nat) : State :=
  let s := s.modCtx ctx fun c => { c with st := st }
  s.modDie (s.homeDie ctx) fun d => { d with cserr := err, csctx := ctx }

/-- The log names no such event (R407): REPLAY, and the context stops; what it does from then on follows no log until it resumes.
DEDUCED (log 44; unsafe). -/
def State.replayStop (s : State) (ctx : Nat) : State :=
  ((s.haltCtx ctx .stopped 5).modCtx ctx fun c => { c with replay := false }).reportBare ctx (Flt.mk' Code.replay) false

/-- What stands for a move that needed an arrival out of its place in a log: nothing of it, and REPLAY where the log has no such arrival (R407). -/
def State.instead (s0 s : State) : State :=
  match s.unforeseen with
  | some c => s0.replayStop c
  | none => s0

/-- Append a postmark to a context's log (R405); a log that becomes full stops the context (R406).
DEDUCED (log 44; unsafe). -/
def State.logMark (s : State) (c : Context) (mark : Nat) : State :=
  let s := s.write (s.gpaOf (c.pmbase + 8 * c.pmpos)) (toLe 8 mark)
  let s := s.writeRec c 80 8 (c.pmpos + 1)
  let s := s.modCtx c.ctx fun c => { c with pmpos := c.pmpos + 1 }
  if c.pmlen ≤ c.pmpos + 1 then s.haltCtx c.ctx .logFull 4 else s

/-- The key by which a site consumes postmarks: kind and site, and the doubleword for kinds 1 to 3 (R407). The site of an arrival is its pigeonhole, whichever
party arrives: so the log orders the parties (R410).
DEDUCED (log 44; unsafe). -/
def markKey (m : Nat) : Nat × Nat :=
  (if m / 2 ^ 60 == 1 then 2 ^ 12 + m / 2 ^ 48 % 16 else m / 2 ^ 48, if m / 2 ^ 60 ≤ 3 then m / 2048 % 2 ^ 37 else 0)

/-- The log positions a site has not consumed, in log order. -/
def State.siteMarks (s : State) (c : Context) (mark : Nat) : List (Nat × Nat) :=
  (((List.range c.pmlen).filter fun i => !c.replayPos.contains i).map fun i => (i, s.readNat (s.gpaOf (c.pmbase + 8 * i)) 8)).filter
    fun p => markKey p.2 == markKey mark

/-- Let an event of a choice site happen: logged, matched against the log under replay, or free (R405, R407).
DEDUCED (log 44; unsafe). -/
def State.choice (s : State) (ctx kind site payload : Nat) : Verdict :=
  let mark := postmarkOf kind site payload
  match s.ctx? ctx with
  | none => .go s
  | some c =>
    if c.log then .go (s.logMark c mark)
    else if !c.replay then .go s
    else
      let ms := s.siteMarks c mark
      match ms with
      | (i, m) :: _ =>
        if m == mark then
          let done := insertNat i c.replayPos
          let ended := done.length == c.pmlen
          .go (s.modCtx ctx fun c =>
            { c with replayPos := done, replay := !ended, st := if ended && c.st == .running then .replayEnded else c.st })
        else if (ms.take 64).any (·.2 == mark) then .hold
        else .stop (s.replayStop ctx)
      | [] => .stop (s.replayStop ctx)

/-- An event of a choice site (R407): it happens, it is held with its postmark until that is the next, or the context
stops. An event that is held already waits.
DEDUCED (log 44; unsafe). -/
def State.gate (s : State) (ctx kind site payload : Nat) (e : Instr) (k : State → State) : Option State :=
  let mark := postmarkOf kind site payload
  match s.choice ctx kind site payload with
  | .go s => some (k (s.modCtx ctx fun c => { c with heldEvents := c.heldEvents.filter (·.2 != e) }))
  | .hold =>
    if ((s.ctx? ctx).map fun c => c.heldEvents.any (·.2 == e)).getD false then none
    else some (s.modCtx ctx fun c => { c with heldEvents := c.heldEvents ++ [(mark, e)] })
  | .stop s => some s

/-- Several choices at once: all happen, or none. -/
def State.choices (s : State) (ctx : Nat) : List (Nat × Nat × Nat) → Verdict × Nat
  | [] => (.go s, 0)
  | (kind, site, payload) :: rest =>
    match s.choice ctx kind site payload with
    | .go s => s.choices ctx rest
    | v => (v, postmarkOf kind site payload)

/-- As `gate`, for an event that is several choices at once. -/
def State.gateAll (s : State) (ctx : Nat) (marks : List (Nat × Nat × Nat)) (e : Instr) (k : State → State) : Option State :=
  match s.choices ctx marks with
  | (.go s, _) => some (k (s.modCtx ctx fun c => { c with heldEvents := c.heldEvents.filter (·.2 != e) }))
  | (.hold, mark) =>
    if ((s.ctx? ctx).map fun c => c.heldEvents.any (·.2 == e)).getD false then none
    else some (s.modCtx ctx fun c => { c with heldEvents := c.heldEvents ++ [(mark, e)] })
  | (.stop s, _) => some s

/-- The postmark payload of a resolve that meets a change (Table 21-7): the brand, and whether it saw the new state. -/
def resolveMark (b : Brand) (new : Bool) : Nat := bSeq b % 2 ^ 47 * 2 + (if new then 1 else 0)

/-- The resolve that the log of a context gives a logical core's site next, where it is of a brand: whether it saw the new state. -/
def State.nextMeets (s : State) (c : Context) (lcore : Nat) (b : Brand) : Option Bool :=
  let next := if c.replay then ((s.siteMarks c (postmarkOf 5 lcore 0)).head?).map (·.2 % 2 ^ 48) else none
  if next == some (resolveMark b true) then some true else if next == some (resolveMark b false) then some false else none

/-- Whether a replayed log has a resolve of a brand next at some site, which is to meet a change of it: the change is not completed before it.
DEDUCED (log 44; unsafe). -/
def State.awaited (s : State) (b : Brand) : Bool := s.ctxs.any fun c => c.replay && (List.range c.nlcore).any fun lc => (s.nextMeets c lc b).isSome

/-- A resolve at a choice site: what it answers, or it waits for its place in the log, or the log names no such resolve. -/
inductive Met where
  | got (r : Resolved) (s : State)
  | wait
  | stop (s : State)
  deriving DecidableEq, Repr

/-- Resolve at a site (R366, R407, Table 21-7). One that meets a change under way answers the record whole, as it stood before or as it stands after: which is
free, or as the log says, and is what the postmark holds. One that the log says meets a change waits for it. Any other looks the record up.
DEDUCED (log 44; unsafe). -/
def State.resolveAt (s : State) (ctx lcore : Nat) (b : Brand) (look : State → Resolved × State) : Met :=
  let named := (s.ctx? ctx).bind fun c => s.nextMeets c lcore b
  match s.past? b with
  | none => if named.isSome then .wait else let r := look s; .got r.1 r.2
  | some old =>
    let (new, s) := match named with | some new => (new, s) | none => s.freeBool
    match s.choice ctx 5 lcore (resolveMark b new) with
    | .go s => if new then let r := s.resolve b; .got r.1 r.2 else .got (.live old) s
    | .hold => .wait
    | .stop s => .stop s

/-- The logical core of a package core in a context (R405). -/
def Context.lcoreOf (c : Context) (core : Nat) : Nat := c.lmap.findIdx (· == core)

/-- The party of a group in a postmark (R405). -/
def State.partyOf (s : State) (tid gix : Nat) : Nat :=
  match s.team? tid, s.group? tid gix with
  | some t, some g => g.slotNo % 64 * 2 ^ 11 + t.lcore % 2 ^ 11
  | _, _ => 0

/-- Whether groups of a context may issue: running, its replay log full or ended, and not frozen (R293, R399).
DEDUCED (log 54; unsafe). -/
def Context.runs (c : Context) : Bool := (c.st == .running || c.st == .replayEnded) && !c.frozen

end Sys2Proof.Machine
end

