-- ==== Sys2Proof/Machine/Place.lean ====
section
/-! DEFINITION. Packets, launch checks and the placing of teams on cores (R16 to R24, R40 to R45, R49 to R52, R277 to R282). -/

namespace Sys2Proof.Machine

/-- The least power of two at or above `n`. -/
def pow2Up (n : Nat) : Nat := if n ≤ 1 then n else 2 ^ ((n - 1).log2 + 1)

/-- Registers per lane that a budget takes in a slice (R41, R50, R52).
DEDUCED (log 31; unsafe). -/
def regAlloc (fixed : Bool) (budget : Nat) : Nat := if fixed then budget else pow2Up budget
/-- Scratchpad lines that a request takes (R50, R52).
DEDUCED (log 31; unsafe). -/
def spadAlloc (fixed : Bool) (lines : Nat) : Nat := if fixed then lines else pow2Up lines

/-- A group to place: its index, role, width, budget, and how many of its lanes are launched (R17, R22). -/
structure Plan where
  gix : Nat
  role : Nat
  width : Nat
  budget : Nat
  live : Nat
  deriving DecidableEq, Repr

/-- The initial width of a launch (Table 12-3). -/
def launchWidth (p : Packet) (k : Kernel) : Nat := if p.width == 0 then k.width else p.width
def launchGroups (p : Packet) : Nat := p.groups + p.consumers
def launchLanes (p : Packet) (k : Kernel) : Nat := if p.lanes == 0 then launchGroups p * launchWidth p k else p.lanes

/-- The groups of a team that are created, in GROUPIX order: producers first (R17, R19, R22). -/
def plans (p : Packet) (k : Kernel) : List Plan :=
  let w := launchWidth p k
  let n := launchLanes p k
  ((List.range (launchGroups p)).filter fun g => g * w < n).map fun g =>
    ⟨g, if !p.split then 0 else if g < p.groups then 1 else 2, w, if !p.split || g < p.groups then k.budgetA else k.budgetB, min w (n - g * w)⟩

/-- Take the lowest-numbered slices with room for each octet of each group, in order (R41): the slices of each group. -/
def fitGroups (fixed : Bool) : List Nat → List Plan → Option (List (List Nat))
  | _, [] => some []
  | room, g :: rest =>
    let need := regAlloc fixed g.budget
    let slices := ((List.range 8).filter fun i => need ≤ room.getD i 0).take (g.width / 8)
    if slices.length < g.width / 8 then none
    else
      let left := (List.range 8).map fun i => if slices.contains i then room.getD i 0 - need else room.getD i 0
      (fitGroups fixed left rest).map fun r => slices :: r

/-- Whether a team could be placed on an empty core (R41). -/
def fitsEmpty (fixed : Bool) (p : Packet) (k : Kernel) : Bool :=
  (fitGroups fixed (List.replicate 8 2048) (plans p k)).isSome && spadAlloc fixed p.spadLines ≤ 2048

/-- Teams that hold storage on a core. -/
def State.onCore (s : State) (core : Nat) : List Team := s.teams.filter fun t => t.core == core && t.st != .saved

def State.isFixed (s : State) (ctx : Nat) : Bool := ((s.ctx? ctx).map (·.fixed)).getD false

/-! ### Ranges (R50 to R52)

A slice holds 2,048 registers per lane, a scratchpad 2,048 lines. Under buddy allocation a range is aligned to its size and the compactor may move it;
a fixed range stays. -/

/-- What a range holds: an octet's registers, or a team's scratchpad. -/
inductive Holder where
  | octet (tid gix octet : Nat)
  | lines (tid : Nat)
  deriving DecidableEq, Repr

/-- A range in use: where it begins, its size, whether it stays, and what it holds. -/
structure Span where
  base : Nat
  size : Nat
  fixed : Bool
  holder : Holder
  deriving DecidableEq, Repr

/-- Whether a range from `b` is free among others. -/
def spanFree (spans : List Span) (b size : Nat) : Bool := b + size ≤ 2048 && spans.all fun p => p.base + p.size ≤ b || b + size ≤ p.base

/-- The lowest place free for a buddy range, aligned to its size (R50). -/
def spanPlace (spans : List Span) (size : Nat) : Option Nat := ((List.range (2048 / size)).map (· * size)).find? fun b => spanFree spans b size

/-- Every range of a list placed beside others, in order: the largest come first. -/
def packSpans (spans : List Span) : List Span → Option (List Span)
  | [] => some spans
  | p :: ps => (spanPlace spans p.size).bind fun b => packSpans (spans ++ [{ p with base := b }]) ps

/-- The bases that a fixed range may have: registers come in units of 8, scratchpad in lines (R52). -/
def fixedBases (p : Span) : List Nat :=
  let unit := match p.holder with | .octet _ _ _ => 8 | .lines _ => 1
  (List.range ((2048 - p.size) / unit + 1)).map (· * unit)

/-- Where a fixed range can be held, with every range as it then lies: in a gap, or in a place that the compactor makes by moving buddy ranges (R51, R52). -/
def fixedChoices (spans : List Span) (p : Span) : List (Nat × List Span) :=
  let stay := spans.filter (·.fixed)
  let move := (sortBy (·.size) (spans.filter fun x => !x.fixed)).reverse
  let gaps := (sortBy id (0 :: spans.map fun q => q.base + q.size)).eraseDups.filter fun b => spanFree spans b p.size
  let bases := (fixedBases p).filter fun b => spanFree stay b p.size
  gaps.map (fun b => (b, spans ++ [{ p with base := b }])) ++ bases.filterMap fun b => (packSpans (stay ++ [{ p with base := b }]) move).map fun l => (b, l)

/-- Where a buddy range can be held: in the lowest place that is free, or in the one that the compactor makes (R50, R51). -/
def buddyPlace (spans : List Span) (p : Span) : Option (Nat × List Span) :=
  match spanPlace spans p.size with
  | some b => some (b, spans ++ [{ p with base := b }])
  | none =>
    let stay := spans.filter (·.fixed)
    let move := (sortBy (·.size) (spans.filter fun x => !x.fixed)).reverse
    (packSpans stay (move.filter (p.size < ·.size) ++ [p] ++ move.filter (·.size ≤ p.size))).bind fun l =>
      (l.find? (·.holder == p.holder)).map fun q => (q.base, l)

/-- The places in which a range can be held, the first of which it takes unless another range then finds none.
DEDUCED (log 31; unsafe). -/
def holdChoices (spans : List Span) (p : Span) : List (Nat × List Span) :=
  if p.size == 0 then [(0, spans ++ [{ p with base := 0 }])] else if p.fixed then fixedChoices spans p else (buddyPlace spans p).toList
def holdSpan (spans : List Span) (p : Span) : Option (Nat × List Span) := (holdChoices spans p).head?

/-- The ranges of a slice of a core. -/
def State.sliceSpans (s : State) (core slice : Nat) : List Span :=
  (s.onCore core).flatMap fun t =>
    let fixed := s.isFixed t.ctx
    t.groups.flatMap fun g =>
      g.octets.zipIdx.filterMap fun o => if o.1.slice == slice then some ⟨o.1.base, regAlloc fixed g.budget, fixed, .octet t.tid g.gix o.2⟩ else none

/-- The ranges of a core's register files, by slice, and of its scratchpad. -/
def State.coreSpans (s : State) (core : Nat) : List (List Span) := (List.range 8).map (s.sliceSpans core)
def State.spadSpans (s : State) (core : Nat) : List Span :=
  (s.onCore core).map fun t => ⟨t.spadBase, t.spadLines, s.isFixed t.ctx, .lines t.tid⟩

/-- Hold one more octet in a slice. -/
def holdIn (spans : List (List Span)) (slice : Nat) (p : Span) : Option (Oct × List (List Span)) :=
  (holdSpan (spans.getD slice []) p).map fun r => (⟨slice, r.1⟩, spans.set slice r.2)

/-- Hold an octet in the first of some slices that can. -/
def holdFirst (spans : List (List Span)) (p : Span) : List Nat → Option (Oct × List (List Span))
  | [] => none
  | i :: is => (holdIn spans i p).orElse fun _ => holdFirst spans p is

/-- An octet to be held: its group and number, its registers per lane, and the slice it must have, if any. -/
structure Item where
  gix : Nat
  octet : Nat
  need : Nat
  at' : Option Nat
  deriving DecidableEq, Repr

/-- The octets held so far, and the ranges of the slices with them. -/
abbrev Held := List (Item × Oct) × List (List Span)

/-- Hold the octets of one group, each in a slice of its own or, folded, those slices first that hold fewest of them, so that what comes after finds room
as well. -/
def holdGroup (tid : Nat) (fixed fold : Bool) (after : Held → Option Held) : List Item → Held → Option Held
  | [], w => after w
  | x :: xs, w =>
    let used (i : Nat) : Nat := (w.1.filter fun p => p.1.gix == x.gix && p.2.slice == i).length
    let order := match x.at' with
      | some i => [i]
      | none => if fold then sortBy used (List.range 8) else (List.range 8).filter fun i => used i == 0
    order.findSome? fun i => (holdChoices (w.2.getD i []) ⟨0, x.need, fixed, .octet tid x.gix x.octet⟩).findSome? fun r =>
      holdGroup tid fixed fold after xs (w.1 ++ [(x, ⟨i, r.1⟩)], w.2.set i r.2)

/-- Hold the octets of groups, of which at most `folds` are folded. None: there is no room, in whatever slices. -/
def holdGroups (tid : Nat) (fixed : Bool) : Nat → List (List Item) → Held → Option Held
  | _, [], w => some w
  | folds, g :: gs, w =>
    (holdGroup tid fixed false (holdGroups tid fixed folds gs) g w).orElse fun _ =>
      match folds with
      | 0 => none
      | n + 1 => holdGroup tid fixed true (holdGroups tid fixed n gs) g w

/-- Hold the octets of a team that resumes, with as few groups folded as can be (R47). -/
def holdFolded (tid : Nat) (fixed : Bool) (gs : List (List Item)) (w : Held) : Option Held :=
  (List.range (gs.length + 1)).findSome? fun n => holdGroups tid fixed n gs w

/-- The octets of a group among those held, in order. -/
def Held.octets (w : Held) (gix : Nat) : List Oct := (sortBy (·.1.octet) (w.1.filter (·.1.gix == gix))).map (·.2)

/-- The ranges of a core as the compactor has left them. -/
def Team.relay (spans : List Span) (t : Team) : Team :=
  let oct (gix : Nat) (o : Oct × Nat) : Oct :=
    match spans.find? (fun p => p.holder == .octet t.tid gix o.2) with | some p => { o.1 with base := p.base } | none => o.1
  let lines := match spans.find? (fun p => p.holder == .lines t.tid) with | some p => p.base | none => t.spadBase
  { t with spadBase := lines, groups := t.groups.map fun g => { g with octets := g.octets.zipIdx.map (oct g.gix) } }
def State.relay (s : State) (core : Nat) (spans : List Span) : State :=
  { s with teams := modWhere (fun t => t.core == core && t.st != .saved) (Team.relay spans) s.teams }

def State.coreGroups (s : State) (core : Nat) : Nat := ((s.onCore core).map fun t => t.groups.length).foldl (· + ·) 0

/-- Bytes of a cluster's pool in use. -/
def State.poolUsed (s : State) (cl : Nat) : Nat := ((s.pools.filter (·.cluster == cl)).map (·.bytes)).foldl (· + ·) 0

/-- Whether a launch's pool allocation exists in a cluster or can be reserved (R215). -/
def State.poolOk (s : State) (l : Launch) (cl : Nat) : Bool :=
  (s.pool? l.lid cl).isSome || s.poolUsed cl + l.pkt.pool ≤ 2 ^ 25

/-- Where a fresh team lies on a core: the octets of each group, the first line of its scratchpad, and the core's ranges with it. -/
structure Fit where
  octets : List (List Oct)
  lines : Nat
  spans : List Span
  deriving DecidableEq, Repr

/-- The octets of a group to be created. -/
def Plan.items (fixed : Bool) (p : Plan) : List Item := (List.range (p.width / 8)).map fun o => ⟨p.gix, o, regAlloc fixed p.budget, none⟩

/-- The place a fresh team of a launch would take on a core, if it can be placed there (R40, R16, R50 to R52).
DESIGN CHOICE (log 60; safe). -/
def State.fitOn (s : State) (l : Launch) (core : Nat) : Option Fit :=
  let fixed := s.isFixed l.ctx
  let ps := plans l.pkt l.kern
  let n := s.nextId
  if 64 < s.coreGroups core + ps.length || 16 ≤ (s.onCore core).length || !s.poolOk l (clusterOf core) then none
  else
    match holdSpan (s.spadSpans core) ⟨0, spadAlloc fixed l.pkt.spadLines, fixed, .lines n⟩ with
    | none => none
    | some sp =>
      (holdGroups n fixed 0 (ps.map (Plan.items fixed)) ([], s.coreSpans core)).map fun r => ⟨ps.map fun p => r.octets p.gix, sp.1, sp.2 ++ r.2.flatten⟩

/-- The core of least load that can take a team; ties go to the lowest number (R43). -/
def State.bestCore (s : State) (l : Launch) (cores : List Nat) : Option Nat :=
  (cores.filter fun n => (s.fitOn l n).isSome).foldl (fun best n =>
    match best with
    | none => some n
    | some b => if s.coreGroups n < s.coreGroups b || (s.coreGroups n == s.coreGroups b && n < b) then some n else some b) none

/-- The core on which team `t` of a launch is placed now (R43, R44), and its logical number.
DEDUCED (log 64; unsafe). -/
def State.coreFor (s : State) (l : Launch) (t : Nat) : Option (Nat × Nat) :=
  match s.ctx? l.ctx with
  | none => none
  | some c =>
    if l.pkt.det then
      let lc := t % (max c.nlcore 1)
      match c.lmap[lc]? with
      | some n => if (s.fitOn l n).isSome then some (n, lc) else none
      | none => none
    else (s.bestCore l c.lmap).map fun n => (n, c.lcoreOf n)

/-! ### Packets (R278 to R281) -/

/-- A field of a packet's bytes. -/
def pf (bs : List Byte) (off n : Nat) : Nat := leNat ((bs.drop off).take n)

/-- The packet that 64 bytes hold, if they pass the checks at append (R281). -/
def parsePacket (bs : List Byte) : Option Packet :=
  let kind := pf bs 0 1
  let flags := pf bs 1 1
  let compl := pf bs 56 8
  let p : Packet :=
    { kind := kind, cores := flags % 2 == 1, det := flags / 2 % 2 == 1, split := flags / 4 % 2 == 1, after := flags / 8 % 2 == 1
      brand := BitVec.ofNat 128 (pf bs 8 16), arg := BitVec.ofNat 64 (pf bs 24 8), nx := pf bs 32 4, ny := pf bs 36 4, nz := pf bs 40 4
      width := pf bs 44 1, groups := pf bs 45 1, consumers := pf bs 46 1, lanes := pf bs 48 2, spadLines := pf bs 50 2
      pool := pf bs 52 4, payload := BitVec.ofNat 128 (pf bs 32 16), compl := BitVec.ofNat 64 compl }
  let hdr := pf bs 2 6 == 0 && compl % 4 == 0
  let ok :=
    match kind with
    | 1 => flags < 16 && 0 < p.nx && 0 < p.ny && 0 < p.nz && p.nx * p.ny * p.nz ≤ 2 ^ 32
        && (p.width == 0 || p.width == 8 || p.width == 16 || p.width == 32 || p.width == 64) && 1 ≤ p.groups
        && (if p.split then p.groups ≤ 31 && 1 ≤ p.consumers && p.consumers ≤ 31 && p.groups + p.consumers ≤ 32
            else p.groups ≤ 32 && p.consumers == 0)
        && pf bs 47 1 == 0 && p.spadLines ≤ 2048 && p.pool % 512 == 0 && p.pool ≤ 2 ^ 25
    | 2 => flags == 0 && pf bs 28 4 == 0 && pf bs 48 8 == 0
    | 3 => flags == 0 && pf bs 24 32 == 0
    | 4 => flags == 0 && pf bs 8 16 == 0 && pf bs 32 24 == 0
    | 5 => flags == 0 && pf bs 32 24 == 0
    | 6 => flags == 0 && pf bs 8 16 == 0 && (pf bs 24 1 == 3 || pf bs 24 1 == 5) && pf bs 25 31 == 0
    | _ => false
  if hdr && ok then some p else none

/-- The packet a letterbox's GRID store makes (R284, R285). -/
def boxPacket (b : Letterbox) (x : Dword) : Packet :=
  let f := b.flags.toNat
  { kind := 1, cores := f % 2 == 1, det := f / 2 % 2 == 1, split := f / 4 % 2 == 1, after := false, brand := b.brandHi ++ b.brandLo
    arg := b.arg, nx := (x.extractLsb' 0 32).toNat, ny := (x.extractLsb' 32 16).toNat, nz := (x.extractLsb' 48 16).toNat
    width := b.width, groups := b.groups, consumers := b.consumers, lanes := b.lanes, spadLines := b.spadLines, pool := b.pool
    payload := 0, compl := b.compl }

/-- The 64 bytes of a LAUNCH packet (Table 12-3). -/
def packetBytes (p : Packet) : List Byte :=
  toLe 1 p.kind ++ toLe 1 ((if p.cores then 1 else 0) + (if p.det then 2 else 0) + (if p.split then 4 else 0) + (if p.after then 8 else 0)) ++ toLe 6 0
    ++ toLe 16 p.brand.toNat ++ toLe 8 p.arg.toNat ++ toLe 4 p.nx ++ toLe 4 p.ny ++ toLe 4 p.nz ++ toLe 1 p.width ++ toLe 1 p.groups
    ++ toLe 1 p.consumers ++ toLe 1 0 ++ toLe 2 p.lanes ++ toLe 2 p.spadLines ++ toLe 4 p.pool ++ toLe 8 p.compl.toNat

/-- What a kernel record's payload gives a launch (Table 15-8). -/
def kernelOf (payload : Brand) (mmrev : Nat) : Kernel :=
  { entry := payload.extractLsb' 0 64, width := bByte payload 8, idem := payload.getLsbD 72, split := payload.getLsbD 73
    budgetA := bByte payload 10 * 8, budgetB := bByte payload 11 * 8, mmrev := mmrev }

/-- The brands that a context's brand list names (R398). -/
def State.listedBrands (s : State) (c : Context) : List Brand :=
  (List.range c.bcount).map fun i => BitVec.ofNat 128 (s.readNat (s.gpaOf (c.blist + 16 * i)) 16)

/-- The brand of a record, from its origin (R356). -/
def State.recBrand (s : State) (r : BRec) : Brand :=
  if r.origin == 0 then bMake s.serial s.boot r.seq
  else match s.origins[r.origin - 1]? with
    | some o => bMake o.1 o.2 r.seq
    | none => 0

/-- Whether a record is a live code object that covers a PC (R413, Table 15-8).
DEDUCED (log 50; unsafe). -/
def BRec.covers (r : BRec) (pc : Dword) : Bool :=
  let base := (r.payload.extractLsb' 0 64).toNat
  r.st == 1 && r.kind == kindCobj && base ≤ pc.toNat && pc.toNat < base + (r.payload.extractLsb' 64 32).toNat

/-- The live code object of a context that covers a PC (R413): one that the context's list names, else one that no other
context's list names.
DEDUCED (log 50; unsafe). -/
def State.codeObject (s : State) (c : Context) (pc : Dword) : Option Brand :=
  let here := (s.brands.filter fun p => p.2.covers pc).map fun p => s.recBrand p.2
  match here.find? fun b => (s.listedBrands c).contains b with
  | some b => some b
  | none => here.find? fun b => !(s.ctxs.any fun d => d.ctx != c.ctx && (s.listedBrands d).contains b)

/-- The memory-model revision of the live code object of a context that covers a PC; 2 where none does (R413). -/
def State.revisionOf (s : State) (c : Context) (pc : Dword) : Nat :=
  (((s.codeObject c pc).bind s.findRec).map fun r => bByte r.2.payload 13).getD 2

/-- Whether a kernel's own fields can place a group: a default width and budgets a launch may use. -/
def kernelUsable (p : Packet) (k : Kernel) : Bool :=
  let w := launchWidth p k
  (w == 8 || w == 16 || w == 32 || w == 64) && 8 ≤ k.budgetA && k.budgetA ≤ 256 && (!p.split || (8 ≤ k.budgetB && k.budgetB ≤ 256))

/-- Check a launch at dispatch (R281), given what its brand resolves to: the kernel, or none where it is refused. -/
def State.checkLaunch (s : State) (ctx : Nat) (p : Packet) (r : Resolved) : Option Kernel :=
  match s.ctx? ctx, r with
  | some c, .live r =>
    let k := kernelOf r.payload (s.revisionOf c (r.payload.extractLsb' 0 64))
    let ok := c.st != .saved && r.kind == kindKernel && p.split == k.split && p.lanes ≤ launchGroups p * launchWidth p k && kernelUsable p k
      && 0 < p.nx && 0 < p.ny && 0 < p.nz && p.nx * p.ny * p.nz ≤ 2 ^ 32 && fitsEmpty c.fixed p k
    if ok then some k else none
  | _, _ => none

/-- The resolve of a packet's brand, of no core: its site is that of logical core 0 (R366).
DEDUCED (log 44; unsafe). -/
def State.resolveLaunch (s : State) (ctx : Nat) (p : Packet) : Met := s.resolveAt ctx 0 p.brand (·.resolve p.brand)

/-- Whether every team of a grid can be placed at once on the partition (R45).
DEDUCED (log 64; unsafe). -/
def State.fitsWhole (s : State) (ctx : Nat) (p : Packet) (k : Kernel) : Bool :=
  match s.ctx? ctx with
  | none => false
  | some c =>
    let n := p.nx * p.ny * p.nz
    let perCore : Nat :=
      -- teams of this shape that an empty core holds, up to 16
      ((List.range 17).filter fun m =>
        (fitGroups c.fixed (List.replicate 8 2048) ((List.replicate m (plans p k)).flatten)).isSome
          && m * spadAlloc c.fixed p.spadLines ≤ 2048 && m * (plans p k).length ≤ 64).foldl max 0
    let total := c.lmap.length * perCore
    if p.det then
      (List.range (min n (16 * c.nlcore + 1))).all fun t => t / (max c.nlcore 1) < perCore
    else n ≤ total

/-- Launches that a die's sorter holds: those with teams still to place (R283, R285, R288). -/
def Launch.waiting (l : Launch) : Bool := l.next < l.pkt.nx * l.pkt.ny * l.pkt.nz || !l.again.isEmpty
/-- Whether a launch is one for the sorter of a die: of its letterbox's die, or of a die of its context's partition. -/
def State.sortedOn (s : State) (l : Launch) (die : Nat) : Bool :=
  match l.die with
  | some d => d == die
  | none => ((s.ctx? l.ctx).map fun c => c.lmap.any fun n => dieOf n == die).getD false
def State.sorterCount (s : State) (die : Nat) : Nat := (s.launches.filter fun l => l.waiting && s.sortedOn l die).length

/-- Whether the sorters that a launch of a context enters have a place free (256 launches each): those of the context's dies, or that of a letterbox's
die. -/
def State.sorterRoom (s : State) (ctx : Nat) (die : Option Nat) : Bool :=
  match die with
  | some d => s.sorterCount d < 256
  | none => ((s.ctx? ctx).map fun c => c.lmap.all fun n => s.sorterCount (dieOf n) < 256).getD false

/-- Enter a checked launch into the sorters (R283). -/
def State.enterLaunch (s : State) (ctx : Nat) (queue die : Option Nat) (seq : Nat) (p : Packet) (k : Kernel) (prio : Nat) : Nat × State :=
  let (lid, s) := s.newId
  let l : Launch :=
    { lid := lid, ctx := ctx, queue := queue, pkt := p, kern := k, prio := prio, next := 0, ahead := [], again := [], live := p.nx * p.ny * p.nz
      status := 0, seq := seq, die := die, killed := none }
  (lid, { s with launches := s.launches ++ [l] })

/-- Take a GRID store, given what its brand resolves to (R285): the launch enters the sorter and counts in TAKEN, or counts in REJECT.
DEDUCED (log 51; unsafe). -/
def State.takeGrid (s : State) (b : Letterbox) (x : Dword) (r : Resolved) : State :=
  let p := boxPacket b x
  match s.checkLaunch b.ctx p r with
  | some k =>
    if p.cores && !s.fitsWhole b.ctx p k then s.modBox b.lb fun b => { b with reject := b.reject + 1 }
    else
      let s := (s.enterLaunch b.ctx none (some b.die) 0 p k b.prio).2
      s.modBox b.lb fun b => { b with taken := b.taken + 1 }
  | none => s.modBox b.lb fun b => { b with reject := b.reject + 1 }

/-- A store to GRID that finds a place in the sorter. None: its resolve waits for its place in a log. Where the log does not name it, it stays held. -/
def State.openGrid (s : State) (b : Letterbox) (x : Dword) : Option State :=
  match s.resolveLaunch b.ctx (boxPacket b x) with
  | .got r s => some (s.takeGrid b x r)
  | .wait => none
  | .stop s => some (s.modBox b.lb fun y => { y with held := (0x018, x) :: y.held })

/-- A class-2 page admits no 64-byte record (R200). -/
def Checked.record (k : Checked) : Bool := Pte.cls k.leaf.e != 2

/-- Post a record to a walker of this chip for a letterbox (R286, R315), under the checks of `ewk`. None: its walker has no room. -/
def State.boxRecord (s : State) (b : Letterbox) (x : Dword) : Option State :=
  let refuse (s : State) : Option State := some (s.modBox b.lb fun b => { b with reject := b.reject + 1 })
  match s.ctx? b.ctx with
  | none => some s
  | some c =>
    match s.checkVa (c.lmap.headD 0) c x 64 64 .read false true with
    | (.error _, s) => refuse s
    | (.ok k, s) =>
      let a := stackOf k.gpa
      if !k.record then refuse s
      else if 256 ≤ (s.agent a).walker.length then none
      else
        let s := (s.modAgent a fun g => { g with walker := g.walker ++ [⟨x, b.ctx, none, s.asItStands⟩] }).send b.ctx .host
        some (s.modBox b.lb fun b => { b with taken := b.taken + 1 })

/-- A letterbox's register takes a 64-bit store (R284 to R286, Table 12-5). None: it must wait for a place in the sorter, or at a walker. -/
def State.boxTake (s : State) (b : Letterbox) (off : Nat) (x : Dword) : Option State :=
  if b.walker then (if off == 0x018 then s.boxRecord b x else some s)
  else
    match off with
    | 0x000 => some (s.modBox b.lb fun b => { b with brandLo := x })
    | 0x008 => some (s.modBox b.lb fun b => { b with brandHi := x })
    | 0x010 => some (s.modBox b.lb fun b => { b with arg := x })
    | 0x018 => if s.sorterRoom b.ctx (some b.die) then s.openGrid b x else none
    | _ => some s

/-- A 64-bit store to a letterbox register: taken, or held behind those that are held, in order (R203, R285).
DEDUCED (log 51; unsafe). -/
def State.boxStore (s : State) (lb off : Nat) (x : Dword) : State :=
  match s.box? lb with
  | none => s
  | some b =>
    match (if b.held.isEmpty then s.boxTake b off x else none) with
    | some s => s
    | none => s.modBox lb fun b => { b with held := b.held ++ [(off, x)] }

/-- A 64-bit load of a letterbox register (Table 12-5).
DESIGN CHOICE (log 9; unsafe). -/
def State.boxLoad (s : State) (lb off : Nat) : Dword :=
  match s.box? lb with
  | none => 0
  | some b => if off == 0x020 then b.taken.zeroExtend 64 else if off == 0x028 then b.reject.zeroExtend 64 else 0

/-- What an address of the device-register range of this chip names. -/
inductive DeviceReg where
  | box (lb off : Nat)
  | doorbell (q : Nat)
  | die (d num : Nat)
  | other
  deriving DecidableEq, Repr

/-- The layout of the device-register range (R11, R195): letterbox pages in its lower half, then the doorbells, and a page for the registers of each die
in its last quarter, eight bytes each. The spec gives no address within the range.
DESIGN CHOICE (log 66; unsafe). -/
def deviceReg (gpa : Nat) : DeviceReg :=
  let off := localOf gpa - 0x2000000000000
  if off < 0x80000000 then .box (off / 4096) (off % 4096)
  else if off < 0x80000000 + 8 * 256 then (if off % 8 == 0 then .doorbell ((off - 0x80000000) / 8) else .other)
  else if 0xC0000000 ≤ off && off < 0xC0008000 && off % 8 == 0 then .die ((off - 0xC0000000) / 4096) (off % 4096 / 8)
  else .other

end Sys2Proof.Machine
end

