-- ==== Sys2Proof/Machine/Rewrite.lean ====
section
/-! DEFINITION. The operators, the algebra tables, the rewrites of adjacent entries, and what replay keeps of a pigeonhole (R230, R294 to R300, R341 to R345,
R407). -/

namespace Sys2Proof.Machine

/-- The value an operator leaves in its word (R230, R296). -/
def opNew (op : Opr) (old v cmp : Nat) : Nat :=
  let f (x : Nat) : Fp := Fp.read .f32 false x
  let pick (isMax : Bool) (ty : IntTy) : Nat :=
    let a := BitVec.ofNat 64 old
    let b := BitVec.ofNat 64 v
    (if isMax then IntOp.max ty a b else IntOp.min ty a b).toNat
  match op with
  | .load => old
  | .store => v
  | .addI32 => (old + v) % 2 ^ 32
  | .addI64 => (old + v) % 2 ^ 64
  | .addF32 => f32Add old v
  | .subfF32 => (Fp.add .f32 .rne false (f v) (f old).negate).bits
  | .subfI32 => (v + 2 ^ 32 - old) % 2 ^ 32
  | .maxS32 => pick true .s32
  | .maxN32 => pick true .n32
  | .minS32 => pick false .s32
  | .minN32 => pick false .n32
  | .maxF32 => (Fp.minMax .f32 true (f old) (f v)).bits
  | .minF32 => (Fp.minMax .f32 false (f old) (f v)).bits
  | .and => old &&& v
  | .or => old ||| v
  | .xor => old ^^^ v
  | .mulF32 => f32Mul old v
  | .xchg => v
  | .cas => if cmp == old then v else old

/-- Whether two runs of bytes overlap, or touch a common 32-bit word. -/
def overlap (a n b m : Nat) : Bool := a < b + m && b < a + n
def shareWord (a n b m : Nat) : Bool := a / 4 * 4 < b + m && b / 4 * 4 < a + n

/-! ### Algebra tables (R341 to R345) -/

/-- The image of table 0, which tables 1 to 7 hold when a context is created (R344). -/
def algFixed : List Byte :=
  (List.range 256).map fun i => if i == 0 then 1 else if i == 1 then 2 else if i == 68 then 0x40 else if i == 128 then 1 else if i == 136 then 0x10 else 0

/-- The installed image of a context's table. -/
def Context.algTable (c : Context) (n : Nat) : List Byte := if n == 0 then algFixed else lookupKey n algFixed c.alg

def algCount (img : List Byte) : Nat := pf img 1 1

/-- A slot descriptor (Table 15-3). -/
structure AlgSlot where
  op : Nat
  w64 : Bool
  ix : Bool
  compose : Nat
  cancel : Nat
  reserved : Bool
  deriving DecidableEq, Repr

def algSlot (img : List Byte) (i : Nat) : AlgSlot :=
  let d := pf img (64 + 4 * i) 4
  ⟨d % 64, d / 64 % 2 == 1, d / 128 % 2 == 1, d / 256 % 8, d / 2048 % 8, d / 2 ^ 14 != 0⟩

/-- The relation entry of a later slot F and an earlier slot E (R343). -/
def algRel (img : List Byte) (f e : Nat) : Nat := pf img (128 + 8 * f + e / 2) 1 / (if e % 2 == 0 then 1 else 16) % 16

/-- ADD.F32, SUBF.F32, MAX.F32, MIN.F32 and MUL.F32. -/
def fpOpr (op : Nat) : Bool := [4, 5, 11, 12, 16].contains op

/-! ### Pigeonholes and rewrites (R294 to R300) -/

/-- The pigeonhole of a doubleword, if it is open. -/
def State.hole? (s : State) (dw : Nat) : Option Hole := (s.agent (stackOf (8 * dw))).holes.find? (·.dw == dw)

/-- A LOAD, a fetching operator or a CAS (R299). -/
def Entry.reads (e : Entry) : Bool := e.op == .load || e.op == .xchg || e.op == .cas || e.fetching

/-- The slot of its table that an entry matches (R297). -/
def slotOf (img : List Byte) (e : Entry) : Option Nat :=
  (List.range (algCount img)).find? fun i => (algSlot img i).op == e.op.code && (algSlot img i).w64 == (e.size == 8)

/-- What the table says of an adjacent pair, E then F: the relation entry and F's descriptor (R297). -/
def State.relation (s : State) (e f : Entry) : Option (Nat × AlgSlot) :=
  match e.table, f.table with
  | some t, some u =>
    if t != u || e.gpa != f.gpa || e.size != f.size then none
    else
      match s.ctx? t.1 with
      | none => none
      | some c =>
        let img := c.algTable t.2
        match slotOf img e, slotOf img f with
        | some i, some j => some (algRel img j i, algSlot img j)
        | _, _ => none
  | _, _ => none

/-- The value of an operand. -/
def Entry.operand (e : Entry) : Nat := leNat e.data

/-- Composition of operands by a kind, the earlier first (R298). -/
def composeBy (kind : Nat) (op : Opr) (size a b : Nat) : Nat :=
  let fp := fpOpr op.code
  let pick (isMax : Bool) : Nat :=
    match op with
    | .maxN32 => if isMax then max a b else min a b
    | .minN32 => if isMax then max a b else min a b
    | _ =>
      if fp then opNew (if isMax then .maxF32 else .minF32) a b 0
      else
        let lt := (BitVec.ofNat (8 * size) a).slt (BitVec.ofNat (8 * size) b)
        if isMax == lt then b else a
  match kind with
  | 1 => if fp then opNew .addF32 a b 0 else (a + b) % 2 ^ (8 * size)
  | 2 => pick true
  | 3 => pick false
  | 4 => a &&& b
  | 5 => a ||| b
  | 6 => a ^^^ b
  | _ => b

/-- Whether a pair cancels by a kind. -/
def cancels (kind : Nat) (op : Opr) (size a b : Nat) : Bool :=
  match kind with
  | 1 => if fpOpr op.code then opNew .addF32 a b 0 % 2 ^ 31 == 0 else (a + b) % 2 ^ (8 * size) == 0
  | 2 => a == b
  | _ => false

/-- The entries that a rewrite leaves of an adjacent pair, where it is permitted (R298 to R300). -/
def State.rewritten (s : State) (rw : Rewrite) (e f : Entry) : Option (List Entry) :=
  let disjoint := !overlap e.gpa e.size f.gpa f.size
  let plain := !e.reads && !f.reads
  let bit (n : Nat) : Bool := ((s.relation e f).map fun r => r.1.testBit n).getD false
  let slot := (s.relation e f).map (·.2)
  match rw with
  | .swap =>
    let own := f.op == .load && e.op == .store && f.lanes.any e.lanes.contains
    if disjoint || (bit 0 && !own) then some [f, e] else none
  | .absorb => if bit 1 && plain then some [f] else none
  | .forward => if bit 1 && f.op == .load then some [e] else none
  | .compose =>
    match slot with
    | some d =>
      if bit 2 && plain && d.compose != 0 then some [{ f with data := toLe f.size (composeBy d.compose f.op f.size e.operand f.operand) }] else none
    | none => none
  | .cancel =>
    match slot with
    | some d => if bit 3 && plain && cancels d.cancel f.op f.size e.operand f.operand then some [] else none
    | none => none

def rewriteCode : Rewrite → Nat
  | .swap => 0
  | .absorb => 1
  | .forward => 2
  | .compose => 3
  | .cancel => 4

/-! ### What replay keeps from retiring (R407) -/

/-- The next rewrite that the log names at a doubleword: how many entries are still to arrive there before it, the position of the earlier entry of its pair,
and the rewrite. -/
def State.nextRewrite (s : State) (c : Context) (dw : Nat) : Option (Nat × Nat × Nat) :=
  ((s.siteMarks c (postmarkOf 2 (stackOf (8 * dw)) (localOf (8 * dw) / 8 * 2 ^ 11))).head?).map fun m =>
    let before := (s.siteMarks c (postmarkOf 1 (stackOf (8 * dw)) (localOf (8 * dw) / 8 * 2 ^ 11))).filter fun a => a.1 < m.1
    (before.length, m.2 / 2 ^ 7 % 16, m.2 / 2 ^ 4 % 8)

/-- Whether replay keeps the head of a pigeonhole from retiring (R407): the next rewrite that the log names at its doubleword can be applied to the entries as
they stand, or its pair is still to come.
DEDUCED (log 44; unsafe). -/
def State.headHeld (s : State) (dw : Nat) : Bool :=
  match s.hole? dw with
  | none => false
  | some h =>
    match (h.entries.head?).bind fun e => s.ctx? e.ctx with
    | none => false
    | some c =>
      if !c.replay then false
      else
        match s.nextRewrite c dw with
        | none => false
        | some (coming, pos, code) =>
          match h.entries[pos]?, h.entries[pos + 1]? with
          | some e, some f => [Rewrite.swap, .absorb, .forward, .compose, .cancel].any fun rw => rewriteCode rw == code && (s.rewritten rw e f).isSome
          | _, _ => 0 < coming

end Sys2Proof.Machine
end

