-- ==== Sys2Proof/Machine/Access.lean ====
section
/-! DEFINITION. Pigeonholes and the outstanding accesses of lanes: how each is performed, in what order, and how its
value returns (R210, R212, R230, R257 to R263, R294 to R307). -/

namespace Sys2Proof.Machine

/-- The lanes of an access. -/
def Acc.lanes (a : Acc) : List Nat := a.lane :: a.also

def AccKind.isLoad : AccKind → Bool
  | .load => true
  | _ => false
def AccKind.isStore : AccKind → Bool
  | .store => true
  | _ => false
def AccKind.isFetch : AccKind → Bool
  | .fetch _ => true
  | _ => false
/-- Posts: `ops`, fetching operators and transactional writes (R263). -/
def AccKind.isPost : AccKind → Bool
  | .post _ => true
  | .fetch _ => true
  | .tx _ => true
  | _ => false

/-- Two accesses of one lane at least, the first earlier in its program order. -/
def Acc.laneBefore (a b : Acc) : Bool :=
  a.id < b.id && a.tid == b.tid && a.gix == b.gix && (b.lanes.contains a.lane || a.also.any b.lanes.contains)

/-- A load or a fetching operator without a value keeps later stores of its lane out of the core's store path (R261). -/
def Acc.bars (a b : Acc) : Bool := (a.kind.isLoad || a.kind.isFetch) && a.val.isNone && a.laneBefore b

/-! ### How far an access has come (R257, R258) -/

/-- How far an access must be performed before something goes on: not at all, out of its port, at its home, with its value, or with its value at its
lane. -/
inductive Far where
  | no | port | home | value | done
  deriving DecidableEq, Repr

def Far.rank (f : Far) : Nat :=
  match f with
  | .no => 0
  | .port => 1
  | .home => 2
  | .value => 3
  | .done => 4
def Far.max (a b : Far) : Far := if a.rank < b.rank then b else a

/-- Whether an access has come as far. -/
def Far.met (f : Far) (a : Acc) : Bool :=
  match f with
  | .no => true
  | .port => a.left
  | .home => a.arrived || a.val.isSome
  | .value => a.val.isSome
  | .done => a.val.isSome && a.shape == .probe

/-- A place among the device registers, which are read and written whole (R200) and never forwarded (R203). -/
def Place.device (p : Place) : Bool :=
  match p with
  | .mem g => isDevice g
  | _ => false

/-! ### Places -/

/-- Bytes that the tile of a binding covers (R236). -/
def Binding.bytes (b : Binding) : Nat := if fmtKind b.fw == 3 then 1024 * fmtPlanes b.fw else 16384

def Binding.note (h : Stale) (b : Binding) : Binding :=
  if b.pool == h.pool && overlap b.off b.bytes h.addr h.olds.length then { b with hist := b.hist ++ [h] } else b

def MReq.note (h : Stale) (r : MReq) : MReq :=
  { r with hist := r.hist ++ [h], passes := r.passes.map fun p => { p with weights := p.weights.note h } }

/-- Remember what a write to a scratchpad or a pool overwrites: for the groups whose engines' ports need not see a lane's
store yet (R241, R271), for the bindings and the requests in flight (R242), and for the copies (R322). `who` is the lane that stores.
DESIGN CHOICE (log 16; safe). -/
def State.noteWrite (s : State) (inPool : Bool) (shares : Team → Bool) (who : Option (Nat × Nat × Nat)) (addr : Nat) (olds : List Byte) : State :=
  let h : Stale := ⟨inPool, addr, olds, 64⟩
  let tids := (s.teams.filter shares).map (·.tid)
  let group (t : Team) (g : Group) : Group :=
    match who with
    | none => g
    | some (tid, gix, lane) => { g with stale := g.stale ++ [if t.tid == tid && g.gix == gix then { h with lane := lane } else h] }
  let team (t : Team) : Team :=
    { t with groups := t.groups.map (group t)
             allocs := t.allocs.map fun a => { a with active := a.active.map (Binding.note h), shadow := a.shadow.map (Binding.note h) } }
  { s with teams := modWhere shares team s.teams
           quads := s.quads.map fun q => (q.1, { q.2 with reqs := modWhere (fun r => tids.contains r.tid) (MReq.note h) q.2.reqs })
           copies := modWhere (fun k => tids.contains k.tid) (fun k => { k with hist := k.hist ++ [h] }) s.copies }

/-- Bytes of a team's scratchpad and of a pool. -/
def State.spadBytes (s : State) (tid off n : Nat) : List Byte := ((s.team? tid).map fun t => Cells.bytes t.spad off n).getD (List.replicate n 0)
def State.poolBytes (s : State) (lid cl off n : Nat) : List Byte := ((s.pool? lid cl).map fun p => Cells.bytes p.data off n).getD (List.replicate n 0)

def State.writeSpad (s : State) (who : Option (Nat × Nat × Nat)) (tid off : Nat) (bs : List Byte) : State :=
  let s := s.noteWrite false (·.tid == tid) who off (s.spadBytes tid off bs.length)
  s.modTeam tid fun t => { t with spad := Cells.setBytes t.spad off bs }

def State.writePool (s : State) (who : Option (Nat × Nat × Nat)) (lid cl off : Nat) (bs : List Byte) : State :=
  let s := s.noteWrite true (fun t => t.lid == lid && clusterOf t.core == cl) who off (s.poolBytes lid cl off bs.length)
  s.modPool lid cl fun p =>
    { p with data := Cells.setBytes p.data off bs, bad := p.bad.filter fun w => !(wholeWords off bs.length).contains w }

/-- A word of an accumulator allocation; where a granted request is writing it, its old content, its new one or one between
(R242). -/
def State.accWord (s : State) (tid tag i : Nat) : Word × State :=
  match s.team? tid with
  | none => (0, s)
  | some t =>
    let now := ((t.allocs.find? (·.tag == tag)).map fun a => Cells.get a.words i).getD 0
    let news := ((s.quad (quadOf t.core)).reqs.filter fun r => r.tid == tid).flatMap fun r =>
      (r.writes.filter fun w => w.tag == tag && w.idx == i).map (·.new)
    if news.all (· == now) then (now, s)
    else
      let (n, s) := s.freeNat
      ((now :: news).getD (n % (news.length + 1)) now, s)

def State.setAccWord (s : State) (tid tag i : Nat) (x : Word) : State :=
  s.modTeam tid fun t => { t with allocs := modWhere (·.tag == tag) (fun a => { a with words := Cells.set a.words i x }) t.allocs }

/-! ### The order of accesses (R259, R261, R265, R203) -/

/-- Where an access is, as a space and an offset in it, for comparing bytes. -/
def Place.spot : Place → Nat × Nat × Nat × Nat
  | .mem g => (0, 0, 0, g)
  | .spad t o => (1, t, 0, o)
  | .pool l c o => (2, l, c, o)
  | .acc t g w => (3, t, g, 4 * w)

/-- A place some bytes on. -/
def Place.offset (p : Place) (n : Nat) : Place :=
  match p with
  | .mem g => .mem (g + n)
  | .spad t o => .spad t (o + n)
  | .pool l c o => .pool l c (o + n)
  | .acc t g w => .acc t g w

/-- Move a place back to the word it lies in, and its byte there. -/
def Place.inWord (p : Place) : Place × Nat :=
  match p with
  | .mem g => (.mem (g / 4 * 4), g % 4)
  | .spad t o => (.spad t (o / 4 * 4), o % 4)
  | .pool l c o => (.pool l c (o / 4 * 4), o % 4)
  | .acc t g w => (.acc t g w, 0)

/-- Whether two accesses touch a common word. -/
def Acc.sameWord (a b : Acc) : Bool :=
  let x := a.place.spot
  let y := b.place.spot
  x.1 == y.1 && x.2.1 == y.2.1 && x.2.2.1 == y.2.2.1 && shareWord x.2.2.2 a.size y.2.2.2 b.size

/-- A store to the scratchpad of the issuing team. -/
def Acc.ownSpad (a : Acc) : Bool := a.kind.isStore && (match a.place with | .spad t _ => t == a.tid | _ => false)

/-- Accesses of two groups of one core, or of one. -/
def Acc.sameGroup (a b : Acc) : Bool := a.tid == b.tid && a.gix == b.gix

/-- How far program order asks the earlier of two accesses of one lane to come before the later is performed: to its value, for a load or a fetching operator
before what stores (R261); to its home, for accesses to one word (R259), which a table may then reorder (R304), for stores in order (R261), class-2 accesses
(R203), the own scratchpad (R267 note 6), and the parts of one load in a pigeonhole's order (R295). A load reads its lane's stores by forwarding (R258).
DEDUCED (log 62; unsafe). -/
def laneOrder (a b : Acc) : Far :=
  if (a.kind.isLoad || a.kind.isFetch) && !b.kind.isLoad then .value
  else if (a.sameWord b && !(a.kind.isStore && b.kind.isLoad && !a.place.device)) || (a.kind.isStore && b.kind.isStore)
      || (a.cls == 2 && b.cls == 2) || (a.ownSpad && b.kind.isLoad) || (a.instr == b.instr && a.kind.isLoad && b.kind.isLoad && a.alg != 0) then .home
  else .no

/-- What the store path of a core asks of stores of any of its lanes: those to one word are performed in the order in which they entered it (R258, R259). -/
def pathOrder (a b : Acc) : Bool :=
  a.kind.isStore && b.kind.isStore && a.core == b.core && a.sameWord b
    && (match a.path, b.path with
      | none, _ => false
      | some n, some m => decide (n < m)
      | some _, none => !a.laneBefore b)

/-- Whether a lane of an access has read a store (R259, R268). -/
def State.hasSeen (s : State) (st b : Acc) : Bool :=
  match s.group? b.tid b.gix with
  | some g => g.seen.any fun p => p.2 == st.id && b.lanes.contains p.1
  | none => false

/-- Whether a store enters the store path before another: an earlier one of its lane, or of its instruction to the same word (R221, R261). -/
def Acc.leads (a b : Acc) : Bool :=
  a.kind.isStore && b.kind.isStore && a.path.isNone && (a.laneBefore b || (a.instr == b.instr && a.id < b.id && a.sameWord b))

/-- A store that has not entered its core's store path, with those that enter it first (R261). -/
def State.chain (s : State) (b : Acc) : List Acc := s.accs.foldr (fun a l => if l.any a.leads then a :: l else l) [b]

/-- Whether a store may enter its core's store path: no load or fetching operator before it, or before one that enters first, is without its value
(R261). -/
def State.mayEnter (s : State) (b : Acc) : Bool := (s.chain b).all fun c => !(s.accs.any (·.bars c))

/-- A store enters its core's store path (R258). -/
def State.enter (s : State) (b : Acc) : State :=
  if b.path.isSome then s
  else
    (s.chain b).foldl (fun s a =>
      let (n, s) := s.newId
      s.modAcc a.id fun x => { x with path := some n }) s

/-- Whether a context is in fence-strengthening mode (R265).
DEDUCED (log 46; unsafe). -/
def State.strong (s : State) (ctx : Nat) : Bool := ((s.ctx? ctx).map (·.fence)).getD false

/-- Whether a load whose place among the stores of its group is fixed comes before one of them that enters the path later (R265). -/
def Acc.fixedBefore (a b : Acc) : Bool :=
  a.kind.isLoad && b.kind.isStore && a.sameGroup b && !b.laneBefore a && a.sameWord b && (match a.fixedAt with | some n => b.path.all (n < ·) | none => false)

/-- How far access `a` must come before `b` is performed. In fence-strengthening mode a load comes wholly before a later one of its lanes where stores of
other lanes of it have still to enter the path.
DEDUCED (log 62; unsafe). -/
def State.orderTo (s : State) (a b : Acc) : Far :=
  if a.id == b.id then .no
  else if (b.kind.isLoad && s.accs.any fun st => st.kind.isStore && st.path.isNone && st.laneBefore b && (s.chain st).any a.bars)
      || a.fixedBefore b
      || (a.kind.isLoad && b.kind.isLoad && a.fixedAt.isNone && a.laneBefore b && s.strong b.ctx
        && s.accs.any fun st => st.kind.isStore && st.path.isNone && st.laneBefore a && !st.laneBefore b) then .value
  else
    (if a.laneBefore b then laneOrder a b else .no).max
      (if pathOrder a b || (a.kind.isStore && b.kind.isPost && a.sameWord b && s.hasSeen a b)
          || (a.id < b.id && a.instr == b.instr && ((a.kind.isPost && b.kind.isPost) || (a.kind.isStore && b.kind.isStore && a.sameWord b))) then .home
       else .no)

/-- Whether access `a` has still to come as far as `b` asks. -/
def State.orders (s : State) (a b : Acc) : Bool := !(s.orderTo a b).met a

/-- The accesses that keep another from being performed.
DEDUCED (log 62; unsafe). -/
def State.before (s : State) (b : Acc) : List Acc := s.accs.filter fun a => s.orders a b

/-- What stores write of a place that begins at an offset, in their order: offsets in the place's space, and bytes (R258). -/
def runsOver (stores : List Acc) (place : Place) (n : Nat) : List (Nat × List Byte) :=
  let x := place.spot
  stores.filterMap fun st =>
    let y := st.place.spot
    if x.1 == y.1 && x.2.1 == y.2.1 && x.2.2.1 == y.2.2.1 && overlap x.2.2.2 n y.2.2.2 st.size then some (y.2.2.2, st.data) else none

/-- Bytes that begin at an offset, with runs written over them. -/
def overlay (runs : List (Nat × List Byte)) (at' : Nat) (bs : List Byte) : List Byte :=
  bs.zipIdx.map fun p => runs.foldl (fun byte r => if r.1 ≤ at' + p.2 && at' + p.2 < r.1 + r.2.length then r.2.getD (at' + p.2 - r.1) 0 else byte) p.1

/-- Whether some runs cover a run of bytes, and whether one of them covers a 32-bit word. -/
def covers (runs : List (Nat × List Byte)) (at' n : Nat) : Bool := (List.range n).all fun i => runs.any fun r => r.1 ≤ at' + i && at' + i < r.1 + r.2.length
def coversWord (runs : List (Nat × List Byte)) (w : Nat) : Bool := runs.any fun r => r.1 ≤ 4 * w && 4 * w + 4 ≤ r.1 + r.2.length

/-- The latest bytes that stores still in a core's store path hold for a place, over its bytes of memory (R258).
DEDUCED (log 62; unsafe). -/
def forwardAt (stores : List Acc) (place : Place) (bs : List Byte) : List Byte := overlay (runsOver stores place bs.length) place.spot.2.2.2 bs

/-- The stores of a core's path that a load meets, in the order in which they entered it (R258); of its own group, in fence-strengthening mode, those
that a later load of its lane could meet (R265).
DEDUCED (log 62; unsafe). -/
def State.pathStores (s : State) (a : Acc) : List Acc :=
  sortBy (fun b => b.path.getD 0) (s.accs.filter fun b =>
    b.core == a.core && b.kind.isStore
      && (match b.path with | none => false | some n => !(a.sameGroup b && !b.laneBefore a && (match a.fixedAt with | some m => decide (m < n) | none => false))))

/-- Whether a store writes a byte of an access. -/
def Acc.feeds (st a : Acc) : Bool :=
  let x := a.place.spot
  let y := st.place.spot
  x.1 == y.1 && x.2.1 == y.2.1 && x.2.2.1 == y.2.2.1 && overlap x.2.2.2 a.size y.2.2.2 st.size

/-- What a load's performing does to the stores of its core that have not entered the store path: those of its lanes before it enter (R266), and of other
stores to its words each may.
DEDUCED (log 62; safe). -/
def State.meet (s : State) (a : Acc) : State :=
  s.accs.foldl (fun s b =>
    if !b.kind.isStore || b.core != a.core then s
    else
      match s.acc? b.id with
      | none => s
      | some b =>
        if b.path.isSome || a.laneBefore b then s
        else if b.laneBefore a then s.enter b
        else if b.sameWord a && s.mayEnter b then
          let (now, s) := s.freeBool
          if now then s.enter b else s
        else s) s

/-- The lanes of a load have read the stores in the path that it met (R268). -/
def State.noteSeen (s : State) (a : Acc) : State :=
  let met := (s.pathStores a).filter fun st => st.feeds a && !(st.sameGroup a && st.lane == a.lane && a.also.isEmpty)
  let live (id : Nat) : Bool := s.accs.any (·.id == id)
  if met.isEmpty then s
  else s.modGroup a.tid a.gix fun g => { g with seen := (g.seen.filter fun p => live p.2) ++ met.flatMap fun st => a.lanes.map fun j => (j, st.id) }

/-- A load has met its core's path, or has its value: in fence-strengthening mode no earlier load of its lanes will see a store of their group that enters the path later (R265).
DEDUCED (log 46; unsafe). -/
def State.fixed (s : State) (a : Acc) : State :=
  let open' (b : Acc) : Bool := b.kind.isLoad && b.val.isNone && b.fixedAt.isNone && b.laneBefore a
  if !a.kind.isLoad || !s.strong a.ctx || !s.accs.any open' then s
  else
    let (n, s) := s.newId
    { s with accs := modWhere open' (fun b => { b with fixedAt := some n }) s.accs }

/-! ### Pigeonholes (R294 to R303) -/

/-- Replace the entries of a doubleword's pigeonhole; an empty one closes. -/
def State.setHole (s : State) (dw : Nat) (es : List Entry) : State :=
  s.modAgent (stackOf (8 * dw)) fun a =>
    if es.isEmpty then { a with holes := a.holes.filter (·.dw != dw) }
    else { a with holes := modWhere (·.dw == dw) (fun h => { h with entries := es }) a.holes }

/-- Give a returned value to the access that waits for it, under what the load met in its core's path (R258). An empty list stands for poisoned data
(R210). -/
def State.setVal (s : State) (acc : Option Nat) (v : List Byte) : State :=
  match acc.bind s.acc? with
  | none => s
  | some a => (s.fixed a).modAcc a.id fun a => { a with val := some (overlay a.cover a.place.spot.2.2.2 v) }

/-- Execute an entry against memory (R210, R296). -/
def State.executeEntry (s : State) (e : Entry) : State :=
  let old := s.read e.gpa e.size
  let cover := ((e.acc.bind s.acc?).map (·.cover)).getD []
  let bad := (wordsOf e.gpa e.size).any fun w => s.poison.contains w && !coversWord cover w
  let s := if e.acc.isSome then s.send e.ctx (.agent (stackOf e.gpa)) else s
  match e.op with
  | .load => s.setVal e.acc (if bad then [] else old)
  | .store => s.write e.gpa e.data
  | op =>
    if bad then
      if e.acc.isSome then s.setVal e.acc [] else s.reportBare e.ctx (Flt.at' Code.eccu e.va) false
    else (s.write e.gpa (toLe e.size (opNew op (leNat old) (leNat e.data) e.cmp.toNat))).setVal e.acc old

/-- Retire the head entry of a pigeonhole (R301). -/
def State.retireHead (s : State) (dw : Nat) : State :=
  match s.hole? dw with
  | some ⟨_, e :: rest⟩ => ((s.setHole dw rest).executeEntry e).tick e.ctx
  | _ => s

/-- Retire the heads of a pigeonhole until none of its entries meets a test; `n` bounds the entries. What needs a head to retire that replay keeps must
wait (R407). -/
def State.retireWhile (s : State) (dw : Nat) (p : Entry → Bool) : Nat → State
  | 0 => s
  | n + 1 =>
    match s.hole? dw with
    | some h =>
      if !h.entries.any p then s else if s.headHeld dw then { s with blocked := true } else (s.retireHead dw).retireWhile dw p n
    | none => s

/-- Retire every entry of a pigeonhole, or those an access to its bytes comes behind under table 0 (R295). -/
def State.drainHole (s : State) (dw : Nat) : State := s.retireWhile dw (fun _ => true) 17
def State.drainOver (s : State) (gpa n : Nat) : State :=
  (List.range ((gpa + n + 7) / 8 - gpa / 8)).foldl (fun s i => s.retireWhile (gpa / 8 + i) (fun e => overlap e.gpa e.size gpa n) 17) s

/-- The postmark of an entry's arrival at a doubleword: `who` is the party's group slot and class, `lcore` its logical core
(R305, R405). -/
def arrivalSite (who dw : Nat) : Nat := who + stackOf (8 * dw)
def arrivalPayload (lcore dw : Nat) : Nat := localOf (8 * dw) / 8 * 2 ^ 11 + lcore % 2 ^ 11

/-- The arrival happens, or is marked as one that must wait for its place in the log, or that the log does not name (R407).
DEDUCED (log 44; unsafe). -/
def State.arrivalMark (s : State) (ctx dw who lcore : Nat) : State :=
  match s.choice ctx 1 (arrivalSite who dw) (arrivalPayload lcore dw) with
  | .go s => s
  | .hold => { s with blocked := true }
  | .stop _ => { s with blocked := true, unforeseen := some ctx }

/-- The doublewords that a run of bytes touches. -/
def touched (gpa n : Nat) : List Nat := (List.range ((gpa + n + 7) / 8 - gpa / 8)).map (gpa / 8 + ·)

/-- Whether a log of a context gives a doubleword's next 64 arrivals one of the host. -/
def State.hostNamed (s : State) (c : Context) (dw : Nat) : Bool :=
  let mark := postmarkOf 1 (arrivalSite 48 dw) (arrivalPayload 0 dw)
  c.replay && ((s.siteMarks c mark).take 64).any (·.2 == mark)

/-- Whether a write of the host to a doubleword is a choice site of a context (R305, R410): its groups may have entries there, whether these wait now or come
before or after; or its log names the write.
DEDUCED (log 44; unsafe). -/
def State.hostSite (s : State) (c : Context) (dw : Nat) : Bool :=
  (c.log || c.replay)
    && (((s.hole? dw).map fun h => h.entries.any (·.ctx == c.ctx)).getD false || s.hostNamed c dw
      || ((s.teams.any (·.ctx == c.ctx) || s.launches.any (·.ctx == c.ctx)) && s.maps c (8 * dw)))

/-- Append an entry at its pigeonhole, which stands in its agent's buffer (R193), making room as R294 and R303 say. On another chip it is performed there. -/
def State.append (s : State) (party : Nat) (e : Entry) : State :=
  if !s.onChip e.gpa then s.executeEntry e
  else
    let dw := e.gpa / 8
    let s := (s.hold 0 e.gpa).arrivalMark e.ctx dw (party / 2 ^ 11 * 64) party
    let a := stackOf e.gpa
    let s := if (match s.hole? dw with | some h => decide (16 ≤ h.entries.length) | none => false) then s.drainHole dw else s
    let s :=
      if (s.hole? dw).isNone && 4096 ≤ (s.agent a).holes.length then
        (match (s.agent a).holes with
          | h :: _ => s.drainHole h.dw
          | [] => s)
      else s
    let es := ((s.hole? dw).map (·.entries)).getD []
    s.modAgent a fun g => { g with holes := g.holes.filter (·.dw != dw) ++ [⟨dw, es ++ [e]⟩] }

/-- A read by a party without a table: its entry arrives and is served at once, behind what overlaps it (R295). -/
def State.readHome (s : State) (gpa n : Nat) : List Byte × State := let s := s.drainOver gpa n; (s.read gpa n, s)
/-- A write by a party without a table.
DESIGN CHOICE (log 19; unsafe). -/
def State.writeHome (s : State) (gpa : Nat) (bs : List Byte) : State := (s.drainOver gpa bs.length).write gpa bs

/-- The party of an engine's access: its context, its class in a postmark (1 copy unit, 2 walker, 3 host or courier), its logical core (R405), and the node
that it is (R383). -/
structure Party where
  ctx : Nat
  cls : Nat
  lcore : Nat
  node : Node
  deriving DecidableEq, Repr

/-- An access of an engine through a page of class `cls` enters the pigeonhole of each doubleword it touches, each a choice site (R295, R305). -/
def State.engineArrives (s : State) (p : Party) (cls gpa n : Nat) (reads : Bool) : State :=
  let s := s.visit p.ctx p.node cls gpa reads
  match s.ctx? p.ctx with
  | none => s
  | some c =>
    if !c.log && !c.replay then s
    else (List.range ((gpa + n + 7) / 8 - gpa / 8)).foldl (fun s i => s.arrivalMark p.ctx (gpa / 8 + i) (16 * p.cls) p.lcore) s

/-- Retire `n` heads, as far as replay lets them go. -/
def State.retireSome (s : State) (dw : Nat) : Nat → State
  | 0 => s
  | n + 1 => if s.headHeld dw then s else (s.retireHead dw).retireSome dw n

/-- Memory as a command that is issued now may find it (R264, R322): every entry that waits precedes the command, and may have retired by now or not.
DESIGN CHOICE (log 16; safe). -/
def State.snapshot (s : State) : Snap × State :=
  let dws := s.asItStands.skip
  let (now, s) := if dws.isEmpty then (false, s) else s.freeBool
  let s := if now then dws.foldl (fun s dw => s.retireSome dw 17) s else s
  (s.asItStands, s)

/-- Bytes of memory as they stand, each word perhaps as it stood when an engine's command was issued (R314, R322).
DESIGN CHOICE (log 16; safe). -/
def State.sinceRead (s : State) (p : Party) (snap : Snap) (cls gpa n : Nat) : List Byte × State :=
  let s := (s.engineArrives p cls gpa n true).drainOver gpa n
  let now := s.read gpa n
  let old := snap.bytes s gpa n
  if old == now then (now, s)
  else
    (wordsOf gpa n).foldl (fun (w : List Byte × State) k =>
      let lo := max (4 * k) gpa - gpa
      let cut (l : List Byte) : List Byte := (l.drop lo).take (min (4 * k + 4) (gpa + n) - gpa - lo)
      if cut old == cut now then (w.1 ++ cut now, w.2)
      else
        let (b, s) := w.2.freeBool
        (w.1 ++ (if b then cut old else cut now), s)) ([], s)

/-- A store that cannot reach its chip is discarded, counted at its port and reported (R210).
DEDUCED (log 20; unsafe). -/
def State.lostStore (s : State) (ctx : Nat) (va : Dword) (chip : Nat) : State :=
  let s := match s.route chip with
    | .port f => if s.linkUp then s.modPort f fun p => { p with undeliv := p.undeliv + 1 } else s
    | _ => s
  s.reportBare ctx { Flt.at' Code.eccu va with remote := true } false

/-- What a device-register load waits for: what a store to a register has begun is not done yet (R203). -/
def State.deviceWait (s : State) : State := if s.due.isEmpty then s else { s with blocked := true }

/-- A device-register load: a letterbox's or a die's register; what is read at other addresses of the range, or on another chip, is not given: a free value.
DESIGN CHOICE (log 66; unsafe). -/
def State.deviceLoad (s : State) (gpa size : Nat) : List Byte × State :=
  let free : List Byte × State := let (x, s) := s.freeDword; (toLe size x.toNat, s)
  if !s.onChip gpa then free
  else
    let s := s.deviceWait
    match deviceReg gpa with
    | .box lb off =>
      if (s.box? lb).isNone then free
      else (if size == 8 then toLe 8 (s.boxLoad lb off).toNat else List.replicate size 0, s)
    | .die d n => if d < 8 && dieReadable n then let (x, s) := s.dieRead d n; (toLe size x.toNat, s) else free
    | _ => free

/-- What a device-register store on this chip has a unit of the chip do, as the host's own acts: a packet's address at a doorbell (R277), a die's register
(Table 7-5). None: a letterbox's register, which takes it at once, or nothing.
DESIGN CHOICE (log 66; unsafe). -/
def deviceAct (gpa : Nat) (bs : List Byte) : Option Instr :=
  match deviceReg gpa with
  | .doorbell q => if bs.length == 8 then some (.doorbell q (BitVec.ofNat 64 (leNat bs))) else none
  | .die d n => some (.registerWrite (.die d n) (BitVec.ofNat 64 (leNat bs)))
  | _ => none

/-- A letterbox's register takes a 64-bit store (R284). -/
def State.boxWrite (s : State) (gpa : Nat) (bs : List Byte) : State :=
  match deviceReg gpa with
  | .box lb off => if bs.length == 8 then s.boxStore lb off (BitVec.ofNat 64 (leNat bs)) else s
  | _ => s

/-- A device-register store on this chip: each is done before the next access to a register (R203). Other stores have no effect.
DESIGN CHOICE (log 66; unsafe). -/
def State.deviceStore (s : State) (gpa : Nat) (bs : List Byte) : State :=
  if !s.onChip gpa then s
  else
    let s := s.deviceWait
    match deviceAct gpa bs with
    | some e => { s with due := s.due ++ [e] }
    | none => s.boxWrite gpa bs

/-- A store by an engine at its home, or lost. -/
def State.engineStore (s : State) (p : Party) (cls : Nat) (va : Dword) (gpa : Nat) (bs : List Byte) : State :=
  if !s.onChip gpa && !s.reachable (chipOf gpa) then s.lostStore p.ctx va (chipOf gpa)
  else if isDevice gpa then (s.visit p.ctx p.node cls gpa false).deviceStore gpa bs
  else ((if s.onChip gpa then s else s.leaves (chipOf gpa) bs.length 0).engineArrives p cls gpa bs.length false).writeHome gpa bs

/-- A write of the device itself through a context's translation (completion words, flags, walker output): W required,
dirty bit under R204. `none` means it must wait for the dirty log (R206). -/
def State.engineWrite (s : State) (p : Party) (va : Dword) (bs : List Byte) (align : Nat) : Option (Except Flt State) :=
  match s.ctx? p.ctx with
  | none => some (.ok s)
  | some c =>
    match s.checkVa (c.lmap.headD 0) c va bs.length align .write false false with
    | (.error f, _) => some (.error f)
    | (.ok k, s) =>
      match s.dirty p.ctx va k.leaf with
      | .full => none
      | .flt f => some (.error f)
      | .done s => some (.ok (s.engineStore p (Pte.cls k.leaf.e) va k.gpa bs))

/-! ### Values that return -/

/-- The words a returned value becomes (R219, R251). -/
def returned (sh : Shape) (size : Nat) (bs : List Byte) : List Word :=
  match sh with
  | .plain => if size < 4 then [BitVec.ofNat 32 (leNat bs)] else (List.range (size / 4)).map fun i => BitVec.ofNat 32 (leNat ((bs.drop (4 * i)).take 4))
  | .probe => []
  | .signed => [if size == 1 then (BitVec.ofNat 8 (leNat bs)).signExtend 32 else (BitVec.ofNat 16 (leNat bs)).signExtend 32]
  | .scale ty sc =>
    let w := leNat bs
    [BitVec.ofNat 32 (match ty with
      | .f32 => f32Mul w sc.toNat
      | .s32 => (Fp.mul .f32 .rne false (Ty.readExact .s32 (BitVec.ofNat 64 w)) (Fp.read .f32 false sc.toNat)).bits
      | _ => w)]

/-- Write words to consecutive registers. -/
def putRegs (f : Cells 32) (n : Nat) (ws : List Word) : Cells 32 := ws.zipIdx.foldl (fun v p => Cells.set v (n + p.2) p.1) f

/-- The words that one lane of an access receives. -/
def Acc.wordsOf (a : Acc) (bs : List Byte) (j : Nat) : List Word :=
  if a.each == 0 then returned a.shape a.size bs else returned a.shape a.each ((bs.drop (lookupKey j 0 a.picks)).take a.each)

/-- Write the words of an access to the registers of its destination: vector registers of its lanes, or uniform registers. -/
def Group.putWords (g : Group) (a : Acc) (bs : List Byte) : Group :=
  match a.d with
  | .v n _ => { g with lanes := a.lanes.foldl (fun ls j => ls.modify j fun l => { l with v := putRegs l.v n.toNat (a.wordsOf bs j) }) g.lanes }
  | .k n _ => { g with k := putRegs g.k n.toNat (a.wordsOf bs a.lane) }
  | _ => g

/-- Fill the latches that await an access (R220). -/
def Latch.fill (id : Nat) (ws : List Word) (l : Latch) : Latch :=
  match l.src with
  | some w => if w.acc == id then { l with val := ws.getD w.word 0, src := none } else l
  | none => l

def Group.fill (g : Group) (a : Acc) (bs : List Byte) : Group :=
  let one (l : Lane) (j : Nat) : Lane :=
    { l with latches := l.latches.map (Latch.fill a.id (a.wordsOf bs j)), saved := l.saved.map (Latch.fill a.id (a.wordsOf bs j)) }
  { g with lanes := g.lanes.zipIdx.map fun p => one p.1 p.2 }

/-- The registers that the moves of the slot in progress read have the value too, unless the slot itself asked for it (R56, R161). -/
def State.putPre (s : State) (a : Acc) (bs : List Byte) : State :=
  match s.slot, a.d with
  | some sl, .v n _ =>
    if sl.tid == a.tid && sl.gix == a.gix && a.id < sl.born then
      { s with slot := some { sl with pre := a.lanes.foldl (fun ls j => ls.modify j fun l => { l with v := putRegs l.v n.toNat (a.wordsOf bs j) }) sl.pre } }
    else s
  | _, _ => s

/-- Invalidate every latch (R64).
DEDUCED (log 29; unsafe). -/
def Lane.invalidate (l : Lane) : Lane := { l with latches := l.latches.map fun x => { x with valid := false } }

/-- A lane leaves the parked state (R21, R64, R183): active at a PC, or marked ready where it is trap-held. `keep`
says it retries the instruction with its latches.
DEDUCED (log 29; unsafe). -/
def Lane.wake (l : Lane) (pc : Dword) (keep : Bool) : Lane :=
  if l.held then { l with st := .active, pc := pc, woke := some keep }
  else { (if keep then l else l.invalidate) with st := .active, pc := pc, retry := keep }

/-! ### Presence bits (R212) -/

/-- The bytes of a team's scratchpad allocation. -/
def Team.spadBytes (t : Team) : Nat := 512 * t.spadLines

def Lane.leaveSector (tid sec : Nat) (l : Lane) : Lane := if l.st == .parked (.sector tid sec) then l.wake l.pc false else l

/-- A sector becomes present: the lanes parked on it, in any group that reaches it, go on. -/
def State.present (s : State) (tid sec : Nat) : State :=
  let s := s.modTeam tid fun t => { t with absent := t.absent.filter (· != sec) }
  { s with teams := s.teams.map fun t => { t with groups := t.groups.map fun g => { g with lanes := g.lanes.map (Lane.leaveSector tid sec) } } }

/-- A sector becomes absent. -/
def State.absent (s : State) (tid sec : Nat) : State := s.modTeam tid fun t => { t with absent := insertNat sec t.absent }

/-- One of a group's completion counters (R374). -/
def Group.counter (g : Group) (c : Ctr) : Nat :=
  match c with
  | .cc => g.cc
  | .mc => g.mc
  | .oc => g.oc

/-- A lane leaves `wt` once its counter is low enough (R375). -/
def Lane.leaveCounter (g : Group) (l : Lane) : Lane :=
  match l.st with
  | .parked (.counter c n succ) => if g.counter c ≤ n then l.wake succ false else l
  | _ => l

/-- Change a group's counters; the lanes whose `wt` is then satisfied go on (R374, R375). -/
def Group.count (g : Group) (f : Group → Group) : Group :=
  let g := f g
  { g with lanes := g.lanes.map (Lane.leaveCounter g) }

/-- The node that performs an access, where it is not its core (R383): an agent, the host interface for a device register, the port of another chip, or
the core of a peer's scratchpad. -/
def State.nodeOf (s : State) (a : Acc) : Option Node :=
  match a.place with
  | .mem g => some (s.nodeAt g)
  | .spad t _ => if t == a.tid then none else (s.team? t).bind fun u => if u.core == a.core then none else some (.core u.core)
  | _ => none

/-- The request of an access leaves its core, it is performed at its node, the response leaves that, and it arrives (R383). -/
def State.asked (s : State) (a : Acc) : State := if (s.nodeOf a).isSome then s.send a.ctx (.core a.core) else s
def State.taken (s : State) (a : Acc) : State := match s.nodeOf a with | some n => s.recv a.ctx n | none => s
def State.answers (s : State) (a : Acc) : State := match s.nodeOf a with | some n => s.send a.ctx n | none => s
def State.answered (s : State) (a : Acc) : State := if (s.nodeOf a).isSome then s.recv a.ctx (.core a.core) else s

/-- Deliver an access's value to its lane and end it (R220, R307, R374). Poisoned data changes no register. -/
def State.deliver (s : State) (a : Acc) : State :=
  let s := { s with accs := s.accs.filter (·.id != a.id) }
  let s := s.answered a
  let bs := a.val.getD []
  let s := if bs.isEmpty then s else (s.modGroup a.tid a.gix fun g => (g.putWords a bs).fill a bs).putPre a bs
  if a.kind.isFetch then s.modGroup a.tid a.gix fun g => g.count fun g => { g with oc := g.oc - 1 } else s

/-! ### Performing -/

/-- A packet over the fabric is progress of its partition (R293). -/
def State.tickFar (s : State) (ctx : Nat) (far : Bool) : State := if far then s.tick ctx else s

/-- Report a store or post that cannot reach its chip (R210).
DEDUCED (log 20; unsafe). -/
def State.undelivered (s : State) (a : Acc) (chip : Nat) : State :=
  if a.kind.isStore then s.lostStore a.ctx a.va chip else s.reportBare a.ctx { Flt.at' Code.eccu a.va with remote := true } false

/-- The entry of an access (R295, R307). -/
def Acc.entry (a : Acc) (gpa : Nat) : Entry :=
  { op := match a.kind with
      | .load => .load
      | .store => .store
      | .post op => op
      | .fetch op => op
      | .tx _ => .store
    gpa := gpa, size := a.size, data := a.data, cmp := a.cmp, table := some (a.ctx, a.alg), lanes := a.lanes.map fun j => (a.tid, a.gix, j)
    acc := if a.kind.isLoad || a.kind.isFetch then some a.id else none, fetching := a.kind.isFetch, va := a.va, ctx := a.ctx }

/-- Record a transactional write in its group's shadow rows, if the group is still open (R310). -/
def State.txRecord (s : State) (handle : Word) (gpa : Nat) (bs : List Byte) : State :=
  let row := gpa / 2048
  let put (r : TxRow) : TxRow :=
    { r with bytes := bs.zipIdx.foldl (fun l p => l.filter (·.1 != gpa % 2048 + p.2) ++ [(gpa % 2048 + p.2, p.1)]) r.bytes }
  let open' (t : Tx) : Bool := t.slot == handle.toNat % 64 && t.serial == handle.extractLsb' 16 16 && !t.aborted
  s.modAgent (stackOf gpa) fun a =>
    { a with txs := modWhere open' (fun t => { t with rows := modWhere (·.row == row) put t.rows }) a.txs }

def State.dropAcc (s : State) (id : Nat) : State := { s with accs := s.accs.filter (·.id != id) }

/-- An access is given up: it is dropped, and an entry of it that waits returns nothing. -/
def State.forget (s : State) (a : Acc) : State :=
  let s := s.dropAcc a.id
  match a.place with
  | .mem gpa =>
    if a.arrived && a.val.isNone then
      s.modAgent (stackOf gpa) fun g =>
        { g with holes := g.holes.map fun h => { h with entries := modWhere (·.acc == some a.id) (fun e => { e with acc := none }) h.entries } }
    else if a.val.isSome then s.answered a
    else s.taken a
  | _ => if a.val.isSome then s.answered a else s.taken a

/-- An access to another chip leaves its port (R258, R331): it is then performed at every scope but pod. -/
def State.depart (s : State) (a : Acc) : State :=
  match a.place with
  | .mem gpa =>
    if s.onChip gpa || a.left then s
    else (s.leaves (chipOf gpa) a.size 0).modAcc a.id fun x => { x with left := true }
  | _ => s

/-- A load searches its core's store path, which it keeps what it met there of (R258).
DEDUCED (log 62; unsafe). -/
def State.search (s : State) (a : Acc) : State :=
  let s := (s.meet a).fixed a
  (s.noteSeen a).modAcc a.id fun x => { x with cover := runsOver (s.pathStores a) a.place a.size }

/-- What a load that has searched met in its core's path. -/
def State.met (s : State) (a : Acc) : List (Nat × List Byte) := ((s.acc? a.id).map (·.cover)).getD []

/-- A load's value as its home gives it, with the stores of its core's path over it (R258). -/
def State.loaded (s : State) (a : Acc) (bs : List Byte) : State := ((s.search a).answers a).setVal (some a.id) bs

/-- The entry of a load arrives at its pigeonhole (R295); where the stores it met in the path give all of it, it has its value at once.
DEDUCED (log 62; unsafe). -/
def State.enterLoad (s : State) (a : Acc) (gpa : Nat) : State :=
  let s := s.search a
  let whole := covers (s.met a) gpa a.size && !((wordsOf gpa a.size).any fun w => s.poison.contains w && !coversWord (s.met a) w)
  let e := a.entry gpa
  let s := (s.append a.party (if whole then { e with acc := none } else e)).modAcc a.id fun x => { x with arrived := true }
  if whole then (s.answers a).setVal (some a.id) (List.replicate a.size 0) else s

/-- Perform an access to memory at its home, or append it to its pigeonhole (R295, R304). -/
def State.performMem (s : State) (a : Acc) (gpa : Nat) : State :=
  let far := !s.onChip gpa
  if far && !s.reachable (chipOf gpa) then
    let s := s.taken a
    if a.kind.isLoad || a.kind.isFetch then (s.answers a).setVal (some a.id) [] else (s.dropAcc a.id).undelivered a (chipOf gpa)
  else
    let s := ((s.depart a).taken a).tickFar a.ctx far
    match a.kind with
    | .load =>
      if isDevice gpa then
        let (bs, s) := (s.meet a).deviceLoad gpa a.size
        (s.answers a).setVal (some a.id) bs
      else if a.alg == 0 || far then
        let s := ((s.drainOver gpa a.size).hold a.cls gpa).search a
        let bad := (wordsOf gpa a.size).any fun w => s.poison.contains w && !coversWord (s.met a) w
        (s.answers a).setVal (some a.id) (if bad then [] else s.read gpa a.size)
      else s.enterLoad a gpa
    | .store =>
      let s := (s.enter a).dropAcc a.id
      if isDevice gpa then s.deviceStore gpa a.data
      else if a.alg == 0 || far then (s.hold a.cls gpa).writeHome gpa a.data
      else s.append a.party (a.entry gpa)
    | .post _ => (s.dropAcc a.id).append a.party (a.entry gpa)
    | .fetch _ => (s.append a.party (a.entry gpa)).modAcc a.id fun x => { x with arrived := true }
    | .tx h => ((s.dropAcc a.id).hold a.cls gpa).txRecord h gpa a.data

/-- Perform an access (R258). A load outside the pigeonholes has its value afterwards; stores and posts are over. -/
def State.performAcc (s : State) (a : Acc) : State :=
  match a.place with
  | .mem gpa => s.performMem a gpa
  | .spad tid off =>
    let s := s.taken a
    match a.kind with
    | .load =>
      if (s.team? tid).isSome then s.loaded a (s.spadBytes tid off a.size)
      else
        let (bs, s) := s.freeBytes (a.size + 7)
        s.loaded a (bs.take a.size)
    | _ => ((s.enter a).dropAcc a.id).writeSpad (some (a.tid, a.gix, a.lane)) tid off a.data
  | .pool lid cl off =>
    match a.kind with
    | .load => s.loaded a (s.poolBytes lid cl off a.size)
    | _ => ((s.enter a).dropAcc a.id).writePool (some (a.tid, a.gix, a.lane)) lid cl off a.data
  | .acc tid tag i =>
    match a.kind with
    | .load =>
      let (w, s) := s.accWord tid tag i
      s.loaded a (toLe 4 w.toNat)
    | _ => ((s.enter a).dropAcc a.id).setAccWord tid tag i (BitVec.ofNat 32 (leNat a.data))

/-- Perform an access and, where it returns a value, wait for the value: its entry and those before it retire. The
value stays at the access.
DESIGN CHOICE (log 19; unsafe); DEDUCED (log 62; unsafe). -/
def State.complete (s : State) (id : Nat) : State :=
  match s.acc? id with
  | none => s
  | some a =>
    let s := if a.arrived || a.val.isSome then s else s.performAcc a
    match s.acc? id with
    | none => s
    | some b =>
      if b.val.isSome then s
      else
        match b.place with
        | .mem gpa => s.retireWhile (gpa / 8) (fun e => e.acc == some id) 17
        | _ => s

/-- Complete an access and deliver its value; the value of a test waits for the test. -/
def State.finishAcc (s : State) (id : Nat) : State :=
  let s := s.complete id
  match s.acc? id with
  | some a => if a.val.isSome && a.shape != .probe then s.deliver a else s
  | none => s

/-! ### Waiting for accesses (R56, R264, R270) -/

/-- How far `a` must come where it precedes an access that must come to `f`, and must come to `need` before that is performed: to leave a port asks of stores
and posts to other chips only that they have left theirs. -/
def State.farBefore (s : State) (f need : Far) (a : Acc) : Far :=
  let away := match a.place with | .mem g => !s.onChip g | _ => false
  if f == .port && away && need != .no && !(a.kind.isLoad || a.kind.isFetch) then .port else need

/-- Add what must precede the accesses to be performed; `n` bounds the rounds. -/
def State.withBefore (s : State) : Nat → List (Acc × Far) → List (Acc × Far)
  | 0, l => l
  | n + 1, l =>
    let ask (a : Acc) : Far :=
      l.foldl (fun f b => f.max (s.farBefore b.2 (s.orderTo a b.1) a)) (((l.find? (·.1.id == a.id)).map (·.2)).getD .no)
    let more := (s.accs.map fun a => (a, ask a)).filter fun p => !p.2.met p.1
    if more.length == l.length && more.all (fun p => l.any fun q => q.1.id == p.1.id && q.2 == p.2) then more else s.withBefore n more

/-- Bring an access as far as asked. -/
def State.bring (s : State) (p : Acc × Far) : State :=
  match p.2 with
  | .no => s
  | .port => s.depart p.1
  | .home => s.performAcc p.1
  | .value => s.complete p.1.id
  | .done => s.finishAcc p.1.id

/-- Bring the accesses that a test names as far as it says, with what must precede them, each after what must precede it; `n` bounds the moves. -/
def State.settleN : Nat → (Acc → Far) → State → State
  | 0, _, s => s
  | n + 1, goal, s =>
    let want := (s.accs.map fun a => (a, goal a)).filter fun p => !p.2.met p.1
    if want.isEmpty then s
    else
      let all := s.withBefore (s.accs.length + 1) want
      match all.find? fun p => !(all.any fun q => s.orders q.1 p.1) with
      | none => s
      | some p => State.settleN n goal (s.bring p)

/-- DEDUCED (log 36; safe). -/
def State.settle (s : State) (goal : Acc → Far) : State := State.settleN (4 * s.accs.length + 1) goal s

/-- Perform every access that a test picks, with what must precede them, in order, delivering values: how an interlock,
a fence or an engine command waits for earlier accesses (R56, R264, R270). -/
def State.force (s : State) (p : Acc → Bool) : State := s.settle fun a => if p a then .done else .no

/-- Perform what must precede an access. -/
def State.forceBefore (s : State) (id : Nat) : State :=
  match s.acc? id with
  | some a => State.settleN (4 * s.accs.length + 1) (fun b => if b.id == id then .no else s.orderTo b a) s
  | none => s

/-- How far a store or post in flight must come to be performed at a scope (R257, R258, R267 notes 7 and 8).
DEDUCED (log 36; safe). -/
def State.shortOf (s : State) (sc : Scope) (a : Acc) : Far :=
  let homeIf (b : Bool) : Far := if b then .home else .no
  match a.place with
  | .mem g => if !s.onChip g then (if sc == .pod then .home else .port) else if a.cls == 2 then homeIf (4 ≤ sc.code) else homeIf (2 ≤ sc.code)
  | .spad t _ => homeIf (t == a.tid || 2 ≤ sc.code)
  | .pool _ _ _ => homeIf (2 ≤ sc.code)
  | .acc _ _ _ => .home

/-- The stores in the store path that lanes of a group have read (R268).
DEDUCED (log 36; safe). -/
def State.readBy (s : State) (tid gix : Nat) (lanes : List Nat) (a : Acc) : Bool :=
  a.kind.isStore && (match s.group? tid gix with | some g => g.seen.any fun p => p.2 == a.id && lanes.contains p.1 | none => false)

/-- Wait for earlier accesses of lanes of a group: loads and, where asked, the returns of fetching operators; stores and
posts of the colours of a mask; each performed at a scope, an access to another chip at those below pod once it has left its port (R264, R267, R270);
and the stores that the lanes have read (R268). A fence below sys does not wait for class-2 accesses (R267 note 7).
DEDUCED (log 36; safe). -/
def State.await (s : State) (fence : Bool) (tid gix : Nat) (lanes : List Nat) (ks : Kinds) (returns : Bool) (mask : Nat) (sc : Scope) : State :=
  let mine (a : Acc) : Bool := a.tid == tid && a.gix == gix && a.lanes.any lanes.contains && !(fence && a.cls == 2 && sc.code < 4)
  let value (a : Acc) : Far := match a.place with | .mem g => if !s.onChip g && sc != .pod then .port else .done | _ => .done
  let own (a : Acc) : Far :=
    match a.kind with
    | .load => if ks.ld then value a else .no
    | .fetch _ => if returns then value a else if ks.po && mask.testBit a.colour then s.shortOf sc a else .no
    | .store => if ks.st && mask.testBit a.colour then s.shortOf sc a else .no
    | _ => if ks.po && mask.testBit a.colour then s.shortOf sc a else .no
  -- a store or post enters the store path once the loads before it have their values
  let named (st : Acc) : Bool := mine st && st.path.isNone && (if st.kind.isStore then ks.st else ks.po && st.kind.isPost) && mask.testBit st.colour
  let s := s.force fun a => s.accs.any fun st => named st && (s.chain st).any a.bars
  let s := s.accs.foldl (fun s st => if st.kind.isStore && named st then (match s.acc? st.id with | some b => s.enter b | none => s) else s) s
  s.settle fun a => (if mine a then own a else .no).max (if (ks.st || ks.po) && s.readBy tid gix lanes a then s.shortOf sc a else .no)

/-- Put an access in flight (R257). -/
def State.issueAcc (s : State) (a : Acc) : State := { s with accs := s.accs ++ [a] }.asked a

/-! ### Code lines (R68, R69, R189, R415) -/

/-- What a fetch of a line gives. -/
inductive Fetched where
  | line (bits : BitVec 1024)
  | flt (f : Flt)
  deriving DecidableEq, Repr

/-- The 128 bytes of a code line as one number: bit 0 is the first bit of the header. -/
def codeLine (bs : List Byte) : BitVec 1024 := BitVec.ofNat 1024 (leNat bs)

/-- Fetch a line: translated with X, not poisoned, and taken from memory, as a load is, from a copy that no `icinv` has dropped, or as it was when the
group last ordered its loads at dev scope (`ahead`); which of them, where they differ, is free (R68, R69, R189, R415).
DESIGN CHOICE (log 15; safe). -/
def State.fetchLine (s : State) (core : Nat) (c : Context) (ahead : Option Snap) (va : Nat) : Fetched × State :=
  let a := BitVec.ofNat 64 va
  match s.checkVa core c a 128 1 .fetch false false with
  | (.error f, s) => (.flt f, s)
  | (.ok k, s) =>
    let s := s.drainOver k.gpa 128
    let asked (s : State) : State := s.visit c.ctx (.core core) (Pte.cls k.leaf.e) k.gpa true
    let cached := (s.core core).ilines.find? fun l => l.ctx == c.ctx && l.va == va
    let now := codeLine (s.read k.gpa 128)
    let olds := (cached.toList.map (·.bits) ++ ahead.toList.map fun m => codeLine (m.bytes s k.gpa 128)).filter (· != now)
    let (n, s) := if olds.isEmpty then (0, s) else s.freeNat
    match olds[n % (olds.length + 1)]? with
    | some old => (.line old, s)
    | none =>
      let s := asked s
      if s.poisoned k.gpa 128 then (.flt (Flt.at' Code.eccu a), s)
      else
        let fresh : ILine := ⟨c.ctx, va, now⟩
        (.line now, s.modCore core fun x => { x with ilines := fresh :: x.ilines.filter fun l => !(l.ctx == c.ctx && l.va == va) })

end Sys2Proof.Machine
end

