-- ==== Sys2Proof/Machine/Ops.lean ====
section
/-! DEFINITION. The operations that every instruction shares: issue, guard, latches, operands, results, parking and waking,
rejoin, faults, entry to the trap handler and return from it. -/

namespace Sys2Proof.Machine

/-! ### Lanes -/

/-- Push one word (R63). -/
def Lane.push (l : Lane) (w : Word) : Lane := { l with latches := (⟨w, true, none⟩ :: l.latches).take 4 }

/-- Push a value: a 64-bit one its high word first (R63). -/
def Lane.pushVal (l : Lane) (pair : Bool) (x : Dword) : Lane :=
  if pair then (l.push (x.extractLsb' 32 32)).push (x.extractLsb' 0 32) else l.push (x.extractLsb' 0 32)

/-- Write one register, or an even pair, of a register file (R66, R113). -/
def setReg (f : Cells 32) (n : Nat) (pair : Bool) (x : Dword) : Cells 32 :=
  let lo := Cells.set f n (x.extractLsb' 0 32)
  if pair then Cells.set lo (n + 1) (x.extractLsb' 32 32) else lo

/-- Read one register, or an even pair. -/
def getReg (f : Cells 32) (n : Nat) (pair : Bool) : Dword :=
  if pair then Cells.get f (n + 1) ++ Cells.get f n else (Cells.get f n).zeroExtend 64

/-- A predicate; p7 reads 1 (R116). -/
def Lane.pred (l : Lane) (n : BitVec 3) : Bool := n == 7 || l.p.getLsbD n.toNat

/-- Write a predicate; a write to p7 is discarded (R116). -/
def Lane.setPred (l : Lane) (n : BitVec 3) (b : Bool) : Lane :=
  if n == 7 then l
  else { l with p := if b then l.p ||| (1#7 <<< n.toNat) else l.p &&& ~~~(1#7 <<< n.toNat) }

/-- Whether a lane takes part in issue (R21, R183, R191). -/
def Lane.issues (l : Lane) : Bool := l.st == .active && !l.held && !l.halted

/-- Whether a lane is neither exited nor never launched. -/
def Lane.live (l : Lane) : Bool := l.st != .exited && l.st != .never

/-- A lane parks.
DEDUCED (log 29; unsafe). -/
def Lane.park (l : Lane) (why : Park) : Lane := { l with st := .parked why }

/-! ### Groups -/

/-- Change the lanes named, each with its datum. -/
def Group.onLanes {α : Type} (g : Group) (xs : List (Nat × α)) (f : α → Lane → Lane) : Group :=
  { g with lanes := xs.foldl (fun ls p => ls.modify p.1 (f p.2)) g.lanes }

/-- Change the lanes named. -/
def Group.eachLane (g : Group) (js : List Nat) (f : Lane → Lane) : Group := { g with lanes := js.foldl (fun ls j => ls.modify j f) g.lanes }

def Group.lane (g : Group) (j : Nat) : Lane := g.lanes.getD j ⟨.never, 0, [], 0, [], [], false, false, false, none, false⟩

/-- The lanes of a group that meet a test, in rising order. -/
def Group.lanesWhere (g : Group) (p : Lane → Bool) : List Nat := (List.range g.lanes.length).filter fun j => p (g.lane j)

/-- Write a result in the lanes that produced it and push it there (R58, R63, R115, R116). A uniform destination takes
the value of the lowest lane, which every lane pushes; with no lane nothing is written. -/
def Group.put (g : Group) (d : Dst) (vals : List (Nat × Dword)) : Group :=
  match d with
  | .none => g
  | .v n pair => g.onLanes vals fun x l => { (l.pushVal pair x) with v := setReg l.v n.toNat pair x }
  | .nw pair => g.onLanes vals fun x l => l.pushVal pair x
  | .p n => g.onLanes vals fun x l => (l.setPred n (x.getLsbD 0)).push (if x.getLsbD 0 then 1 else 0)
  | .k n pair =>
    match vals with
    | [] => g
    | (_, x) :: _ => { (g.onLanes vals fun _ l => l.pushVal pair x) with k := setReg g.k n.toNat pair x }

/-- OR flags into FPST (R118). -/
def Group.orFlags (g : Group) (fl : FpFlags) : Group := { g with fpst := g.fpst ||| fl }

/-! ### Rejoin (R37, R38, R176) -/

/-- Whether a lane counts as arrived at `join` on mask `m`. -/
def Lane.arrived (l : Lane) (m : Nat) : Bool :=
  match l.st with
  | .parked (.join n _) => n == m
  | .exited => true
  | .never => true
  | _ => false

/-- Whether the release condition of a mask holds. -/
def Group.joinReady (g : Group) (m : Nat) : Bool :=
  let mask := Cells.get g.j m
  (g.lanesWhere fun l => match l.st with | .parked (.join n _) => n == m | _ => false).any (fun j => mask.getLsbD j)
    && (g.lanesWhere fun l => !l.arrived m).all (fun j => !mask.getLsbD j)

def Lane.leaveJoin (m : Nat) (l : Lane) : Lane :=
  match l.st with
  | .parked (.join n succ) => if n == m then l.wake succ false else l
  | _ => l

/-- Release a mask whose condition holds: it is cleared and every lane parked on it goes to its own successor. -/
def Group.release (g : Group) (m : Nat) : Group :=
  if g.joinReady m then { g with j := Cells.set g.j m 0, lanes := g.lanes.map (Lane.leaveJoin m) } else g

/-- Every release that has become due. -/
def Group.releaseAll (g : Group) : Group := (List.range 8).foldl Group.release g

/-- Clear the bits of lanes in every rejoin mask (R30, R177). -/
def Group.dropBits (g : Group) (lanes : List Nat) : Group :=
  { g with j := (List.range 8).foldl (fun j m => Cells.set j m (Cells.get j m &&& ~~~(laneMask lanes))) g.j }

/-! ### Trap entry and return (R182 to R184) -/

/-- Whether a fault code is taken by the context's handler (R182). -/
def Context.handles (c : Context) (g : Group) (code : FCode) : Bool := c.thnd != 0 && c.ten.getLsbD code && !g.handler && code != Code.pgf

/-- The resume PC of a code (Table 7-3). -/
def resumePc (code : FCode) (pc next : Dword) : Dword := if code == Code.trap then next else pc

/-- TCAUSE for a fault (Table 7-4). -/
def tcauseOf (f : Flt) : Word :=
  BitVec.ofNat 32 (f.num % 65536 * 65536 + (if f.alt then 4096 else 0) + (if f.remote then 512 else 0) + f.code % 256)

/-- Park lanes of a group. -/
def State.parkLanes (s : State) (tid gix : Nat) (lanes : List Nat) (why : Park) : State :=
  s.modGroup tid gix fun g => g.eachLane lanes fun l => l.park why

/-- Write a fault to the die's buffer and park its lanes on the entry, or on the fault held (R182, R290, R291). -/
def State.bufferFault (s : State) (t : Team) (g : Group) (f : Flt) (lanes : List Nat) (pc next : Dword) (halt : Bool) : State :=
  let (serial, s) := s.newId
  let e : FEntry := ⟨t.ctx, t.core, g.slotNo, f, halt, g.handler, false, laneMask lanes, shownPc pc, some (t.tid, g.gix), serial⟩
  let d := dieOf t.core
  let s := s.report d e
  let why : Park :=
    match s.reportPark d serial with
    | some i => .buffer d i e (resumePc f.code pc next) next
    | none => .heldFault e (resumePc f.code pc next) next
  s.parkLanes t.tid g.gix lanes why

/-- A lane at trap entry: its latches are saved; a handler lane starts at THND with all latches invalid, another live
lane becomes trap-held (R183). -/
def Lane.enterTrap (thnd : Dword) (isHandler : Bool) (l : Lane) : Lane :=
  let l := { l with saved := l.latches }
  if isHandler then { l.invalidate with st := .active, pc := thnd, retry := false, lastHold := false }
  else if l.live then { l with held := true, woke := none }
  else l

/-- The group's trap registers and lanes at entry to the handler (R183, Table 7-4). -/
def Group.enterTrap (g : Group) (thnd : Dword) (f : Flt) (lanes : List Nat) (pc next : Dword) (word : Code) : Group :=
  { g with
    handler := true, tcause := tcauseOf f, tmask := laneMask lanes, tpc := shownPc (resumePc f.code pc next), tpend := some (resumePc f.code pc next), tword := word
    taddr := if f.code == Code.trap || f.code == Code.brk then 0 else f.addr
    lanes := g.lanes.zipIdx.map fun p => Lane.enterTrap thnd (lanes.contains p.2) p.1 }

/-- Whether the handler's line can be entered: slot 0, well formed, fetchable, with a good header and VALID bit 0. -/
def State.handlerLine (s : State) (t : Team) (c : Context) (ahead : Option Snap) : Bool × State :=
  if !pcOk c.thnd || pcSlot c.thnd != 0 then (false, s)
  else
    match s.fetchLine t.core c ahead (pcLine c.thnd) with
    | (.line bits, s) => (headerOk bits && slotValid bits 0, s)
    | (.flt _, s) => (false, s)

/-- Take an exception (R182, R183): enter the context's handler in one step, or write the fault to the buffer. -/
def State.takeFault (s : State) (tid gix : Nat) (f : Flt) (lanes : List Nat) (pc next : Dword) (word : Code) : State :=
  match s.team? tid, s.group? tid gix with
  | some t, some g =>
    match s.ctx? t.ctx with
    | none => s
    | some c =>
      if c.handles g f.code then
        let (ok, s) := s.handlerLine t c g.ahead
        if ok then s.modGroup tid gix fun g => g.enterTrap c.thnd f lanes pc next word
        else s.bufferFault t g f lanes pc next false
      else s.bufferFault t g f lanes pc next false
  | _, _ => s

/-- A lane at the return from the handler (R184). `hold` says a handler lane goes on reading its latches: it retries
its instruction, or the `trap` it executed carried HOLD (R64).
DEDUCED (log 29; unsafe). -/
def Lane.leaveTrap (tpc : Dword) (isHandler hold : Bool) (l : Lane) : Lane :=
  if !l.live then l
  else if isHandler then { l with pc := tpc, latches := l.saved, retry := hold, lastHold := false }
  else if !l.held then l
  else
    let l' := { l with latches := l.saved, held := false, woke := none }
    match l.woke with
    | some keep => if keep then { l' with retry := true } else { l'.invalidate with retry := false }
    | none => l'

/-- The return from the handler in one step (R184). -/
def Group.leaveTrap (g : Group) : Group :=
  let hold := g.tcause.extractLsb' 0 8 != BitVec.ofNat 8 Code.trap || g.tword.getLsbD 75
  { g with handler := false, lanes := g.lanes.zipIdx.map fun p => Lane.leaveTrap (g.tpend.getD g.tpc) (g.tmask.getLsbD p.2) hold p.1 }

/-- The handler lanes that have not exited. -/
def Group.handlerLanes (g : Group) : List Nat := (g.lanesWhere Lane.live).filter fun j => g.tmask.getLsbD j

/-- Where every handler lane has exited, the `exit` that empties them performs the return (R184). -/
def Group.leaveIfEmpty (g : Group) : Group := if g.handler && g.handlerLanes.isEmpty then g.leaveTrap else g

/-- A lane's outstanding results are all in, so it exits (R177). -/
def State.exitLanes (s : State) (tid gix : Nat) (lanes : List Nat) : State :=
  s.modGroup tid gix fun g =>
    (((g.eachLane lanes fun l => { l with st := .exited, held := false }).dropBits lanes).releaseAll).leaveIfEmpty

/-! ### Issue -/

/-- One instruction in issue: its group as it stands after the interlocks and R64, the lanes that issue it and those
whose guard holds. -/
structure Issue where
  tid : Nat
  gix : Nat
  core : Nat
  hold : Bool
  lanes : List Nat
  act : List Nat
  pc : Dword
  next : Dword
  word : Code
  team : Team
  g : Group
  c : Context
  pre : List Lane
  deriving DecidableEq, Repr

/-- What an instruction's own effect gives: the state, the lanes that fault, those that go elsewhere than to the
successor, those whose PC it has dealt with, and whether it waits and is issued again (the state then holds none of
its effects). -/
structure Res where
  s : State
  faults : List (Nat × Flt) := []
  jumps : List (Nat × Dword) := []
  stay : List Nat := []
  retry : Bool := false
  deriving DecidableEq, Repr

/-- A guard (R55). -/
def Lane.guard (l : Lane) (h : Hdr) : Bool := l.pred h.pred != h.neg

/-- The registers and latches that a field covers: the number of 32-bit registers of an operand. -/
def spanOf (f : SField) : Nat := max f.req.wd.regs f.req.mult

def srcV (f : SField) : List Nat :=
  match f.src with
  | .v n _ _ _ => (List.range (spanOf f)).map (n.toNat + ·)
  | _ => []

def srcK (f : SField) : List Nat :=
  match f.src with
  | .k n _ _ => (List.range (spanOf f)).map (n.toNat + ·)
  | _ => []

def srcL (f : SField) : List Nat :=
  match f.src with
  | .latch n => (List.range f.req.wd.regs).map (n.toNat + ·)
  | _ => []

/-- Vector registers, uniform registers and latches that a word names, sources and destination. -/
def formV (f : Form) : List Nat :=
  f.fields.flatMap srcV ++ (match f.dst with | .v n _ => (List.range f.dreq.wd.regs).map (n.toNat + ·) | _ => [])
def formK (f : Form) : List Nat :=
  f.fields.flatMap srcK ++ (match f.dst with | .k n _ => (List.range (max f.dreq.wd.regs f.dreq.mult)).map (n.toNat + ·) | _ => [])
def formL (f : Form) : List Nat := f.fields.flatMap srcL

/-- Whether an outstanding access will still write a register that a word names, in a lane that issues it: the
interlock of R56. The moves of the cross-lane class read every lane as it stood before the slot (R161), so they await what other lanes'
accesses made before the slot, whose names are below `born`, still owe. -/
def awaits (f : Form) (tid gix : Nat) (lanes : List Nat) (born : Nat) (a : Acc) : Bool :=
  a.tid == tid && a.gix == gix && (a.kind.isLoad || a.kind.isFetch) &&
    match a.d with
    | .v n _ => (a.lanes.any lanes.contains || (f.opc / 64 == 4 && a.id < born)) && (List.range (max 1 (a.size / 4))).any fun i => (formV f).contains (n.toNat + i)
    | .k n _ => (List.range (max 1 (a.size / 4))).any fun i => (formK f).contains (n.toNat + i)
    | _ => false

/-- The accesses whose values the latches read by a word still await (R56, R220). -/
def awaitsLatch (f : Form) (g : Group) (lanes : List Nat) : List Nat :=
  lanes.flatMap fun j => (formL f).filterMap fun n => (((g.lane j).latches[n]?).bind (·.src)).map (·.acc)

/-- Mark latches invalid where the lane's previous instruction had HOLD clear (R64). -/
def Lane.atIssue (l : Lane) : Lane := if l.retry || l.lastHold then l else l.invalidate

/-- Whether a lane meets an invalid latch among the sources (R64). -/
def Lane.latchBad (l : Lane) (ns : List Nat) : Bool := ns.any fun n => !((l.latches[n]?).map (·.valid)).getD false

/-- The words an operand of `n` words holds in a lane: registers, latches or an immediate (R59 to R62). -/
def Issue.words (x : Issue) (f : Src) (n j : Nat) : List Word :=
  let l := x.g.lane j
  match f with
  | .v r _ _ _ => (List.range n).map fun i => Cells.get l.v (r.toNat + i)
  | .k r _ _ => (List.range n).map fun i => Cells.get x.g.k (r.toNat + i)
  | .latch r => (List.range n).map fun i => ((l.latches[r.toNat + i]?).map (·.val)).getD 0
  | .imm y => (List.range n).map fun i => BitVec.ofNat 32 ((y.signExtend 64).toNat / 2 ^ (32 * i))
  | .p r => (List.range n).map fun i => if i == 0 && l.pred r then 1 else 0

/-- The value of a source field in a lane (R60 to R62): `src(j, f)` of the manual. -/
def Issue.val (x : Issue) (r : Rd) (f : Src) (j : Nat) : Dword :=
  let raw : Dword :=
    match x.words f (if r == .i64 then 2 else 1) j with
    | [lo, hi] => hi ++ lo
    | lo :: _ => lo.zeroExtend 64
    | [] => 0
  match f with
  | .v _ neg abs _ => r.modify neg abs raw
  | .k _ neg _ => r.modify neg false raw
  | .imm y => r.imm y
  | _ => raw

/-- A 32-bit or 64-bit integer source. -/
def Issue.w32 (x : Issue) (f : Src) (j : Nat) : Word := (x.val .i32 f j).extractLsb' 0 32
def Issue.w64 (x : Issue) (f : Src) (j : Nat) : Dword := x.val .i64 f j

/-- A source that is the same in every lane: uniform registers and immediates. -/
def Issue.u32 (x : Issue) (f : Src) : Word := x.w32 f (x.act.headD 0)
def Issue.u64 (x : Issue) (f : Src) : Dword := x.w64 f (x.act.headD 0)

/-- The brand in a quad of uniform registers (R154). -/
def Issue.brand (x : Issue) (f : Src) : Brand :=
  match x.words f 4 0 with
  | [a, b, c, d] => d ++ c ++ b ++ a
  | _ => 0

/-- The lowest lane of act. -/
def Issue.low (x : Issue) : Nat := x.act.headD 0

/-- Change the issuing group. -/
def State.modIssue (s : State) (x : Issue) (f : Group → Group) : State := s.modGroup x.tid x.gix f

/-- Write and push a result in lanes. -/
def State.put (s : State) (x : Issue) (d : Dst) (vals : List (Nat × Dword)) : State := s.modIssue x fun g => g.put d vals

/-- Whether a group is privileged (R187). -/
def Issue.privileged (x : Issue) : Bool := x.g.handler || x.c.priv

/-- The same fault on every lane of act. -/
def Issue.all (x : Issue) (f : Flt) : List (Nat × Flt) := x.act.map fun j => (j, f)

/-- The lanes of act that are not among those faulting. -/
def Issue.without (x : Issue) (faults : List (Nat × Flt)) : Issue := { x with act := x.act.filter fun j => !(faults.any (·.1 == j)) }

/-- The instruction that is in the issue slot, before its interlocks. -/
def State.issue? (s : State) : Option (Slot × Team × Group × Context) :=
  s.slot.bind fun sl =>
    (s.team? sl.tid).bind fun t => (s.group? sl.tid sl.gix).bind fun g => (s.ctx? t.ctx).map fun c => (sl, t, g, c)

/-- A lane after it has issued an instruction (R64). -/
def Lane.issued (hold : Bool) (l : Lane) : Lane := { l with lastHold := hold, retry := false }

/-- The passes that some lanes of a group take to issue a word: the most of their octets that lie in one slice (R35). -/
def Group.passes (g : Group) (lanes : List Nat) : Nat :=
  let os := (g.octets.zipIdx.filter fun o => lanes.any fun j => j / 8 == o.2).map (·.1.slice)
  (os.map fun i => os.count i).foldl max 1

/-- The passes that a word adds to a slot in which lanes of the group, `past`, have issued the other word already (R35). -/
def Group.morePasses (g : Group) (past lanes : List Nat) : Nat := g.passes (past ++ lanes) - (if past.isEmpty then 0 else g.passes past)

/-- Whether a lane retries the instruction at which it is parked with its latches: on a full dirty log (R64, R206). -/
def Lane.retries (l : Lane) : Bool := l.st == .parked .dirtyLog

/-- Counters and chain of a group of which some lanes have issued a word and `done` have completed it (R35, R36, R387); `past` issued the slot's other word. A
word that only faults ends the chain (R57). `tip` are the lanes whose HOLD the limit of the chain does not honour: of its last word, or of every word from
the 64th on. -/
def Group.issued (hold second : Bool) (past lanes done : List Nat) (g : Group) : Group :=
  let tip := done.filter fun j => !(g.lane j).retries
  { g with
    gissue := g.gissue + 1, gpass := g.gpass + BitVec.ofNat 64 (g.morePasses past lanes - (if past.isEmpty then 1 else 0))
    chain := if hold && !done.isEmpty then g.chain + 1 else if second then g.chain else 0
    tip := if hold && !done.isEmpty then (if 64 ≤ g.chain then g.tip else []) ++ tip else if second then g.tip else [] }

/-- The cycle in which a word has issued takes the passes of the group's words together, and the core counts those that no group packed with it has taken
already (R34, R35, R387). -/
def Cycle.issues (g : Group) (lanes : List Nat) (cy : Cycle) : Cycle :=
  { cy with lanes := cy.lanes ++ lanes, passes := max cy.passes (g.passes (cy.lanes ++ lanes)) }
def State.countCycle (s : State) (core tid gix : Nat) (lanes : List Nat) : State :=
  match s.cycle, s.group? tid gix with
  | some cy, some g =>
    { (s.modCore core fun c => { c with issue := c.issue + BitVec.ofNat 64 ((cy.issues g lanes).passes - cy.passes) }) with cycle := some (cy.issues g lanes) }
  | _, _ => s

/-- The lanes of the slot's group that have issued its word A. -/
def State.pastLanes (s : State) : List Nat := (s.cycle.map (·.lanes)).getD []

/-- A claim to issue next that the group has used (R36). -/
def State.claimAfter (s : State) (tid gix : Nat) : Option (Nat × Nat) := if s.urgent == some (tid, gix) then none else s.urgent

/-- Move the lanes that completed: to where the instruction sent them, or to the successor. -/
def Group.advance (x : Issue) (done : List Nat) (r : Res) (g : Group) : Group :=
  let moves := (done.filter fun j => !r.stay.contains j).map fun j => (j, ((r.jumps.find? (·.1 == j)).map (·.2)).getD x.next)
  g.onLanes moves fun pc l => { (l.issued x.hold) with pc := pc }

/-- The faults of one instruction taken (R180): the lanes of PGF park, one entry for each value of ALT; of the other
codes that of the lowest lane is taken, on the lanes that raised it. A trap of word A waits for word B.
DESIGN CHOICE (log 69; unsafe). -/
def State.takeFaults (s : State) (x : Issue) (faults : List (Nat × Flt)) : State :=
  let pgf := faults.filter fun p => p.2.code == Code.pgf
  let rest := faults.filter fun p => p.2.code != Code.pgf
  let park (s : State) (alt : Bool) : State :=
    match pgf.filter (·.2.alt == alt) with
    | [] => s
    | p :: ps =>
      match s.team? x.tid, s.group? x.tid x.gix with
      | some t, some g => s.bufferFault t g p.2 ((p :: ps).map (·.1)) x.pc x.next false
      | _, _ => s
  let s := park (park s false) true
  match rest with
  | [] => s
  | p :: _ =>
    let lanes := (rest.filter fun q => q.2.code == p.2.code).map (·.1)
    match s.slot with
    | some sl =>
      if sl.other.isSome && x.c.handles x.g p.2.code then { s with slot := some { sl with trap := some ⟨p.2, lanes, x.pc, x.next, x.word⟩ } }
      else s.takeFault x.tid x.gix p.2 lanes x.pc x.next x.word
    | none => s.takeFault x.tid x.gix p.2 lanes x.pc x.next x.word

/-- The end of one word: word B follows, or the slot ends and a trap of word A is entered (R180).
DEDUCED (log 26; unsafe). -/
def State.endWord (s : State) (faulted : Bool) : State :=
  match s.slot with
  | none => s
  | some sl =>
    if sl.other.isSome then { s with slot := some { sl with lanes := [], aFault := sl.aFault || faulted } }
    else
      let s := { s with slot := none }
      match sl.trap with
      | some t => s.takeFault sl.tid sl.gix t.flt t.lanes t.pc t.next t.word
      | none => s

/-- Finish an instruction: faulting lanes stay, the others move on, and the faults are taken.
DEDUCED (log 26; unsafe). -/
def finish (x : Issue) (r : Res) : State :=
  let dropped := ((r.s.slot).map (·.aFault)).getD false
  let second := ((r.s.slot).map (·.second)).getD false
  let done := x.lanes.filter fun j => !(r.faults.any (·.1 == j))
  let s := r.s.modGroup x.tid x.gix fun g => Group.issued x.hold second r.s.pastLanes x.lanes done (g.advance x done r)
  let s := { (s.countCycle x.core x.tid x.gix x.lanes).tick x.c.ctx with stalled := [], urgent := r.s.claimAfter x.tid x.gix }
  (if dropped then s else s.takeFaults x r.faults).endWord (!r.faults.isEmpty)

/-- An instruction that must wait has had no effect of its own: its lanes issue it again. -/
def waitAgain (s : State) (sl : Slot) : State :=
  ({ s with stalled := (sl.tid, sl.gix) :: s.stalled }).endWord false

/-- The faults that the fields alone give: a vector register above the budget (R20), then a latch that is not valid
(R64, R76). -/
def fieldFaults (fm : Form) (g : Group) (act : List Nat) : List (Nat × Flt) :=
  if (formV fm).any (g.budget ≤ ·) then act.map fun j => (j, Flt.mk' Code.prot)
  else (act.filter fun j => (g.lane j).latchBad (formL fm)).map fun j => (j, Flt.mk' Code.latch)

/-- An instruction in issue (R55, R56, R64, R76): its guard, its interlocks, the latch rule and the field checks. The state is the one after
the interlocks; the faults are those of the fields.
DESIGN CHOICE (log 63; safe). -/
def openForm (fm : Form) (s0 : State) (sl : Slot) (t : Team) (g0 : Group) (c : Context) : Issue × List (Nat × Flt) × State :=
  let lanes := (List.range g0.lanes.length).filter sl.lanes.contains
  let act := lanes.filter fun j => (g0.lane j).guard fm.hdr
  let waits := awaitsLatch fm g0 act
  let s := s0.force fun a => awaits fm sl.tid sl.gix act sl.born a || waits.contains a.id
  let s := s.modGroup sl.tid sl.gix fun g => g.eachLane lanes Lane.atIssue
  let g := (s.group? sl.tid sl.gix).getD g0
  let x : Issue :=
    { tid := sl.tid, gix := sl.gix, core := t.core, hold := fm.hdr.hold, lanes := lanes, act := act, pc := sl.pc, next := sl.next
      word := sl.word, team := t, g := g, c := c, pre := ((s.slot).map (·.pre)).getD sl.pre }
  let early := fieldFaults fm g act
  (x, early, s)

/-- A word that needed an arrival out of its place in a log waits, or the log names no such arrival (R407). -/
def ifBlocked (s0 u : State) (sl : Slot) : State := if u.blocked then waitAgain (s0.instead u) sl else u

/-- Run one instruction (R74, R180): its own effect on the lanes that its fields do not fault. Where an arrival that it needs, or that entering the handler
for it needs, must wait for its place in the log (R407), it waits.
DEDUCED (log 26; unsafe). -/
def runForm (fm : Form) (body : Issue → State → Res) (s0 : State) (sl : Slot) (t : Team) (g0 : Group) (c : Context) : State :=
  let o := openForm fm s0 sl t g0 c
  let r := body (o.1.without o.2.1) o.2.2
  if r.retry && !r.s.blocked then waitAgain r.s sl else ifBlocked s0 (finish o.1 { r with faults := sortBy (·.1) (o.2.1 ++ r.faults) }) sl

/-- The meaning of an instruction: what `exec` does with the one in the issue slot. -/
def run (i : Instr) (body : Issue → State → Res) (s : State) : Host.Outcome State Fault Refusal :=
  match formOf i, s.issue? with
  | some fm, some (sl, t, g, c) => .next (runForm fm body s sl t g c)
  | _, _ => .fault .noIssue

/-- The group's party name in a postmark (R405). -/
def Issue.party (x : Issue) : Nat := x.g.slotNo % 64 * 2 ^ 11 + x.team.lcore % 2 ^ 11

/-- An instruction that is a choice site happens, or waits under replay for its postmark (R405, R407). -/
def withChoice (x : Issue) (kind site payload : Nat) (s : State) (k : State → Res) : Res :=
  match s.choice x.c.ctx kind site payload with
  | .go s => k s
  | .hold => { s := s, retry := true }
  | .stop s => { s := s, retry := true }

/-- A change of a team-shared object is a choice site of kind 8 (R405, Table 21-7). -/
def withMark (x : Issue) (cls obj : Nat) (s : State) (k : State → Res) : Res :=
  withChoice x 8 (cls * 2 ^ 10 + obj) (x.team.t % 2 ^ 31 * 2 ^ 17 + x.party) s k

/-- A resolve by an instruction, at the choice site of its logical core (R366); or the instruction waits. -/
def withResolve (x : Issue) (b : Brand) (s : State) (k : Resolved → State → Res) : Res :=
  match s.resolveAt x.c.ctx x.team.lcore b (·.resolveCached x.core b) with
  | .got r s => k r s
  | .wait => { s := s, retry := true }
  | .stop s => { s := s, retry := true }

/-- An instruction whose only effect is a value in each lane of act. -/
def runValue (i : Instr) (d : Dst) (f : Issue → Nat → Dword) (s : State) : Host.Outcome State Fault Refusal :=
  run i (fun x s => { s := s.put x d (x.act.map fun j => (j, f x j)) }) s

/-- As `runValue`, with flags that are ORed into FPST (R118). -/
def runFlags (i : Instr) (d : Dst) (f : Issue → Nat → FRes) (s : State) : Host.Outcome State Fault Refusal :=
  run i (fun x s =>
    let rs := x.act.map fun j => (j, f x j)
    { s := s.modIssue x fun g => (g.put d (rs.map fun p => (p.1, BitVec.ofNat 64 p.2.bits))).orFlags (rs.foldl (fun fl p => fl ||| p.2.flags) 0) }) s

end Sys2Proof.Machine
end

