-- ==== Sys2Proof/Machine/BrdExec.lean ====
section
/-! DEFINITION. The brand instructions (R361 to R367). -/

namespace Sys2Proof.Machine

/-! ### Changing a record at its home (R364 to R366) -/

/-- What a change of a record comes to. -/
inductive Changed where
  | done (s : State)
  | differs (s : State)
  | prot (s : State)
  | gone (s : State)
  | unreach (s : State)
  deriving DecidableEq, Repr

/-- A change made by another chip, whose records are not part of this package: any outcome.
DESIGN CHOICE (log 18; safe). -/
def State.changeAway (s : State) : Changed :=
  let (k, s) := s.freeNat
  match k % 3 with
  | 0 => .done s
  | 1 => .differs s
  | _ => .gone s

/-- Change a record at its home, given what to do with it. -/
def State.changeRec (s : State) (b : Brand) (f : BRec → Changed) : Changed :=
  match s.home b with
  | .here r => f r
  | .away => s.changeAway
  | .gone => .gone s
  | .unreach => .unreach s

/-- Replace a payload where the version is the one expected (R364), and shoot the record down. -/
def State.casBrand (s : State) (b payload : Brand) (version : Word) : Changed :=
  s.changeRec b fun r =>
    if r.version != version then .differs s
    else .done ((s.modRec b fun r => { r with payload := payload, version := r.version + 1 }).shootDown b)

/-- A record dies (R365). -/
def State.killBrand (s : State) (b : Brand) : Changed := s.changeRec b fun _ => .done ((s.modRec b fun r => { r with st := 2 }).shootDown b)

/-- One reference more, or PROT at the largest count. -/
def State.refBrand (s : State) (b : Brand) : Changed :=
  s.changeRec b fun r => if r.refs == 0xFFFFF then .prot s else .done (s.modRec b fun r => { r with refs := r.refs + 1 })

/-- One reference fewer; the last one kills the record. -/
def State.dropBrand (s : State) (b : Brand) : Changed :=
  s.changeRec b fun r =>
    if r.refs == 0 then .prot s
    else if r.refs == 1 then .done ((s.modRec b fun r => { r with refs := 0, st := 2 }).shootDown b)
    else .done (s.modRec b fun r => { r with refs := r.refs - 1 })

/-! ### The instructions -/

/-- A change of a record is a store of colour 0 at dev scope: it comes behind what a store comes behind (R259, R361). -/
def State.asStore (s : State) (x : Issue) : State := s.await false x.tid x.gix x.act ⟨true, true, false⟩ true 255 .dev

/-- A change of a record that other groups' resolves may meet, until its group goes on (R366). Another chip's records are not part of this package. -/
def Changed.meets (x : Issue) (b : Brand) (s0 : State) (r : Changed) : Changed :=
  match s0.home b, r with
  | .here old, .done s => .done (s.changing b old x.tid x.gix)
  | _, r => r

/-- Whether a `bdrp` would kill a record that is here. -/
def State.lastRef (s : State) (b : Brand) : Bool := match s.home b with | .here r => r.refs == 1 | _ => false

/-- A change as an instruction: its result, or its fault. -/
def changeBody (x : Issue) (d : Dst) (r : Changed) : Res :=
  let out (s : State) (v : Dword) : Res := { s := s.put x d (x.act.map fun j => (j, v)) }
  match r with
  | .done s => out s 0
  | .differs s => out s 1
  | .prot s => { s := s, faults := x.all (Flt.mk' Code.prot) }
  | .gone s => { s := s, faults := x.all (Flt.mk' Code.bgone) }
  | .unreach s => { s := s, faults := x.all { Flt.mk' Code.bgone with alt := true } }

/-- On a record away, a change without a result of its own may also be refused for its count. -/
def Changed.counted (r : Changed) : Changed :=
  match r with
  | .differs s => .prot s
  | r => r
def Changed.plain (r : Changed) : Changed :=
  match r with
  | .differs s => .done s
  | r => r

def execBcas (h : Hdr) (d : Dst) (a b c : Src) (s : State) : Host.Outcome State Fault Refusal :=
  run (.bcas h d a b c) (fun x s =>
    let v := s.asStore x
    if x.act.isEmpty then { s := s } else changeBody x d ((v.casBrand (x.brand a) (x.brand b) (x.u32 c)).meets x (x.brand a) v)) s

def execBkil (h : Hdr) (a : Src) (s : State) : Host.Outcome State Fault Refusal :=
  run (.bkil h a) (fun x s =>
    let v := s.asStore x
    if x.act.isEmpty then { s := s } else changeBody x .none ((v.killBrand (x.brand a)).plain.meets x (x.brand a) v)) s

def execBref (h : Hdr) (a : Src) (s : State) : Host.Outcome State Fault Refusal :=
  run (.bref h a) (fun x s => if x.act.isEmpty then { s := s } else changeBody x .none ((s.asStore x).refBrand (x.brand a)).counted) s

def execBdrp (h : Hdr) (a : Src) (s : State) : Host.Outcome State Fault Refusal :=
  run (.bdrp h a) (fun x s =>
    let v := s.asStore x
    let r := (v.dropBrand (x.brand a)).counted
    if x.act.isEmpty then { s := s } else changeBody x .none (if v.lastRef (x.brand a) then r.meets x (x.brand a) v else r)) s

/-- Every entry of the core's brand cache is dropped (R367). -/
def execBshd (h : Hdr) (s : State) : Host.Outcome State Fault Refusal :=
  run (.bshd h) (fun x s => { s := if x.act.isEmpty then s else s.modCore x.core fun c => { c with brands := [] } }) s

/-- Write words to the uniform registers from the destination on; the first is pushed (R361). -/
def State.putMany (s : State) (x : Issue) (d : Dst) (ws : List Word) : State :=
  let s := s.put x d (x.act.map fun j => (j, (ws.headD 0).zeroExtend 64))
  match d with
  | .k n _ => s.modIssue x fun g => { g with k := putRegs g.k n.toNat ws }
  | _ => s

def brandWords (b : Brand) : List Word := (List.range 4).map (bWord b)

/-- Mint a brand (R362): the order at the counter is a choice site (Table 21-7). -/
def execBnew (h : Hdr) (kd : Kind) (d : Dst) (a : Src) (s : State) : Host.Outcome State Fault Refusal :=
  run (.bnew h kd d a) (fun x s =>
    if x.act.isEmpty then { s := s }
    else if 5 ≤ kd.code && !x.privileged then { s := s, faults := x.all (Flt.mk' Code.prot) }
    else
      withChoice x 7 0 x.party (s.asStore x) fun s =>
        let r := s.mint x.c.ctx kd.code (x.brand a)
        { s := r.2.putMany x d (brandWords r.1) }) s

/-- The words that a resolve writes, and whether the kind is the one asked for (R363). -/
def resolveWords (kd : Option Kind) (r : Resolved) : List Word × Bool :=
  match r with
  | .live b => ([BitVec.ofNat 32 (16 + b.kind), b.version, BitVec.ofNat 32 b.refs, 0] ++ brandWords b.payload, match kd with | none => true | some k => k.code == b.kind)
  | .gone => (0xF :: List.replicate 7 0, false)
  | .unreach => (0xE :: List.replicate 7 0, false)

def execBres (h : Hdr) (kd : Option Kind) (d : Dst) (a c : Src) (s : State) : Host.Outcome State Fault Refusal :=
  run (.bres h kd d a c) (fun x s =>
    if x.act.isEmpty then { s := s }
    else
      let s := if x.c.fence then s.await false x.tid x.gix x.act ⟨true, false, false⟩ false 255 .dev else s
      withResolve x (x.brand a) s fun r s =>
        let w := resolveWords kd r
        let s := s.putMany x d w.1
        { s := match c with
            | .p n => s.modIssue x fun g => g.eachLane x.act fun l => l.setPred n w.2
            | _ => s }) s

/-- A resolve at a core, as an event of its own: it fills the core's cache (R358, R359). -/
def onBrandResolve (core : Nat) (b : Brand) (s : State) : Option State :=
  if 1536 ≤ core then none else some (s.resolveCached core b).2

def execBrandResolve (core : Nat) (b : Brand) (s : State) : Host.Outcome State Fault Refusal := s.occurs (onBrandResolve core b s)

end Sys2Proof.Machine
end

