-- ==== Sys2Proof/Machine/CntExec.lean ====
section
/-! DEFINITION. Streams of random numbers, counters and program marks (R153 to R157, R387, R388). -/

namespace Sys2Proof.Machine

/-! ### Streams -/

/-- A stream register that is allocated (R153). -/
def Context.stream? (c : Context) (n : Nat) : Option Stream := c.streams.find? fun r => r.n == n && r.on

/-- The word drawn from a key at an offset (R156). -/
def draw (lo hi off : Word) : Word :=
  let a := lo ^^^ off * 0x9E3779B9
  let a := (a ^^^ a >>> 16) * 0x21F0AAAD
  let a := (a ^^^ a >>> 15) * (hi ||| 1)
  a ^^^ a >>> 15

/-- A draw as a fraction below 1: exact in FP32. -/
def drawUnit (a : Word) : Word := BitVec.ofNat 32 (roundTo .f32 .rne false false (a >>> 8).toNat (-24) false).bits

/-- The effect of a draw; BGONE from a register that is not allocated. -/
def drawBody (x : Issue) (sr : BitVec 6) (d : Dst) (a : Src) (f : Word → Word) (s : State) : Res :=
  match ((s.ctx? x.c.ctx).getD x.c).stream? sr.toNat with
  | none => { s := s, faults := x.all (Flt.mk' Code.bgone) }
  | some r => { s := s.put x d (x.act.map fun j => (j, (f (draw r.keyLo r.keyHi (x.w32 a j))).zeroExtend 64)) }

def execRnd (h : Hdr) (sr : BitVec 6) (d : Dst) (a : Src) (s : State) : Host.Outcome State Fault Refusal :=
  run (.rnd h sr d a) (fun x s => drawBody x sr d a id s) s

def execRndu (h : Hdr) (sr : BitVec 6) (d : Dst) (a : Src) (s : State) : Host.Outcome State Fault Refusal :=
  run (.rndu h sr d a) (fun x s => drawBody x sr d a drawUnit s) s

/-- Allocate a stream register, or clear its allocated bit alone (R155). -/
def Context.setStream (c : Context) (n : Nat) (r : Option Stream) : Context :=
  match r with
  | some r => { c with streams := c.streams.filter (·.n != n) ++ [r] }
  | none => { c with streams := modWhere (·.n == n) (fun r => { r with on := false }) c.streams }

def execRsal (h : Hdr) (sr : BitVec 6) (a : Src) (s : State) : Host.Outcome State Fault Refusal :=
  run (.rsal h sr a) (fun x s =>
    if x.act.isEmpty then { s := s }
    else
      withResolve x (x.brand a) s fun r s =>
      match r with
      | .gone => { s := s, faults := x.all (Flt.mk' Code.bgone) }
      | .unreach => { s := s, faults := x.all { Flt.mk' Code.bgone with alt := true } }
      | .live r =>
        if r.kind != kindStream then { s := s, faults := x.all (Flt.mk' Code.prot) }
        else
          withMark x 1 sr.toNat s fun s =>
            { s := s.modCtx x.c.ctx fun c => c.setStream sr.toNat (some ⟨sr.toNat, true, x.brand a, bWord r.payload 0, bWord r.payload 1⟩) }) s

def execRsfr (h : Hdr) (sr : BitVec 6) (s : State) : Host.Outcome State Fault Refusal :=
  run (.rsfr h sr) (fun x s =>
    if x.act.isEmpty then { s := s }
    else withMark x 1 sr.toNat s fun s => { s := s.modCtx x.c.ctx fun c => c.setStream sr.toNat none }) s

/-! ### Counters (R387, Table 18-4) -/

/-- Sample a counter that has moved on by a free amount since it was last.
DESIGN CHOICE (log 17; safe). -/
def State.sampleBy (s : State) (now : Dword) (keep : State → Dword → State) : Dword × State :=
  let (n, s) := s.freeNat
  let v := now + BitVec.ofNat 64 n
  (v, keep s v)

/-- The value of a counter; none for a number that the table does not list.
DESIGN CHOICE (log 17; safe). -/
def State.counter (s : State) (x : Issue) (n : Nat) : Option (Dword × State) :=
  let g := (s.group? x.tid x.gix).getD x.g
  let island := s.islands.getD (islandOf x.core) Island.reset
  let free32 (s : State) : Dword × State := let (w, s) := s.freeWord; (w.zeroExtend 64, s)
  match n with
  | 0x00 => some ((s.core x.core).issue, s)
  | 0x01 => some (g.gissue, s)
  | 0x02 => some (s.sampleBy g.gwait fun s v => s.modIssue x fun g => { g with gwait := v })
  | 0x03 => some (g.gpass, s)
  | 0x04 => some (s.sampleBy g.gpark fun s v => s.modIssue x fun g => { g with gpark := v })
  | 0x10 => some (s.sampleBy (((s.die? (dieOf x.core)).map (·.cecc)).getD 0) fun s v => s.modDie (dieOf x.core) fun d => { d with cecc := v })
  | 0x60 => let (w, s) := s.freeWord; some (w.signExtend 64, s)
  | 0x61 => some (free32 s)
  | 0x62 => some (BitVec.ofNat 64 island.current, s)
  | 0x63 => some (free32 s)
  | 0x70 => some (BitVec.ofNat 64 s.brandSeq, s)
  | 0x71 => some (BitVec.ofNat 64 ((s.ctx? x.c.ctx).getD x.c).pmpos, s)
  | n =>
    if 0x20 ≤ n && n ≤ 0x31 then (s.port? (n - 0x20)).map fun p => (p.late, s)
    else if 0x40 ≤ n && n ≤ 0x51 then (s.port? (n - 0x40)).map fun p => (p.undeliv, s)
    else none

def execPcr (h : Hdr) (d : Dst) (a : Src) (s : State) : Host.Outcome State Fault Refusal :=
  run (.pcr h d a) (fun x s =>
    if x.act.isEmpty then { s := s }
    else
      match s.counter x (x.u32 a).toNat with
      | none => { s := s, faults := x.all (Flt.mk' Code.prot) }
      | some (v, s) => { s := s.put x d (x.act.map fun j => (j, v)) }) s

/-! ### Program marks (R388) -/

/-- A mark that is not the next of its group raises REPLAY.
DEDUCED (log 44; unsafe). -/
def execLgm (h : Hdr) (a : Src) (s : State) : Host.Outcome State Fault Refusal :=
  run (.lgm h a) (fun x s =>
    if x.act.isEmpty then { s := s }
    else
      match s.choice x.c.ctx 14 (x.team.t % 128 * 32 + x.g.gix % 32) ((x.u64 a).toNat % 2 ^ 48) with
      | .go s => { s := s }
      | .hold => { s := s.replayStop x.c.ctx, retry := true }
      | .stop s => { s := s, retry := true }) s

end Sys2Proof.Machine
end

