-- ==== Sys2Proof/Machine/CvtExec.lean ====
section
/-! DEFINITION. The instructions of class CVT (R138 to R149). -/

namespace Sys2Proof.Machine

/-- The companding table of a context: table 0 and a table not loaded are the identity (R99). -/
def Context.cmpTable (c : Context) (t : Nat) : CmpTable := if t == 0 then cmpIdentity else lookupKey t cmpIdentity c.cmp

/-- A source read at a type code (R139). -/
def Issue.typed (x : Issue) (ty : Ty) (f : Src) (j : Nat) : Dword := x.val (Rd.ofTy ty) f j
/-- The bits of an FP32 source. -/
def Issue.f32 (x : Issue) (f : Src) (j : Nat) : Word := (x.val .f32 f j).extractLsb' 0 32

/-- FMTDIV on every lane of act (R146): an invalid format word, a KIND other than 3, or words that differ. -/
def formatFaults (planesToo : Bool) (x : Issue) (fw : Src) : List (Nat × Flt) :=
  let ws := x.act.map fun j => x.w32 fw j
  let bad := ws.any (fun w => fmtInvalid planesToo w || fmtKind w != 3) || ws.any (fun w => fmtKey planesToo w != fmtKey planesToo (ws.headD 0))
  if bad then x.all (Flt.mk' Code.fmtdiv) else []

def execCvt (h : Hdr) (dt st : Ty) (rnd : Rnd) (d : Dst) (a : Src) (s : State) : Host.Outcome State Fault Refusal :=
  runFlags (.cvt h dt st rnd d a) d (fun x j => convert dt st rnd (x.typed st a j)) s

def execCvti (h : Hdr) (dt st : Ty) (rnd : Rnd) (d : Dst) (a b : Src) (s : State) : Host.Outcome State Fault Refusal :=
  runFlags (.cvti h dt st rnd d a b) d (fun x j => convertScaled dt st rnd (x.typed st a j) (x.w32 b j).toInt) s

def execPk16 (h : Hdr) (dt st : Ty) (rnd : Rnd) (d : Dst) (a b : Src) (s : State) : Host.Outcome State Fault Refusal :=
  runFlags (.pk16 h dt st rnd d a b) d (fun x j => pack16 dt st rnd (x.typed st a j) (x.typed st b j)) s

def execUpk16 (h : Hdr) (dt st : Ty) (d : Dst) (a b : Src) (s : State) : Host.Outcome State Fault Refusal :=
  runFlags (.upk16 h dt st d a b) d (fun x j => unpack16 dt st (x.typed st a j) b.immVal.toNat) s

/-- Results with flags on every lane of act, unless the format words fault (R144 to R146). -/
def runFormat (i : Instr) (planesToo : Bool) (d : Dst) (fw : Src) (f : Issue → Nat → FRes) (s : State) : Host.Outcome State Fault Refusal :=
  run i (fun x s =>
    let faults := formatFaults planesToo x fw
    if !faults.isEmpty then { s := s, faults := faults }
    else
      let rs := x.act.map fun j => (j, f x j)
      { s := s.modIssue x fun g => (g.put d (rs.map fun p => (p.1, BitVec.ofNat 64 p.2.bits))).orFlags (rs.foldl (fun fl p => fl ||| p.2.flags) 0) }) s

def execQnt (h : Hdr) (d : Dst) (a b c : Src) (s : State) : Host.Outcome State Fault Refusal :=
  runFormat (.qnt h d a b c) false d b (fun x j =>
    let sc := x.words c 2 j
    quantise (x.c.cmpTable (fmtTable (x.w32 b j))) (x.f32 a j) (sc.getD 0 0) (sc.getD 1 0)) s

def execDqnt (h : Hdr) (dt : Ty) (d : Dst) (a b c : Src) (s : State) : Host.Outcome State Fault Refusal :=
  runFormat (.dqnt h dt d a b c) true d b (fun x j =>
    dequantise dt (x.c.cmpTable (fmtTable (x.w32 b j))) (x.w32 a j) (x.w32 b j) (x.f32 c j)) s

/-- The plane word of the aligned run of 32 lanes that holds lane `j` (R147). -/
def planeWord (x : Issue) (a : Src) (p j : Nat) : Dword :=
  let base := j / 32 * 32
  (List.range 32).foldl (fun w i =>
    if x.act.contains (base + i) && (x.w32 a (base + i)).getLsbD (7 - p) then w ||| (1#64 <<< i) else w) 0

def execBpt (h : Hdr) (d : Dst) (a b : Src) (s : State) : Host.Outcome State Fault Refusal :=
  runValue (.bpt h d a b) d (fun x j => planeWord x a b.immVal.toNat j) s

def execBpr (h : Hdr) (d : Dst) (a b c : Src) (s : State) : Host.Outcome State Fault Refusal :=
  runValue (.bpr h d a b c) d (fun x j => (planeInsert (x.w32 a j) (x.w32 b j) j c.immVal.toNat).zeroExtend 64) s

/-- The outlier side list in lane order, and its count in kN, which is not pushed (R149). -/
def execOlst (h : Hdr) (d : Dst) (a b c : Src) (s : State) : Host.Outcome State Fault Refusal :=
  run (.olst h d a b c) (fun x s =>
    let list := (x.act.filter fun m => (x.w32 b m).getLsbD 8).map fun m => narrow .bf16 (x.f32 a m).toNat
    let vals := x.act.zipIdx.map fun p => (p.1, BitVec.ofNat 64 (list.getD (2 * p.2) 0 + 65536 * list.getD (2 * p.2 + 1) 0))
    let count (g : Group) : Group :=
      match c with
      | .k n _ _ => { g with k := Cells.set g.k n.toNat (BitVec.ofNat 32 list.length) }
      | _ => g
    { s := if x.act.isEmpty then s else s.modIssue x fun g => count (g.put d vals) }) s

end Sys2Proof.Machine
end

