-- ==== Sys2Proof/Machine/Matrix.lean ====
section
/-! DEFINITION. The matrix engine: accumulator addresses, layouts, operand reads through its ports, and the arithmetic of a
pass (R232 to R243, R105 to R108). -/

namespace Sys2Proof.Machine

/-! ### Accumulator addresses (R234, R235) -/

def aaRow (aa : Word) : Nat := aa.toNat % 2 ^ 13
def aaTag (aa : Word) : Nat := aa.toNat / 2 ^ 24

/-- The logical rows of an allocation. -/
def Alloc.firstRow (a : Alloc) : Nat := 256 * a.first
def Alloc.endRow (a : Alloc) : Nat := 256 * (a.first + a.banks.length)

/-- The allocation for which an accumulator address is valid over `c` rows (R235). -/
def Team.aaFor (t : Team) (aa : Word) (c : Nat) : Option Alloc :=
  if aa.extractLsb' 13 11 != 0 then none
  else t.allocs.find? fun a => a.tag == aaTag aa && a.firstRow ≤ aaRow aa && aaRow aa + c ≤ a.endRow && aaRow aa < a.endRow

def Team.modAlloc (t : Team) (tag : Nat) (f : Alloc → Alloc) : Team := { t with allocs := modWhere (·.tag == tag) f t.allocs }

/-- The handle of an allocation (R234). -/
def Alloc.handle (a : Alloc) : Word := BitVec.ofNat 32 (a.tag % 256 * 2 ^ 24 + 256 * a.first)

/-! ### Layouts and checks (R236 to R238, R249) -/

/-- K and M of a SHAPE word, and whether its reserved bits are set (Table 9-7). -/
def shapeK (w : Word) : Nat := w.toNat / 256 % 128 + 1
def shapeM (w : Word) : Nat := w.toNat % 256 + 1
def shapeBad (w : Word) : Bool := w.toNat / 2 ^ 15 != 0

/-- Bytes of an activation element. -/
def actSize (ty : Ty) : Nat := if ty == .s8 then 1 else 2
/-- The row pitch of an activation region, and its length in bytes (R236). -/
def actPitch (ty : Ty) (k : Nat) : Nat := 128 * ((k * actSize ty + 127) / 128)
def actRegion (ty : Ty) (k m : Nat) : Nat := (m + 7) / 8 * (actPitch ty k / 128) * 1024
/-- Where byte `b` of activation row `m` lies (R236). -/
def actByte (pitch m b : Nat) : Nat := (m / 8 * (pitch / 128) + b / 128) * 1024 + m % 8 * 128 + b % 128

/-- The weight and activation pairings (Table 9-2). -/
def pairs (fw : Word) (ty : Ty) : Bool :=
  match fmtKind fw with
  | 1 => ty == .bf16
  | 2 => ty == .f16
  | 3 => if fmtTable fw == 0 then ty == .s8 else ty == .bf16
  | _ => false

/-- The voted format word of the lanes of act, if the vote succeeds with a KIND other than 0 (R104, R238). -/
def Issue.vote (x : Issue) (fw : Src) : Option Word :=
  let ws := x.act.map fun j => x.w32 fw j
  match ws with
  | [] => none
  | w :: _ => if ws.any (· != w) || fmtInvalid true w || fmtKind w == 0 then none else some w

/-- The bytes of the space that an engine reads: the team's scratchpad or the grid's pool in the cluster. -/
def State.spaceBytes (s : State) (t : Team) (pool : Bool) : Nat :=
  if pool then ((s.pool? t.lid (clusterOf t.core)).map (·.bytes)).getD 0 else t.spadBytes

/-! ### Operand reads (R241, R242, R271) -/

/-- What an engine's port may still see at an issue by lanes: the stores of other lanes and groups since the last `ofnc`,
but for those that a later store of the issuing lanes covers.
DESIGN CHOICE (log 16; safe). -/
def freshStale (act : List Nat) : List Stale → List Stale
  | [] => []
  | h :: rest =>
    let later := freshStale act rest
    let mine (x : Stale) : Bool := x.lane < 64 && act.contains x.lane
    if mine h || rest.any (fun x => mine x && x.pool == h.pool && x.addr ≤ h.addr && h.addr + h.olds.length ≤ x.addr + x.olds.length) then later
    else h :: later

/-- The contents a word has had, the present one first.
DESIGN CHOICE (log 16; safe). -/
def pastWords (hist : List Stale) (pool : Bool) (addr : Nat) (now : List Byte) : List (List Byte) :=
  (hist.reverse.foldl (fun (acc : List Byte × List (List Byte)) h =>
    if h.pool == pool && overlap h.addr h.olds.length addr now.length then
      let b := acc.1.zipIdx.map fun p => let i := addr + p.2; if h.addr ≤ i && i < h.addr + h.olds.length then h.olds.getD (i - h.addr) 0 else p.1
      (b, acc.2 ++ [b])
    else acc) (now, [now])).2

/-- Read bytes through an engine's port: each word as it is, or as it was at one time of its history.
DESIGN CHOICE (log 16; safe). -/
def State.portBytes (s : State) (t : Team) (hist : List Stale) (pool : Bool) (off n : Nat) : List Byte × State :=
  let raw := if pool then s.poolBytes t.lid (clusterOf t.core) off n else s.spadBytes t.tid off n
  if hist.all fun h => !(h.pool == pool && overlap h.addr h.olds.length off n) then (raw, s)
  else
    (List.range ((n + 3) / 4)).foldl (fun (acc : List Byte × State) i =>
      let now := (raw.drop (4 * i)).take 4
      match pastWords hist pool (off + 4 * i) now with
      | [b] => (acc.1 ++ b, acc.2)
      | bs =>
        if bs.all (· == now) then (acc.1 ++ now, acc.2)
        else
          let (k, s) := acc.2.freeNat
          (acc.1 ++ bs.getD (k % bs.length) now, s)) ([], s)

/-! ### The arithmetic of a pass (R105 to R108, R243) -/

/-- A little-endian 16-bit number in bytes. -/
def half (bs : Array Byte) (i : Nat) : Nat := (bs.getD i 0).toNat + 256 * (bs.getD (i + 1) 0).toNat

/-- The reconstructed integer of element `e` of a tile of plane blocks (R97, R98). -/
def bpiAt (fw : Word) (bs : Array Byte) (e : Nat) : Int :=
  let k := fmtPlanes fw
  let code := (List.range k).foldl (fun c p => if (bs.getD (1024 * p + e / 8) 0).getLsbD (e % 8) then c + 2 ^ (7 - p) else c) 0
  reconstruct k (fmtMid fw) (codeOf (BitVec.ofNat 32 code))

/-- Weight (ρ, n) as FP32 bits. -/
def weightAt (fw : Word) (t : CmpTable) (bs : Array Byte) (r n : Nat) : Nat :=
  match fmtKind fw with
  | 1 => widen .bf16 (half bs (128 * r + 2 * n))
  | 2 => widen .f16 (half bs (128 * r + 2 * n))
  | _ => widen .bf16 (decodeBpi t (bpiAt fw bs (64 * r + n)) 0x3F800000).bits

/-- Activation element `k` of row `m` as FP32 bits. -/
def actAt (ty : Ty) (pitch : Nat) (bs : Array Byte) (m k : Nat) : Nat :=
  widen (if ty == .f16 then .f16 else .bf16) (half bs (actByte pitch m (2 * k)))

/-- The chain of a column from +0 over rows `lo` to `hi - 1` (R106). -/
def chain (p : Nat → Nat) (lo hi : Nat) : Nat := ((List.range (hi - lo)).map (lo + ·)).foldl (fun s r => f32Add s (p r)) 0

/-- A column's chain value: one chain, or two halves and their sum (R106). -/
def chainOf (split : Bool) (p : Nat → Nat) (k : Nat) : Nat :=
  if split then f32Add (chain p 0 (min k 64)) (chain p 64 k) else chain p 0 k

/-- The word a pass leaves at one element. -/
def passWord (ps : Pass) (t : CmpTable) (acts wts : Array Byte) (acc : Word) (m n : Nat) : Word :=
  let pitch := actPitch ps.ty ps.kk
  if ps.ty == .s8 then
    let d := (List.range ps.kk).foldl (fun (d : Int) r =>
      d + Ty.readInt .s8 ((acts.getD (actByte pitch m r) 0).zeroExtend 64) * bpiAt ps.weights.fw wts (64 * r + n)) 0
    BitVec.ofInt 32 (if ps.ovw then d else max (-(2 ^ 31)) (min (2 ^ 31 - 1) (acc.toInt + d)))
  else
    let c := chainOf ps.split (fun r => f32Mul (actAt ps.ty pitch acts m r) (weightAt ps.weights.fw t wts r n)) ps.kk
    BitVec.ofNat 32 (if ps.ovw then c else f32Add acc.toNat c)

/-- The writes of one pass over accumulator words, in order, and the words after it. -/
def passWrites (ps : Pass) (t : CmpTable) (acts wts : Array Byte) (words : Cells 32) : List MWrite × Cells 32 :=
  (List.range ps.m).foldl (fun (w : List MWrite × Cells 32) m =>
    (List.range 64).foldl (fun (w : List MWrite × Cells 32) n =>
      let i := 64 * (ps.row + m) + n
      let old := Cells.get w.2 i
      let new := passWord ps t acts wts old m n
      (w.1 ++ [⟨ps.tag, i, old, new⟩], Cells.set w.2 i new)) w) ([], words)

/-- The words of an allocation with the writes of granted requests on it, in grant order. -/
def State.grantedWords (s : State) (t : Team) (tag : Nat) : Cells 32 :=
  let rs := sortBy (fun r => r.grant.getD 0) ((s.quad (quadOf t.core)).reqs.filter fun r => r.tid == t.tid && r.grant.isSome)
  let base := ((t.allocs.find? (·.tag == tag)).map (·.words)).getD []
  rs.foldl (fun ws r => r.writes.foldl (fun ws w => if w.tag == tag then Cells.set ws w.idx w.new else ws) ws) base

/-- The sectors of a team's scratchpad that a run of bytes covers. -/
def sectorsOf (off n : Nat) : List Nat := (List.range ((off + n + 63) / 64 - off / 64)).map (off / 64 + ·)

/-- Whether every scratchpad sector that a pass reads is present (R241). -/
def passPresent (t : Team) (p : Pass) : Bool :=
  (p.pool || (sectorsOf p.off (actRegion p.ty p.kk p.m)).all fun i => !t.absent.contains i)
    && (p.weights.pool || (sectorsOf p.weights.off p.weights.bytes).all fun i => !t.absent.contains i)

/-- Run the passes of a request at its grant: its operand reads and its writes. -/
def State.runPasses (s : State) (t : Team) (c : Context) (r : MReq) : List MWrite × State :=
  let got := r.passes.foldl (fun (g : List MWrite × List (Nat × Cells 32) × State) p =>
    let acts := g.2.2.portBytes t r.hist p.pool p.off (actRegion p.ty p.kk p.m)
    let wts := acts.2.portBytes t p.weights.hist p.weights.pool p.weights.off p.weights.bytes
    let words := match g.2.1.find? (·.1 == p.tag) with | some q => q.2 | none => s.grantedWords t p.tag
    let out := passWrites p (c.cmpTable (fmtTable p.weights.fw)) acts.1.toArray wts.1.toArray words
    (g.1 ++ out.1, setKey p.tag out.2 g.2.1, wts.2)) ([], [], s)
  (got.1, got.2.2)

/-- The writes of a request that zeroes rows (R252). -/
def State.zeroWrites (s : State) (t : Team) (r : MReq) : List MWrite :=
  let words := s.grantedWords t r.tag
  (List.range (64 * r.zcount)).map fun i => let n := 64 * r.zrow + i; ⟨r.tag, n, Cells.get words n, 0⟩

/-! ### Grants and completions (R239, R240) -/

/-- Whether two requests write rows in common. -/
def MReq.rows (r : MReq) : List (Nat × Nat × Nat) :=
  match r.kind with
  | .bind => []
  | .zero => [(r.tag, r.zrow, r.zcount)]
  | .pass => r.passes.map fun p => (p.tag, p.row, p.m)
def MReq.touches (a b : MReq) : Bool :=
  a.tid == b.tid && a.rows.any fun x => b.rows.any fun y => x.1 == y.1 && overlap x.2.1 x.2.2 y.2.1 y.2.2
def MReq.sameGroup (a b : MReq) : Bool := a.tid == b.tid && a.gix == b.gix

/-- Whether a request is of a deterministic launch (R409). -/
def State.detReq (s : State) (r : MReq) : Bool := ((s.team? r.tid).bind fun t => (s.launch? t.lid).map (·.pkt.det)).getD false

/-- The first request of a group that is not granted (R240). -/
def headOf (reqs : List MReq) (r : MReq) : Option MReq := reqs.find? fun x => x.grant.isNone && r.sameGroup x

/-- The postmark of a grant, at its site (Table 21-7). -/
def State.grantMark (s : State) (t : Team) (r : MReq) : Nat := postmarkOf 6 (t.lcore % 2 ^ 11) (s.partyOf r.tid r.gix)

/-- Whether a grant is a choice site (R405, R410): it orders a request that writes rows against those of the other groups of its team, whether these stand in
the table already or come later.
DEDUCED (log 44; unsafe). -/
def MReq.ordered (r : MReq) (t : Team) : Bool := r.kind != .bind && 1 < t.groups.length

/-- Whether replay holds a request: its postmark is one of the next 64 of its site and not the next (R407). -/
def State.grantHeld (s : State) (r : MReq) : Bool :=
  match (s.team? r.tid).bind fun t => (s.ctx? t.ctx).map fun c => (t, c) with
  | some (t, c) =>
    let mark := s.grantMark t r
    let next := (s.siteMarks c mark).take 64
    c.replay && r.ordered t && (next.head?.map (·.2)) != some mark && next.any (·.2 == mark)
  | none => false

/-- Whether a request is of a context under replay, whose log gives the order of the grants. -/
def State.replays (s : State) (r : MReq) : Bool := ((s.team? r.tid).bind fun t => (s.ctx? t.ctx).map (·.replay)).getD false

/-- From a request, go to that of the lowest group of its team with a request on common rows, in deterministic mode (R408); `n` bounds the groups.
DEDUCED (log 41; unsafe). -/
def State.detFirst (s : State) (reqs : List MReq) : Nat → MReq → MReq
  | 0, r => r
  | n + 1, r =>
    let ahead (y : MReq) : Bool := y.grant.isNone && y.gix < r.gix && y.touches r && s.detReq y && s.detReq r
    match (sortBy (·.gix) (reqs.filter ahead)).head?.bind (headOf reqs) with
    | some y => s.detFirst reqs n y
    | none => r

/-- The request that the arbiter grants next (R240): of the groups' first requests, that of the highest priority and, among equals, the oldest; where
deterministic requests touch common rows, by group (R408). One that replay holds stands back, and there the log gives the order (R407).
DEDUCED (log 41; unsafe). -/
def State.nextGrant (s : State) (reqs : List MReq) : Option MReq :=
  let heads := reqs.filter fun r => ((headOf reqs r).map (·.id == r.id)).getD false && !s.grantHeld r
  let best := heads.foldl (fun (b : Option MReq) r =>
    match b with
    | none => some r
    | some x => if x.prio < r.prio || (x.prio == r.prio && r.id < x.id) then some r else some x) none
  best.map fun r => if s.replays r then r else s.detFirst reqs 64 r

/-- Whether every scratchpad sector that a request reads is present: it waits for that (R212, R241). -/
def MReq.present (r : MReq) (t : Team) : Bool := t.st == .resident && r.passes.all (passPresent t)

/-- Take a completed request out of its table and lower its group's MC. -/
def State.endReq (s : State) (quad : Nat) (r : MReq) (ctx : Nat) : State :=
  let s := s.modQuad quad fun q => { q with reqs := q.reqs.filter (·.id != r.id) }
  let s := ((s.recv ctx (.engine quad)).pass ctx (.engine quad) (.core (((s.team? r.tid).map (·.core)).getD 0))).tick ctx
  s.modGroup r.tid r.gix fun g => g.count fun g => { g with mc := g.mc - 1 }

/-- Complete the granted requests without writes that now stand first in their group: MC falls in issue order (R374). -/
def State.endBinds (s : State) (quad : Nat) (r : MReq) (ctx : Nat) : Nat → State
  | 0 => s
  | n + 1 =>
    match (s.quad quad).reqs.find? (MReq.sameGroup r) with
    | some x => if x.kind == .bind && x.grant.isSome then (s.endReq quad x ctx).endBinds quad r ctx n else s
    | none => s

/-- Grant a request: it reads its operands and its writes begin; `mlds` and `mswp` complete (R239, R240). -/
def State.grantReq (s : State) (quad : Nat) (r : MReq) (t : Team) (c : Context) : State :=
  let (gid, s) := s.newId
  let w : List MWrite × State :=
    match r.kind with
    | .bind => ([], s)
    | .zero => (s.zeroWrites t r, s)
    | .pass => s.runPasses t c r
  let s := w.2.modQuad quad fun q => { q with reqs := modWhere (·.id == r.id) (fun x => { x with grant := some gid, writes := w.1 }) q.reqs }
  (s.tick c.ctx).endBinds quad r c.ctx 16

/-- Whether a request reads a pool word that holds an uncorrectable error (R208). -/
def State.readsBad (s : State) (t : Team) (r : MReq) : Bool :=
  match s.pool? t.lid (clusterOf t.core) with
  | none => false
  | some q =>
    r.passes.any fun p =>
      (p.pool && (wordsOf p.off (actRegion p.ty p.kk p.m)).any q.bad.contains)
        || (p.weights.pool && (wordsOf p.weights.off p.weights.bytes).any q.bad.contains)

/-- Apply a granted request's writes; a word that changed since the grant keeps that content or takes the request's
(R242). -/
def State.applyWrites (s : State) (tid : Nat) (ws : List MWrite) : State :=
  let firsts := ws.foldl (fun (l : List MWrite) w => if l.any fun x => x.tag == w.tag && x.idx == w.idx then l else l ++ [w]) []
  firsts.foldl (fun s w =>
    let last := ((ws.filter fun x => x.tag == w.tag && x.idx == w.idx).getLast?.map (·.new)).getD w.new
    let now := (((s.team? tid).bind fun t => t.allocs.find? (·.tag == w.tag)).map fun a => Cells.get a.words w.idx).getD 0
    if now == w.old then s.setAccWord tid w.tag w.idx last
    else
      let (keep, s) := s.freeBool
      if keep then s else s.setAccWord tid w.tag w.idx last) s

/-- Whether a granted request may complete: its group's first, behind earlier grants on common rows.
DEDUCED (log 41; unsafe). -/
def Quad.completable (q : Quad) (r : MReq) : Bool :=
  match r.grant with
  | none => false
  | some g =>
    ((q.reqs.find? (MReq.sameGroup r)).map (·.id == r.id)).getD false
      && !(q.reqs.any fun x => x.id != r.id && x.touches r && (match x.grant with | some h => h < g | none => false))

/-- Complete a granted request. -/
def State.completeReq (s : State) (quad : Nat) (r : MReq) (ctx : Nat) : State :=
  ((s.applyWrites r.tid r.writes).endReq quad r ctx).endBinds quad r ctx 16

end Sys2Proof.Machine
end

