-- ==== Sys2Proof/Machine/IntExec.lean ====
section
/-! DEFINITION. The instructions of class INT (R113 to R128). -/

namespace Sys2Proof.Machine

/-- A 0 or 1 result. -/
def ofBool (b : Bool) : Dword := if b then 1 else 0

/-- A source read at an integer type (R117), and an amount of a shift: 32 bits, or packed 16 (R121). -/
def Issue.int (x : Issue) (ty : IntTy) (f : Src) (j : Nat) : Dword := x.val (Rd.ofInt ty) f j
def Issue.amount (x : Issue) (ty : IntTy) (f : Src) (j : Nat) : Dword := x.val (if ty.width == 16 then .i16x2 else .i32) f j
/-- A 32-bit integer source. -/
def Issue.int32 (x : Issue) (f : Src) (j : Nat) : Dword := x.val .i32 f j

def execIadd (h : Hdr) (ty : IntTy) (sat : Bool) (d : Dst) (a b : Src) (s : State) : Host.Outcome State Fault Refusal :=
  runValue (.iadd h ty sat d a b) d (fun x j => IntOp.add ty sat (x.int ty a j) (x.int ty b j)) s

def execIsub (h : Hdr) (ty : IntTy) (sat : Bool) (d : Dst) (a b : Src) (s : State) : Host.Outcome State Fault Refusal :=
  runValue (.isub h ty sat d a b) d (fun x j => IntOp.sub ty sat (x.int ty a j) (x.int ty b j)) s

def execImul (h : Hdr) (ty : IntTy) (sat hi : Bool) (d : Dst) (a b : Src) (s : State) : Host.Outcome State Fault Refusal :=
  runValue (.imul h ty sat hi d a b) d (fun x j => IntOp.mul ty sat hi (x.int ty a j) (x.int ty b j)) s

def execImad (h : Hdr) (ty : IntTy) (sat : Bool) (d : Dst) (a b c : Src) (s : State) : Host.Outcome State Fault Refusal :=
  runValue (.imad h ty sat d a b c) d (fun x j => IntOp.mad ty sat (x.int ty a j) (x.int ty b j) (x.int ty c j)) s

/-- DEDUCED (log 71; unsafe). -/
def execImin (h : Hdr) (ty : IntTy) (d : Dst) (a b : Src) (s : State) : Host.Outcome State Fault Refusal :=
  runValue (.imin h ty d a b) d (fun x j => IntOp.min ty (x.int ty a j) (x.int ty b j)) s

def execImax (h : Hdr) (ty : IntTy) (d : Dst) (a b : Src) (s : State) : Host.Outcome State Fault Refusal :=
  runValue (.imax h ty d a b) d (fun x j => IntOp.max ty (x.int ty a j) (x.int ty b j)) s

def execIabs (h : Hdr) (ty : IntTy) (sat : Bool) (d : Dst) (a : Src) (s : State) : Host.Outcome State Fault Refusal :=
  runValue (.iabs h ty sat d a) d (fun x j => IntOp.abs ty sat (x.int ty a j)) s

def execAnd (h : Hdr) (ty : IntTy) (d : Dst) (a b : Src) (s : State) : Host.Outcome State Fault Refusal :=
  runValue (.and h ty d a b) d (fun x j => x.int ty a j &&& x.int ty b j) s

def execOr (h : Hdr) (ty : IntTy) (d : Dst) (a b : Src) (s : State) : Host.Outcome State Fault Refusal :=
  runValue (.or h ty d a b) d (fun x j => x.int ty a j ||| x.int ty b j) s

def execXor (h : Hdr) (ty : IntTy) (d : Dst) (a b : Src) (s : State) : Host.Outcome State Fault Refusal :=
  runValue (.xor h ty d a b) d (fun x j => x.int ty a j ^^^ x.int ty b j) s

def execAndn (h : Hdr) (ty : IntTy) (d : Dst) (a b : Src) (s : State) : Host.Outcome State Fault Refusal :=
  runValue (.andn h ty d a b) d (fun x j => x.int ty a j &&& ~~~(x.int ty b j)) s

def execShl (h : Hdr) (ty : IntTy) (sat : Bool) (d : Dst) (a b : Src) (s : State) : Host.Outcome State Fault Refusal :=
  runValue (.shl h ty sat d a b) d (fun x j => IntOp.shl ty sat (x.int ty a j) (x.amount ty b j)) s

def execShr (h : Hdr) (ty : IntTy) (d : Dst) (a b : Src) (s : State) : Host.Outcome State Fault Refusal :=
  runValue (.shr h ty d a b) d (fun x j => IntOp.shr ty (x.int ty a j) (x.amount ty b j)) s

def execRot (h : Hdr) (ty : IntTy) (d : Dst) (a b : Src) (s : State) : Host.Outcome State Fault Refusal :=
  runValue (.rot h ty d a b) d (fun x j => IntOp.rot ty (x.int ty a j) (x.amount ty b j)) s

def execBfe (h : Hdr) (ty : IntTy) (d : Dst) (a b : Src) (s : State) : Host.Outcome State Fault Refusal :=
  runValue (.bfe h ty d a b) d (fun x j => IntOp.bfe ty (x.int ty a j) (x.int32 b j)) s

def execBfi (h : Hdr) (ty : IntTy) (d : Dst) (a b c : Src) (s : State) : Host.Outcome State Fault Refusal :=
  runValue (.bfi h ty d a b c) d (fun x j => IntOp.bfi ty (x.int ty a j) (x.int ty b j) (x.int32 c j)) s

def execPopc (h : Hdr) (ty : IntTy) (d : Dst) (a : Src) (s : State) : Host.Outcome State Fault Refusal :=
  runValue (.popc h ty d a) d (fun x j => IntOp.popc ty (x.int ty a j)) s

def execClz (h : Hdr) (ty : IntTy) (d : Dst) (a : Src) (s : State) : Host.Outcome State Fault Refusal :=
  runValue (.clz h ty d a) d (fun x j => IntOp.clz ty (x.int ty a j)) s

def execBrev (h : Hdr) (ty : IntTy) (d : Dst) (a : Src) (s : State) : Host.Outcome State Fault Refusal :=
  runValue (.brev h ty d a) d (fun x j => IntOp.brev ty (x.int ty a j)) s

def execIcmp (h : Hdr) (cond : ICond) (ty : IntTy) (d : Dst) (a b : Src) (s : State) : Host.Outcome State Fault Refusal :=
  runValue (.icmp h cond ty d a b) d (fun x j => ofBool (IntOp.compare cond ty (x.int ty a j) (x.int ty b j))) s

def execSel (h : Hdr) (ty : IntTy) (d : Dst) (a b c : Src) (s : State) : Host.Outcome State Fault Refusal :=
  runValue (.sel h ty d a b c) d (fun x j => if (x.int32 c j).getLsbD 0 then x.int ty a j else x.int ty b j) s

def execMov (h : Hdr) (ty : IntTy) (d : Dst) (a : Src) (s : State) : Host.Outcome State Fault Refusal :=
  runValue (.mov h ty d a) d (fun x j => x.int ty a j) s

def execMovi (h : Hdr) (d : Dst) (imm : Word) (s : State) : Host.Outcome State Fault Refusal :=
  runValue (.movi h d imm) d (fun _ _ => imm.zeroExtend 64) s

def execLea (h : Hdr) (sh : BitVec 3) (ty : IntTy) (d : Dst) (a b : Src) (s : State) : Host.Outcome State Fault Refusal :=
  runValue (.lea h sh ty d a b) d (fun x j => IntOp.lea ty sh (x.val .i64 a j) (x.int32 b j)) s

/-- The sum and its carry (R127): the carry is written under NW too, and is not pushed. -/
def execIaddc (h : Hdr) (co : BitVec 3) (d : Dst) (a b c : Src) (s : State) : Host.Outcome State Fault Refusal :=
  run (.iaddc h co d a b c) (fun x s =>
    let sums := x.act.map fun j => (j, IntOp.addc (x.int32 a j) (x.int32 b j) (x.int32 c j))
    { s := s.modIssue x fun g =>
        (g.put d (sums.map fun p => (p.1, BitVec.ofNat 64 (p.2 % 2 ^ 32)))).onLanes sums fun n l => l.setPred co (2 ^ 32 ≤ n) }) s

/-! ### Special registers (R114, Table 5-2) -/

/-- Team coordinates (R17). -/
def teamCoord (p : Packet) (t i : Nat) : Nat :=
  match i with
  | 0 => t % max p.nx 1
  | 1 => t / max p.nx 1 % max p.ny 1
  | _ => t / (max p.nx 1 * max p.ny 1)

/-- The linear rank of this chip in a context's device grid (R324).
DEDUCED (log 55; unsafe). -/
def State.rankOf (s : State) (c : Context) : Nat := if c.rankTable.isEmpty then 0 else c.rankTable.findIdx (· == (s.chip, c.ctx))

/-- Sample the cycle counter of a core: it has moved on by a free number of cycles (R114).
DESIGN CHOICE (log 17; safe). -/
def State.sampleCycle (s : State) (core : Nat) : Dword × State :=
  let (n, s) := s.freeNat
  let now := (s.core core).cycle + BitVec.ofNat 64 n
  (now, s.modCore core fun c => { c with cycle := now })

/-- The value of a special register in a lane; `cyc` is the sampled cycle counter. -/
def specialReg (s : State) (x : Issue) (cyc : Dword) (n j : Nat) : Dword :=
  let pkt := ((s.launch? x.team.lid).map (·.pkt)).getD ⟨1, false, false, false, false, 0, 0, 1, 1, 1, 0, 0, 0, 0, 0, 0, 0, 0⟩
  let r := s.rankOf x.c
  let nat (k : Nat) : Dword := BitVec.ofNat 64 k
  match n with
  | 0x00 => nat j
  | 0x01 => nat x.g.grant
  | 0x02 => nat x.g.gix
  | 0x03 => nat (teamCoord pkt x.team.t 0)
  | 0x04 => nat (teamCoord pkt x.team.t 1)
  | 0x05 => nat (teamCoord pkt x.team.t 2)
  | 0x06 => nat pkt.nx
  | 0x07 => nat pkt.ny
  | 0x08 => nat pkt.nz
  | 0x09 => nat x.g.role
  | 0x0A => nat x.team.ngroups
  | 0x0B => nat (x.core % 48)
  | 0x0C => nat (x.core / 48 % 4)
  | 0x0D => nat (x.core / 192)
  | 0x0E => cyc &&& 0xFFFFFFFF
  | 0x0F => cyc >>> 32
  | 0x10 => ofBool x.g.grch
  | 0x11 => nat (r % max x.c.nrank.1 1)
  | 0x12 => nat (r / max x.c.nrank.1 1 % max x.c.nrank.2.1 1)
  | 0x13 => nat (r / (max x.c.nrank.1 1 * max x.c.nrank.2.1 1))
  | 0x14 => nat x.c.nrank.1
  | 0x15 => nat x.c.nrank.2.1
  | 0x16 => nat x.c.nrank.2.2
  | 0x17 => x.g.fpst.zeroExtend 64
  | 0x18 => x.g.fpst.zeroExtend 64
  | _ => cyc

/-- A special register is read; FPSTC is then cleared in the same step (R114, R118). -/
def execSreg (h : Hdr) (d : Dst) (a : Src) (s : State) : Host.Outcome State Fault Refusal :=
  run (.sreg h d a) (fun x s =>
    let n := a.immVal.toNat
    let timed := n == 0x0E || n == 0x0F || n == 0x19
    let (cyc, s) := if timed then s.sampleCycle x.core else (0, s)
    let s := s.put x d (x.act.map fun j => (j, specialReg s x cyc n j))
    { s := if n == 0x18 && !x.act.isEmpty then s.modIssue x fun g => { g with fpst := 0 } else s }) s

end Sys2Proof.Machine
end

