-- ==== Sys2Proof/Machine/Copy.lean ====
section
/-! DEFINITION. Shape records, the boxes they select, the reading and writing of copy elements, and the delivery of tiles
(R316 to R327). -/

namespace Sys2Proof.Machine

/-! ### Shape records (R317 to R319) -/

/-- A shape record (Table 14-1); `reserved` says a reserved byte is set. -/
structure Rec where
  base : Nat
  space : Nat
  esize : Nat
  ndim : Nat
  xform : Nat
  pad : Nat
  dim : List Nat
  stride : List Int
  box : List Nat
  peer : Nat
  rmask : Nat
  red : Nat
  colmask : Nat
  rbase : Nat
  flagval : Nat
  flagaddr : Nat
  brand : Brand
  reserved : Bool
  deriving DecidableEq, Repr

/-- Read the 128 bytes of a record. STRIDE0 stands for no field and is 0. -/
def Rec.read (bs : List Byte) : Rec :=
  { base := pf bs 0 8, space := pf bs 8 1, esize := pf bs 9 1, ndim := pf bs 10 1, xform := pf bs 11 1, pad := pf bs 12 4
    dim := (List.range 5).map fun d => pf bs (16 + 4 * d) 4
    stride := 0 :: (List.range 4).map fun d => (BitVec.ofNat 32 (pf bs (40 + 4 * d) 4)).toInt
    box := (List.range 5).map fun d => pf bs (56 + 2 * d) 2
    peer := pf bs 68 4, rmask := pf bs 72 8, red := pf bs 80 1, colmask := pf bs 81 1, rbase := pf bs 82 2, flagval := pf bs 84 4
    flagaddr := pf bs 88 8, brand := BitVec.ofNat 128 (pf bs 96 16)
    reserved := pf bs 36 4 != 0 || pf bs 66 2 != 0 || pf bs 112 16 != 0 }

namespace Rec

/-- Bytes of an element. -/
def size (r : Rec) : Nat := 2 ^ r.esize
def padOn (r : Rec) : Bool := r.xform % 2 == 1
def transpose (r : Rec) : Bool := r.xform / 2 % 2 == 1
def reblock (r : Rec) : Bool := r.xform / 4 % 2 == 1
/-- The box size of a dimension; dimensions beyond NDIM count as 1. -/
def ext (r : Rec) (d : Nat) : Nat := if d < r.ndim then r.box.getD d 1 else 1
/-- Elements of the box. -/
def count (r : Rec) : Nat := (List.range 5).foldl (fun n d => n * r.ext d) 1
/-- Boxes along a dimension, and in all. -/
def boxes (r : Rec) (d : Nat) : Nat := if d < r.ndim then (r.dim.getD d 1 + r.ext d - 1) / max (r.ext d) 1 else 1
def tiles (r : Rec) : Nat := (List.range 5).foldl (fun n d => n * r.boxes d) 1

/-- The mixed-radix digits of a number. -/
def digits (radix : Nat → Nat) (n : Nat) : List Nat :=
  ((List.range 5).foldl (fun (acc : List Nat × Nat) d => (acc.1 ++ [acc.2 % max (radix d) 1], acc.2 / max (radix d) 1)) ([], n)).1

/-- The place of element `k` of tile `t` in the whole array. -/
def position (r : Rec) (t k : Nat) : List Nat :=
  let c := digits r.boxes t
  let i := digits r.ext k
  (List.range 5).map fun d => c.getD d 0 * r.ext d + i.getD d 0

/-- The address or offset of element `k` of tile `t` (R319). -/
def place (r : Rec) (t k : Nat) : Nat :=
  let g := r.position t k
  if r.reblock then
    (r.base + actByte (128 * ((r.dim.getD 0 0 * r.size + 127) / 128)) (g.getD 1 0) (g.getD 0 0 * r.size)) % 2 ^ 32
  else
    let off : Int := (List.range 5).foldl (fun x d => if d == 0 then x + g.getD 0 0 * r.size else x + g.getD d 0 * r.stride.getD d 0) 0
    (((r.base : Int) + off) % ((2 ^ (if r.space == 0 then 64 else 32) : Nat) : Int)).toNat

/-- Whether element `k` of tile `t` is in bounds (R319). -/
def inBounds (r : Rec) (t k : Nat) : Bool := (List.range r.ndim).all fun d => (r.position t k).getD d 0 < r.dim.getD d 0

/-- The address of an element that is in bounds. -/
def addr (r : Rec) (t k : Nat) : Option Nat := if r.inBounds t k then some (r.place t k) else none

/-- The source element that destination element `k` receives (R319). -/
def sourceOf (src dst : Rec) (k : Nat) : Nat :=
  if !dst.transpose then k
  else
    let i := digits dst.ext k
    let j := i.getD 1 0 :: i.getD 0 0 :: i.drop 2
    ((List.range 5).foldl (fun (acc : Nat × Nat) d => (acc.1 + j.getD d 0 * acc.2, acc.2 * src.ext d)) (0, 1)).1

/-- Whether a field is out of range for the record's use (R317, R318, R336).
DEDUCED (log 40; unsafe). -/
def bad (r : Rec) (isDst cpx : Bool) : Bool :=
  let collective := r.peer != 0 || r.rmask != 0 || r.rbase != 0 || r.brand != 0
  2 < r.space || 3 < r.esize || r.ndim == 0 || 5 < r.ndim || 7 < r.xform || r.reserved || 2 ^ 30 ≤ r.peer
    || (List.range 5).any (fun d =>
      if d < r.ndim then r.dim.getD d 0 == 0 || r.box.getD d 0 == 0
      else r.dim.getD d 0 != 0 || r.box.getD d 0 != 0 || r.stride.getD d 0 != 0)
    || (r.space != 0 && 2 ^ 32 ≤ r.base) || 65536 < r.count * r.size
    || r.flagaddr % 8 != 0 || r.rbase % 64 != 0 || 1024 ≤ r.rbase || 3 < r.red || (r.red != 0 && r.esize != 2)
    || (if isDst then r.padOn || (collective && !cpx) || (r.reblock && (r.ndim != 2 || r.space == 0)) || (cpx && r.space != 0)
        else collective || r.flagval != 0 || r.flagaddr != 0 || r.colmask != 0 || r.red != 0 || 2 ≤ r.xform)

/-- Whether two boxes do not match (R318). -/
def mismatched (src dst : Rec) : Bool :=
  src.esize != dst.esize || (List.range 5).any fun d =>
    dst.ext d != src.ext (if dst.transpose && d < 2 then 1 - d else d)

/-- Whether a base or a stride is misaligned (R318). -/
def misaligned (r : Rec) : Bool := r.base % r.size != 0 || r.stride.any (fun x => x % r.size != 0) || (r.reblock && r.base % 1024 != 0)

/-- The addresses of the elements of a tile's box, in bounds or not. -/
def addrs (r : Rec) (t : Nat) : List Nat := (List.range r.count).map (r.place t)

/-- The bounding range of a tile's box: its first byte and its length (R327). -/
def bounds (r : Rec) (t : Nat) : Nat × Nat :=
  match r.addrs t with
  | [] => (0, 0)
  | a :: as => let lo := as.foldl min a; (lo, as.foldl max a + r.size - lo)

/-- The low bytes of PADVAL under PAD, and zero otherwise (R319). -/
def padBytes (r : Rec) : List Byte := toLe r.size (if r.padOn then r.pad else 0)

/-- Colours a copy is ordered after (Table 14-1). -/
def colours (r : Rec) : Nat := if r.colmask == 0 then 255 else r.colmask

/-- The address of a tile's flag. -/
def flagAt (r : Rec) (td : Nat) : Dword := BitVec.ofNat 64 (r.flagaddr + 8 * td)

end Rec

/-- The target ranks of a `cpx`, or none where one lies beyond the grid (R325). -/
def targetRanks (c : Context) (r : Rec) : Option (List Nat) :=
  let (nx, ny, nz) := c.nrank
  if r.rmask != 0 then
    let rs := ((List.range 64).filter r.rmask.testBit).map (r.rbase + ·)
    if rs.all (· < nx * ny * nz) then some rs else none
  else
    let x := r.peer % 1024
    let y := r.peer / 1024 % 1024
    let z := r.peer / 2 ^ 20 % 1024
    if x < nx && y < ny && z < nz then some [x + nx * (y + ny * z)] else none

/-- The flag doubleword (R321). -/
def flagWord (r : Rec) (sender status : Nat) : Nat := r.flagval % 2 ^ 32 + sender % 2 ^ 16 * 2 ^ 32 + status % 256 * 2 ^ 48

/-! ### Reading and writing elements -/

/-- What a read by a copy gives. -/
inductive Got where
  | bytes (bs : List Byte)
  | poison
  | poolBad (lid cl word : Nat)
  deriving DecidableEq, Repr

/-- Read an element's source (R210, R271, R320, R322): memory behind what overlaps it, as it stands or, given how it stood
at issue, so, through a page of class `cls`; the scratchpad and pool through the copy unit's port. -/
def State.copyRead (s : State) (t : Team) (hist : List Stale) (snap : Snap) (cls : Nat) (p : Place) (n : Nat) : Got × State :=
  match p with
  | .mem g =>
    if !s.onChip g && !s.reachable (chipOf g) then (.poison, s)
    else if isDevice g then
      let (bs, s) := (s.visit t.ctx (.copyUnit t.core) cls g true).deviceLoad g n
      (.bytes bs, s)
    else
      let (bs, s) := s.sinceRead ⟨t.ctx, 1, t.lcore, .copyUnit t.core⟩ snap cls g n
      (if s.poisoned g n then .poison else .bytes bs, s)
  | .spad _ off =>
    let (bs, s) := s.portBytes t hist false (off / 4 * 4) ((off + n + 3) / 4 * 4 - off / 4 * 4)
    (.bytes ((bs.drop (off % 4)).take n), s)
  | .pool lid cl off =>
    match ((s.pool? lid cl).map fun q => (wordsOf off n).filter q.bad.contains).getD [] with
    | w :: _ => (.poolBad lid cl w, s)
    | [] =>
      let (bs, s) := s.portBytes t hist true (off / 4 * 4) ((off + n + 3) / 4 * 4 - off / 4 * 4)
      (.bytes ((bs.drop (off % 4)).take n), s)
  | .acc _ _ _ => (.poison, s)

/-- Read the source of one element. Those narrower than a word share one reading of their word, old or new (R322).
DESIGN CHOICE (log 16; safe). -/
def State.readPiece (s : State) (t : Team) (c : Copy) (p : Piece) (pl : Place) : Got × State :=
  let k := (s.copy? c.id).getD c
  if 4 ≤ p.pad.length || pl.device then s.copyRead t k.hist k.snap p.cls pl p.pad.length
  else
    let cut (bs : List Byte) : List Byte := (bs.drop pl.inWord.2).take p.pad.length
    match k.got.find? (·.1 == pl.inWord.1) with
    | some r => (.bytes (cut r.2), s)
    | none =>
      match s.copyRead t k.hist k.snap p.cls pl.inWord.1 4 with
      | (.bytes bs, s) => (.bytes (cut bs), s.modCopy c.id fun x => { x with got := x.got ++ [(pl.inWord.1, bs)] })
      | r => r

/-- A `cpx` reads its source, if it has not yet; the word of a pool that a read met bad, if any (R208, R325). -/
def State.cpxRead (s : State) (t : Team) (c : Copy) : Option (Nat × Nat × Nat) × State :=
  if c.data.isSome then (none, s)
  else
    let got := c.pieces.foldl (fun (w : List (Option (List Byte)) × Option (Nat × Nat × Nat) × State) p =>
      match p.src with
      | none => (w.1 ++ [some p.pad], w.2)
      | some pl =>
        match w.2.2.readPiece t c p pl with
        | (.bytes bs, s) => (w.1 ++ [some bs], w.2.1, s)
        | (.poison, s) => (w.1 ++ [none], w.2.1, s)
        | (.poolBad l k n, s) => (w.1 ++ [none], some (l, k, n), s)) ([], none, s)
    (got.2.1, got.2.2.modCopy c.id fun x => { x with data := some got.1 })

/-- The operator of a RED field (R320). -/
def redOp (red : Nat) : Opr := if red == 1 then .addF32 else if red == 2 then .maxF32 else .addI32

/-- Write an element, combined with the old word under RED (R320, R326). Answers false where a poisoned word keeps its
content, or a chip cannot be reached.
DEDUCED (log 40; unsafe). -/
def State.copyWrite (s : State) (red : Nat) (p : Place) (bs : List Byte) : Bool × State :=
  let comb (old : List Byte) : List Byte := if red == 0 then bs else toLe 4 (opNew (redOp red) (leNat old) (leNat bs) 0)
  match p with
  | .mem g =>
    if !s.onChip g && !s.reachable (chipOf g) then (false, s)
    else if isDevice g then
      let (old, s) := if red == 0 then (bs, s) else s.deviceLoad g bs.length
      (true, s.deviceStore g (comb old))
    else
      let s := s.drainOver g bs.length
      if red != 0 && s.poisoned g bs.length then (false, s) else (true, s.write g (comb (s.read g bs.length)))
  | .spad tid off => (true, s.writeSpad none tid off (comb (s.spadBytes tid off bs.length)))
  | .pool lid cl off => (true, s.writePool none lid cl off (comb (s.poolBytes lid cl off bs.length)))
  | .acc _ _ _ => (true, s)

/-! ### The flag of a tile (R321) -/

/-- Report a fault of a copy or a tile without lanes.
DEDUCED (log 40; unsafe). -/
def State.reportTile (s : State) (ctx : Nat) (code : FCode) (remote : Bool) (va : Dword) : State :=
  s.reportBare ctx { Flt.at' code va with remote := remote } false

/-- Write a tile's flag; where the record names none, an error is reported instead. Answers whether the delivery counts (R338): the flag is written, or there
is none and the tile is. None: the dirty log is full.
DEDUCED (log 40; unsafe). -/
def State.writeFlag (s : State) (p : Party) (r : Rec) (td sender status : Nat) : Option (Bool × State) :=
  if r.flagaddr == 0 then
    some (status == 0 || status == Code.eccu, if status == Code.eccu then s.reportTile p.ctx Code.eccu false 0 else s)
  else
    match s.engineWrite p (r.flagAt td) (toLe 8 (flagWord r sender status)) 8 with
    | none => none
    | some (.ok s) => some (true, s)
    | some (.error f) => some (false, s.reportBare p.ctx f false)

/-! ### Delivery of a tile at a target (R325 to R327) -/

/-- What translating a box gives: the address and page of each in-bounds element, or a fault. -/
inductive Boxed where
  | ok (at' : List (Nat × Nat × Leaf)) (s : State)
  | flt (f : Flt) (s : State)
  deriving Repr

/-- The places of a virtual box: every page of it is translated, and the size of its elements checked against the page (R200, R320); the in-bounds elements with
their global physical addresses.
DEDUCED (log 39; safe). -/
def State.boxOn (s : State) (core : Nat) (c : Context) (r : Rec) (t : Nat) (writes : Bool) : Boxed :=
  let got := (List.range r.count).foldl (fun (w : Except Boxed (List (Nat × Nat × Leaf) × List Seen × State)) k =>
    match w with
    | .error b => .error b
    | .ok (acc, seen, s) =>
      match s.checkSeen seen core c (BitVec.ofNat 64 (r.place t k)) r.size 1 (if writes then .write else .read) false false with
      | (.error f, _, s) => .error (.flt f s)
      | (.ok g, seen, s) => .ok (if r.inBounds t k then acc ++ [(k, g.gpa, g.leaf)] else acc, seen, s)) (.ok ([], [], s))
  match got with
  | .error b => b
  | .ok (at', _, s) => .ok at' s

/-- A free index of a die's range table for a context (64 entries; R351). -/
def Context.freeRange (c : Context) (die : Nat) : Option Nat := (List.range 64).find? fun i => !(c.ranges.any fun r => r.die == die && r.index == i)

/-- The dies of a context's partition. -/
def Context.dies (c : Context) : List Nat := c.lmap.foldr (fun n ds => insertNat (dieOf n) ds) []

/-- Enter a range on dies of a context. -/
def State.addRange (s : State) (ctx : Nat) (dies : List Nat) (base len : Nat) (o : RangeOwner) : State :=
  s.modCtx ctx fun c => dies.foldl (fun c d => { c with ranges := c.ranges ++ [⟨d, (c.freeRange d).getD 0, base, len, o⟩] }) c

def State.dropRanges (s : State) (ctx : Nat) (p : RangeOwner → Bool) : State := s.modCtx ctx fun c => { c with ranges := c.ranges.filter fun r => !p r.owner }

def RangeOwner.isSource (id : Nat) : RangeOwner → Bool
  | .source n => n == id
  | _ => false
def RangeOwner.isTile (id : Nat) : RangeOwner → Bool
  | .tile n => n == id
  | _ => false

/-- A word of a tile on its way to a place: its number, where it goes, its address and page there, and its data (none: poisoned). -/
structure Unit where
  n : Nat
  gpa : Nat
  va : Dword
  leaf : Leaf
  data : Option (List Byte)
  deriving DecidableEq, Repr

/-- The words of a tile's elements (R322: observed word by word); a register of 64 bits is one. -/
def Rec.units (r : Rec) (td : Nat) (els : List (Nat × Nat × Leaf)) (data : List (Option (List Byte))) : List Unit :=
  els.flatMap fun e =>
    let d := data.getD e.1 none
    let va := BitVec.ofNat 64 (r.place td e.1)
    if r.size == 8 && !isDevice e.2.1 then
      [⟨2 * e.1, e.2.1, va, e.2.2, d.map (·.take 4)⟩, ⟨2 * e.1 + 1, e.2.1 + 4, va + 4, e.2.2, d.map (·.drop 4)⟩]
    else [⟨2 * e.1, e.2.1, va, e.2.2, d⟩]

/-- The dirty bits of the pages of some words are set, with their log entries. None: the log is full (R204, R206). -/
def State.dirtyUnits (s : State) (ctx : Nat) (us : List Unit) : Option (Except Flt State) :=
  us.foldl (fun (w : Option (Except Flt State)) u =>
    match w with
    | some (.ok s) =>
      match s.dirty ctx u.va u.leaf with
      | .done s => some (.ok s)
      | .full => none
      | .flt f => some (.error f)
    | w => w) (some (.ok s))

/-- Land words of a tile: whether all had data and found their word good (R320, R325). -/
def State.landUnits (s : State) (p : Party) (r : Rec) (us : List Unit) : Bool × State :=
  us.foldl (fun (w : Bool × State) u =>
    match u.data with
    | none => (false, w.2)
    | some bs =>
      -- the arrival of a reduced tile is a choice of its own kind
      let cls := Pte.cls u.leaf.e
      let s := if r.red == 0 then w.2.engineArrives p cls u.gpa bs.length false else w.2.visit p.ctx p.node cls u.gpa true
      let q := s.copyWrite r.red (.mem u.gpa) bs
      (w.1 && q.1, q.2)) (true, s)

end Sys2Proof.Machine
end

