-- ==== Sys2Proof/Machine/Walker.lean ====
section
/-! DEFINITION. The embedding walker: lookup records and what serving one writes (R312 to R314). -/

namespace Sys2Proof.Machine

/-- A lookup record (Table 13-7). -/
structure LRec where
  list : Nat
  count : Nat
  len : Nat
  elem : Nat
  pool : Nat
  table : Nat
  pitch : Nat
  rows : Nat
  out : Nat
  flag : Nat
  value : Nat
  reserved : Bool
  deriving DecidableEq, Repr

def LRec.read (bs : List Byte) : LRec :=
  { list := pf bs 0 8, count := pf bs 8 4, len := pf bs 12 2, elem := pf bs 14 1, pool := pf bs 15 1, table := pf bs 16 8, pitch := pf bs 24 4
    rows := pf bs 28 4, out := pf bs 32 8, flag := pf bs 40 8, value := pf bs 48 4, reserved := pf bs 52 12 != 0 }

/-- Bytes of an element of the table and of the output. -/
def LRec.size (r : LRec) : Nat := if r.elem == 2 then 2 else 4

/-- A limit of Table 13-7 broken, and a field misaligned. -/
def LRec.bad (r : LRec) : Bool :=
  65535 < r.count || r.len == 0 || 4096 < r.len || !(r.elem == 0 || r.elem == 2) || 2 < r.pool || r.pitch % 4 != 0 || r.pitch < r.len * r.size
    || r.rows == 0 || r.reserved
def LRec.misaligned (r : LRec) : Bool := r.list % 4 != 0 || r.table % r.size != 0 || r.out % r.size != 0 || r.flag % 8 != 0

/-- An element widened to FP32 bits, and an FP32 result in the element type. -/
def LRec.widen (r : LRec) (bs : List Byte) : Nat := if r.elem == 2 then Sys2Proof.widen .bf16 (leNat bs) else leNat bs
def LRec.narrow (r : LRec) (x : Nat) : List Byte := toLe r.size (if r.elem == 2 then Sys2Proof.narrow .bf16 x else x)

/-- An FP32 value divided by a count, rounded once. -/
def f32Over (x c : Nat) : Nat :=
  match Fp.read .f32 false x with
  | .nan _ => FpFmt.f32.nan
  | .inf n => FpFmt.f32.inf n
  | .fin n m e => (roundRatio .f32 .rne false n (m * 2 ^ e.toNat) (c * 2 ^ (-e).toNat)).bits

/-- Pool one more element (R313). -/
def LRec.step (r : LRec) (first : Bool) (acc x : Nat) : Nat :=
  if first then x
  else if r.pool == 2 then (Fp.minMax .f32 true (Fp.read .f32 false acc) (Fp.read .f32 false x)).bits
  else f32Add acc x

/-- What the walker has done so far with a record: the pages it has translated, and the state. -/
structure Walking where
  s : State
  seen : List Seen
  deriving Repr

/-- Read bytes at a virtual address for a record (R313): the bytes or the fault. -/
def Walking.read (w : Walking) (c : Context) (n : Nat) (snap : Snap) (va : Nat) (len align : Nat) : Except Flt (List Byte) × Walking :=
  let a := BitVec.ofNat 64 va
  match w.s.checkSeen w.seen (c.lmap.headD 0) c a (max 4 len) align .read false false with
  | (.error f, seen, s) => (.error f, ⟨s, seen⟩)
  | (.ok k, seen, s) =>
    if !s.onChip k.gpa && !s.reachable (chipOf k.gpa) then (.error { Flt.at' Code.eccu a with remote := true }, ⟨s, seen⟩)
    else
      let (bs, s) := s.sinceRead ⟨c.ctx, 2, 0, .agent n⟩ snap (Pte.cls k.leaf.e) k.gpa len
      if s.poisoned k.gpa len then (.error (Flt.at' Code.eccu a), ⟨s, seen⟩) else (.ok bs, ⟨s, seen⟩)

/-- Read one row and pool it. -/
def Walking.row (w : Walking) (c : Context) (n : Nat) (snap : Snap) (r : LRec) (first : Bool) (ix : Nat) (acc : List Nat) : Except Flt (List Nat) × Walking :=
  acc.zipIdx.foldl (fun (x : Except Flt (List Nat) × Walking) p =>
    match x.1 with
    | .error f => (.error f, x.2)
    | .ok l =>
      match x.2.read c n snap ((r.table + ix * r.pitch + p.2 * r.size) % 2 ^ 64) r.size r.size with
      | (.error f, w) => (.error f, w)
      | (.ok bs, w) => (.ok (l ++ [r.step first p.1 (r.widen bs)]), w)) (.ok [], w)

/-- Pool the rows of a record in ascending list position. -/
def Walking.pool (w : Walking) (c : Context) (n : Nat) (snap : Snap) (r : LRec) : Except Flt (List Nat) × Walking :=
  (List.range r.count).foldl (fun (x : Except Flt (List Nat) × Walking) q =>
    match x.1 with
    | .error f => (.error f, x.2)
    | .ok acc =>
      match x.2.read c n snap ((r.list + 4 * q) % 2 ^ 64) 4 4 with
      | (.error f, w) => (.error f, w)
      | (.ok bs, w) => if r.rows ≤ leNat bs then (.error (Flt.mk' Code.shape), w) else w.row c n snap r (q == 0) (leNat bs) acc) (.ok (List.replicate r.len 0), w)

/-- The output words of a record. -/
def LRec.result (r : LRec) (acc : List Nat) : List (List Byte) := acc.map fun x => r.narrow (if r.pool == 1 && 0 < r.count then f32Over x r.count else x)

/-- One write of the walker: where, and what. -/
structure WalkWrite where
  va : Dword
  gpa : Nat
  cls : Nat
  bs : List Byte
  deriving DecidableEq, Repr

/-- What serving a record comes to: writes to make, and faults to report; or the dirty log is full. -/
inductive Served where
  | done (ws : List WalkWrite) (faults : List Flt) (s : State)
  | full
  deriving DecidableEq, Repr

/-- Translate the output elements for writing, with dirty bits. None: the dirty log is full. -/
def Walking.outputs (w : Walking) (c : Context) (r : LRec) (xs : List (List Byte)) : Option (Except Flt (List WalkWrite) × Walking) :=
  xs.zipIdx.foldl (fun (x : Option (Except Flt (List WalkWrite) × Walking)) p =>
    match x with
    | none => none
    | some (.error f, w) => some (.error f, w)
    | some (.ok l, w) =>
      let a := BitVec.ofNat 64 (r.out + p.2 * r.size)
      match w.s.checkSeen w.seen (c.lmap.headD 0) c a 4 r.size .write false false with
      | (.error f, seen, s) => some (.error f, ⟨s, seen⟩)
      | (.ok k, seen, s) =>
        match s.dirty c.ctx a k.leaf with
        | .full => none
        | .flt f => some (.error f, ⟨s, seen⟩)
        | .done s => some (.ok (l ++ [⟨a, k.gpa, Pte.cls k.leaf.e, p.1⟩]), ⟨s, seen⟩)) (some (.ok [], w))

/-- The flag of a record: its write, or the fault of its address (R313).
DEDUCED (log 61; unsafe). -/
def Walking.flag (w : Walking) (c : Context) (r : LRec) (status : Nat) (ws : List WalkWrite) : Served :=
  let a := BitVec.ofNat 64 r.flag
  match w.s.checkVa (c.lmap.headD 0) c a 8 8 .write false false with
  | (.error f, s) => .done ws [f] s
  | (.ok k, s) =>
    match s.dirty c.ctx a k.leaf with
    | .full => .full
    | .flt f => .done ws [f] s
    | .done s => .done (ws ++ [⟨a, k.gpa, Pte.cls k.leaf.e, toLe 8 (r.value + status * 2 ^ 32)⟩]) [] s

/-- Serve a record whose bytes have been read: where a limit is broken and a field misaligned too, either status.
DEDUCED (log 61; unsafe). -/
def Walking.serve (w : Walking) (c : Context) (n : Nat) (snap : Snap) (r : LRec) : Served :=
  if r.bad || r.misaligned then
    let (b, s) := if r.bad && r.misaligned then w.s.freeBool else (r.bad, w.s)
    Walking.flag ⟨s, w.seen⟩ c r (if b then Code.shape else Code.align) []
  else
    match w.pool c n snap r with
    | (.error f, w) => w.flag c r f.code []
    | (.ok acc, w) =>
      match w.outputs c r (r.result acc) with
      | none => .full
      | some (.error f, w) => w.flag c r f.code []
      | some (.ok ws, w) => w.flag c r 0 ws

/-- Serve a lookup (R313): a record that cannot be read is dropped with an entry. -/
def State.serveLookup (s : State) (n : Nat) (l : Lookup) : Served :=
  match s.ctx? l.ctx with
  | none => .done [] [] s
  | some c =>
    match Walking.read ⟨s, []⟩ c n l.snap l.va.toNat 64 64 with
    | (.error f, w) => .done [] [f] w.s
    | (.ok bs, w) => w.serve c n l.snap (LRec.read bs)

/-- Make the walker's writes in order, and report its faults; an entry's ADDR is the record's address (R313).
DEDUCED (log 47; unsafe). -/
def State.walkWrites (s : State) (n ctx : Nat) (va : Dword) (ws : List WalkWrite) (faults : List Flt) : State :=
  let s := ws.foldl (fun s w => s.engineStore ⟨ctx, 2, 0, .agent n⟩ w.cls w.va w.gpa w.bs) s
  faults.foldl (fun s f => s.reportBare ctx { f with addr := va } false) s

/-- Take the head of a walker's queue; a record that a letterbox holds for it may then follow (R286). -/
def State.popWalker (s : State) (agent ctx : Nat) : State :=
  ((s.modAgent agent fun a => { a with walker := a.walker.drop 1 }).recv ctx (.agent agent)).tick ctx

/-- The walker of an agent serves its next record (R313, R314). -/
def onWalkerRecord (agent : Nat) (s : State) : Option State :=
  match (s.agent agent).walker with
  | [] => none
  | l :: _ =>
    if ((s.ctx? l.ctx).map (·.frozen)).getD false then none
    else
    match s.serveLookup agent l with
    | .full => none
    | .done ws fs s => some ((s.walkWrites agent l.ctx l.va ws fs).popWalker agent l.ctx)

def execWalkerRecord (agent : Nat) (s : State) : Host.Outcome State Fault Refusal := s.occurs (onWalkerRecord agent s)

end Sys2Proof.Machine
end

