-- ==== Sys2Proof/Machine/Team.lean ====
section
/-! DEFINITION. The death of a team, and giving back what a team holds (R53, R208, R209, R328). -/

namespace Sys2Proof.Machine

/-! ### Storage -/

/-- Give back a claim's channels and staging (R328, R337). -/
def State.freeClaim (s : State) (cl : Claim) : State :=
  let s := { s with stagingFree := s.stagingFree + cl.n * cl.ports.length }
  cl.ports.foldl (fun s p => s.modPort p fun q => { q with channels := q.channels + 1, staging := q.staging - cl.n }) s

/-- Fence-strengthening mode lasts while a team of revision 1 is placed (R265).
DEDUCED (log 46; unsafe). -/
def State.setFence (s : State) (ctx : Nat) : State :=
  s.modCtx ctx fun c => { c with fence := s.teams.any fun t => t.ctx == ctx && t.st != .saved && ((s.launch? t.lid).map fun l => l.kern.mmrev == 1).getD false }

/-- Take a team away with its registers, scratchpad, barriers, slots, banks and transactional groups (R53). -/
def State.removeTeam (s : State) (t : Team) : State :=
  let q := quadOf t.core
  let s := (t.claims.foldl State.freeClaim s).changed fun p => p.tid == t.tid
  let s := s.modQuad q fun x =>
    { owner := x.owner.filter (·.2 != t.tid), reqs := x.reqs.filter (·.tid != t.tid), waits := x.waits.filter (·.tid != t.tid) }
  State.setFence
    { s with
      teams := s.teams.filter (·.tid != t.tid)
      agents := s.agents.map fun a => { a with txs := a.txs.filter (·.tid != t.tid) }
      ctxs := s.ctxs.map fun c => { c with phases := c.phases.filter fun p => match p with | .lanes tid _ _ _ => tid != t.tid | _ => true }
      slot := if (s.slot.map (·.tid)) == some t.tid then none else s.slot
      urgent := if (s.urgent.map (·.1)) == some t.tid then none else s.urgent } t.ctx

/-- Whether every team of a launch has retired. -/
def Launch.ended (l : Launch) : Bool := l.live == 0

/-- One team of a launch is over: with the last one its pools go (R215). -/
def State.endOne (s : State) (lid : Nat) : State :=
  let s := s.modLaunch lid fun l => { l with live := l.live - 1 }
  if ((s.launch? lid).map Launch.ended).getD true then { s with pools := s.pools.filter (·.lid != lid) } else s

/-! ### Death (R208) -/

/-- Make a write byte by byte, each perhaps not.
DESIGN CHOICE (log 22; safe). -/
def State.mixMem (s : State) (gpa : Nat) (bs : List Byte) : State :=
  bs.zipIdx.foldl (fun s p => let (b, s) := s.freeBool; if b then s.writeHome (gpa + p.2) [p.1] else s) s

/-- DESIGN CHOICE (log 22; safe). -/
def State.mixPool (s : State) (lid cl off : Nat) (bs : List Byte) : State :=
  bs.zipIdx.foldl (fun s p => let (b, s) := s.freeBool; if b then s.writePool none lid cl (off + p.2) [p.1] else s) s

/-- The bytes an element's write leaves at a place. -/
def State.combined (s : State) (red : Nat) (p : Place) (bs : List Byte) : List Byte :=
  if red == 0 then bs
  else
    let old :=
      match p with
      | .mem g => s.read g bs.length
      | .pool l c o => s.poolBytes l c o bs.length
      | .spad t o => s.spadBytes t o bs.length
      | .acc _ _ _ => bs
    toLe 4 (opNew (redOp red) (leNat old) (leNat bs) 0)

/-- An element's write, byte by byte; nothing remains of a scratchpad.
DESIGN CHOICE (log 22; safe). -/
def State.mixAt (s : State) (red : Nat) (p : Place) (bs : List Byte) : State :=
  match p with
  | .mem g => s.mixMem g (s.combined red p bs)
  | .pool l c o => s.mixPool l c o (s.combined red p bs)
  | _ => s

/-- A tile's flag, byte by byte, where its page takes it.
DESIGN CHOICE (log 22; safe). -/
def State.mixFlag (s : State) (ctx : Nat) (r : Rec) (td sender status : Nat) : State :=
  match s.ctx? ctx with
  | none => s
  | some c =>
    if r.flagaddr == 0 then s
    else
      match s.checkVa (c.lmap.headD 0) c (r.flagAt td) 8 8 .write false false with
      | (.error _, s) => s
      | (.ok k, s) =>
        match s.dirty ctx (r.flagAt td) k.leaf with
        | .done s => s.mixMem k.gpa (toLe 8 (flagWord r sender status))
        | _ => s

/-- A write through a page of which each byte is made or not, the dirty bit first where it must be (R204).
DESIGN CHOICE (log 22; safe). -/
def State.mixDirty (s : State) (ctx red : Nat) (page : Option (Dword × Leaf)) (p : Place) (bs : List Byte) : State :=
  match page with
  | none => s.mixAt red p bs
  | some (va, f) =>
    let (any, s) := s.freeBool
    if !any then s else match s.dirty ctx va f with | .done s => s.mixAt red p bs | _ => s

/-- What is left undone of a `cpy`. -/
def State.dropCpy (s : State) (t : Team) (c : Copy) : State :=
  let r := Rec.read c.dstRec
  let s := (c.pieces.filter (!·.done)).foldl (fun s p =>
    match p.src with
    | none => s.mixDirty c.ctx r.red p.page p.dst p.pad
    | some pl =>
      match s.readPiece t c p pl with
      | (.bytes bs, s) => s.mixDirty c.ctx r.red p.page p.dst bs
      | (_, s) => s) s
  s.mixFlag c.ctx r c.td (((s.ctx? c.ctx).map s.rankOf).getD 0) c.status

/-- What is left undone of a `cpx` at ranks of this chip. -/
def State.dropCpx (s : State) (t : Team) (c : Copy) : State :=
  let s := (s.cpxRead t c).2
  let data := ((s.copy? c.id).bind (·.data)).getD []
  let r := Rec.read c.dstRec
  let sender := ((s.ctx? c.ctx).map s.rankOf).getD 0
  let at' := ((s.ctx? c.ctx).map (·.rankTable)).getD []
  let s := c.targets.foldl (fun s k =>
    let goal := at'.getD k (s.chip, c.ctx)
    match s.ctx? goal.2 with
    | none => s
    | some tc =>
      if goal.1 != s.chip then s
      else
        let tile := s.tiles.find? (·.own == some (c.id, k))
        let s := match tile with
          | some x => { s.dropRanges tc.ctx (RangeOwner.isTile x.id) with tiles := s.tiles.filter (·.id != x.id) }
          | none => s
        match s.boxOn (tc.lmap.headD 0) tc r c.td true with
        | .ok els s =>
          let left := (r.units c.td els data).filter fun u => !((tile.map (·.landed)).getD []).contains u.n
          (left.foldl (fun s u => match u.data with | some bs => s.mixDirty tc.ctx r.red (some (u.va, u.leaf)) (.mem u.gpa) bs | none => s) s).mixFlag tc.ctx r c.td sender
            c.status
        | .flt _ s => s) s
  s.dropRanges c.ctx (RangeOwner.isSource c.id)

/-- What is left undone of the walker's records of a team. -/
def State.dropLookups (s : State) (tid : Nat) : State :=
  let mine := (s.agents.flatMap (·.walker)).filter (·.tid == some tid)
  let s := mine.foldl (fun s l =>
    match s.serveLookup (stackOf l.va.toNat) l with
    | .done ws _ s => ws.foldl (fun s w => s.mixMem w.gpa w.bs) s
    | .full => s) s
  let s := mine.foldl (fun s l => s.recv l.ctx (.agent (stackOf l.va.toNat))) s
  { s with agents := s.agents.map fun a => { a with walker := a.walker.filter (·.tid != some tid) } }

/-- The outstanding accesses at a team's death: loads go, fetching operators return nothing, its scratchpad and
accumulators with what was to be stored in them go; stores and posts to memory and the pool complete (R53, R292); whether a store on its way to a peer's
scratchpad is still made is free.
DESIGN CHOICE (log 22; safe). -/
def State.dropAccs (s : State) (tid : Nat) : State :=
  let s := s.force fun a => a.tid != tid && (match a.place with | .spad t _ => t == tid | _ => false)
  s.accs.foldl (fun s a =>
    if a.tid != tid then s
    else
      match a.kind, a.place with
      | .fetch op, .mem _ => if a.arrived then s.forget a else s.modAcc a.id fun x => { x with kind := .post op }
      | .post _, _ => s
      | .store, .mem _ => s
      | .store, .pool _ _ _ => s
      | .store, .spad t _ => if t == tid then s.forget a else let (b, s) := s.freeBool; if b then s else s.forget a
      | _, _ => s.forget a) s

/-- Everything a team has under way ends (R208).
DESIGN CHOICE (log 22; safe). -/
def State.dropWork (s : State) (t : Team) : State :=
  let s := s.dropAccs t.tid
  let s := (s.copies.filter (·.tid == t.tid)).foldl (fun s c => ((if c.cpx then s.dropCpx t c else s.dropCpy t c)).recv c.ctx (.copyUnit c.core)) s
  let mine := (s.copies.filter (·.tid == t.tid)).map (·.id)
  let ports := s.ports.map fun p => { p with steps := p.steps.filter fun i => !mine.contains i }
  let s := { s with copies := s.copies.filter (·.tid != t.tid), ports := ports }
  let q := quadOf t.core
  let s := ((s.quad q).reqs.filter (·.tid == t.tid)).foldl (fun s _ => s.recv t.ctx (.engine q)) s
  s.dropLookups t.tid

/-- Kill a team (R208, R209): its work ends, its storage is released, and it is placed afresh or its launch fails with the
code.
DESIGN CHOICE (log 22; safe); DEDUCED (log 47; unsafe). -/
def State.killTeam (s : State) (tid : Nat) (code : FCode) : State :=
  match s.team? tid with
  | none => s
  | some t =>
    let s := (s.dropWork t).removeTeam t
    match s.launch? t.lid with
    | none => s
    | some l =>
      if l.kern.idem && t.kills < 4 then s.modLaunch t.lid fun l => { l with again := l.again ++ [(t.t, t.kills + 1, t.core)] }
      else (s.modLaunch t.lid fun l => { l with status := if l.status == 0 then code else l.status }).endOne t.lid

/-- Kill a team for an uncorrectable error, with the entry that records it (R208).
DESIGN CHOICE (log 56; safe). -/
def State.killFor (s : State) (tid : Nat) : State :=
  match s.team? tid with
  | none => s
  | some t => (s.killTeam tid Code.eccu).reportBare t.ctx (Flt.mk' Code.eccu) true

end Sys2Proof.Machine
end

