-- ==== Sys2Proof/Machine/MemExec.lean ====
section
/-! DEFINITION. The memory instructions (R217 to R223) and the tag and presence instructions (R225 to R229). -/

namespace Sys2Proof.Machine

/-! ### Addresses and checks (R219) -/

/-- The space of a memory instruction. -/
inductive Space where
  | virt
  | spad
  | pool
  | peer (core : Nat)
  deriving DecidableEq, Repr

/-- Where one lane's access goes, or why it does not. -/
inductive Spot where
  | ok (place : Place) (alg cls : Nat)
  | flt (f : Flt)
  | park (why : Park)
  deriving DecidableEq, Repr

/-- The team that a peer access reaches: of the same grid, on core `c` of the issuing cluster, lowest team number (R216). -/
def State.peerTeam (s : State) (x : Issue) (c : Nat) : Option Team :=
  if 47 < c then none
  else
    (s.teams.filter fun t => t.lid == x.team.lid && t.core == clusterOf x.core * 48 + c && t.st != .saved).foldl (fun best t =>
      match best with
      | none => some t
      | some b => if t.t < b.t then some t else some b) none

/-- Check an access to a scratchpad allocation: PROT, ALIGN, then the presence of its sector (R212, R219). -/
def spadSpot (t : Team) (off size : Nat) : Spot :=
  if t.spadBytes < off + size then .flt (Flt.mk' Code.prot)
  else if off % size != 0 then .flt (Flt.mk' Code.align)
  else if t.absent.contains (off / 64) then .park (.sector t.tid (off / 64))
  else .ok (.spad t.tid off) 0 0

/-- Check the access of one lane (R219), with the read-and-set of the dirty bit where it writes (R204). -/
def State.spotOf (s : State) (x : Issue) (seen : List Seen) (sp : Space) (a : Dword) (size : Nat) (writes : Bool) : Spot × List Seen × State :=
  match sp with
  | .virt =>
    match s.checkSeen seen x.core x.c a size size (if writes then .write else .read) false true with
    | (.error f, seen, s) => (.flt f, seen, s)
    | (.ok k, seen, s) =>
      let ok : Spot := .ok (.mem k.gpa) (Pte.alg k.leaf.e) (Pte.cls k.leaf.e)
      if !writes then (ok, seen, s)
      else
        match s.dirty x.c.ctx a k.leaf with
        | .done s => (ok, seen, s)
        | .full => (.park .dirtyLog, seen, s)
        | .flt f => (.flt f, seen, s)
  | .spad => (spadSpot ((s.team? x.tid).getD x.team) (a.toNat % 2 ^ 32) size, seen, s)
  | .peer c =>
    match s.peerTeam x c with
    | some t => (spadSpot t (a.toNat % 2 ^ 32) size, seen, s)
    | none => (.flt (Flt.mk' Code.prot), seen, s)
  | .pool =>
    let off := a.toNat % 2 ^ 32
    let n := ((s.pool? x.team.lid (clusterOf x.core)).map (·.bytes)).getD 0
    if n < off + size then (.flt (Flt.mk' Code.prot), seen, s)
    else if off % size != 0 then (.flt (Flt.mk' Code.align), seen, s)
    else (.ok (.pool x.team.lid (clusterOf x.core) off) 0 0, seen, s)

/-- The checked accesses of one instruction, lane by lane in rising order. -/
structure Spots where
  s : State
  seen : List Seen
  got : List (Nat × Dword × Spot)
  deriving Repr

def State.spots (s : State) (x : Issue) (lanes : List Nat) (sp : Nat → Space) (addr : Nat → Dword) (size : Nat) (writes : Bool) : Spots :=
  lanes.foldl (fun (w : Spots) j =>
    let r := w.s.spotOf x w.seen (sp j) (addr j) size writes
    ⟨r.2.2, r.2.1, w.got ++ [(j, addr j, r.1)]⟩) ⟨s, [], []⟩

/-- The lanes that fault, and those that park.
DEDUCED (log 28; unsafe). -/
def spotFaults (l : List (Nat × Dword × Spot)) : List (Nat × Flt) := l.filterMap fun p => match p.2.2 with | .flt f => some (p.1, f) | _ => none
def spotParks (l : List (Nat × Dword × Spot)) : List (Nat × Park) := l.filterMap fun p => match p.2.2 with | .park w => some (p.1, w) | _ => none

/-- Park lanes at the instruction they retry, each for its reason. -/
def State.parkAll (s : State) (x : Issue) (l : List (Nat × Park)) : State := s.modIssue x fun g => g.onLanes l fun why l => l.park why

/-- The parts an access is made in: 128 bits on a page with an algebra table are two operators of 64 bits, the lower
first. -/
def partsOf (alg size : Nat) : List (Nat × Nat) := if alg != 0 && size == 16 then [(0, 8), (8, 8)] else [(0, size)]

/-- The destination of a part that begins `n` bytes into a value. -/
def dstAt (d : Dst) (n : Nat) : Dst :=
  match d with
  | .v r p => .v (r + BitVec.ofNat 8 (n / 4)) p
  | .k r p => .k (r + BitVec.ofNat 6 (n / 4)) p
  | d => d

/-! ### Loads (R219 to R222) -/

/-- Push the words that accesses will return: the highest word first (R63, R220). `parts` gives each part's access, its
first word and how many it has. -/
def Lane.pushAwaits (l : Lane) (parts : List (Nat × Nat)) : Lane :=
  -- one entry per word of the value, lowest first: the access and the word of it
  parts.reverse.foldl (fun l p => { l with latches := (⟨0, true, some ⟨p.1, p.2⟩⟩ :: l.latches).take 4 }) l

/-- The words of a value in the order l0 to l3: which access gives each, and which of its words. -/
def awaitWords (parts : List (Nat × Nat)) : List (Nat × Nat) :=
  parts.flatMap fun p => (List.range (max 1 (p.2 / 4))).map fun i => (p.1, i)

/-- One lane set that reads one place. `picks` gives each lane's byte of a word of which lanes take `each` bytes. -/
structure LoadAt where
  lanes : List Nat
  va : Dword
  place : Place
  size : Nat
  alg : Nat
  cls : Nat
  picks : List (Nat × Nat)
  each : Nat
  deriving DecidableEq, Repr

/-- Lanes that read the same word share one access (R221), but class-2 accesses are each made alone (R203). -/
def gatherLoads (size : Nat) (l : List (Nat × Dword × Spot)) : List LoadAt :=
  l.foldl (fun acc p =>
    match p.2.2 with
    | .ok place alg cls =>
      if cls == 2 then acc ++ [⟨[p.1], p.2.1, place, size, alg, cls, [], 0⟩]
      else
        let (word, off) := if size < 4 then place.inWord else (place, 0)
        let one (q : LoadAt) : LoadAt := { q with lanes := q.lanes ++ [p.1], picks := if size < 4 then q.picks ++ [(p.1, off)] else [] }
        if acc.any (fun q => q.place == word && q.cls != 2) then modWhere (fun q => q.place == word && q.cls != 2) one acc
        else acc ++ [⟨[p.1], p.2.1, word, max size 4, alg, cls, if size < 4 then [(p.1, off)] else [], if size < 4 then size else 0⟩]
    | _ => acc) []

/-- Whether a load's outcome must be known before its lanes go on, because it may be ECCU (R210). -/
def State.risky (s : State) (p : Place) (size : Nat) : Bool :=
  match p with
  | .mem g => !s.onChip g || s.poisoned g size
  | _ => false

/-- Whether a load meets an uncorrectable error: in the pool, once its core's stores there are performed (R208), or in the scratchpad of a peer that
holds one, which word of it is free.
DESIGN CHOICE (log 56; safe). -/
def State.poolBad (s : State) (core : Nat) (p : Place) (size : Nat) : Bool × State :=
  match p with
  | .pool l c o =>
    if ((s.pool? l c).map fun q => (wordsOf o size).any q.bad.contains).getD false then
      let s := s.force fun a => a.core == core && a.kind.isStore && (match a.place with | .pool l' c' o' => l == l' && c == c' && shareWord o size o' a.size | _ => false)
      (((s.pool? l c).map fun q => (wordsOf o size).any q.bad.contains).getD false, s)
    else (false, s)
  | _ => (false, s)

/-- The team whose scratchpad a peer's read finds an uncorrectable error in, if it does.
DESIGN CHOICE (log 56; safe). -/
def State.peerBad (s : State) (tid : Nat) (p : Place) : Option Nat × State :=
  match p with
  | .spad t _ =>
    if t != tid && ((s.team? t).map (·.flaw)).getD false then
      let (hit, s) := s.freeBool
      (if hit then some t else none, s)
    else (none, s)
  | _ => (none, s)

/-- Whether the link to a chip fails before the value of a request comes back (R210, R331, R418): the next event is that its port goes down, or the last module
of the link to the ports, and the request or its response is not delivered, which is free.
DEDUCED (log 20; safe). -/
def State.cutOff (s : State) (p : Place) : Bool × State :=
  match p with
  | .mem g =>
    match s.route (chipOf g), s.events with
    | .port f, .fabricLinkDown n :: _ => if !s.onChip g && f == n then s.freeBool else (false, s)
    | .port _, .ucieModuleDown m :: _ => if !s.onChip g && s.lastModule m then s.freeBool else (false, s)
    | _, _ => (false, s)
  | _ => (false, s)

/-- Whether the fault of a load without a value is REMOTE (R210).
DEDUCED (log 20; unsafe). -/
def State.eccuOf (s : State) (p : Place) (va : Dword) : Flt :=
  match p with
  | .mem g => { Flt.at' Code.eccu va with remote := !s.onChip g && !s.reachable (chipOf g) }
  | _ => Flt.mk' Code.eccu

/-- Issue one load: its accesses in flight, and, where it may be ECCU, its value waited for. Answers the accesses with
their sizes, or the fault. -/
def State.issueLoad (s : State) (x : Issue) (instr : Nat) (l : LoadAt) (d : Dst) (sh : Shape) : Except Flt (List (Nat × Nat)) × State :=
  let parts := partsOf l.alg l.size
  let r := parts.foldl (fun (w : List (Nat × Nat) × State) p =>
    let (id, s) := w.2.newId
    let a : Acc :=
      { id := id, instr := instr, core := x.core, tid := x.tid, gix := x.gix, lane := l.lanes.headD 0, also := l.lanes.drop 1, ctx := x.c.ctx, kind := .load
        place := l.place.offset p.1, va := l.va + BitVec.ofNat 64 p.1, size := p.2, data := [], cmp := 0, alg := l.alg, cls := l.cls, colour := 0
        d := dstAt d p.1, shape := sh, party := x.party, arrived := false, val := none, path := none, left := false, fixedAt := none
        picks := l.picks, each := l.each, cover := [] }
    (w.1 ++ [(id, p.2)], s.issueAcc a)) ([], s)
  let (peer, s) := r.2.peerBad x.tid l.place
  let fails (f : Flt) (s : State) : Except Flt (List (Nat × Nat)) × State :=
    -- the access is over: a response that came back is received
    (.error f, r.1.foldl (fun s p => match s.acc? p.1 with | some a => (s.answered a).dropAcc p.1 | none => s) s)
  match peer with
  | some t => let (f, s) := fails (Flt.mk' Code.eccu) (r.1.foldl (fun s p => s.forceBefore p.1 |>.complete p.1) s); (f, s.killFor t)
  | none =>
    if !s.risky l.place l.size then (.ok r.1, s)
    else
      let s := r.1.foldl (fun s p => s.forceBefore p.1 |>.complete p.1) s
      let (lost, s) := s.cutOff l.place
      if lost then fails { Flt.at' Code.eccu l.va with remote := true } s
      else if r.1.any (fun p => ((s.acc? p.1).bind (·.val)) == some []) then fails (s.eccuOf l.place l.va) s
      else (.ok r.1, s)

/-- Issue the loads of an instruction and push what they will return in the lanes that go on (R220).
DESIGN CHOICE (log 56; safe). -/
def State.issueLoads (s : State) (x : Issue) (ls : List LoadAt) (d : Dst) (sh : Shape) : State × List (Nat × Flt) :=
  let (instr, s) := s.newId
  ls.foldl (fun (w : State × List (Nat × Flt)) l =>
    match w.1.issueLoad x instr l d sh with
    | (.error f, s) => (s, w.2 ++ l.lanes.map fun j => (j, f))
    | (.ok parts, s) => (s.modIssue x fun g => g.eachLane l.lanes fun l => l.pushAwaits (awaitWords parts), w.2)) (s, [])

/-- The effect of a load in each lane of act. -/
def loadBody (x : Issue) (size : Nat) (sx : Bool) (d : Dst) (sp : Nat → Space) (addr : Nat → Dword) (s : State) : Res :=
  let w := s.spots x x.act sp addr size false
  let b := w.got.foldl (fun (b : Bool × State) p => match p.2.2 with | .ok place _ _ => let r := b.2.poolBad x.core place size; (b.1 || r.1, r.2) | _ => b) (false, w.s)
  if b.1 then { s := b.2.killFor x.tid }
  else
  let r := b.2.issueLoads x (gatherLoads size w.got) d (if sx then .signed else .plain)
  let parks := spotParks w.got
  { s := r.1.parkAll x parks, faults := spotFaults w.got ++ r.2, stay := parks.map (·.1) }

/-! ### Stores -/

/-- Put one lane's store in flight (R257). -/
def State.issueStore (s : State) (x : Issue) (instr j : Nat) (also : List Nat) (va : Dword) (place : Place) (alg cls colour : Nat) (bs : List Byte) : State :=
  (partsOf alg bs.length).foldl (fun s p =>
    let (id, s) := s.newId
    s.issueAcc
      { id := id, instr := instr, core := x.core, tid := x.tid, gix := x.gix, lane := j, also := also, ctx := x.c.ctx, kind := .store
        place := place.offset p.1, va := va + BitVec.ofNat 64 p.1, size := p.2, data := (bs.drop p.1).take p.2, cmp := 0, alg := alg, cls := cls
        colour := colour, d := .none, shape := .plain, party := x.party, arrived := false, val := none, path := none, left := false, fixedAt := none
        picks := [], each := 0, cover := [] }) s

/-- The low bytes of a store's data (R217, R219). -/
def Issue.bytesOf (x : Issue) (f : Src) (size j : Nat) : List Byte := ((x.words f (max 1 (size / 4)) j).flatMap fun w => toLe 4 w.toNat).take size

/-- The effect of a store in each lane of act, in rising lane order (R221). -/
def storeBody (x : Issue) (size : Nat) (colour : BitVec 3) (data : Src) (sp : Nat → Space) (addr : Nat → Dword) (s : State) : Res :=
  let w := s.spots x x.act sp addr size true
  let (instr, s) := w.s.newId
  let s := w.got.foldl (fun s p =>
    match p.2.2 with
    | .ok place alg cls => s.issueStore x instr p.1 [] p.2.1 place alg cls colour.toNat (x.bytesOf data size p.1)
    | _ => s) s
  let parks := spotParks w.got
  { s := s.parkAll x parks, faults := spotFaults w.got, stay := parks.map (·.1) }

/-- The address of a virtual access: base plus a signed 32-bit offset (R217, R219). -/
def Issue.va (x : Issue) (a b : Src) (j : Nat) : Dword := x.w64 a j + (x.w32 b j).signExtend 64
/-- The offset of an access to a 32-bit space. -/
def Issue.off (x : Issue) (a b : Src) (j : Nat) : Dword := (x.w32 a j + x.w32 b j).zeroExtend 64

def execLd (h : Hdr) (sz : Size) (sx : Bool) (d : Dst) (a b : Src) (s : State) : Host.Outcome State Fault Refusal :=
  run (.ld h sz sx d a b) (fun x s => loadBody x sz.bytes sx d (fun _ => .virt) (x.va a b) s) s

def execSt (h : Hdr) (sz : Size) (col : BitVec 3) (a b c : Src) (s : State) : Host.Outcome State Fault Refusal :=
  run (.st h sz col a b c) (fun x s => storeBody x sz.bytes col c (fun _ => .virt) (x.va a b) s) s

def execLds (h : Hdr) (sz : Size) (sx : Bool) (d : Dst) (a b : Src) (s : State) : Host.Outcome State Fault Refusal :=
  run (.lds h sz sx d a b) (fun x s => loadBody x sz.bytes sx d (fun _ => .spad) (x.off a b) s) s

def execSts (h : Hdr) (sz : Size) (col : BitVec 3) (a b c : Src) (s : State) : Host.Outcome State Fault Refusal :=
  run (.sts h sz col a b c) (fun x s => storeBody x sz.bytes col c (fun _ => .spad) (x.off a b) s) s

def execLdc (h : Hdr) (sz : Size) (sx : Bool) (d : Dst) (a b : Src) (s : State) : Host.Outcome State Fault Refusal :=
  run (.ldc h sz sx d a b) (fun x s => loadBody x sz.bytes sx d (fun _ => .pool) (x.off a b) s) s

def execStc (h : Hdr) (sz : Size) (col : BitVec 3) (a b c : Src) (s : State) : Host.Outcome State Fault Refusal :=
  run (.stc h sz col a b c) (fun x s => storeBody x sz.bytes col c (fun _ => .pool) (x.off a b) s) s

def execLdx (h : Hdr) (sz : Size) (sx : Bool) (d : Dst) (a b : Src) (s : State) : Host.Outcome State Fault Refusal :=
  run (.ldx h sz sx d a b) (fun x s => loadBody x sz.bytes sx d (fun j => .peer (x.w32 a j).toNat) (fun j => (x.w32 b j).zeroExtend 64) s) s

def execStx (h : Hdr) (sz : Size) (col : BitVec 3) (a b c : Src) (s : State) : Host.Outcome State Fault Refusal :=
  run (.stx h sz col a b c) (fun x s => storeBody x sz.bytes col c (fun j => .peer (x.w32 a j).toNat) (fun j => (x.w32 b j).zeroExtend 64) s) s

/-- One load for the group: every lane of act shares its fate and awaits its value (R222). -/
def execLdk (h : Hdr) (sz : Size) (sx : Bool) (d : Dst) (a b : Src) (s : State) : Host.Outcome State Fault Refusal :=
  run (.ldk h sz sx d a b) (fun x s =>
    if x.act.isEmpty then { s := s }
    else
      let w := s.spots x [x.low] (fun _ => .virt) (x.va a b) sz.bytes false
      match w.got with
      | (_, va, .ok place alg cls) :: _ =>
        let r := w.s.issueLoads x [⟨x.act, va, place, sz.bytes, alg, cls, [], 0⟩] d (if sx then .signed else .plain)
        { s := r.1, faults := r.2 }
      | (_, _, .flt f) :: _ => { s := w.s, faults := x.all f }
      | (_, _, .park why) :: _ => { s := w.s.parkAll x (x.act.map fun j => (j, why)), stay := x.act }
      | [] => { s := w.s }) s

/-- One store for the group (R222). -/
def execStk (h : Hdr) (sz : Size) (col : BitVec 3) (a b c : Src) (s : State) : Host.Outcome State Fault Refusal :=
  run (.stk h sz col a b c) (fun x s =>
    if x.act.isEmpty then { s := s }
    else
      let w := s.spots x [x.low] (fun _ => .virt) (x.va a b) sz.bytes true
      match w.got with
      | (j, va, .ok place alg cls) :: _ =>
        let (instr, s) := w.s.newId
        { s := s.issueStore x instr j (x.act.filter (· != j)) va place alg cls col.toNat (x.bytesOf c sz.bytes j) }
      | (_, _, .flt f) :: _ => { s := w.s, faults := x.all f }
      | (_, _, .park why) :: _ => { s := w.s.parkAll x (x.act.map fun j => (j, why)), stay := x.act }
      | [] => { s := w.s }) s

/-- A prefetch translates each lane's page and has the home agent hold the granule; it changes no value, sets no dirty bit, and drops a lane whose address
would fault as a 32-bit load (R217, R223).
DESIGN CHOICE (log 67; safe). -/
def execPrf (h : Hdr) (a b : Src) (s : State) : Host.Outcome State Fault Refusal :=
  run (.prf h a b) (fun x s =>
    let w := x.act.foldl (fun (w : List Seen × State) j =>
      match w.2.checkSeen w.1 x.core x.c (x.va a b j) 4 4 .read false true with
      | (.error _, seen, s) => (seen, s)
      | (.ok k, seen, s) => (seen, if Pte.cls k.leaf.e == 0 then s.visit x.c.ctx (.core x.core) 0 k.gpa false else s)) ([], s)
    { s := w.2 }) s

/-! ### Tags (R213, R214, R225 to R227) -/

/-- The number of sets of a team's tag table. -/
def Team.sets (t : Team) : Nat := t.spadLines / 8

/-- The line address that a tag holds: bits 55:9. -/
def tagLine (a : Dword) : Nat := a.toNat % 2 ^ 56 / 512
/-- The set of an address. -/
def Team.setOf (t : Team) (a : Dword) : Nat := a.toNat / 512 % t.sets

def Team.tag? (t : Team) (slot : Nat) : Option Tag := t.tags.find? (·.slot == slot)

/-- The result word of `tlk` (R226, Table 8-8). -/
def Team.lookup (t : Team) (a : Dword) : Nat :=
  let base := 8 * t.setOf a
  let hit := (List.range 8).find? fun w => ((t.tag? (base + w)).map fun e => e.line == tagLine a).getD false
  match hit with
  | some w => base + w
  | none =>
    match (List.range 8).find? fun w => (t.tag? (base + w)).isNone with
    | some w => 2 ^ 31 + base + w
    | none =>
      let p := (Cells.get t.ptrs (t.setOf a)).toNat
      match ((List.range 8).map fun i => (p + i) % 8).find? fun w => ((t.tag? (base + w)).map fun e => !e.lock).getD false with
      | some w => 2 ^ 31 + base + w
      | none => 2 ^ 31 + 2 ^ 30 + 0x7FF

/-- Fill a slot (R227). -/
def Team.fillTag (t : Team) (slot : Nat) (a : Dword) (lck : Bool) : Team :=
  let set := slot / 8
  { t with tags := ⟨slot, lck, tagLine a⟩ :: t.tags.filter (fun e => e.slot != slot && !(e.slot / 8 == set && e.line == tagLine a))
           ptrs := Cells.set t.ptrs set (BitVec.ofNat 3 (slot % 8 + 1)) }

def execTlk (h : Hdr) (d : Dst) (a : Src) (s : State) : Host.Outcome State Fault Refusal :=
  run (.tlk h d a) (fun x s =>
    let t := (s.team? x.tid).getD x.team
    if t.sets == 0 then { s := s, faults := x.all (Flt.mk' Code.prot) }
    else { s := s.put x d (x.act.map fun j => (j, BitVec.ofNat 64 (t.lookup (x.w64 a j)))) }) s

/-- A tag instruction that changes the slot each lane names, in lane order; a slot that is not one raises PROT (R225, R229). -/
def runTags (i : Instr) (ok : Issue → Team → Nat → Bool) (f : Issue → Nat → Team → Team) (s : State) : Host.Outcome State Fault Refusal :=
  run i (fun x s =>
    let t := (s.team? x.tid).getD x.team
    let good := x.act.filter fun j => t.sets != 0 && ok x t j
    { s := s.modTeam x.tid fun t => good.foldl (fun t j => f x j t) t
      faults := (x.act.filter fun j => !good.contains j).map fun j => (j, Flt.mk' Code.prot) }) s

def execTset (h : Hdr) (lck : Bool) (a b : Src) (s : State) : Host.Outcome State Fault Refusal :=
  runTags (.tset h lck a b) (fun x t j => (x.w32 a j).toNat < 8 * t.sets && (x.w32 a j).toNat / 8 == t.setOf (x.w64 b j))
    (fun x j t => t.fillTag (x.w32 a j).toNat (x.w64 b j) lck) s

def execTinv (h : Hdr) (a : Src) (s : State) : Host.Outcome State Fault Refusal :=
  runTags (.tinv h a) (fun x t j => (x.w32 a j).toNat < 8 * t.sets)
    (fun x j t => { t with tags := t.tags.filter (·.slot != (x.w32 a j).toNat) }) s

def execTlck (h : Hdr) (a : Src) (s : State) : Host.Outcome State Fault Refusal :=
  runTags (.tlck h a) (fun x t j => (x.w32 a j).toNat < 8 * t.sets)
    (fun x j t => { t with tags := modWhere (·.slot == (x.w32 a j).toNat) (fun e => { e with lock := true }) t.tags }) s

def execTulk (h : Hdr) (a : Src) (s : State) : Host.Outcome State Fault Refusal :=
  runTags (.tulk h a) (fun x t j => (x.w32 a j).toNat < 8 * t.sets)
    (fun x j t => { t with tags := modWhere (·.slot == (x.w32 a j).toNat) (fun e => { e with lock := false }) t.tags }) s

/-! ### Presence bits (R212, R228) -/

/-- A line of the allocation's offset; a tag instruction in a team without sets raises PROT (R213, R225). -/
def Team.lineOk (t : Team) (off : Nat) : Bool := t.sets != 0 && off < t.spadBytes

/-- DEDUCED (log 34; unsafe). -/
def execPrsq (h : Hdr) (d : Dst) (a : Src) (s : State) : Host.Outcome State Fault Refusal :=
  run (.prsq h d a) (fun x s =>
    let t := (s.team? x.tid).getD x.team
    let good := x.act.filter fun j => t.lineOk (x.w32 a j).toNat
    let bits (j : Nat) : Dword :=
      (List.range 8).foldl (fun w i => if t.absent.contains ((x.w32 a j).toNat / 512 * 8 + i) then w else w ||| (1#64 <<< i)) 0
    { s := s.put x d (good.map fun j => (j, bits j)), faults := (x.act.filter fun j => !good.contains j).map fun j => (j, Flt.mk' Code.prot) }) s

/-- DEDUCED (log 34; unsafe). -/
def execPrsc (h : Hdr) (set : Bool) (a b : Src) (s : State) : Host.Outcome State Fault Refusal :=
  run (.prsc h set a b) (fun x s =>
    let t := (s.team? x.tid).getD x.team
    let good := x.act.filter fun j => t.lineOk (x.w32 a j).toNat
    let one (s : State) (j : Nat) : State :=
      (List.range 8).foldl (fun s i =>
        if !(x.w32 b j).getLsbD i then s
        else
          let sec := (x.w32 a j).toNat / 512 * 8 + i
          if set then s.present x.tid sec else s.absent x.tid sec) s
    { s := good.foldl one s, faults := (x.act.filter fun j => !good.contains j).map fun j => (j, Flt.mk' Code.prot) }) s

end Sys2Proof.Machine
end

