-- ==== Sys2Proof/Machine/MtxExec.lean ====
section
/-! DEFINITION. The instructions of class MTX (R245 to R252). -/

namespace Sys2Proof.Machine

/-! ### Allocations (R246, R247) -/

/-- The lowest logical bank from which `n` consecutive ones are free (R246). -/
def Team.freeRun (t : Team) (n : Nat) : Option Nat :=
  (List.range (33 - n)).find? fun i => t.allocs.all fun a => !overlap i n a.first a.banks.length

/-- The free physical banks of an engine. -/
def Quad.freeBanks (q : Quad) : List Nat := (List.range 32).filter fun b => !(q.owner.any (·.1 == b))

/-- The next tag: the serial, past the tags of live allocations (R235). -/
def nextTag (live : List Nat) : Nat → BitVec 8 → BitVec 8
  | 0, n => n
  | fuel + 1, n => if live.contains n.toNat then nextTag live fuel (n + 1) else n

/-- Allocate banks for a team: the handle (R233, R235, R246).
DESIGN CHOICE (log 60; safe). -/
def State.allocate (s : State) (t : Team) (first n : Nat) : Word × State :=
  let q := quadOf t.core
  let banks := ((s.quad q).freeBanks).take n
  let tag := nextTag (t.allocs.map (·.tag)) 33 t.allocSerial
  let a : Alloc := { tag := tag.toNat, first := first, banks := banks, active := none, shadow := none, words := [] }
  let s := s.modQuad q fun x => { x with owner := x.owner ++ banks.map fun b => (b, t.tid) }
  (a.handle, s.modTeam t.tid fun t => { t with allocSerial := tag + 1, allocs := t.allocs ++ [a] })

def execAalc (h : Hdr) (d : Dst) (a : Src) (s : State) : Host.Outcome State Fault Refusal :=
  run (.aalc h d a) (fun x s =>
    let n := (x.u32 a).toNat
    let t := (s.team? x.tid).getD x.team
    let q := s.quad (quadOf x.core)
    if x.act.isEmpty then { s := s }
    else if n == 0 || 32 < n || (t.freeRun n).isNone then { s := s, faults := x.all (Flt.mk' Code.acch) }
    else if !q.waits.isEmpty || q.freeBanks.length < n then
      let s := s.modQuad (quadOf x.core) fun q => { q with waits := q.waits ++ [⟨x.tid, x.gix⟩] }
      { s := s.modIssue x fun g => { g with wait := some (.banks n d x.act x.next x.hold) }, stay := x.act }
    else
      let r := s.allocate t ((t.freeRun n).getD 0) n
      { s := r.2.put x d (x.act.map fun j => (j, r.1.zeroExtend 64)) }) s

/-- Lanes that waited at issue go on past their instruction. -/
def Group.endWait (g : Group) (lanes : List Nat) (next : Dword) (hold : Bool) : Group :=
  { (g.eachLane lanes fun l => { (l.issued hold) with pc := next }) with wait := none }

/-- Banks free for the `aalc` that has waited longest at an engine (R246), unless its partition is frozen (R293).
DESIGN CHOICE (log 70; unsafe). -/
def onAalcBanksFree (quad : Nat) (s : State) : Option State :=
  match (s.quad quad).waits with
  | [] => none
  | w :: rest =>
    match s.team? w.tid, s.group? w.tid w.gix with
    | some t, some g =>
      match g.wait with
      | some (.banks n d lanes next hold) =>
        match t.freeRun n with
        | none => none
        | some first =>
          if (s.quad quad).freeBanks.length < n || ((s.ctx? t.ctx).map (·.frozen)).getD false then none
          else
            let r := (s.modQuad quad fun q => { q with waits := rest }).allocate t first n
            some (r.2.modGroup w.tid w.gix fun g => (g.put d (lanes.map fun j => (j, r.1.zeroExtend 64))).endWait lanes next hold)
      | _ => none
    | _, _ => none

def execAalcBanksFree (quad : Nat) (s : State) : Host.Outcome State Fault Refusal := s.occurs (onAalcBanksFree quad s)

/-- Whether a request names an allocation. -/
def MReq.names (r : MReq) (tid tag : Nat) : Bool := r.tid == tid && (r.tag == tag || r.passes.any (·.tag == tag))

def execAfre (h : Hdr) (a : Src) (s : State) : Host.Outcome State Fault Refusal :=
  run (.afre h a) (fun x s =>
    let aa := x.u32 a
    let t := (s.team? x.tid).getD x.team
    let q := quadOf x.core
    if x.act.isEmpty then { s := s }
    else
      match t.aaFor aa 1 with
      | none => { s := s, faults := x.all (Flt.mk' Code.acch) }
      | some al =>
        if aa != al.handle then { s := s, faults := x.all (Flt.mk' Code.acch) }
        else if (s.quad q).reqs.any fun r => r.names x.tid al.tag then { s := s, retry := true }
        else
          -- accesses to its words that are under way are made first (R251)
          let s := s.force fun a => match a.place with | .acc tid tag _ => tid == x.tid && tag == al.tag | _ => false
          let s := s.modTeam x.tid fun t => { t with allocs := t.allocs.filter (·.tag != al.tag) }
          { s := s.modQuad q fun q => { q with owner := q.owner.filter fun o => !(al.banks.contains o.1) } }) s

/-! ### Requests (R239, R248 to R250, R252) -/

/-- Post a request, or wait for a place in the table and room in MC (R239, R374); the lanes' earlier accesses are
performed first (R241). -/
def post (x : Issue) (kind : ReqKind) (tag : Nat) (passes : State → List Pass) (zrow zcount : Nat) (bind : State → Team → Team) (s : State) : Res :=
  let q := quadOf x.core
  let mc := ((s.group? x.tid x.gix).getD x.g).mc
  if 16 ≤ (s.quad q).reqs.length || 65535 ≤ mc then { s := s, retry := true }
  else
    let s := s.await false x.tid x.gix x.act ⟨true, true, true⟩ false 255 .clus
    let stale := freshStale x.act (((s.group? x.tid x.gix).getD x.g).stale)
    let (id, s) := s.newId
    let r : MReq :=
      { id := id, tid := x.tid, gix := x.gix, prio := x.team.prio, kind := kind, tag := tag, passes := passes s, zrow := zrow, zcount := zcount
        grant := none, hist := stale, writes := [] }
    let s := (s.modTeam x.tid (bind s)).modQuad q fun q => { q with reqs := q.reqs ++ [r] }
    { s := (s.modIssue x fun g => { g with mc := g.mc + 1 }).send x.c.ctx (.core x.core) }

/-- ALIGN and PROT of a run of operand bytes (R248, R249). -/
def State.operandFault (s : State) (t : Team) (pool : Bool) (off n : Nat) : Option Flt :=
  if off % 1024 != 0 then some (Flt.mk' Code.align)
  else if s.spaceBytes t pool < off + n || (pool && s.spaceBytes t pool == 0) then some (Flt.mk' Code.prot)
  else none

/-- A fresh binding, with what its bytes may still be for the engine's ports.
DESIGN CHOICE (log 16; safe). -/
def State.newBinding (s : State) (x : Issue) (pool : Bool) (off : Nat) (fw : Word) : Binding :=
  let b : Binding := ⟨pool, off, fw, []⟩
  (freshStale x.act (((s.group? x.tid x.gix).getD x.g).stale)).foldl (fun b h => b.note h) b

def execMlds (h : Hdr) (pool : Bool) (a b c : Src) (s : State) : Host.Outcome State Fault Refusal :=
  run (.mlds h pool a b c) (fun x s =>
    let t := (s.team? x.tid).getD x.team
    let off := (x.u32 a).toNat
    if x.act.isEmpty then { s := s }
    else
      match t.aaFor (x.u32 b) 1, x.vote c with
      | none, _ => { s := s, faults := x.all (Flt.mk' Code.acch) }
      | _, none => { s := s, faults := x.all (Flt.mk' Code.fmtdiv) }
      | some al, some fw =>
        match s.operandFault t pool off (Binding.bytes ⟨pool, off, fw, []⟩) with
        | some f => { s := s, faults := x.all f }
        | none => post x .bind al.tag (fun _ => []) 0 0 (fun s t => t.modAlloc al.tag fun a => { a with shadow := some (s.newBinding x pool off fw) }) s) s

def execMswp (h : Hdr) (a : Src) (s : State) : Host.Outcome State Fault Refusal :=
  run (.mswp h a) (fun x s =>
    let t := (s.team? x.tid).getD x.team
    if x.act.isEmpty then { s := s }
    else
      match t.aaFor (x.u32 a) 1 with
      | none => { s := s, faults := x.all (Flt.mk' Code.acch) }
      | some al => post x .bind al.tag (fun _ => []) 0 0 (fun _ t => t.modAlloc al.tag fun a => { a with active := a.shadow, shadow := a.active }) s) s

/-- The format word of a binding; an empty one carries zero (R238). -/
def bindingFw (b : Option Binding) : Word := (b.map (·.fw)).getD 0

def execMstr (h : Hdr) (m : MtxMod) (ty : Ty) (a b c : Src) (s : State) : Host.Outcome State Fault Refusal :=
  run (.mstr h m ty a b c) (fun x s =>
    let t := (s.team? x.tid).getD x.team
    let pair := x.words b 2 0
    let aa := pair.headD 0
    let sh := pair.getD 1 0
    let off := (x.u32 a).toNat
    if x.act.isEmpty then { s := s }
    else
      match t.aaFor aa (shapeM sh) with
      | none => { s := s, faults := x.all (Flt.mk' Code.acch) }
      | some al =>
        if shapeBad sh then { s := s, faults := x.all (Flt.mk' Code.shape) }
        else
          match x.vote c, al.active with
          | some fw, some w =>
            if fw != w.fw || !pairs fw ty then { s := s, faults := x.all (Flt.mk' Code.fmtdiv) }
            else
              match s.operandFault t m.pool off (actRegion ty (shapeK sh) (shapeM sh)) with
              | some f => { s := s, faults := x.all f }
              | none =>
                let p : Pass :=
                  { tag := al.tag, row := aaRow aa, pool := m.pool, off := off, m := shapeM sh, kk := shapeK sh, ty := ty, ovw := m.ovw, split := m.split, weights := w }
                post x .pass al.tag (fun _ => [p]) 0 0 (fun _ t => t) s
          | _, _ => { s := s, faults := x.all (Flt.mk' Code.fmtdiv) }) s

/-- One step of `mlp`: its accumulator address, activation and weight offsets. -/
structure LoopStep where
  i : Nat
  aa : Word
  act : Nat
  wt : Nat
  deriving DecidableEq, Repr

/-- The steps of a descriptor (R250).
DESIGN CHOICE (log 73; unsafe). -/
def loopSteps (r : List Word) (n : Nat) : List LoopStep :=
  let reg (i : Nat) : Word := r.getD i 0
  (List.range n).map fun i =>
    let k := BitVec.ofNat 32 i
    ⟨i, reg 2 + k * reg 7, (reg 0 + k * reg 5).toNat, (reg 1 + k * reg 6).toNat⟩

/-- The binding changes of the steps (R250): each step's weights become active. -/
def Team.loopBind (t : Team) (bs : List (Nat × Binding)) : Team :=
  bs.foldl (fun t p => t.modAlloc p.1 fun a => { a with active := some p.2, shadow := a.active }) t

/-- DESIGN CHOICE (log 73; unsafe). -/
def execMlp (h : Hdr) (m : MtxMod) (ty : Ty) (a b : Src) (s : State) : Host.Outcome State Fault Refusal :=
  run (.mlp h m ty a b) (fun x s =>
    let t := (s.team? x.tid).getD x.team
    let r := x.words a 8 0
    let sh := r.getD 3 0
    let n := (r.getD 4 0).toNat
    let steps := loopSteps r (if 65535 < n then 1 else n)
    if x.act.isEmpty then { s := s }
    else if steps.any fun p => (t.aaFor p.aa (shapeM sh)).isNone then { s := s, faults := x.all (Flt.mk' Code.acch) }
    else if n == 0 || 65535 < n || shapeBad sh then { s := s, faults := x.all (Flt.mk' Code.shape) }
    else
      match x.vote b with
      | none => { s := s, faults := x.all (Flt.mk' Code.fmtdiv) }
      | some fw =>
        let tile := Binding.bytes ⟨m.pool, 0, fw, []⟩
        let region := actRegion ty (shapeK sh) (shapeM sh)
        let faultsOf := steps.flatMap fun p => (s.operandFault t m.pool p.wt tile).toList ++ (s.operandFault t m.pool p.act region).toList
        if !pairs fw ty then { s := s, faults := x.all (Flt.mk' Code.fmtdiv) }
        else
          match (faultsOf.find? (·.code == Code.align)).orElse (fun _ => faultsOf.head?) with
          | some f => { s := s, faults := x.all f }
          | none =>
            let tagOf (p : LoopStep) : Nat := ((t.aaFor p.aa 1).map (·.tag)).getD 0
            let ps (s : State) := steps.map fun p =>
              ({ tag := tagOf p, row := aaRow p.aa, pool := m.pool, off := p.act, m := shapeM sh, kk := shapeK sh, ty := ty
                 ovw := m.ovw && (p.i == 0 || r.getD 7 0 != 0), split := m.split, weights := s.newBinding x m.pool p.wt fw } : Pass)
            post x .pass (tagOf ⟨0, r.getD 2 0, 0, 0⟩) ps 0 0 (fun s t => t.loopBind ((ps s).map fun p => (p.tag, p.weights))) s) s

def execMzro (h : Hdr) (a b : Src) (s : State) : Host.Outcome State Fault Refusal :=
  run (.mzro h a b) (fun x s =>
    let t := (s.team? x.tid).getD x.team
    let aa := x.u32 a
    let n := (x.u32 b).toNat
    if x.act.isEmpty then { s := s }
    else
      match (if n == 0 || 8192 < n then none else t.aaFor aa n) with
      | none => { s := s, faults := x.all (Flt.mk' Code.acch) }
      | some al => post x .zero al.tag (fun _ => []) (aaRow aa) n (fun _ t => t) s) s

/-! ### Direct access (R251) -/

/-- The accumulator word each lane names, or ACCH: of every lane where the address is not valid, else of the lanes whose
word lies outside the allocation. -/
def accSpots (x : Issue) (t : Team) (aa : Word) (idx : Nat → Word) : List (Nat × Option (Nat × Nat)) :=
  x.act.map fun j =>
    match t.aaFor aa 1 with
    | none => (j, none)
    | some al =>
      let row := aaRow aa + (idx j).toNat / 64
      (j, if row < al.endRow then some (al.tag, 64 * row + (idx j).toNat % 64) else none)

def accFaults (l : List (Nat × Option (Nat × Nat))) : List (Nat × Flt) := (l.filter (·.2.isNone)).map fun p => (p.1, Flt.mk' Code.acch)

/-- The access of one lane to an accumulator word. -/
def accAccess (x : Issue) (id instr j : Nat) (kind : AccKind) (tag word : Nat) (data : List Byte) (d : Dst) (sh : Shape) : Acc :=
  { id := id, instr := instr, core := x.core, tid := x.tid, gix := x.gix, lane := j, also := [], ctx := x.c.ctx, kind := kind
    place := .acc x.tid tag word, va := 0, size := 4, data := data, cmp := 0, alg := 0, cls := 0, colour := 0, d := d, shape := sh
    party := x.party, arrived := false, val := none, path := none, left := false, fixedAt := none, picks := [], each := 0, cover := [] }

/-- DEDUCED (log 41; unsafe). -/
def execMacr (h : Hdr) (ty : Ty) (d : Dst) (a b : Src) (c : Option Src) (s : State) : Host.Outcome State Fault Refusal :=
  run (.macr h ty d a b c) (fun x s =>
    let t := (s.team? x.tid).getD x.team
    let spots := accSpots x t (x.u32 a) (x.w32 b)
    let shape (j : Nat) : Shape :=
      match c with
      | some f => .scale ty ((x.val .f32 f j).extractLsb' 0 32)
      | none => .plain
    let good := spots.filterMap fun p => p.2.map fun w => (p.1, w)
    let (instr, s) := s.newId
    -- the lanes that receive the word of one access: all of them for a uniform destination
    let one (s : State) (p : Nat × Nat × Nat) (also : List Nat) : State :=
      let (id, s) := s.newId
      let s := s.issueAcc { (accAccess x id instr p.1 .load p.2.1 p.2.2 [] d (shape p.1)) with also := also }
      s.modIssue x fun g => g.eachLane (p.1 :: also) fun l => l.pushAwaits [(id, 0)]
    let uniform := match d with | .k _ _ => true | _ => false
    let s :=
      match good with
      | [] => s
      | p :: rest => if uniform then one s p (rest.map (·.1)) else good.foldl (fun s p => one s p []) s
    { s := s, faults := accFaults spots }) s

def execMacw (h : Hdr) (a b c : Src) (s : State) : Host.Outcome State Fault Refusal :=
  run (.macw h a b c) (fun x s =>
    let t := (s.team? x.tid).getD x.team
    let spots := accSpots x t (x.u32 a) (x.w32 b)
    let (instr, s) := s.newId
    let one (s : State) (p : Nat × Option (Nat × Nat)) : State :=
      match p.2 with
      | none => s
      | some w =>
        let (id, s) := s.newId
        s.issueAcc (accAccess x id instr p.1 .store w.1 w.2 (toLe 4 (x.w32 c p.1).toNat) .none .plain)
    { s := spots.foldl one s, faults := accFaults spots }) s

/-! ### Grants and completions as events (R239, R240) -/

def onMatrixGrant (quad idx : Nat) (s : State) : Option State :=
  let q := s.quad quad
  match q.reqs[idx]? with
  | none => none
  | some r =>
    match s.team? r.tid with
    | none => none
    | some t =>
      match s.ctx? t.ctx with
      | none => none
      | some c =>
        -- the requests of a frozen partition are not granted (R293)
        let live (x : MReq) : Bool := !(((s.team? x.tid).bind fun t => (s.ctx? t.ctx).map (·.frozen)).getD false)
        if ((s.nextGrant (q.reqs.filter live)).map (·.id)) != some r.id || !r.present t then none
        else if s.readsBad t r then some (s.killFor r.tid)
        else if !r.ordered t then some (s.grantReq quad r t c)
        else s.gate t.ctx 6 t.lcore (s.partyOf r.tid r.gix) (.matrixGrant quad idx) fun s => s.grantReq quad r t c

def execMatrixGrant (quad idx : Nat) (s : State) : Host.Outcome State Fault Refusal := s.occurs (onMatrixGrant quad idx s)

def onMatrixComplete (quad idx : Nat) (s : State) : Option State :=
  let q := s.quad quad
  match q.reqs[idx]? with
  | none => none
  | some r =>
    match s.team? r.tid with
    | some t => if q.completable r then some (s.completeReq quad r t.ctx) else none
    | none => none

def execMatrixComplete (quad idx : Nat) (s : State) : Host.Outcome State Fault Refusal := s.occurs (onMatrixComplete quad idx s)

end Sys2Proof.Machine
end

