-- ==== Sys2Proof/Machine/CpyExec.lean ====
section
/-! DEFINITION. The copy instructions and the events of copies, tiles and claims (R316 to R339). -/

namespace Sys2Proof.Machine

/-! ### Shape slots (R316, R335) -/

def Team.slotBytes (t : Team) (n : Nat) : List Byte := Cells.bytes t.shapes (128 * n) 128
def Team.setSlot (t : Team) (n off : Nat) (bs : List Byte) : Team := { t with shapes := Cells.setBytes t.shapes (128 * n + off) bs }

/-- The stores that a core's path holds for its own reads. -/
def State.pathOf (s : State) (core : Nat) : List Acc := s.accs.filter fun a => a.core == core && a.kind.isStore

/-- The whole record from scratchpad: PROT, ALIGN, then absent sectors (R219, R335). -/
def shpWhole (x : Issue) (slot off : Nat) (s : State) : Res :=
  let t := (s.team? x.tid).getD x.team
  if t.spadBytes < off + 128 then { s := s, faults := x.all (Flt.mk' Code.prot) }
  else if off % 8 != 0 then { s := s, faults := x.all (Flt.mk' Code.align) }
  else
    match (sectorsOf off 128).find? t.absent.contains with
    | some sec => { s := s.parkAll x (x.act.map fun j => (j, .sector t.tid sec)), stay := x.act }
    | none =>
      let bs := forwardAt (s.pathOf x.core) (.spad t.tid off) (s.spadBytes t.tid off 128)
      withMark x 3 slot s fun s => { s := s.modTeam x.tid fun t => t.setSlot slot 0 bs }

def execShp (h : Hdr) (n : BitVec 5) (a b : Src) (s : State) : Host.Outcome State Fault Refusal :=
  run (.shp h n a b) (fun x s =>
    let slot := n.toNat
    let field (off k v : Nat) : Res := withMark x 3 slot s fun s => { s := s.modTeam x.tid fun t => t.setSlot slot off (toLe k v) }
    if x.act.isEmpty then { s := s }
    else
      match b.immVal.toNat with
      | 0 => shpWhole x slot (x.u32 a).toNat s
      | 1 => field 0 8 (x.u64 a).toNat
      | 2 => field 84 4 (x.u32 a).toNat
      | _ => field 68 4 (x.u32 a).toNat) s

/-! ### Issue of a copy (R336) -/

/-- A team's claim on a brand that it has not given up (R328). -/
def Team.claim? (t : Team) (b : Brand) : Option Claim := t.claims.find? fun c => c.brand == b && 0 < c.count

/-- The payload of a collective group's record, or the fault of what its brand resolves to (R336, R337). -/
def Resolved.group (r : Resolved) : Except Flt Brand :=
  match r with
  | .live r => if r.kind == kindCgrp then .ok r.payload else .error (Flt.mk' Code.prot)
  | .gone => .error (Flt.mk' Code.bgone)
  | .unreach => .error { Flt.mk' Code.bgone with alt := true }

/-- SHAPE of the records, the tiles and the targets (R318, R319, R325, R328). -/
def shapeFault (x : Issue) (t : Team) (src dst : Rec) (ts td : Nat) (cpx : Bool) : Bool :=
  src.bad false cpx || dst.bad true cpx || Rec.mismatched src dst || src.tiles ≤ ts || dst.tiles ≤ td
    || (cpx &&
        match targetRanks x.c dst, t.claim? dst.brand with
        | some rs, some cl => rs.any fun r => !cl.members.contains r
        | _, _ => true)

/-- Every byte of a local box, in bounds or not, lies in its space (R320).
DEDUCED (log 40; unsafe). -/
def State.boxInside (s : State) (t : Team) (r : Rec) (tile : Nat) : Bool :=
  r.space == 0 || (r.addrs tile).all fun a => a + r.size ≤ s.spaceBytes t (r.space == 2)

/-- Whether a reduced destination lies in a reduction window on a page that is not of class 0 (R203, R333). At a target on another chip, whose page this chip
does not hold, that is free where a window reaches that chip's memory.
DEDUCED (log 35; unsafe). -/
def State.windowClash (s : State) (c : Context) (r : Rec) (td : Nat) : Bool × State :=
  let near (tc : Context) : Bool := (r.addrs td).any fun a =>
    match s.walk tc a with
    | .ok f => Pte.cls f.e != 0 && s.windows.any fun w => w.lo ≤ f.gpa a && f.gpa a < w.hi
    | .error _ => false
  let goals := ((targetRanks c r).getD []).map fun k => c.rankTable.getD k (s.chip, c.ctx)
  if r.red == 0 then (false, s)
  else if goals.any fun g => g.1 == s.chip && ((s.ctx? g.2).map near).getD false then (true, s)
  else if goals.any fun g => g.1 != s.chip && s.windows.any fun w => w.lo < (g.1 + 1) * 2 ^ 50 && g.1 * 2 ^ 50 < w.hi then s.freeBool
  else (false, s)

/-- The faults of a copy before its pages are translated, where the brand of a `cpx` passes. -/
def State.copyFault (s : State) (x : Issue) (t : Team) (src dst : Rec) (ts td : Nat) (cpx : Bool) : Option Flt :=
  if shapeFault x t src dst ts td cpx then some (Flt.mk' Code.shape)
  else if src.misaligned || dst.misaligned then some (Flt.mk' Code.align)
  else if !s.boxInside t src ts || (!cpx && !s.boxInside t dst td) then some (Flt.mk' Code.prot)
  else none

/-- Where an element of a local box is; `spots` are the places of a virtual one. -/
def elemPlace (t : Team) (r : Rec) (spots : List (Nat × Nat × Leaf)) (k a : Nat) : Place :=
  match r.space with
  | 0 => .mem (lookupKey k (0, ⟨0, 0, 0⟩) spots).1
  | 1 => .spad t.tid a
  | _ => .pool t.lid (clusterOf t.core) a

/-- The arrival unit of a place: its sector, or its word.
DEDUCED (log 39; safe). -/
def Place.unit : Place → Nat
  | .mem g => g / 4
  | .spad _ o => o / 64
  | .pool _ _ o => o / 4
  | .acc _ _ w => w

/-- The class of the page of a source element; 0 outside memory. -/
def srcClass (spots : List (Nat × Nat × Leaf)) (i : Nat) : Nat := Pte.cls (lookupKey i (0, ⟨0, 0, 0⟩) spots).2.e

/-- The pieces of a `cpy` (R319): every in-bounds element of the destination, an 8-byte one in two halves.
DEDUCED (log 39; safe). -/
def cpyPieces (t : Team) (src dst : Rec) (ts td : Nat) (sAt dAt : List (Nat × Nat × Leaf)) : List Piece :=
  (List.range dst.count).flatMap fun k =>
    match dst.addr td k with
    | none => []
    | some a =>
      let i := Rec.sourceOf src dst k
      let goal := elemPlace t dst dAt k a
      let from' := (src.addr ts i).map (elemPlace t src sAt i)
      let cls := srcClass sAt i
      let page (h : Nat) : Option (Dword × Leaf) := if dst.space == 0 then some (BitVec.ofNat 64 (a + h), (lookupKey k (0, ⟨0, 0, 0⟩) dAt).2) else none
      if dst.size == 8 && !goal.device && !(from'.map Place.device).getD false then
        [0, 4].map fun h => ⟨goal.offset h, from'.map (·.offset h), (src.padBytes.drop h).take 4, (goal.offset h).unit, i, page h, cls, false⟩
      else [⟨goal, from', src.padBytes, goal.unit, i, page 0, cls, false⟩]

/-- The elements that a `cpx` reads, in destination order. -/
def cpxPieces (t : Team) (src dst : Rec) (ts : Nat) (sAt : List (Nat × Nat × Leaf)) : List Piece :=
  (List.range dst.count).map fun k =>
    let i := Rec.sourceOf src dst k
    ⟨.mem 0, (src.addr ts i).map (elemPlace t src sAt i), src.padBytes, 0, i, none, srcClass sAt i, false⟩

/-- The chip of a target rank, and whether it is another than this. -/
def State.rankChip (s : State) (c : Context) (r : Nat) : Nat := (c.rankTable.getD r (s.chip, c.ctx)).1
def State.rankFar (s : State) (c : Context) (r : Nat) : Bool := s.rankChip c r != s.chip

/-- The ports by which the tiles of a `cpx` leave the chip. -/
def State.courierPorts (s : State) (c : Context) (targets : List Nat) : List Nat :=
  targets.foldl (fun ps r =>
    if s.rankFar c r then (match s.route (s.rankChip c r) with | .port f => insertNat f ps | _ => ps) else ps) []

/-- Bytes of a tile. -/
def Rec.tileBytes (r : Rec) : Nat := r.count * r.size

/-- The bytes of a team's tiles that stand in the staging of a claim at a port (R329). -/
def State.inStaging (s : State) (c : Context) (tid : Nat) (b : Brand) (port : Nat) : Nat :=
  (s.copies.filter fun k => k.tid == tid && k.remote && (Rec.read k.dstRec).brand == b && (s.courierPorts c k.targets).contains port).foldl
    (fun n k => n + (Rec.read k.dstRec).tileBytes) 0

/-- Whether a copy must wait at issue: the copy queue, CC, the staging or the range table full (R327, R329, R336, R374). A `cpy` of a team that is
pre-empted is saved and holds no place in the queue.
DEDUCED (log 57; unsafe). -/
def State.copyWaits (s : State) (x : Issue) (t : Team) (src dst : Rec) (ts : Nat) (cpx : Bool) (targets : List Nat) : Bool :=
  let ports := s.courierPorts x.c targets
  let queued (k : Copy) : Bool := k.core == x.core && (k.cpx || ((s.team? k.tid).map (·.st)) != some .saved)
  let room := ((t.claim? dst.brand).map (·.n)).getD 0 * 65536
  32 ≤ (s.copies.filter queued).length || 65535 ≤ ((s.group? x.tid x.gix).getD x.g).cc
    || (cpx && ports.any fun p => decide (room < s.inStaging x.c x.tid dst.brand p + dst.tileBytes))
    || ports.any (fun p => ((s.port? p).map fun q => decide (64 ≤ q.steps.length)).getD false)
    || (cpx && src.space == 0 && (src.bounds ts).2 != 0 && (((s.ctx? x.c.ctx).getD x.c).freeRange (dieOf x.core)).isNone)

/-- Put a copy in flight (R320, R322, R327). -/
def State.startCopy (s : State) (x : Issue) (sb db : List Byte) (ts td slot : Nat) (cpx : Bool) (targets : List Nat) (ps : List Piece) : State :=
  let src := Rec.read sb
  let dst := Rec.read db
  let mask := dst.colours
  let s := s.await false x.tid x.gix x.act ⟨mask.testBit 0, true, true⟩ false mask (if cpx || src.space == 0 || dst.space == 0 then .pod else .clus)
  let (id, s) := s.newId
  let (snap, s) := s.snapshot
  let c : Copy :=
    { id := id, core := x.core, tid := x.tid, gix := x.gix, ctx := x.c.ctx, cpx := cpx, srcRec := sb, dstRec := db, ts := ts, td := td, pieces := ps
      hist := freshStale x.act (((s.group? x.tid x.gix).getD x.g).stale), snap := snap, got := [], data := none, targets := targets, slot := slot, status := 0
      remote := cpx && targets.any (s.rankFar x.c) }
  let s := { s with copies := s.copies ++ [c] }
  let s := ps.foldl (fun s p => match p.dst with | .spad t o => s.absent t (o / 64) | _ => s) s
  let s := if cpx && src.space == 0 && (src.bounds ts).2 != 0 then s.addRange x.c.ctx [dieOf x.core] (src.bounds ts).1 (src.bounds ts).2 (.source id) else s
  let s := (s.courierPorts x.c targets).foldl (fun s p => s.modPort p fun q => { q with steps := q.steps ++ [id] }) s
  (s.modIssue x fun g => { g with cc := g.cc + 1, last := ⟨slot, id, 0, false⟩ :: g.last.filter (·.slot != slot) }).send x.c.ctx (.copyUnit x.core)

/-- The effect of `cpy` and `cpx` once the brand of a `cpx` has passed (R336): `sel` is the destination slot, `hs` the source slot.
DEDUCED (log 35; unsafe); DEDUCED (log 39; safe). -/
def copyBody (x : Issue) (cpx : Bool) (sel hs : Nat) (b c : Src) (s : State) : Res :=
  let t := (s.team? x.tid).getD x.team
  let sb := t.slotBytes hs
  let db := t.slotBytes sel
  let src := Rec.read sb
  let dst := Rec.read db
  let ts := (x.u32 b).toNat
  let td := (x.u32 c).toNat
  if x.act.isEmpty then { s := s }
  else
    match s.copyFault x t src dst ts td cpx with
    | some f => { s := s, faults := x.all f }
    | none =>
      match (if src.space == 0 then s.boxOn x.core x.c src ts false else .ok [] s) with
      | .flt f s => { s := s, faults := x.all f }
      | .ok sAt s =>
        match (if !cpx && dst.space == 0 then s.boxOn x.core x.c dst td true else .ok [] s) with
        | .flt f s => { s := s, faults := x.all f }
        | .ok dAt s =>
          let targets := if cpx then (targetRanks x.c dst).getD [] else []
          match (if cpx then s.windowClash x.c dst td else (false, s)) with
          | (true, s) => { s := s, faults := x.all (Flt.mk' Code.atomio) }
          | (false, s) =>
            if s.copyWaits x t src dst ts cpx targets then { s := s, retry := true }
            else
              let ps := if cpx then cpxPieces t src dst ts sAt else cpyPieces t src dst ts td sAt dAt
              { s := s.startCopy x sb db ts td sel cpx targets ps }

def execCpy (h : Hdr) (n : BitVec 5) (a b c : Src) (s : State) : Host.Outcome State Fault Refusal :=
  run (.cpy h n a b c) (fun x s => copyBody x false n.toNat a.immVal.toNat b c s) s

def execCpx (h : Hdr) (n : BitVec 5) (a b c : Src) (s : State) : Host.Outcome State Fault Refusal :=
  run (.cpx h n a b c) (fun x s =>
    let t := (s.team? x.tid).getD x.team
    let brand := (Rec.read (t.slotBytes n.toNat)).brand
    if x.act.isEmpty then { s := s }
    else if (t.claim? brand).isNone then { s := s, faults := x.all (Flt.mk' Code.prot) }
    else
      withResolve x brand s fun r s =>
        match r.group with
        | .error f => { s := s, faults := x.all f }
        | .ok _ => copyBody x true n.toNat a.immVal.toNat b c s) s

/-- The group's most recent copy of a slot (R338). -/
def Group.report (g : Group) (slot : Nat) : Dword :=
  match g.last.find? (·.slot == slot) with
  | none => 0x80000000
  | some l => BitVec.ofNat 64 (l.done % 65536 + (if l.complete then 2 ^ 31 else 0))

/-- Whether a team's launch is deterministic, or its context replays. -/
def State.detOrReplay (s : State) (t : Team) : Bool :=
  ((s.launch? t.lid).map (·.pkt.det)).getD false || ((s.ctx? t.ctx).map (·.replay)).getD false

def execCpq (h : Hdr) (n : BitVec 5) (d : Dst) (s : State) : Host.Outcome State Fault Refusal :=
  run (.cpq h n d) (fun x s =>
    let v := ((s.group? x.tid x.gix).getD x.g).report n.toNat
    if !x.act.isEmpty && s.detOrReplay x.team && !v.getLsbD 31 then { s := s, retry := true }
    else { s := s.put x d (x.act.map fun j => (j, v)) }) s

/-! ### Claims (R328, R337) -/

/-- The ranks that a collective group's payload names (Table 15-8). -/
def membersOf (c : Context) (payload : Brand) : List Nat :=
  if payload.getLsbD 80 then List.range (c.nrank.1 * c.nrank.2.1 * c.nrank.2.2)
  else ((List.range 64).filter payload.getLsbD).map ((payload.extractLsb' 64 16).toNat + ·)

/-- The fabric ports that the routing table uses for the members on other chips; none where a member has no route. -/
def State.portsFor (s : State) (c : Context) (members : List Nat) : Option (List Nat) :=
  members.foldl (fun (ps : Option (List Nat)) r =>
    let chip := (c.rankTable.getD r (s.chip, c.ctx)).1
    match ps with
    | none => none
    | some l => if chip == s.chip then some l else match s.route chip with | .port f => some (insertNat f l) | _ => none) (some [])

/-- Whether the couriers and the pool can ever provide a claim. -/
def State.claimPossible (s : State) (n : Nat) (ports : List Nat) : Bool :=
  ports.all (fun p => ((s.port? p).map (·.valid)).getD false) && n * ports.length ≤ 256

/-- Whether they can provide it now: the couriers, on the host die, can be asked (R418), and have channels and staging free. -/
def State.claimFree (s : State) (n : Nat) (ports : List Nat) : Bool :=
  (ports.isEmpty || s.linkUp) && ports.all (fun p => ((s.port? p).map fun q => decide (1 ≤ q.channels)).getD false) && n * ports.length ≤ s.stagingFree

def State.grantClaim (s : State) (tid : Nat) (b : Brand) (n : Nat) (members ports : List Nat) : State :=
  let s := { s with stagingFree := s.stagingFree - n * ports.length }
  let s := ports.foldl (fun s p => s.modPort p fun q => { q with channels := q.channels - 1, staging := q.staging + n }) s
  s.modTeam tid fun t => { t with claims := t.claims ++ [⟨b, 1, n, ports, members⟩] }

/-- The claims that wait: the brand and count of each, with its group. -/
def State.waitingClaims (s : State) : List (Brand × Nat × Team × Group) :=
  s.teams.flatMap fun t => t.groups.filterMap fun g => match g.wait with | some (.claim b n _ _ _ _) => some (b, n, t, g) | _ => none

/-- The members and ports of a waiting claim that could be granted now.
DEDUCED (log 42; unsafe). -/
def State.claimReady (s : State) (t : Team) (b : Brand) (n : Nat) : Option (List Nat × List Nat) :=
  match s.ctx? t.ctx, (s.resolve b).1 with
  | some c, .live r =>
    let ms := membersOf c r.payload
    match s.portsFor c ms with
    | some ps => if s.claimPossible n ps && s.claimFree n ps then some (ms, ps) else none
    | none => none
  | _, _ => none

/-- Whether a claim on a lower brand waits and could be granted. -/
def State.claimBehind (s : State) (b : Brand) : Bool := s.waitingClaims.any fun w => w.1.toNat < b.toNat && (s.claimReady w.2.2.1 w.1 w.2.1).isSome

/-- Whether the engines of a context begin nothing (R293).
DEDUCED (log 54; unsafe). -/
def State.frozen (s : State) (ctx : Nat) : Bool := ((s.ctx? ctx).map (·.frozen)).getD false

/-- Free the claims of a team that have been given up, once no `cpx` on them is left (R337). -/
def State.freeGivenUp (s : State) (tid : Nat) : State :=
  match s.team? tid with
  | none => s
  | some t =>
    let done := t.claims.filter fun c => c.count == 0 && !(s.copies.any fun k => k.tid == tid && k.cpx && (Rec.read k.dstRec).brand == c.brand)
    done.foldl State.freeClaim (s.modTeam tid fun t => { t with claims := t.claims.filter fun c => !done.contains c })

/-- `cpc` with op 0, given what the brand resolves to.
DEDUCED (log 42; unsafe). -/
def claimBody (x : Issue) (b : Brand) (n : Nat) (d : Dst) (r : Resolved) (s : State) : Res :=
  let status (s : State) (v : Dword) : Res := { s := s.put x d (x.act.map fun j => (j, v)) }
  match r.group with
  | .error f => { s := s, faults := x.all f }
  | .ok payload =>
    let t := (s.team? x.tid).getD x.team
    if n == 0 || 16 < n then { s := s, faults := x.all (Flt.mk' Code.shape) }
    else if t.claims.any (·.brand == b) then
      status (s.modTeam x.tid fun t => { t with claims := modWhere (·.brand == b) (fun c => { c with count := c.count + 1 }) t.claims }) 0
    else
      let ms := membersOf x.c payload
      match s.portsFor x.c ms with
      | none => status s 3
      | some ps =>
        if !s.claimPossible n ps then status s 3
        else if s.claimFree n ps && !s.claimBehind b then status (s.grantClaim x.tid b n ms ps) 0
        else if !t.claims.isEmpty then status s 2
        else { s := s.modIssue x fun g => { g with wait := some (.claim b n d x.act x.next x.hold) }, stay := x.act }

def execCpc (h : Hdr) (n : BitVec 5) (d : Dst) (a b : Src) (s : State) : Host.Outcome State Fault Refusal :=
  run (.cpc h n d a b) (fun x s =>
    let t := (s.team? x.tid).getD x.team
    let brand := (Rec.read (t.slotBytes n.toNat)).brand
    if x.act.isEmpty then { s := s }
    else if b.immVal == 0 then withResolve x brand s fun r s => claimBody x brand (x.u32 a).toNat d r s
    else
      let s := s.modTeam x.tid fun t => { t with claims := modWhere (·.brand == brand) (fun c => { c with count := c.count - 1 }) t.claims }
      { s := (s.freeGivenUp x.tid).put x d (x.act.map fun j => (j, 0)) }) s

/-- A waiting claim is granted: the lowest brand whose resources are free (R328). Where its couriers no longer have valid
firmware it ends with status 3. That of a frozen partition waits on (R293). -/
def onClaimGrant (tid gix : Nat) (s : State) : Option State :=
  match s.team? tid, s.group? tid gix with
  | some t, some g =>
    match g.wait with
    | some (.claim b n d lanes next hold) =>
      let ended (s : State) (v : Dword) : Option State :=
        some (s.modGroup tid gix fun g => (g.put d (lanes.map fun j => (j, v))).endWait lanes next hold)
      if t.st != .resident || s.frozen t.ctx then none
      else if t.claims.any (·.brand == b) then
        -- another group of the team has claimed meanwhile
        ended (s.modTeam tid fun t => { t with claims := modWhere (·.brand == b) (fun c => { c with count := c.count + 1 }) t.claims }) 0
      else
        match s.claimReady t b n with
        | some (ms, ps) => if s.claimBehind b then none else ended (s.grantClaim tid b n ms ps) 0
        | none =>
          match s.ctx? t.ctx, (s.resolve b).1 with
          | some c, .live r =>
            match s.portsFor c (membersOf c r.payload) with
            | some ps => if s.claimPossible n ps then none else ended s 3
            | none => ended s 3
          | _, _ => none
    | _ => none
  | _, _ => none

def execClaimGrant (tid gix : Nat) (s : State) : Host.Outcome State Fault Refusal := s.occurs (onClaimGrant tid gix s)

/-! ### Arrival and completion of a `cpy` (R320 to R323) -/

/-- What the arrival of a piece comes to: it is over, written or not; it waits for the dirty log; or its source in the pool was bad (R208). -/
inductive Landed where
  | done (s : State)
  | full
  | poolBad (s : State)
  deriving DecidableEq, Repr

/-- A fault of a copy in flight goes into its flag (R320, R321). -/
def State.copyStatus (s : State) (id code : Nat) : State := s.modCopy id fun x => { x with status := code }

/-- Write a piece, the dirty bit of its page first; a fault of that leaves it unwritten (R204, R206, R320).
DEDUCED (log 39; safe). -/
def State.putPiece (s : State) (t : Team) (c : Copy) (r : Rec) (p : Piece) (bs : List Byte) : Landed :=
  match (match p.page with | some (va, f) => s.dirty c.ctx va f | none => .done s) with
  | .full => .full
  | .flt f => .done (s.copyStatus c.id f.code)
  | .done s =>
    let cls := match p.page with | some (_, f) => Pte.cls f.e | none => 0
    let s := match p.dst with | .mem g => s.engineArrives ⟨c.ctx, 1, t.lcore, .copyUnit t.core⟩ cls g bs.length (r.red != 0) | _ => s
    let q := s.copyWrite r.red p.dst bs
    .done (if q.1 then q.2 else q.2.copyStatus c.id Code.eccu)

/-- One piece arrives: a poisoned element is not written (R320).
DESIGN CHOICE (log 21; safe). -/
def State.landPiece (s : State) (t : Team) (c : Copy) (r : Rec) (p : Piece) : Landed :=
  match p.src with
  | none => s.putPiece t c r p p.pad
  | some pl =>
    -- poison is judged on the whole element
    let bad := match pl with | .mem g => !isDevice g && s.poisoned (g / r.size * r.size) r.size | _ => false
    match s.readPiece t c p pl with
    | (.bytes bs, s) => if bad then .done (s.copyStatus c.id Code.eccu) else s.putPiece t c r p bs
    | (.poison, s) => .done (s.copyStatus c.id Code.eccu)
    | (.poolBad _ _ _, s) => .poolBad s

/-- Some pieces of a copy arrive, by their places in its list. -/
def State.landPieces (s : State) (t : Team) (c : Copy) : List Nat → Landed
  | [] => .done s
  | i :: is =>
    match c.pieces[i]? with
    | none => s.landPieces t c is
    | some p =>
      match s.landPiece t c (Rec.read c.dstRec) p with
      | .done s => (s.modCopy c.id fun x => { x with pieces := x.pieces.modify i fun p => { p with done := true } }).landPieces t c is
      | r => r

/-- The pieces of a copy that meet a test, by their places. -/
def Copy.piecesWhere (c : Copy) (p : Piece → Bool) : List Nat := (c.pieces.zipIdx.filter fun x => p x.1).map (·.2)

/-- Some of a list, which of them is free.
DESIGN CHOICE (log 21; safe). -/
def State.someOf {α : Type} (s : State) (l : List α) : List α × State :=
  l.foldl (fun (w : List α × State) x => let (b, s) := w.2.freeBool; (if b then w.1 ++ [x] else w.1, s)) ([], s)

/-- All of a list, or some of it.
DESIGN CHOICE (log 21; safe). -/
def State.allOrSome {α : Type} (s : State) (l : List α) : List α × State := let (b, s) := s.freeBool; if b then s.someOf l else (l, s)

/-- Data of one sector, or of one word outside scratchpad, arrives, word by word (R212, R322); a sector becomes present with the last of it. A copy that has
not begun does not begin in a frozen partition.
DESIGN CHOICE (log 21; safe). -/
def onCopySectorArrival (id unit : Nat) (s : State) : Option State :=
  match s.copy? id with
  | none => none
  | some c =>
    match s.team? c.tid with
    | none => none
    | some t =>
      let left := c.piecesWhere fun p => p.unit == unit && !p.done
      if c.cpx || t.st != .resident || left.isEmpty || (s.frozen c.ctx && !(c.pieces.any (·.done))) then none
      else
        -- outside scratchpad the unit is a word
        let word (i : Nat) : Option Place := (c.pieces[i]?).map (·.dst.inWord.1)
        let (words, s) := s.allOrSome (left.map word).eraseDups
        let now := left.filter fun i => words.contains (word i)
        match s.landPieces t c now with
        | .full => none
        | .poolBad s => some (s.killFor c.tid)
        | .done s =>
          let whole := now.length == left.length
          let s := match (left.head?.bind fun i => c.pieces[i]?).map (·.dst) with | some (.spad tid o) => if whole then s.present tid (o / 64) else s | _ => s
          some (s.tick c.ctx)

def execCopySectorArrival (id unit : Nat) (s : State) : Host.Outcome State Fault Refusal := s.occurs (onCopySectorArrival id unit s)

/-- A command is over: CC falls, and the report of its slot says so (R321, R338). -/
def State.endCopy (s : State) (c : Copy) : State :=
  let s := { s with copies := s.copies.filter (·.id != c.id) }
  let s := s.modGroup c.tid c.gix fun g =>
    { (g.count fun g => { g with cc := g.cc - 1 }) with last := modWhere (·.id == c.id) (fun l => { l with complete := true }) g.last }
  (s.recv c.ctx (.copyUnit c.core)).freeGivenUp c.tid

/-- One more target's delivery has completed (R338). -/
def State.oneDone (s : State) (c : Copy) : State :=
  s.modGroup c.tid c.gix fun g => { g with last := modWhere (·.id == c.id) (fun l => { l with done := l.done + 1 }) g.last }

/-- A `cpy` completes: its flag is written after its data (R321). -/
def onCopyComplete (id : Nat) (s : State) : Option State :=
  match s.copy? id with
  | none => none
  | some c =>
    if c.cpx || c.pieces.any (!·.done) || ((s.team? c.tid).map (·.st)) != some .resident then none
    else
      (s.writeFlag ⟨c.ctx, 1, ((s.team? c.tid).map (·.lcore)).getD 0, .copyUnit c.core⟩ (Rec.read c.dstRec) c.td (((s.ctx? c.ctx).map s.rankOf).getD 0) c.status).map fun w =>
        (if w.1 then w.2.oneDone c else w.2).endCopy c

def execCopyComplete (id : Nat) (s : State) : Host.Outcome State Fault Refusal := s.occurs (onCopyComplete id s)

/-! ### Tiles (R325 to R327, R330, R331) -/

def State.tile? (s : State) (id : Nat) : Option Tile := s.tiles.find? (·.id == id)
def State.modTile (s : State) (id : Nat) (f : Tile → Tile) : State := { s with tiles := modWhere (·.id == id) f s.tiles }

/-- Whether some team of a context holds a claim on a brand (R330). -/
def State.claimed (s : State) (ctx : Nat) (b : Brand) : Bool := s.teams.any fun t => t.ctx == ctx && (t.claim? b).isSome

/-- Whether tiles for a context that have not begun wait in their senders' staging: from its sealing on (R400).
DEDUCED (log 42; unsafe). -/
def Context.shut (c : Context) : Bool := c.st == .sealed || c.st == .saved || c.st == .restoring

/-- A packet for a dead brand is dropped and counted at its port (R330).
DEDUCED (log 42; unsafe). -/
def State.latePacket (s : State) (chip : Nat) : State :=
  match s.route chip with
  | .port f => s.modPort f fun p => { p with late := p.late + 1 }
  | _ => s

/-- The port by which a chip's packets come and go. -/
def State.portOf (s : State) (chip : Nat) : Nat := match s.route chip with | .port f => f | _ => 0

/-- The chip of a tile's sender. -/
def State.senderChip (s : State) (x : Tile) : Nat := ((s.ctx? x.ctx).map fun c => s.rankChip c x.sender).getD s.chip

/-- A target of a `cpx` acknowledges; `counted` says that `cpq` counts it (R325, R338). -/
def State.ackRank (s : State) (id rank : Nat) (counted : Bool) : State :=
  match s.copy? id with
  | none => s
  | some c =>
    let s := s.modCopy id fun x => { x with targets := x.targets.filter (· != rank) }
    (if counted then s.oneDone c else s).pass c.ctx (.copyUnit c.core) (.copyUnit c.core)

/-- A tile is over at this chip, and its sender hears so. -/
def State.tileOver (s : State) (x : Tile) (counted : Bool) : State :=
  let s := { s with tiles := s.tiles.filter (·.id != x.id) }
  match x.own with
  | some (id, rank) => s.ackRank id rank counted
  | none =>
    let n : Node := .courier (s.portOf (s.senderChip x))
    (s.pass x.ctx n n).tick x.ctx

/-- A tile that has not begun, for a brand that is dead or a context that is gone, is dropped (R330). -/
def State.dropTile (s : State) (x : Tile) : State := (if x.own.isSome then s else s.latePacket (s.senderChip x)).tileOver x false

/-- The party that delivers a tile: a courier, or for one of this chip's the copy unit of its sender. -/
def State.tileParty (s : State) (x : Tile) : Party :=
  ⟨x.ctx, 3, 0, match x.own.bind fun o => s.copy? o.1 with | some c => .copyUnit c.core | none => .courier (s.portOf (s.senderChip x))⟩

/-- The end of a tile: its entries leave the range table just before its flag is written (R327). None: the dirty log is full. -/
def State.endTile (s : State) (x : Tile) (status : Nat) : Option State :=
  ((s.dropRanges x.ctx (RangeOwner.isTile x.id)).writeFlag (s.tileParty x) (Rec.read x.shape) x.td x.sender status).map fun w => w.2.tileOver x w.1

/-- A page of a tile's destination faults: no more of it is written, and the fault is reported and goes into the flag (R325). -/
def State.faultTile (s : State) (x : Tile) (f : Flt) : Option State := (s.reportBare x.ctx f false).endTile x f.code

/-- The choices that words of a reduced tile make: its arrival at each doubleword (R326, Table 21-7). -/
def Tile.marks (x : Tile) (us : List Unit) : List (Nat × Nat × Nat) :=
  if (Rec.read x.shape).red == 0 then []
  else (us.foldl (fun l u => insertNat (u.gpa / 8) l) []).map fun dw => (3, stackOf (8 * dw), localOf (8 * dw) / 8 * 2 ^ 11 + x.sender % 1024 * 2)

/-- Words of a tile land, all that are left or those of some doublewords first; with the last the tile ends (R322, R325, R326).
DESIGN CHOICE (log 21; safe). -/
def State.landTile (s : State) (x : Tile) (els : List (Nat × Nat × Leaf)) (begin' : State → State) : Option State :=
  let r := Rec.read x.shape
  let left := (r.units x.td els x.data).filter fun u => !x.landed.contains u.n
  let (dws, s) := s.allOrSome (left.foldl (fun l u => insertNat (u.gpa / 8) l) [])
  let now := left.filter fun u => dws.contains (u.gpa / 8)
  match s.dirtyUnits x.ctx now with
  | none => none
  | some (.error f) => s.faultTile x f
  | some (.ok s) =>
    s.gateAll x.ctx (x.marks now) (.cpxTileArrival (.rest x.id)) fun s =>
      let w := (begin' s).landUnits (s.tileParty x) r now
      let y : Tile := { x with begun := true, landed := x.landed ++ now.map (·.n), bad := x.bad || !w.1 }
      let s := (w.2.modTile x.id fun _ => y).tick x.ctx
      if now.length == left.length then (s.endTile y (if y.bad then Code.eccu else 0)).getD s else s

/-- Whether a tile may begin (R293, R327, R330, R400): its brand is claimed, its context takes tiles, and the way to its sender is up. -/
def State.mayBegin (s : State) (c : Context) (x : Tile) : Bool :=
  s.claimed c.ctx (Rec.read x.shape).brand && !c.shut && !c.frozen && (x.own.isSome || s.reachable (s.senderChip x))

/-- A tile goes on: it begins, with its entries in the range table of each die, or more of it lands. One that has begun goes on though its brand dies (R327,
R330). Its box is translated at each move.
DEDUCED (log 42; unsafe). -/
def State.moveTile (s : State) (x : Tile) : Option State :=
  let r := Rec.read x.shape
  match s.ctx? x.ctx with
  | none => some (s.dropTile x)
  | some c =>
    let b := r.bounds x.td
    let full := b.2 != 0 && c.dies.any fun d => (c.freeRange d).isNone
    let land (s : State) (x : Tile) (begin' : State → State) : Option State :=
      match s.boxOn (c.lmap.headD 0) c r x.td true with
      | .flt f s => s.faultTile x f
      | .ok els s => s.landTile x els begin'
    if x.begun then land s x id
    else
      match s.resolve r.brand with
      | (.gone, s) => some (s.dropTile x)
      | (_, s) =>
        if !s.mayBegin c x || full then none
        else
          land s x fun s =>
            let s := if x.own.isSome then s else s.comes (s.senderChip x) r.tileBytes
            if b.2 != 0 then s.addRange c.ctx c.dies b.1 b.2 (.tile x.id) else s

/-- A tile for a rank on another chip: delivered there, or dropped there, or lost with its link (R325, R330, R331).
DESIGN CHOICE (log 18; safe). -/
def farArrival (c : Copy) (rank chip : Nat) (s : State) : Option State :=
  let sent := ((s.port? (s.portOf chip)).map fun p => !p.steps.contains c.id).getD true
  if !s.reachable chip then some ((s.ackRank c.id rank false).reportTile c.ctx Code.eccu true 0)
  else if !sent || s.frozen c.ctx then none
  else
    let (counted, s) := (s.leaves chip (Rec.read c.dstRec).tileBytes 1).freeBool
    some ((s.ackRank c.id rank counted).tick c.ctx)

/-- A tile comes to this chip, and waits or begins. -/
def State.newTile (s : State) (x : Nat → Tile) : Option State :=
  let (id, s) := s.newId
  let s := { s with tiles := s.tiles ++ [x id] }
  some ((s.moveTile (x id)).getD s)

/-- A packet for a context that is gone: dropped, and counted at the port by which it came, which is free (R330).
DEDUCED (log 42; unsafe). -/
def strayArrival (bs : List Byte) (td : Nat) (s : State) : Option State :=
  let r := Rec.read bs
  if r.bad true true || r.tiles ≤ td then none
  else
    let (k, s) := s.freeNat
    some (s.modPort (k % 18) fun p => { p with late := p.late + 1 })

/-- A tile from another chip.
DESIGN CHOICE (log 19; unsafe); DEDUCED (log 42; unsafe). -/
def remoteArrival (ctx : Nat) (bs : List Byte) (td sender : Nat) (elems : List (Option Dword)) (s : State) : Option State :=
  let r := Rec.read bs
  match s.ctx? ctx with
  | none => strayArrival bs td s
  | some c =>
    if r.bad true true || r.tiles ≤ td || elems.length != r.count || !s.rankFar c sender then none
    else s.newTile fun id => ⟨id, none, ctx, bs, td, sender, elems.map fun e => e.map fun x => toLe r.size (x.toNat % 2 ^ (8 * r.size)), false, [], false⟩

/-- A tile of one of this chip's own `cpx` goes to a target; the source is read when the first does. In a frozen partition a `cpx` that has not read it does not. -/
def ownArrival (c : Copy) (rank : Nat) (s : State) : Option State :=
  let goal := (((s.ctx? c.ctx).map (·.rankTable)).getD []).getD rank (s.chip, c.ctx)
  match s.team? c.tid with
  | none => none
  | some t =>
    if s.frozen c.ctx && c.data.isNone then none
    else
      match s.cpxRead t c with
      | (some _, s) => some (s.killFor c.tid)
      | (none, s) =>
        if goal.1 != s.chip then farArrival c rank goal.1 s
        else if s.tiles.any (·.own == some (c.id, rank)) then none
        else
          let sender := ((s.ctx? c.ctx).map s.rankOf).getD 0
          s.newTile fun id => ⟨id, some (c.id, rank), goal.2, c.dstRec, c.td, sender, ((s.copy? c.id).bind (·.data)).getD [], false, [], false⟩

/-- A tile for a chip that is no neighbour goes into a port's forwarding buffer, where the courier has valid firmware (R332).
DESIGN CHOICE (log 19; unsafe). -/
def throughArrival (port channel chip bytes : Nat) (s : State) : Option State :=
  match s.port? port with
  | none => none
  | some p => if p.valid && p.up && s.linkUp then some (s.modPort port fun p => { p with forwards := p.forwards ++ [⟨channel, chip, bytes⟩] }) else none

/-- A tile arrives at a target rank, or goes on arriving (R325). -/
def onCpxTileArrival (src : TileSrc) (s : State) : Option State :=
  match src with
  | .remote ctx bs td sender elems => remoteArrival ctx bs td sender elems s
  | .rest id => (s.tile? id).bind s.moveTile
  | .through port channel chip bytes => throughArrival port channel chip bytes s
  | .own id rank =>
    match s.copy? id with
    | none => none
    | some c => if c.cpx && c.targets.contains rank then ownArrival c rank s else none

def execCpxTileArrival (src : TileSrc) (s : State) : Host.Outcome State Fault Refusal := s.occurs (onCpxTileArrival src s)

/-- A courier takes the next schedule step of its port: the tiles of a `cpx` may then leave by it, or a tile in its forwarding buffer goes on by the port of
its chip (R332, Table 12-1). -/
def onCourierScheduleStep (port : Nat) (s : State) : Option State :=
  match s.port? port with
  | none => none
  | some p =>
    if !p.valid || !p.up || !s.linkUp then none
    else
      match p.steps, p.forwards with
      | id :: rest, _ =>
        match s.copy? id with
        | none => some (s.modPort port fun p => { p with steps := rest })
        | some c => if s.frozen c.ctx then none else some ((s.modPort port fun p => { p with steps := rest }).tick c.ctx)
      | [], f :: rest => some ((s.modPort port fun p => { p with forwards := rest }).leaves f.chip f.bytes f.channel)
      | [], [] => none

def execCourierScheduleStep (port : Nat) (s : State) : Host.Outcome State Fault Refusal := s.occurs (onCourierScheduleStep port s)

/-- A `cpx` completes when every target has acknowledged (R325). -/
def onCpxComplete (id : Nat) (s : State) : Option State :=
  match s.copy? id with
  | none => none
  | some c =>
    if !c.cpx || !c.targets.isEmpty then none
    else some ((s.dropRanges c.ctx (RangeOwner.isSource id)).endCopy c)

def execCpxComplete (id : Nat) (s : State) : Host.Outcome State Fault Refusal := s.occurs (onCpxComplete id s)

end Sys2Proof.Machine
end

