-- ==== Sys2Proof/WellFormed.lean ====
section
/-! DEFINITION. Well-formed instructions: those whose fields the encoding tables accept. -/

namespace Sys2Proof

/-- Whether the encoding tables accept every field of an instruction (R58 to R62, R72, R73, R75). An event has no
encoding and nothing to check.
DEDUCED (log 32; unsafe). -/
def Instr.wellFormed (i : Instr) : Bool :=
  match formOf i with
  | some f => f.check.isNone
  | none => true

/-- Whether this is one of the 153 instructions, not an event. -/
def Instr.isCode (i : Instr) : Bool := (formOf i).isSome

end Sys2Proof
end

