-- ==== Sys2Proof/Decode.lean ====
section
/-! DEFINITION. Decoding instruction words, total on any bits and rejecting by name, and the encoder. -/

namespace Sys2Proof

/-- The destination a field's 14 bits name (Table 3-2), before the checks. -/
def decodeDst (x : BitVec 14) : Dst :=
  let pair := x.getLsbD 10
  if x.getLsbD 13 then .nw pair
  else
    match (x.extractLsb' 11 2).toNat with
    | 0 => .v (x.extractLsb' 0 8) pair
    | 1 => .k (x.extractLsb' 0 6) pair
    | 2 => .p (x.extractLsb' 0 3)
    | _ => .none

/-- The source a field's 16 bits name (Table 3-3), before the checks. Reserved sub-kinds give a predicate, which
re-encodes to other bits and is so refused. -/
def decodeSrc (x : BitVec 16) : Src :=
  match (x.extractLsb' 14 2).toNat with
  | 0 => .v (x.extractLsb' 0 8) (x.getLsbD 8) (x.getLsbD 9) (x.getLsbD 10)
  | 1 => .latch (x.extractLsb' 0 2)
  | 2 => .imm (x.extractLsb' 0 14)
  | _ => if (x.extractLsb' 12 2).toNat == 0 then .k (x.extractLsb' 0 6) (x.getLsbD 8) (x.getLsbD 10) else .p (x.extractLsb' 0 3)

/-- The fields of a word (Table 3-1), each read as what it may stand for. -/
structure Fields where
  opc : Nat
  h : Hdr
  mod : Nat
  d : Dst
  a : Src
  b : Src
  c : Src
  tail : Word
  target : Target
  deriving DecidableEq, Repr

def fieldsOf (w : Code) : Fields :=
  { opc := (w.extractLsb' 86 10).toNat
    h := ⟨w.getLsbD 85, w.extractLsb' 82 3, w.getLsbD 76, w.getLsbD 75, w.extractLsb' 72 3⟩
    mod := (w.extractLsb' 62 10).toNat
    d := decodeDst (w.extractLsb' 48 14)
    a := decodeSrc (w.extractLsb' 32 16)
    b := decodeSrc (w.extractLsb' 16 16)
    c := decodeSrc (w.extractLsb' 0 16)
    tail := w.extractLsb' 0 32
    target := ⟨w.extractLsb' 4 28, w.extractLsb' 0 4⟩ }

/-- Operations of class INT (Table 3-5, Table 3-8). -/
def decodeInt (f : Fields) : Nat → Option Instr
  | 1 => (IntTy.ofCode (f.mod % 8)).map fun ty => .iadd f.h ty (f.mod.testBit 3) f.d f.a f.b
  | 2 => (IntTy.ofCode (f.mod % 8)).map fun ty => .isub f.h ty (f.mod.testBit 3) f.d f.a f.b
  | 3 => (IntTy.ofCode (f.mod % 8)).map fun ty => .imul f.h ty (f.mod.testBit 3) (f.mod.testBit 4) f.d f.a f.b
  | 4 => (IntTy.ofCode (f.mod % 8)).map fun ty => .imad f.h ty (f.mod.testBit 3) f.d f.a f.b f.c
  | 5 => (IntTy.ofCode (f.mod % 8)).map fun ty => .imin f.h ty f.d f.a f.b
  | 6 => (IntTy.ofCode (f.mod % 8)).map fun ty => .imax f.h ty f.d f.a f.b
  | 7 => (IntTy.ofCode (f.mod % 8)).map fun ty => .iabs f.h ty (f.mod.testBit 3) f.d f.a
  | 8 => (IntTy.ofCode (f.mod % 8)).map fun ty => .and f.h ty f.d f.a f.b
  | 9 => (IntTy.ofCode (f.mod % 8)).map fun ty => .or f.h ty f.d f.a f.b
  | 10 => (IntTy.ofCode (f.mod % 8)).map fun ty => .xor f.h ty f.d f.a f.b
  | 11 => (IntTy.ofCode (f.mod % 8)).map fun ty => .andn f.h ty f.d f.a f.b
  | 12 => (IntTy.ofCode (f.mod % 8)).map fun ty => .shl f.h ty (f.mod.testBit 3) f.d f.a f.b
  | 13 => (IntTy.ofCode (f.mod % 8)).map fun ty => .shr f.h ty f.d f.a f.b
  | 14 => (IntTy.ofCode (f.mod % 8)).map fun ty => .rot f.h ty f.d f.a f.b
  | 15 => (IntTy.ofCode (f.mod % 8)).map fun ty => .bfe f.h ty f.d f.a f.b
  | 16 => (IntTy.ofCode (f.mod % 8)).map fun ty => .bfi f.h ty f.d f.a f.b f.c
  | 17 => (IntTy.ofCode (f.mod % 8)).map fun ty => .popc f.h ty f.d f.a
  | 18 => (IntTy.ofCode (f.mod % 8)).map fun ty => .clz f.h ty f.d f.a
  | 19 => (IntTy.ofCode (f.mod % 8)).map fun ty => .brev f.h ty f.d f.a
  | 20 => (ICond.ofCode (f.mod / 16)).bind fun cond => (IntTy.ofCode (f.mod % 8)).map fun ty => .icmp f.h cond ty f.d f.a f.b
  | 21 => (IntTy.ofCode (f.mod % 8)).map fun ty => .sel f.h ty f.d f.a f.b f.c
  | 22 => (IntTy.ofCode (f.mod % 8)).map fun ty => .mov f.h ty f.d f.a
  | 23 => some (.movi f.h f.d f.tail)
  | 24 => (IntTy.ofCode (f.mod % 8)).map fun ty => .lea f.h (.ofNat 3 (f.mod / 16)) ty f.d f.a f.b
  | 25 => some (.iaddc f.h (.ofNat 3 (f.mod / 16)) f.d f.a f.b f.c)
  | 26 => some (.sreg f.h f.d f.a)
  | _ => none

/-- Operations of class FP (Table 3-5, Table 3-8). -/
def decodeFp (f : Fields) : Nat → Option Instr
  | 0 => (Rnd.ofCode (f.mod % 4)).map fun r => .fadd f.h r (f.mod.testBit 4) (f.mod.testBit 5) f.d f.a f.b
  | 1 => (Rnd.ofCode (f.mod % 4)).map fun r => .fsub f.h r (f.mod.testBit 4) (f.mod.testBit 5) f.d f.a f.b
  | 2 => (Rnd.ofCode (f.mod % 4)).map fun r => .fmul f.h r (f.mod.testBit 4) (f.mod.testBit 5) f.d f.a f.b
  | 3 => (Rnd.ofCode (f.mod % 4)).map fun r => .ffma f.h r (f.mod.testBit 4) (f.mod.testBit 5) f.d f.a f.b f.c
  | 4 => some (.fmin f.h (f.mod.testBit 4) (f.mod.testBit 5) f.d f.a f.b)
  | 5 => some (.fmax f.h (f.mod.testBit 4) (f.mod.testBit 5) f.d f.a f.b)
  | 6 => (FCond.ofCode (f.mod / 64)).map fun cond => .fcmp f.h cond (f.mod.testBit 4) f.d f.a f.b
  | 7 => some (.fclass f.h (f.mod.testBit 4) f.d f.a)
  | 8 => (Rnd.ofCode (f.mod % 4)).map fun r => .frnd f.h r (f.mod.testBit 4) (f.mod.testBit 5) f.d f.a
  | 9 => (Rnd.ofCode (f.mod % 4)).map fun r => .fscale f.h r (f.mod.testBit 4) (f.mod.testBit 5) f.d f.a f.b
  | 10 => (FFmt.ofCode (f.mod / 4 % 4)).bind fun m => (Rnd.ofCode (f.mod % 4)).map fun r => .fadd2 f.h m r (f.mod.testBit 4) (f.mod.testBit 5) f.d f.a f.b
  | 11 => (FFmt.ofCode (f.mod / 4 % 4)).bind fun m => (Rnd.ofCode (f.mod % 4)).map fun r => .fmul2 f.h m r (f.mod.testBit 4) (f.mod.testBit 5) f.d f.a f.b
  | 12 => (FFmt.ofCode (f.mod / 4 % 4)).bind fun m => (Rnd.ofCode (f.mod % 4)).map fun r => .ffma2 f.h m r (f.mod.testBit 4) (f.mod.testBit 5) f.d f.a f.b f.c
  | _ => none

/-- Operations of class CVT (Table 3-5, Table 3-8). -/
def decodeCvt (f : Fields) : Nat → Option Instr
  | 0 => (Ty.ofCode (f.mod % 16)).bind fun dt => (Ty.ofCode (f.mod / 16 % 16)).bind fun st => (Rnd.ofCode (f.mod / 256)).map fun r => .cvt f.h dt st r f.d f.a
  | 1 => (Ty.ofCode (f.mod % 16)).bind fun dt => (Ty.ofCode (f.mod / 16 % 16)).bind fun st => (Rnd.ofCode (f.mod / 256)).map fun r => .cvti f.h dt st r f.d f.a f.b
  | 2 => (Ty.ofCode (f.mod % 16)).bind fun dt => (Ty.ofCode (f.mod / 16 % 16)).bind fun st => (Rnd.ofCode (f.mod / 256)).map fun r => .pk16 f.h dt st r f.d f.a f.b
  | 3 => (Ty.ofCode (f.mod % 16)).bind fun dt => (Ty.ofCode (f.mod / 16 % 16)).map fun st => .upk16 f.h dt st f.d f.a f.b
  | 4 => some (.qnt f.h f.d f.a f.b f.c)
  | 5 => (Ty.ofCode (f.mod % 16)).map fun dt => .dqnt f.h dt f.d f.a f.b f.c
  | 6 => some (.bpt f.h f.d f.a f.b)
  | 7 => some (.bpr f.h f.d f.a f.b f.c)
  | 8 => some (.olst f.h f.d f.a f.b f.c)
  | _ => none

/-- Operations of class SFU (Table 3-5, Table 3-8). -/
def decodeSfu (f : Fields) : Nat → Option Instr
  | 0 => (FFmt.ofCode (f.mod / 4 % 4)).map fun m => .rcps f.h m (f.mod.testBit 4) f.d f.a
  | 1 => (FFmt.ofCode (f.mod / 4 % 4)).map fun m => .rsqs f.h m (f.mod.testBit 4) f.d f.a
  | 2 => (FFmt.ofCode (f.mod / 4 % 4)).map fun m => .ex2 f.h m (f.mod.testBit 4) f.d f.a
  | 3 => (FFmt.ofCode (f.mod / 4 % 4)).map fun m => .lg2 f.h m (f.mod.testBit 4) f.d f.a
  | 4 => (FFmt.ofCode (f.mod / 4 % 4)).map fun m => .sinp f.h m (f.mod.testBit 4) f.d f.a
  | 5 => (FFmt.ofCode (f.mod / 4 % 4)).map fun m => .cosp f.h m (f.mod.testBit 4) f.d f.a
  | 6 => (FFmt.ofCode (f.mod / 4 % 4)).map fun m => .tnh f.h m (f.mod.testBit 4) f.d f.a
  | _ => none

/-- Operations of class XLN (Table 3-5, Table 3-8). -/
def decodeXln (f : Fields) : Nat → Option Instr
  | 0 => (Ty.ofCode (f.mod % 16)).map fun ty => .perm f.h ty f.d f.a f.b
  | 1 => (Run.ofCode (f.mod / 128)).bind fun run => (ShflOp.ofCode (f.mod / 16 % 8)).bind fun op => (Ty.ofCode (f.mod % 16)).map fun ty => .shfl f.h op run ty f.d f.a f.b
  | 2 => (Run.ofCode (f.mod / 128)).bind fun run => (Ty.ofCode (f.mod % 16)).map fun ty => .bcst f.h run ty f.d f.a f.b
  | 3 => (Run.ofCode (f.mod / 128)).bind fun run => (PollOp.ofCode (f.mod / 16 % 8)).map fun op => .poll f.h op run f.d f.a
  | 4 => (Run.ofCode (f.mod / 128)).bind fun run => (RedOp.ofCode (f.mod / 16 % 8)).bind fun op => (Ty.ofCode (f.mod % 16)).map fun ty => .red f.h op run ty f.d f.a
  | 5 => (Run.ofCode (f.mod / 128)).bind fun run => (RedOp.ofCode (f.mod / 16 % 8)).bind fun op => (Ty.ofCode (f.mod % 16)).map fun ty => .scan f.h op run ty f.d f.a
  | 6 => (Run.ofCode (f.mod / 128)).bind fun run => (Ty.ofCode (f.mod % 16)).map fun ty => .mcnt f.h (f.mod.testBit 4) run ty f.d f.a
  | 7 => (Run.ofCode (f.mod / 128)).bind fun run => (Ty.ofCode (f.mod % 16)).map fun ty => .cmpt f.h run ty f.d f.a f.b
  | 8 => (Ty.ofCode (f.mod % 16)).map fun ty => .l2k f.h ty f.d f.a f.b
  | 9 => (Run.ofCode (f.mod / 128)).bind fun run => (SrtOp.ofCode (f.mod / 16 % 8)).bind fun op => (Ty.ofCode (f.mod % 16)).map fun ty => .srt f.h op run ty f.d f.a
  | _ => none

/-- Operations of class CTL (Table 3-5, Table 3-8). -/
def decodeCtl (f : Fields) : Nat → Option Instr
  | 0 => some (.bra f.h f.target)
  | 1 => some (.brx f.h f.a)
  | 2 => some (.call f.h f.d f.target)
  | 3 => some (.ret f.h f.a)
  | 4 => some (.enrol f.h (.ofNat 3 f.mod))
  | 5 => some (.join f.h (.ofNat 3 f.mod))
  | 6 => some (.exit f.h)
  | 7 => some (.width f.h f.d f.a)
  | 8 => some (.yield f.h)
  | 9 => some (.nop f.h)
  | 10 => some (.trap f.h f.a)
  | 11 => some (.lp f.h f.d f.target)
  | 12 => some (.brk f.h f.a)
  | _ => none

/-- Operations of class MEM (Table 3-5, Table 3-8). -/
def decodeMem (f : Fields) : Nat → Option Instr
  | 0 => (Size.ofCode (f.mod % 8)).map fun sz => .ld f.h sz (f.mod.testBit 3) f.d f.a f.b
  | 1 => (Size.ofCode (f.mod % 8)).map fun sz => .st f.h sz (.ofNat 3 (f.mod / 16)) f.a f.b f.c
  | 2 => (Size.ofCode (f.mod % 8)).map fun sz => .lds f.h sz (f.mod.testBit 3) f.d f.a f.b
  | 3 => (Size.ofCode (f.mod % 8)).map fun sz => .sts f.h sz (.ofNat 3 (f.mod / 16)) f.a f.b f.c
  | 4 => (Size.ofCode (f.mod % 8)).map fun sz => .ldc f.h sz (f.mod.testBit 3) f.d f.a f.b
  | 5 => (Size.ofCode (f.mod % 8)).map fun sz => .stc f.h sz (.ofNat 3 (f.mod / 16)) f.a f.b f.c
  | 6 => (Size.ofCode (f.mod % 8)).map fun sz => .ldx f.h sz (f.mod.testBit 3) f.d f.a f.b
  | 7 => (Size.ofCode (f.mod % 8)).map fun sz => .stx f.h sz (.ofNat 3 (f.mod / 16)) f.a f.b f.c
  | 8 => (Size.ofCode (f.mod % 8)).map fun sz => .ldk f.h sz (f.mod.testBit 3) f.d f.a f.b
  | 9 => (Size.ofCode (f.mod % 8)).map fun sz => .stk f.h sz (.ofNat 3 (f.mod / 16)) f.a f.b f.c
  | 10 => some (.prf f.h f.a f.b)
  | _ => none

/-- Operations of class TAG (Table 3-5, Table 3-8). -/
def decodeTag (f : Fields) : Nat → Option Instr
  | 0 => some (.tlk f.h f.d f.a)
  | 1 => some (.tset f.h (f.mod.testBit 0) f.a f.b)
  | 2 => some (.tinv f.h f.a)
  | 3 => some (.tlck f.h f.a)
  | 4 => some (.tulk f.h f.a)
  | 5 => some (.prsq f.h f.d f.a)
  | 6 => some (.prsc f.h (f.mod.testBit 0) f.a f.b)
  | _ => none

/-- Operations of class OPQ (Table 3-5, Table 3-8). -/
def decodeOpq (f : Fields) : Nat → Option Instr
  | 0 => (Opr.ofCode (f.mod % 32)).map fun op => .ops f.h op (.ofNat 3 (f.mod / 64)) f.a f.b f.c
  | 1 => (Opr.ofCode (f.mod % 32)).map fun op => .opf f.h op (.ofNat 3 (f.mod / 64)) f.d f.a f.b f.c
  | 2 => some (.ocas f.h (.ofNat 3 (f.mod / 64)) f.d f.a f.b f.c)
  | 3 => (Opr.ofCode (f.mod % 32)).map fun op => .sat f.h op (.ofNat 3 (f.mod / 64)) f.d f.a f.b (if op == .cas then some f.c else none)
  | 4 => some (.txb f.h f.d f.a)
  | 5 => some (.txs f.h (.ofNat 3 (f.mod / 64)) f.a f.b f.c)
  | 6 => some (.txc f.h f.d f.a)
  | 7 => some (.txa f.h f.a)
  | 8 => some (.ewk f.h f.a f.b)
  | _ => none

/-- Operations of class SYN (Table 3-5, Table 3-8). -/
def decodeSyn (f : Fields) : Nat → Option Instr
  | 0 => (Scope.ofCode (f.mod % 8)).map fun sc => .fnc f.h ⟨f.mod.testBit 3, f.mod.testBit 4, f.mod.testBit 5⟩ sc f.a
  | 1 => some (.ofnc f.h)
  | 2 => (Ctr.ofCode (f.mod / 64)).map fun c => .wt f.h c f.a
  | 3 => some (.bari f.h f.a f.b)
  | 4 => some (.bara f.h f.d f.a f.b)
  | 5 => some (.barw f.h (f.mod.testBit 6) f.d f.a f.b)
  | 6 => some (.bard f.h f.d f.a f.b)
  | 7 => (WflCond.ofCode (f.mod / 64)).map fun c => .wfl f.h c f.d f.a f.b
  | 8 => (Scope.ofCode (f.mod % 8)).map fun sc => .phs f.h (f.mod.testBit 6) sc
  | _ => none

/-- Operations of class MTX (Table 3-5, Table 3-8). -/
def decodeMtx (f : Fields) : Nat → Option Instr
  | 0 => some (.aalc f.h f.d f.a)
  | 1 => some (.afre f.h f.a)
  | 2 => some (.mlds f.h (f.mod.testBit 6) f.a f.b f.c)
  | 3 => some (.mswp f.h f.a)
  | 4 => (Ty.ofCode (f.mod % 16)).map fun ty => .mstr f.h ⟨f.mod.testBit 6, f.mod.testBit 5, f.mod.testBit 4⟩ ty f.a f.b f.c
  | 5 => (Ty.ofCode (f.mod % 16)).map fun ty => .mlp f.h ⟨f.mod.testBit 6, f.mod.testBit 5, f.mod.testBit 4⟩ ty f.a f.b
  | 6 => (Ty.ofCode (f.mod % 16)).map fun ty => .macr f.h ty f.d f.a f.b (if ty == .n32 then none else some f.c)
  | 7 => some (.macw f.h f.a f.b f.c)
  | 8 => some (.mzro f.h f.a f.b)
  | _ => none

/-- Operations of class CPY (Table 3-5, Table 3-8). -/
def decodeCpy (f : Fields) : Nat → Option Instr
  | 0 => some (.shp f.h (.ofNat 5 f.mod) f.a f.b)
  | 1 => some (.cpy f.h (.ofNat 5 f.mod) f.a f.b f.c)
  | 2 => some (.cpx f.h (.ofNat 5 f.mod) f.a f.b f.c)
  | 3 => some (.cpc f.h (.ofNat 5 f.mod) f.d f.a f.b)
  | 4 => some (.cpq f.h (.ofNat 5 f.mod) f.d)
  | _ => none

/-- Operations of class TBL (Table 3-5, Table 3-8). -/
def decodeTbl (f : Fields) : Nat → Option Instr
  | 0 => some (.algl f.h (.ofNat 3 f.mod) f.a)
  | 1 => some (.algq f.h (.ofNat 3 f.mod) f.d f.a)
  | 2 => some (.cmpl f.h (.ofNat 3 f.mod) f.a)
  | 3 => some (.rgi f.h f.d f.a f.b)
  | 4 => some (.rgr f.h f.a)
  | 5 => some (.tlbi f.h (if f.mod == 0 then some f.a else none))
  | _ => none

/-- Operations of class BRD (Table 3-5, Table 3-8). -/
def decodeBrd (f : Fields) : Nat → Option Instr
  | 0 => (Kind.ofCode (f.mod % 16)).map fun kd => .bnew f.h kd f.d f.a
  | 1 => if f.mod % 16 == 0 then some (.bres f.h none f.d f.a f.c) else (Kind.ofCode (f.mod % 16)).map fun kd => .bres f.h (some kd) f.d f.a f.c
  | 2 => some (.bcas f.h f.d f.a f.b f.c)
  | 3 => some (.bkil f.h f.a)
  | 4 => some (.bshd f.h)
  | 5 => some (.bref f.h f.a)
  | 6 => some (.bdrp f.h f.a)
  | _ => none

/-- Operations of class CNT (Table 3-5, Table 3-8). -/
def decodeCnt (f : Fields) : Nat → Option Instr
  | 0 => some (.rnd f.h (.ofNat 6 f.mod) f.d f.a)
  | 1 => some (.rndu f.h (.ofNat 6 f.mod) f.d f.a)
  | 2 => some (.rsal f.h (.ofNat 6 f.mod) f.a)
  | 3 => some (.rsfr f.h (.ofNat 6 f.mod))
  | 4 => some (.pcr f.h f.d f.a)
  | 5 => some (.lgm f.h f.a)
  | _ => none

/-- Operations of class SYS (Table 3-5, Table 3-8). -/
def decodeSys (f : Fields) : Nat → Option Instr
  | 0 => some (.trt f.h)
  | 1 => some (.icinv f.h f.a f.b)
  | 2 => some (.sysr f.h f.d f.a)
  | 3 => some (.sysw f.h f.a f.b)
  | 4 => some (.lnch f.h f.d f.a f.b)
  | 5 => some (.hlt f.h)
  | _ => none

/-- The instruction that a word's opcode and fields name; none for an unassigned operation or an unlisted code. -/
def decodeFields (f : Fields) : Option Instr :=
  match f.opc / 64 with
  | 0 => decodeInt f (f.opc % 64)
  | 1 => decodeFp f (f.opc % 64)
  | 2 => decodeCvt f (f.opc % 64)
  | 3 => decodeSfu f (f.opc % 64)
  | 4 => decodeXln f (f.opc % 64)
  | 5 => decodeCtl f (f.opc % 64)
  | 6 => decodeMem f (f.opc % 64)
  | 7 => decodeTag f (f.opc % 64)
  | 8 => decodeOpq f (f.opc % 64)
  | 9 => decodeSyn f (f.opc % 64)
  | 10 => decodeMtx f (f.opc % 64)
  | 11 => decodeCpy f (f.opc % 64)
  | 12 => decodeTbl f (f.opc % 64)
  | 13 => decodeBrd f (f.opc % 64)
  | 14 => decodeCnt f (f.opc % 64)
  | 15 => decodeSys f (f.opc % 64)
  | _ => none

/-- Operations assigned in each class (Table 3-5): class 0 begins at 1. -/
def assigned (opc : Nat) : Bool :=
  let n := opc % 64
  match opc / 64 with
  | 0 => 1 ≤ n && n ≤ 26
  | 1 => n ≤ 12
  | 2 => n ≤ 8
  | 3 => n ≤ 6
  | 4 => n ≤ 9
  | 5 => n ≤ 12
  | 6 => n ≤ 10
  | 7 => n ≤ 6
  | 8 => n ≤ 8
  | 9 => n ≤ 8
  | 10 => n ≤ 8
  | 11 => n ≤ 4
  | 12 => n ≤ 5
  | 13 => n ≤ 6
  | 14 => n ≤ 5
  | 15 => n ≤ 5
  | _ => false

/-- The words of an instruction; an event has none. -/
def encode (i : Instr) : Option Code := (formOf i).map Form.bits

/-- Which field of a word differs from the encoding of the instruction it seems to name: a reserved or unused bit
of that field is set (R58, R59, R73). -/
def strayField (w e : Code) : NotInstr :=
  if w.extractLsb' 72 10 != e.extractLsb' 72 10 then .hints
  else if w.extractLsb' 48 14 != e.extractLsb' 48 14 then .dest
  else if w.extractLsb' 62 10 != e.extractLsb' 62 10 then .modField
  else .source

/-- The instruction a word encodes, or why it encodes none (R54 to R62, R70 to R73, R75). -/
def decode (w : Code) : Except NotInstr Instr :=
  let f := fieldsOf w
  if f.opc == 0 then .error .zeroOpcode
  else if !assigned f.opc then .error .unassigned
  else
    match decodeFields f with
    | none => .error .modField
    | some i =>
      match formOf i with
      | none => .error .unassigned
      | some fm =>
        match fm.check with
        | some why => .error why
        | none => if fm.bits == w then .ok i else .error (strayField w fm.bits)

/-- The instruction read from a word of the opcode table's numbering: the whole 96-bit word, its bits above
`nbits` zero. -/
def decodeTableWord (nbits w : Nat) : Option Instr :=
  match decode (BitVec.ofNat 96 (w % 2 ^ nbits)) with
  | .ok i => some i
  | .error _ => none

end Sys2Proof
end

