-- ==== Sys2Proof/Machine/Issue.lean ====
section
/-! DEFINITION. Which group issues next, which words, and how a word is fetched and decoded (R32 to R36, R57, R65 to R69,
R74). -/

namespace Sys2Proof.Machine

/-! ### Choosing a group -/

/-- Whether a lane of a group may issue: while a `cmpl` waits, only its lanes do (R350). -/
def Group.mayIssue (g : Group) (j : Nat) : Bool := (g.lane j).issues && (match g.behind with | some w => w.lanes.contains j | none => true)

/-- The lanes of a group that could issue. -/
def Group.issuing (g : Group) : List Nat := (List.range g.lanes.length).filter g.mayIssue

/-- Whether a group has an instruction to issue: its team is resident and its context runs, it waits for nothing, a lane is active, its
island's clock has settled (R8), and no change of a record that it has made must still be met by a resolve that a log names (R366, R407). -/
def State.hasWord (s : State) (t : Team) (g : Group) : Bool :=
  t.st == .resident && ((s.ctx? t.ctx).map Context.runs).getD false && g.wait.isNone && !g.issuing.isEmpty
    && !(s.islands.getD (islandOf t.core) Island.reset).settling && !(s.pasts.any fun p => p.tid == t.tid && p.gix == g.gix && s.awaited p.brand)

/-- Whether it can issue now: it did not just find that it must wait. -/
def State.canIssue (s : State) (t : Team) (g : Group) : Bool := s.hasWord t g && !s.stalled.contains (t.tid, g.gix)

/-- The groups that can issue, with their teams. -/
def State.candidates (s : State) : List (Team × Group) := s.teams.flatMap fun t => (t.groups.filter fun g => s.canIssue t g).map fun g => (t, g)

/-- Whether a lane waits for the service of a fault, or for its group's handler or release: a trap is an exception of R57. -/
def Lane.trapped (l : Lane) : Bool :=
  l.held || l.halted || (match l.st with | .parked (.buffer _ _ _ _ _) => true | .parked (.heldFault _ _ _) => true | _ => false)

/-- The groups whose HOLD chain keeps the slices of their octets (R57): whatever else they wait for, those with a lane that has a next instruction. -/
def State.holders (s : State) : List (Team × Group) :=
  s.teams.flatMap fun t =>
    (t.groups.filter fun g =>
      0 < g.chain && t.st == .resident && ((s.ctx? t.ctx).map Context.runs).getD false && !(g.lanesWhere fun l => l.live && !l.trapped).isEmpty).map fun g => (t, g)

def shareSlice (a b : Team × Group) : Bool := a.1.core == b.1.core && a.2.octets.any fun o => b.2.octets.any fun p => p.slice == o.slice
def sameGroup (a b : Team × Group) : Bool := a.1.tid == b.1.tid && a.2.gix == b.2.gix

/-- Whether a HOLD chain of another group keeps a group from issuing (R57).
DESIGN CHOICE (log 30; safe). -/
def State.keptBack (s : State) (a : Team × Group) : Bool := s.holders.any fun b => !sameGroup a b && shareSlice a b && a.2.chain == 0

/-- The group that must issue next, where it can: a HOLD chain defers its claim (R36). -/
def State.urgentNow (s : State) : Option (Team × Group) :=
  s.urgent.bind fun u => s.candidates.find? fun a => (a.1.tid, a.2.gix) == u && !s.keptBack a

/-- The groups from which the next issue is taken, of those that no HOLD chain keeps back (R57): one that must issue next (R36); else those that no yield
(R179) keeps back. A yield may also have lasted 64 cycles.
DESIGN CHOICE (log 13, 30; safe). -/
def State.ready (s : State) : List (Team × Group) × State :=
  match s.urgentNow with
  | some a => ([a], s)
  | none =>
    let free := s.candidates.filter fun a => !s.keptBack a
    let kept := free.filter fun a => !(free.any fun b => a.2.yieldTo.contains (b.1.tid, b.2.gix))
    if kept.length == free.length then (free, s)
    else
      let (ended, s) := s.freeBool
      (if ended || kept.isEmpty then free else kept, s)

/-- The group that issues next; a free choice where several may.
DESIGN CHOICE (log 13; safe). -/
def State.pick (s : State) : Option (Team × Group) × State :=
  match s.ready with
  | ([], s) => (none, s)
  | ([a], s) => (some a, s)
  | (as, s) => let (n, s) := s.freeNat; (as[n % as.length]?, s)

/-! ### Choosing the words (R33) -/

/-- The PC of a list of lanes that the most of them hold; among equals the lowest. -/
def topPc (pcs : List Dword) : Option Dword :=
  pcs.foldl (fun best pc =>
    match best with
    | none => some pc
    | some b =>
      let n := pcs.count pc
      let m := pcs.count b
      if m < n || (n == m && pc.toNat < b.toNat) then some pc else some b) none

/-- The lanes of a group that could issue at a PC. -/
def Group.lanesAt (g : Group) (pc : Dword) : List Nat := g.issuing.filter fun j => (g.lane j).pc == pc

/-- The PCs of the lanes that could issue, but for one. -/
def Group.pcsBut (g : Group) (but : Option Dword) : List Dword := (g.issuing.map fun j => (g.lane j).pc).filter fun pc => some pc != but

/-- An issue slot for a group: its lanes at `pa` issue word A, those at `pb` word B. Names from `born` on are of the slot.
DEDUCED (log 26; unsafe). -/
def slotAt (born : Nat) (t : Team) (g : Group) (pa : Dword) (pb : Option Dword) : Slot :=
  { tid := t.tid, gix := g.gix, pc := pa, word := 0, lanes := g.lanesAt pa, next := pa, pre := g.lanes, other := pb.map fun pc => (pc, g.lanesAt pc)
    second := false, trap := none, aFault := false, born := born }

/-- The slot of a group that has the cycle to itself: the two PCs that most of its lanes hold (R33).
DEDUCED (log 26; unsafe). -/
def openSlot (born : Nat) (t : Team) (g : Group) : Option Slot :=
  (topPc (g.pcsBut none)).map fun pa => slotAt born t g pa (topPc (g.pcsBut (some pa)))

/-- The lanes that a slot issues. -/
def Slot.allLanes (sl : Slot) : List Nat := sl.lanes ++ ((sl.other.map (·.2)).getD [])

/-- A group that issues is no longer waited for by a group that yielded to it (R179), and the changes of records that it has made are complete (R366). -/
def State.issuesNow (s : State) (tid gix : Nat) : State :=
  { s.changed fun p => p.tid == tid && p.gix == gix with teams := s.teams.map fun t => { t with groups := t.groups.map fun g =>
      if g.yieldTo.isEmpty then g else { g with yieldTo := if t.tid == tid && g.gix == gix then [] else g.yieldTo.filter (· != (tid, gix)) } } }

/-! ### Packing (R34) -/

/-- The kernel that a team runs: its context and its kernel's brand. -/
def State.kernelName (s : State) (t : Team) : Nat × Brand := (t.ctx, ((s.launch? t.lid).map (·.pkt.brand)).getD 0)

/-- The slices of the octets of some lanes of a group. -/
def Group.slicesOf (g : Group) (lanes : List Nat) : List Nat := ((g.octets.zipIdx.filter fun o => lanes.any fun j => j / 8 == o.2).map (·.1.slice)).eraseDups

/-- The slot with which a group joins a cycle: its lanes at the cycle's word A share it, those at word B, or at a further PC while word B is not in use, take
that; its octets lie in slices that the cycle does not use (R34). -/
def Cycle.join (cy : Cycle) (born : Nat) (kern : Nat × Brand) (t : Team) (g : Group) : Option (Slot × Cycle) :=
  let pa := if cy.a.1 == kern then some cy.a.2 else none
  let pb := match cy.b with
    | some b => if b.1 == kern then some b.2 else none
    | none => topPc (g.pcsBut pa)
  let a := (pa.map g.lanesAt).getD []
  let b := (pb.map g.lanesAt).getD []
  let slices := g.slicesOf (a ++ b)
  if cy.core != t.core || cy.groups.contains (t.tid, g.gix) || (a.isEmpty && b.isEmpty) || slices.any cy.slices.contains then none
  else
    let sl := if a.isEmpty then slotAt born t g (pb.getD 0) none else slotAt born t g (pa.getD 0) (if b.isEmpty then none else pb)
    some (sl, { cy with b := cy.b.orElse fun _ => if b.isEmpty then none else pb.map fun pc => (kern, pc)
                        groups := cy.groups ++ [(t.tid, g.gix)], slices := cy.slices ++ slices, lanes := [] })

/-- The PCs that other groups could issue as word B of a cycle whose word A is of some lanes of a group (R34). -/
def State.lendTo (s : State) (t : Team) (g : Group) (pa : Dword) : List ((Nat × Brand) × Dword) :=
  (s.candidates.filter fun b => b.1.core == t.core && !sameGroup (t, g) b && !s.keptBack b).filterMap fun b =>
    let kern := s.kernelName b.1
    (topPc (b.2.pcsBut (if kern == s.kernelName t then some pa else none))).bind fun pc =>
      if (b.2.slicesOf (b.2.lanesAt pc)).any (g.slicesOf (g.lanesAt pa)).contains then none else some (kern, pc)

/-- A new cycle for a group. Word B is for its own second PC, or for a PC of another group that is packed with it: which is free (R34).
DESIGN CHOICE (log 13; safe). -/
def State.newCycle (s : State) (t : Team) (g : Group) : Option (Slot × Cycle) × State :=
  match openSlot s.nextId t g with
  | none => (none, s)
  | some sl =>
    let lend := s.lendTo t g sl.pc
    let (n, s) := if lend.isEmpty then (0, s) else s.freeNat
    let kern := s.kernelName t
    let cycle (sl : Slot) (b : Option ((Nat × Brand) × Dword)) : Cycle :=
      { core := t.core, a := (kern, sl.pc), b := b, groups := [(t.tid, g.gix)], slices := g.slicesOf sl.allLanes, lanes := [], passes := 0 }
    match lend[n % (lend.length + 1)]? with
    | some b => let sl := { sl with other := none }; (some (sl, cycle sl (some b)), s)
    | none => (some (sl, cycle sl (sl.other.map fun o => (kern, o.1))), s)

/-- The slot in which a group issues: packed into the cycle of the last slot, where it can be and a free bit says so, or in a cycle of its own.
DESIGN CHOICE (log 13; safe). -/
def State.slotFor (s : State) (t : Team) (g : Group) : Option (Slot × Cycle) × State :=
  match s.cycle.bind fun cy => cy.join s.nextId (s.kernelName t) t g with
  | none => s.newCycle t g
  | some j => let (packed, s) := s.freeBool; if packed then (some j, s) else s.newCycle t g

/-- An open PC, now that its line can be fetched (R67).
DEDUCED (log 27; unsafe). -/
def State.landPc (s : State) (core : Nat) (c : Context) (ahead : Option Snap) (pc : Dword) : Dword × State :=
  if !pcOpen pc then (pc, s)
  else
    match s.fetchLine core c ahead (pcLine pc) with
    | (.line bits, s) => (landed pc bits, s)
    | (.flt _, s) => (pc, s)

/-- The lanes of a group that stand at open PCs stand at the slots that those name, where their lines can be fetched now: a line without a valid slot above
sends them to the next.
DEDUCED (log 27; unsafe). -/
def State.land (s : State) (t : Team) (g : Group) : State :=
  match s.ctx? t.ctx with
  | none => s
  | some c =>
    ((g.pcsBut none).filter pcOpen).eraseDups.foldl (fun s0 pc =>
      let (mid, s) := s0.landPc t.core c g.ahead pc
      let (dest, s) := s.landPc t.core c g.ahead mid
      if s.blocked then s0 else s.modGroup t.tid g.gix fun g => g.eachLane (g.lanesAt pc) fun l => { l with pc := dest }) s

/-- The state in which the next group opens its slot, if any group can issue.
DESIGN CHOICE (log 13; safe). -/
def State.openNext (s : State) : Option State :=
  match s.pick with
  | (some (t, g), s) =>
    let s := s.land t g
    match s.slotFor t ((s.group? t.tid g.gix).getD g) with
    | (some (sl, cy), s) => some { (s.issuesNow t.tid g.gix) with slot := some sl, cycle := some cy }
    | (none, _) => none
  | (none, _) => none

/-! ### Fetching and decoding -/

/-- The sequential successor of a PC in a line (R67). Where the next line cannot be fetched, or has no valid slot, it is open.
DEDUCED (log 27; unsafe). -/
def State.successor (s : State) (core : Nat) (c : Context) (ahead : Option Snap) (pc : Dword) (line : BitVec 1024) : Dword × State :=
  match validFrom line (pcSlot pc + 1) with
  | some i => (BitVec.ofNat 64 (pcLine pc + i), s)
  | none => s.landPc core c ahead (openPc (pcLine pc + 128) 0)

/-- A word begun: an instruction or a non-instruction encoding to run, or a fetch that faulted. -/
inductive Begun where
  | run (i : Instr) (s : State)
  | ended (s : State)
  deriving DecidableEq, Repr

/-- The issue of a word by lanes without regard to guards: for faults of the fetch and of the encoding (R55, R75). -/
def fetchIssue (sl : Slot) (t : Team) (g : Group) (c : Context) : Issue :=
  { tid := sl.tid, gix := sl.gix, core := t.core, hold := false, lanes := sl.lanes, act := sl.lanes, pc := sl.pc, next := sl.next, word := sl.word
    team := t, g := g, c := c, pre := sl.pre }

/-- Every lane that fetches raises a fault (R68, R69). Its latches are those with which its next instruction begins (R64).
DEDUCED (log 28; unsafe). -/
def State.fetchFault (s : State) (sl : Slot) (t : Team) (g : Group) (c : Context) (f : Flt) : State :=
  let x := fetchIssue sl t g c
  let s := s.modGroup sl.tid sl.gix fun g => g.eachLane sl.lanes Lane.atIssue
  finish x { s := { s with slot := some sl }, faults := x.all f }

/-- Lanes of a slot that stood at an open PC stand at the slot that it names, now that the line is known (R67). -/
def State.landOn (s : State) (sl : Slot) (pc : Dword) : State :=
  s.modGroup sl.tid sl.gix fun g => g.eachLane sl.lanes fun l => { l with pc := pc }

/-- Fetch and decode the word of the slot (R65 to R68, R75). A PC that names no valid slot fails the fetch; the successor of one whose line could not be
fetched is open (R292).
DEDUCED (log 27; unsafe). -/
def State.beginWord (s : State) : Begun :=
  match s.issue? with
  | none => .ended { s with slot := none }
  | some (sl, t, g, c) =>
    let lost : Slot := { sl with next := afterPc (shownPc sl.pc) }
    if !pcOk (shownPc sl.pc) then .run (.nonInstructionEncoding .header) { s with slot := some lost }
    else
      match s.fetchLine t.core c g.ahead (pcLine sl.pc) with
      | (.flt f, s) => .ended (s.fetchFault lost t g c f)
      | (.line bits, s) =>
        let pc : Dword := if pcOpen sl.pc then landed sl.pc bits else sl.pc
        let s := if pc == sl.pc then s else s.landOn sl pc
        if pcOpen pc && pc != sl.pc then .ended (s.endWord false)
        else if !headerOk bits then .run (.nonInstructionEncoding .header) { s with slot := some { lost with pc := pc } }
        else
          let (next, s) := s.successor t.core c g.ahead pc bits
          if !slotValid bits (pcSlot pc) then .run (.nonInstructionEncoding .header) { s with slot := some { sl with pc := pc, next := next } }
          else
            let word := slotWord bits (pcSlot pc)
            let s := { s with slot := some { sl with pc := pc, word := word, next := next } }
            match decode word with
            | .ok i => .run i s
            | .error why => .run (.nonInstructionEncoding why) s

/-- Word B takes the slot (R33, R74).
DEDUCED (log 26; unsafe). -/
def State.secondWord (s : State) : State :=
  { s with slot := s.slot.bind fun sl => sl.other.map fun o => { sl with pc := o.1, next := o.1, word := 0, lanes := o.2, other := none, second := true } }

/-- A word that encodes no instruction raises ILL on every lane that issues it (R55, R75).
DEDUCED (log 27; unsafe). -/
def execNonInstructionEncoding (_why : NotInstr) (s : State) : Host.Outcome State Fault Refusal :=
  match s.issue? with
  | some (sl, t, g, c) => .next (ifBlocked s (s.fetchFault sl t g c (Flt.mk' Code.ill)) sl)
  | none => .fault .noIssue

/-- A group whose HOLD chain has reached 64 instructions (R36).
DESIGN CHOICE (log 30; safe). -/
def State.overdue (s : State) : Option (Nat × Nat) :=
  s.teams.findSome? fun t => (t.groups.find? fun g => 64 ≤ g.chain).map fun g => (t.tid, g.gix)

end Sys2Proof.Machine
end

