-- ==== Sys2Proof/Machine/CtlExec.lean ====
section
/-! DEFINITION. The instructions of class CTL (R168 to R179, R185) and the completion of `exit` and `width`. -/

namespace Sys2Proof.Machine

/-! ### Transfers (R69, R169 to R174) -/

/-- The PC that a branch field names (R61): the line of the branch plus a signed number of lines, and a slot.
DEDUCED (log 28; unsafe). -/
def targetPc (pc : Dword) (t : Target) : Dword :=
  BitVec.ofNat 64 (pcLine pc) + t.delta.signExtend 64 * 128 + t.slot.zeroExtend 64

/-- Check the entry of a PC (R66, R69): BTGT where it is malformed and computed, the fetch's own fault at the target
address, then BTGT for a slot without TARGET, or for a call to a slot other than 0.
DEDUCED (log 28; unsafe). -/
def State.checkTarget (s : State) (x : Issue) (pc : Dword) (computed call : Bool) : Option Flt × State :=
  if computed && !pcOk pc then (some (Flt.mk' Code.btgt), s)
  else
    match s.fetchLine x.core x.c x.g.ahead (pcLine pc) with
    | (.flt f, s) => (some { f with addr := pc }, s)
    | (.line bits, s) =>
      if !headerOk bits then (some (Flt.at' Code.ill pc), s)
      else if !slotTarget bits (pcSlot pc) || (call && pcSlot pc != 0) then (some (Flt.mk' Code.btgt), s)
      else (none, s)

/-- Send lanes to their targets; the lanes whose target fails stay.
DEDUCED (log 26; unsafe). -/
def transfer (x : Issue) (computed : Bool) (target : Nat → Dword) (s : State) : Res :=
  x.act.foldl (fun (r : Res) j =>
    match r.s.checkTarget x (target j) computed false with
    | (some f, s) => { r with s := s, faults := r.faults ++ [(j, f)] }
    | (none, s) => { r with s := s, jumps := r.jumps ++ [(j, target j)] }) { s := s }

def execBra (h : Hdr) (t : Target) (s : State) : Host.Outcome State Fault Refusal :=
  run (.bra h t) (fun x s =>
    if x.act.isEmpty then { s := s }
    else
      match s.checkTarget x (targetPc x.pc t) false false with
      | (some f, s) => { s := s, faults := x.all f }
      | (none, s) => { s := s, jumps := x.act.map fun j => (j, targetPc x.pc t) }) s

def execBrx (h : Hdr) (a : Src) (s : State) : Host.Outcome State Fault Refusal :=
  run (.brx h a) (fun x s => transfer x true (fun j => x.w64 a j) s) s

/-- The check of the target of a `call` on every lane of act. -/
def callCheck (x : Issue) (t : Target) (s : State) : Option Flt × State := s.checkTarget x (targetPc x.pc t) false true

/-- Whether the link register of a `call` is above the budget (R20). -/
def callOver (h : Hdr) (d : Dst) (t : Target) (s : State) : Bool :=
  match formOf (.call h d t), s.issue? with
  | some fm, some (_, _, g, _) => (formV fm).any (g.budget ≤ ·)
  | _, _ => false

/-- A call (R171). The checks of its target come before PROT of a link register above the budget (R76): such a word is run as the `bra` that it is but for
that register, and faults. -/
def execCall (h : Hdr) (d : Dst) (t : Target) (s : State) : Host.Outcome State Fault Refusal :=
  if callOver h d t s then
    run (.bra h t) (fun x s =>
      if x.act.isEmpty then { s := s }
      else let r := callCheck x t s; { s := r.2, faults := x.all (r.1.getD (Flt.mk' Code.prot)) }) s
  else
    run (.call h d t) (fun x s =>
      if x.act.isEmpty then { s := s }
      else
        match callCheck x t s with
        | (some f, s) => { s := s, faults := x.all f }
        | (none, s) => { s := s.put x d (x.act.map fun j => (j, shownPc x.next)), jumps := x.act.map fun j => (j, targetPc x.pc t) }) s

def execRet (h : Hdr) (a : Src) (s : State) : Host.Outcome State Fault Refusal :=
  run (.ret h a) (fun x s => transfer x true (fun j => x.w64 a j) s) s

/-- The counted loop (R174): its target is checked only where it is taken, and BTGT leaves kC unchanged. -/
def execLp (h : Hdr) (d : Dst) (t : Target) (s : State) : Host.Outcome State Fault Refusal :=
  run (.lp h d t) (fun x s =>
    match d with
    | .k n _ =>
      let c := Cells.get x.g.k n.toNat
      let count (s : State) : State := s.put x d (x.act.map fun j => (j, (c - 1).zeroExtend 64))
      if x.act.isEmpty || c == 0 then { s := s }
      else if c == 1 then { s := count s }
      else
        match s.checkTarget x (targetPc x.pc t) false false with
        | (some f, s) => { s := s, faults := x.all f }
        | (none, s) => { s := count s, jumps := x.act.map fun j => (j, targetPc x.pc t) }
    | _ => { s := s }) s

/-! ### Rejoin and exit (R175 to R177) -/

def execEnrol (h : Hdr) (m : BitVec 3) (s : State) : Host.Outcome State Fault Refusal :=
  run (.enrol h m) (fun x s =>
    { s := s.modIssue x fun g => { g with j := Cells.set g.j m.toNat (Cells.get g.j m.toNat ||| laneMask x.act) } }) s

def execJoin (h : Hdr) (m : BitVec 3) (s : State) : Host.Outcome State Fault Refusal :=
  run (.join h m) (fun x s =>
    let mine := x.act.filter fun j => (Cells.get x.g.j m.toNat).getLsbD j
    { s := s.modIssue x fun g => (g.eachLane mine fun l => l.park (.join m.toNat x.next)).release m.toNat, stay := mine }) s

/-- Whether a load or fetching operator still owes a lane's registers a value (R177). -/
def State.owes (s : State) (tid gix lane : Nat) : Bool :=
  s.accs.any fun a => a.tid == tid && a.gix == gix && a.lanes.contains lane && (a.kind.isLoad || a.kind.isFetch) &&
    (match a.d with | .v _ _ => true | _ => false)

def execExit (h : Hdr) (s : State) : Host.Outcome State Fault Refusal :=
  run (.exit h) (fun x s =>
    let late := x.act.filter fun j => s.owes x.tid x.gix j
    let s := s.parkLanes x.tid x.gix late .exiting
    { s := s.exitLanes x.tid x.gix (x.act.filter fun j => !late.contains j), stay := x.act }) s

/-- A group that has no live lane left counts as retired (R53, R293). -/
def State.retired (s : State) (tid gix : Nat) : State :=
  match s.team? tid, s.group? tid gix with
  | some t, some g => if g.lanes.all fun l => !l.live then s.tick t.ctx else s
  | _, _ => s

/-- The event of R177: the last outstanding result of a lane parked at `exit` is in, and it exits. Where it is the last of its group the group retires, which is
progress (R293). -/
def onLaneExitComplete (tid gix lane : Nat) (s : State) : Option State :=
  match s.lane? tid gix lane with
  | some l => if l.st == .parked .exiting && !s.owes tid gix lane then some ((s.exitLanes tid gix [lane]).retired tid gix) else none
  | none => none

def execLaneExitComplete (tid gix lane : Nat) (s : State) : Host.Outcome State Fault Refusal := s.occurs (onLaneExitComplete tid gix lane s)

/-! ### width, yield, nop (R27 to R31, R178, R179) -/

/-- A lane as a widening adds it (R30). -/
def newLane (pc : Dword) : Lane :=
  { st := .active, pc := pc, v := [], p := 0, latches := List.replicate 4 ⟨0, false, none⟩, saved := List.replicate 4 ⟨0, false, none⟩
    lastHold := false, retry := false, held := false, woke := none, halted := false }

/-- The ranges of a core without those of a group, which its new grant places again. -/
def State.spansFor (s : State) (t : Team) (g : Group) : List (List Span) :=
  let own (p : Span) : Bool := match p.holder with | .octet n k _ => n == t.tid && k == g.gix | .lines _ => false
  (s.coreSpans t.core).map fun l => l.filter fun p => !own p

/-- The first `n` octets of a group that may stay where they lie: each the first of its slice. -/
def Group.staying (g : Group) (n : Nat) : List (Nat × Oct) :=
  (g.octets.zipIdx.filter fun o => o.2 < n && (g.octets.take o.2).all fun p => p.slice != o.1.slice).map fun o => (o.2, o.1)

/-- Octets of a group for a new grant: those that stay, and the others in slices of their own while there are any, then, where that is allowed, folded.
Gives what it has placed, by octet. -/
def regrantFrom (t : Team) (g : Group) (need : Nat) (fixed fold : Bool) : List Nat → List (Nat × Oct) × List (List Span) → List (Nat × Oct) × List (List Span)
  | [], w => w
  | k :: ks, w =>
    if w.1.any (·.1 == k) then regrantFrom t g need fixed fold ks w
    else
      let used (i : Nat) : Nat := (w.1.filter (·.2.slice == i)).length
      let order := if fold then sortBy used (List.range 8) else (List.range 8).filter fun i => used i == 0
      match holdFirst w.2 ⟨0, need, fixed, .octet t.tid g.gix k⟩ order with
      | some r => regrantFrom t g need fixed fold ks (w.1 ++ [(k, r.1)], r.2)
      | none => w

/-- The octets of a grant of up to `n`, and the core's ranges with them: as many as can be held from the first on.
DESIGN CHOICE (log 60; safe). -/
def State.regrantOn (s : State) (t : Team) (g : Group) (n : Nat) (fold : Bool) : List Oct × List Span :=
  let fixed := s.isFixed t.ctx
  let need := regAlloc fixed g.budget
  let stay := g.staying n
  let held := (s.spansFor t g).zipIdx.map fun p => p.1 ++ (stay.filter (·.2.slice == p.2)).map fun o => ⟨o.2.base, need, fixed, .octet t.tid g.gix o.1⟩
  let w := regrantFrom t g need fixed fold (List.range n) (stay, held)
  ((sortBy (·.1) w.1).map (·.2), w.2.flatten)

/-- How many octets a group could have, each in a slice of its own: the slices that hold one of its octets, or have room for one (R28). -/
def State.slicesFor (s : State) (t : Team) (g : Group) : Nat :=
  let fixed := s.isFixed t.ctx
  ((List.range 8).filter fun i => (holdIn (s.spansFor t g) i ⟨0, regAlloc fixed g.budget, fixed, .octet t.tid g.gix 0⟩).isSome).length

/-- The largest grant of up to `n` octets with each in a slice of its own; at least one octet (R28). -/
def State.octetsFor (s : State) (t : Team) (g : Group) (n : Nat) : List Oct × List Span :=
  s.regrantOn t g (max 1 (min n (s.slicesFor t g))) false

/-- Places for `n` octets, distinct where possible and folded otherwise; none where a slice has no room (R29).
DEDUCED (log 31; unsafe). -/
def State.foldedFor (s : State) (t : Team) (g : Group) (n : Nat) : Option (List Oct × List Span) :=
  let r := s.regrantOn t g n true
  if r.1.length < n then none else some r

/-- The group with a new grant (R30, R178): kD and the kept lanes' latches take it, new lanes start after the `width`.
DEDUCED (log 31; unsafe). -/
def Group.regrant (g : Group) (d : Dst) (octets : List Oct) (next : Dword) : Group :=
  let n := 8 * octets.length
  let kept := min g.grant n
  let gone := (List.range g.grant).filter (n ≤ ·)
  let g :=
    match d with
    | .k m pair => { (g.eachLane (List.range kept) fun l => l.pushVal pair (BitVec.ofNat 64 n)) with k := setReg g.k m.toNat pair (BitVec.ofNat 64 n) }
    | _ => g
  let g := { g with grant := n, grch := false, octets := octets, lanes := g.lanes.take n ++ List.replicate (n - kept) (newLane next) }
  (g.dropBits gone).releaseAll

/-- Results still owed to discarded lanes reach no register. -/
def State.orphan (s : State) (tid gix n : Nat) : State :=
  let mine (a : Acc) : Bool := a.tid == tid && a.gix == gix && (match a.d with | .k _ _ => false | _ => true)
  { s with accs := modWhere mine (fun a => if n ≤ a.lane then { a with d := .none } else { a with also := a.also.filter (· < n) }) s.accs }

/-- A group takes a new grant on a core whose ranges then lie as given. -/
def State.regrant (s : State) (core tid gix : Nat) (d : Dst) (os : List Oct × List Span) (next : Dword) : State :=
  ((s.modGroup tid gix fun g => g.regrant d os.1 next).relay core os.2).orphan tid gix (8 * os.1.length)

/-- Whether a group's grant must equal its request: deterministic launches and replay (R29). -/
def State.fixedWidth (s : State) (t : Team) (c : Context) : Bool := c.replay || ((s.launch? t.lid).map (·.pkt.det)).getD false

/-- The request of `width` in octets (R27). -/
def widthReq (a : Word) : Nat := max 1 ((a.toNat + 7) / 8)

/-- DEDUCED (log 31; unsafe). -/
def execWidth (h : Hdr) (d : Dst) (a : Src) (s : State) : Host.Outcome State Fault Refusal :=
  run (.width h d a) (fun x s =>
    if x.act.isEmpty then { s := s }
    else if x.g.lanesWhere Lane.live != x.act || 64 < (x.u32 a).toNat then { s := s, faults := x.all (Flt.mk' Code.width) }
    else
      let n := widthReq (x.u32 a)
      let move (os : List Oct × List Span) : Res := { s := s.regrant x.core x.tid x.gix d os x.next }
      if !s.fixedWidth x.team x.c then move (s.octetsFor x.team x.g n)
      else
        match s.foldedFor x.team x.g n with
        | some os => move os
        | none =>
          -- the wait for room is an instruction boundary: the lanes stand at the `width`
          let kn := match d with | .k m _ => m.toNat | _ => 0
          { s := s.modIssue x fun g => { g with wait := some (.width kn n) }, stay := x.act }) s

/-- Room frees for a `width` that waits in deterministic mode or under replay, and the grant is made (R29, R30).
DEDUCED (log 31; unsafe). -/
def onWidthRoomFreed (tid gix : Nat) (s : State) : Option State :=
  match s.team? tid, s.group? tid gix with
  | some t, some g =>
    match g.wait, s.ctx? t.ctx with
    | some (.width kn n), some c =>
      if t.st != .resident || !c.runs then none
      else
        match s.foldedFor t g n with
        | none => none
        | some os =>
          let pc := ((g.lanesWhere Lane.live).head?.map fun j => (g.lane j).pc).getD 0
          let found := s.fetchLine t.core c g.ahead (pcLine pc)
          let after := match found.1 with
            | .line bits => found.2.successor t.core c g.ahead pc bits
            | .flt _ => (afterPc pc, found.2)
          let hold := match found.1 with
            | .line bits => (slotWord bits (pcSlot pc)).getLsbD 75
            | .flt _ => false
          let s := after.2.regrant t.core tid gix (.k (BitVec.ofNat 6 kn) false) os after.1
          some (s.modGroup tid gix fun g =>
            { g with wait := none, lanes := g.lanes.map fun l => if l.live then { (l.issued hold) with pc := after.1 } else l })
    | _, _ => none
  | _, _ => none

def execWidthRoomFreed (tid gix : Nat) (s : State) : Host.Outcome State Fault Refusal := s.occurs (onWidthRoomFreed tid gix s)

def execNop (h : Hdr) (s : State) : Host.Outcome State Fault Refusal := run (.nop h) (fun _ s => { s := s }) s

/-- The ready groups that hold an octet on a slice of a group: they go first after a voluntary switch (R179). -/
def State.neighbours (s : State) (t : Team) (g : Group) : List (Nat × Nat) :=
  (s.candidates.filter fun b => shareSlice (t, g) b && !sameGroup (t, g) b).map fun b => (b.1.tid, b.2.gix)

/-- A voluntary switch (R179): the ready groups that share a slice go first.
DESIGN CHOICE (log 30; safe). -/
def execYield (h : Hdr) (s : State) : Host.Outcome State Fault Refusal :=
  run (.yield h) (fun x s =>
    { s := if x.act.isEmpty then s else s.modIssue x fun g => { g with yieldTo := s.neighbours x.team x.g } }) s

/-! ### Software traps (R185) -/

def execTrap (h : Hdr) (a : Src) (s : State) : Host.Outcome State Fault Refusal :=
  run (.trap h a) (fun x s => { s := s, faults := x.all { Flt.mk' Code.trap with num := a.immVal.toNat } }) s

def execBrk (h : Hdr) (a : Src) (s : State) : Host.Outcome State Fault Refusal :=
  run (.brk h a) (fun x s => { s := s, faults := x.all { Flt.mk' Code.brk with num := a.immVal.toNat } }) s

end Sys2Proof.Machine
end

