-- ==== Sys2Proof/Machine/FpExec.lean ====
section
/-! DEFINITION. The instructions of class FP (R129 to R137). -/

namespace Sys2Proof.Machine

/-- The bits of a floating-point source with its modifiers applied (R60, R61). -/
def Issue.fbits (x : Issue) (fm : FFmt) (f : Src) (j : Nat) : Nat := (x.val (Rd.ofFmt fm) f j).toNat

/-- An operation on the elements of two sources, read under ftz, rounded and clamped (R88, R90, R130, R132). -/
def fp2 (fm : FFmt) (ftz cl : Bool) (op : Fp → Fp → FRes) (x y : Nat) : FRes :=
  let f := fm.elem
  onElems fm (fun es => clampRes f cl (op (Fp.read f ftz (es.getD 0 0)) (Fp.read f ftz (es.getD 1 0)))) [x, y]

/-- The same for three sources. -/
def fp3 (fm : FFmt) (ftz cl : Bool) (op : Fp → Fp → Fp → FRes) (x y z : Nat) : FRes :=
  let f := fm.elem
  onElems fm (fun es => clampRes f cl (op (Fp.read f ftz (es.getD 0 0)) (Fp.read f ftz (es.getD 1 0)) (Fp.read f ftz (es.getD 2 0)))) [x, y, z]

/-- The same for one source. -/
def fp1 (fm : FFmt) (ftz cl : Bool) (op : Fp → FRes) (x : Nat) : FRes :=
  let f := fm.elem
  onElems fm (fun es => clampRes f cl (op (Fp.read f ftz (es.getD 0 0)))) [x]

def execFadd (h : Hdr) (rnd : Rnd) (ftz clamp : Bool) (d : Dst) (a b : Src) (s : State) : Host.Outcome State Fault Refusal :=
  runFlags (.fadd h rnd ftz clamp d a b) d (fun x j => fp2 .f32 ftz clamp (Fp.add .f32 rnd ftz) (x.fbits .f32 a j) (x.fbits .f32 b j)) s

def execFsub (h : Hdr) (rnd : Rnd) (ftz clamp : Bool) (d : Dst) (a b : Src) (s : State) : Host.Outcome State Fault Refusal :=
  runFlags (.fsub h rnd ftz clamp d a b) d
    (fun x j => fp2 .f32 ftz clamp (fun p q => Fp.add .f32 rnd ftz p q.negate) (x.fbits .f32 a j) (x.fbits .f32 b j)) s

/-- DEDUCED (log 71; unsafe). -/
def execFmul (h : Hdr) (rnd : Rnd) (ftz clamp : Bool) (d : Dst) (a b : Src) (s : State) : Host.Outcome State Fault Refusal :=
  runFlags (.fmul h rnd ftz clamp d a b) d (fun x j => fp2 .f32 ftz clamp (Fp.mul .f32 rnd ftz) (x.fbits .f32 a j) (x.fbits .f32 b j)) s

def execFfma (h : Hdr) (rnd : Rnd) (ftz clamp : Bool) (d : Dst) (a b c : Src) (s : State) : Host.Outcome State Fault Refusal :=
  runFlags (.ffma h rnd ftz clamp d a b c) d
    (fun x j => fp3 .f32 ftz clamp (Fp.fma .f32 rnd ftz) (x.fbits .f32 a j) (x.fbits .f32 b j) (x.fbits .f32 c j)) s

def execFmin (h : Hdr) (ftz clamp : Bool) (d : Dst) (a b : Src) (s : State) : Host.Outcome State Fault Refusal :=
  runFlags (.fmin h ftz clamp d a b) d (fun x j => fp2 .f32 ftz clamp (Fp.minMax .f32 false) (x.fbits .f32 a j) (x.fbits .f32 b j)) s

def execFmax (h : Hdr) (ftz clamp : Bool) (d : Dst) (a b : Src) (s : State) : Host.Outcome State Fault Refusal :=
  runFlags (.fmax h ftz clamp d a b) d (fun x j => fp2 .f32 ftz clamp (Fp.minMax .f32 true) (x.fbits .f32 a j) (x.fbits .f32 b j)) s

def execFcmp (h : Hdr) (cond : FCond) (ftz : Bool) (d : Dst) (a b : Src) (s : State) : Host.Outcome State Fault Refusal :=
  runFlags (.fcmp h cond ftz d a b) d
    (fun x j => fp2 .f32 ftz false (fun p q => let r := Fp.compare cond p q; ⟨if r.1 then 1 else 0, r.2⟩) (x.fbits .f32 a j) (x.fbits .f32 b j)) s

def execFclass (h : Hdr) (ftz : Bool) (d : Dst) (a : Src) (s : State) : Host.Outcome State Fault Refusal :=
  runFlags (.fclass h ftz d a) d (fun x j => fp1 .f32 ftz false (fun p => ⟨Fp.classMask p, 0⟩) (x.fbits .f32 a j)) s

def execFrnd (h : Hdr) (rnd : Rnd) (ftz clamp : Bool) (d : Dst) (a : Src) (s : State) : Host.Outcome State Fault Refusal :=
  runFlags (.frnd h rnd ftz clamp d a) d (fun x j => fp1 .f32 ftz clamp (Fp.integral .f32 rnd) (x.fbits .f32 a j)) s

def execFscale (h : Hdr) (rnd : Rnd) (ftz clamp : Bool) (d : Dst) (a b : Src) (s : State) : Host.Outcome State Fault Refusal :=
  runFlags (.fscale h rnd ftz clamp d a b) d
    (fun x j => fp1 .f32 ftz clamp (fun p => Fp.scale .f32 rnd ftz p (x.w32 b j).toInt) (x.fbits .f32 a j)) s

def execFadd2 (h : Hdr) (fmt : FFmt) (rnd : Rnd) (ftz clamp : Bool) (d : Dst) (a b : Src) (s : State) : Host.Outcome State Fault Refusal :=
  runFlags (.fadd2 h fmt rnd ftz clamp d a b) d (fun x j => fp2 fmt ftz clamp (Fp.add fmt.elem rnd ftz) (x.fbits fmt a j) (x.fbits fmt b j)) s

def execFmul2 (h : Hdr) (fmt : FFmt) (rnd : Rnd) (ftz clamp : Bool) (d : Dst) (a b : Src) (s : State) : Host.Outcome State Fault Refusal :=
  runFlags (.fmul2 h fmt rnd ftz clamp d a b) d (fun x j => fp2 fmt ftz clamp (Fp.mul fmt.elem rnd ftz) (x.fbits fmt a j) (x.fbits fmt b j)) s

def execFfma2 (h : Hdr) (fmt : FFmt) (rnd : Rnd) (ftz clamp : Bool) (d : Dst) (a b c : Src) (s : State) : Host.Outcome State Fault Refusal :=
  runFlags (.ffma2 h fmt rnd ftz clamp d a b c) d
    (fun x j => fp3 fmt ftz clamp (Fp.fma fmt.elem rnd ftz) (x.fbits fmt a j) (x.fbits fmt b j) (x.fbits fmt c j)) s

end Sys2Proof.Machine
end

