-- ==== Sys2Proof/Machine/Link.lean ====
section
/-! DEFINITION. The link between the host die and the compute dies (R417, R418). -/

namespace Sys2Proof.Machine

/-- The bytes that an act of the host takes over the link: an address of eight, and what it stores, a word of a register or a store of 64 bits where it says
nothing else.
DEDUCED (log 57; safe). -/
def commandBytes : Instr → Nat
  | .hostWrite _ bs => 8 + bs.length
  | .courierFirmwareLoad _ img => 8 + img.length
  | _ => 16

/-- A command of sixteen bytes crosses the link. -/
def State.cross (s : State) : State := s.crosses true 16 0

/-- What the host does goes over the link: with every module down it is held until the link returns. What cannot be done yet waits where it is done.
DEDUCED (log 57; unsafe). -/
def State.viaLink (s : State) (e : Instr) (k : State → Option State) : Option State :=
  if s.linkUp then some ((k (s.crosses true (commandBytes e) 0)).getD { s with hostHeld := s.hostHeld ++ [e] }) else some { s with linkHeld := s.linkHeld ++ [e] }

end Sys2Proof.Machine
end

