-- ==== Sys2Proof/Machine/Sched.lean ====
section
/-! DEFINITION. Placing, pre-empting, resuming and retiring teams, and the scheduler's other events (R36, R40 to R53, R255,
R288, R289, R323). -/

namespace Sys2Proof.Machine

/-! ### Placing a team (R40 to R45, R288) -/

/-- A lane as a launch gives it (R22, R23). -/
def launchLane (pc : Dword) (live : Bool) : Lane := { (newLane pc) with st := if live then .active else .never }

/-- A group as a launch gives it (R23, R24).
DESIGN CHOICE (log 8; unsafe). -/
def launchGroup (p : Plan) (octets : List Oct) (slotNo : Nat) (pc arg : Dword) (mem : Snap) : Group :=
  { gix := p.gix, role := p.role, budget := p.budget, grant := p.width, grch := false, slotNo := slotNo, octets := octets
    lanes := (List.range p.width).map fun j => launchLane pc (j < p.live)
    k := putRegs [] 0 [arg.extractLsb' 0 32, arg.extractLsb' 32 32], j := [], fpst := 0, cc := 0, mc := 0, oc := 0, handler := false, tcause := 0
    tmask := 0, tpc := 0, tpend := none, tword := 0, taddr := 0, tscr := [], gissue := 0, gwait := 0, gpass := 0, gpark := 0, wait := none, chain := 0, tip := [], yieldTo := []
    wfls := [], last := [], stale := [], seen := [], behind := none, ahead := some mem }

/-- The teams of a launch that may be next, in rising order: number, how often it was killed, and the core it should leave (R209, R288). In normal mode
it is the lowest; in deterministic mode, on `n` logical cores, the lowest for each of them (R44).
DEDUCED (log 64; unsafe). -/
def Launch.nextTeams (l : Launch) (n : Nat) : List (Nat × Nat × Option Nat) :=
  let total := l.pkt.nx * l.pkt.ny * l.pkt.nz
  let fresh := ((List.range (n * (l.ahead.length + 1))).map (l.next + ·)).filter fun t => t < total && !l.ahead.contains t
  let all := sortBy (·.1) (l.again.map (fun a => (a.1, a.2.1, some a.2.2)) ++ fresh.map fun t => (t, 0, none))
  if !l.pkt.det then all.take 1 else all.filter fun a => !(all.any fun b => b.1 < a.1 && b.1 % n == a.1 % n)
def State.nextTeams (s : State) (l : Launch) : List (Nat × Nat × Option Nat) := l.nextTeams (((s.ctx? l.ctx).map fun c => max c.nlcore 1).getD 1)

/-- The core on which a team goes now: the one whose next postmark names it under replay, and none while a core names it among its next 64 (R407); in normal
mode another than the one it leaves, where one can hold it (R43, R44, R209).
DEDUCED (log 64; unsafe). -/
def State.placeOn (s : State) (l : Launch) (t : Nat) (leave : Option Nat) : Option (Nat × Nat) :=
  match s.ctx? l.ctx with
  | none => none
  | some c =>
    if l.pkt.det then s.coreFor l t
    else
      let mark (lc : Nat) : Nat := postmarkOf 4 lc (t * 2 ^ 16 + (l.queue.getD 0) * 2 ^ 8)
      let next (n lc : Nat) : Bool := c.replay && ((s.siteMarks c (mark lc)).take n).any (·.2 == mark lc)
      match (List.range c.nlcore).find? (next 1) with
      | some lc =>
        match c.lmap[lc]? with
        | some n => if (s.fitOn l n).isSome then some (n, lc) else none
        | none => none
      | none =>
        if (List.range c.nlcore).any (next 64) then none
        else
        let others := c.lmap.filter fun n => some n != leave
        ((s.bestCore l others).orElse fun _ => s.bestCore l c.lmap).map fun n => (n, c.lcoreOf n)

/-- The next team of a launch that can be placed now: its number, its kills, and the core and logical core it goes to. -/
def State.placeNext (s : State) (l : Launch) : Option (Nat × Nat × Nat × Nat) :=
  (s.nextTeams l).findSome? fun a => (s.placeOn l a.1 a.2.2).map fun n => (a.1, a.2.1, n.1, n.2)

/-- Whether a launch has a team that can be placed now. -/
def State.canPlace (s : State) (l : Launch) : Bool :=
  s.launchOpen && ((s.ctx? l.ctx).map Context.runs).getD false && (s.placeNext l).isSome

/-- The group slots of a logical core that the postmarks still to come of a context's log name (Table 21-7). -/
def State.slotsNamed (s : State) (c : Context) (lcore : Nat) : List Nat :=
  (((List.range c.pmlen).filter fun i => !c.replayPos.contains i).map fun i => s.readNat (s.gpaOf (c.pmbase + 8 * i)) 8).filterMap fun m =>
    let kind := m / 2 ^ 60
    if m % 2 ^ 11 != lcore then none
    else if kind == 1 && m / 2 ^ 52 % 4 == 0 then some (m / 2 ^ 54 % 64)
    else if kind == 6 || kind == 7 || kind == 8 then some (m / 2 ^ 11 % 64)
    else none

/-- The slots that the groups of a team take where parties are logged, in rising order of their GROUPIX: the lowest that are free, or, where a log to be
replayed names none of those, the lowest of them that it names.
DESIGN CHOICE (log 60; unsafe). -/
def loggedSlots (free named : List Nat) (n : Nat) : List Nat :=
  let low := free.take n
  let theirs := free.filter named.contains
  if theirs.isEmpty || low.any named.contains then low else sortBy id ((theirs ++ free.filter fun i => !theirs.contains i).take n)

/-- Free slot numbers for the groups of a team on a core. In a context that logs or replays the choice is fixed, so that replay names the same parties (R410);
else it is free.
DESIGN CHOICE (log 60; unsafe). -/
def State.takeSlots (s : State) (ctx core lcore n : Nat) : List Nat × State :=
  let used := (s.onCore core).flatMap fun t => t.groups.map (·.slotNo)
  let free := (List.range 64).filter fun i => !used.contains i
  match (s.ctx? ctx).filter fun c => c.log || c.replay with
  | some c => (loggedSlots free (if c.replay then s.slotsNamed c lcore else []) n, s)
  | none =>
    (List.range n).foldl (fun (w : List Nat × State) _ =>
      let room := free.filter fun i => !w.1.contains i
      let (k, s) := w.2.freeNat
      (w.1 ++ [room.getD (k % max room.length 1) 0], s)) ([], s)

/-- Reserve a grid's pool in a cluster where it has none (R215). -/
def State.reservePool (s : State) (lid cl bytes : Nat) : State :=
  if bytes == 0 || (s.pool? lid cl).isSome then s else { s with pools := s.pools ++ [⟨lid, cl, bytes, [], []⟩] }

/-- Every team of a co-resident grid starts once the last is placed, and none of it is saved (R45, R289). -/
def State.startGrid (s : State) (lid : Nat) : State :=
  if ((s.launch? lid).map Launch.waiting).getD false || s.teams.any fun t => t.lid == lid && t.st == .saved then s
  else { s with teams := modWhere (fun t => t.lid == lid && t.st == .waiting) (fun t => { t with st := .resident }) s.teams }

/-- A team of a launch is placed: the next that has not been, or one that is placed again. -/
def Launch.without (l : Launch) (t : Nat) : Launch :=
  if l.again.any (·.1 == t) then { l with again := l.again.filter (·.1 != t) }
  else
    let ahead := insertNat t l.ahead
    let n := ((List.range (ahead.length + 1)).find? fun i => !ahead.contains (l.next + i)).getD 0
    { l with next := l.next + n, ahead := ahead.filter (l.next + n ≤ ·) }

/-- Put a fresh team on a core (R23, R40, R211, R215). -/
def State.putTeam (s : State) (l : Launch) (t kills : Nat) (core lcore : Nat) (fit : Fit) : State :=
  let ps := plans l.pkt l.kern
  let (tid, s) := s.newId
  let (slots, s) := s.takeSlots l.ctx core lcore ps.length
  let started := !l.pkt.cores || l.pkt.nx * l.pkt.ny * l.pkt.nz ≤ l.next
  let team : Team :=
    { tid := tid, lid := l.lid, t := t, core := core, lcore := lcore, ctx := l.ctx, prio := l.prio, st := if started then .resident else .waiting
      kills := kills, placed := tid, pin := none, ngroups := ps.length, spadLines := spadAlloc (s.isFixed l.ctx) l.pkt.spadLines, spadBase := fit.lines
      spad := [], flaw := false, absent := [], tags := [], ptrs := [], bars := [], shapes := [], allocSerial := 0, allocs := [], claims := []
      groups := ps.zipIdx.map fun p => launchGroup p.1 (fit.octets.getD p.2 []) (slots.getD p.2 0) l.kern.entry l.pkt.arg s.asItStands }
  let s := { s with teams := s.teams ++ [team] }
  let s := (s.relay core fit.spans).reservePool l.lid (clusterOf core) l.pkt.pool
  let s := s.modLaunch l.lid fun l => l.without t
  (s.startGrid l.lid).setFence l.ctx

/-- The octets of a saved team, by group. -/
def Team.items (fixed saved : Bool) (t : Team) : List (List Item) :=
  t.groups.map fun g => g.octets.zipIdx.map fun o => ⟨g.gix, o.2, regAlloc fixed g.budget, if saved then some o.1.slice else none⟩

/-- What a resumed team needs of a core beside registers (R16, R47, R215, R255). -/
def State.resumeRoom (s : State) (t : Team) (core : Nat) : Bool :=
  let banks := (t.allocs.map fun a => a.banks.length).foldl (· + ·) 0
  let pool := ((s.launch? t.lid).map fun l => s.poolOk l (clusterOf core)).getD true
  pool && (match t.pin with | some c => c == clusterOf core | none => true) && s.coreGroups core + t.groups.length ≤ 64 && (s.onCore core).length < 16
    && banks ≤ (s.quad (quadOf core)).freeBanks.length

/-- The place of a saved team on a core with octets in any slices, or in those they were saved with. -/
def State.resumeAs (s : State) (t : Team) (core : Nat) (saved : Bool) : Option Fit :=
  let fixed := s.isFixed t.ctx
  if !s.resumeRoom t core then none
  else
    match holdSpan (s.spadSpans core) ⟨0, t.spadLines, fixed, .lines t.tid⟩, holdFolded t.tid fixed (t.items fixed saved) ([], s.coreSpans core) with
    | some sp, some r => some ⟨t.groups.map fun g => r.octets g.gix, sp.1, sp.2 ++ r.2.flatten⟩
    | _, _ => none

/-- The place of a saved team on a core (R47, R255): each group unfolded where it can be, else folded. None: no room.
DESIGN CHOICE (log 60; safe). -/
def State.resumeOn (s : State) (t : Team) (core : Nat) : Option Fit := s.resumeAs t core false

/-- The cores on which a saved team may resume: its logical core for a deterministic launch (R47, R48). -/
def State.resumeCores (s : State) (t : Team) : List Nat :=
  match s.ctx? t.ctx with
  | none => []
  | some c => if ((s.launch? t.lid).map (·.pkt.det)).getD false then (c.lmap[t.lcore]?).toList else c.lmap

/-- Whether a saved team can resume now. -/
def State.canResume (s : State) (t : Team) : Bool :=
  t.st == .saved && ((s.ctx? t.ctx).map Context.runs).getD false && (s.resumeCores t).any fun n => (s.resumeOn t n).isSome

/-- Whether the sorters serve work of a launch before that of another (R288): of higher priority, or of the same and older. -/
def servedFirst (prio lid : Nat) (p l : Nat) : Bool := prio < p || (p == prio && l < lid)

/-- Whether the sorter of a die has something to place before a launch's team (R288, R289): a team of another launch, or a saved one.
DESIGN CHOICE (log 48; unsafe). -/
def State.othersFirst (s : State) (die prio lid : Nat) : Bool :=
  s.launches.any (fun l => servedFirst prio lid l.prio l.lid && s.sortedOn l die && s.canPlace l)
    || s.teams.any fun t => servedFirst prio lid t.prio t.lid && ((s.launch? t.lid).map fun l => s.sortedOn l die).getD false && s.canResume t

/-- The die whose sorter places a launch's team on a core: of the letterbox, or of the core (R285, R288). -/
def Launch.sorter (l : Launch) (core : Nat) : Nat := l.die.getD (dieOf core)

/-- The sorters place the next team of a launch (R288): nothing that comes before it in the sorter of its die can be placed now. Placing is a choice
site in normal mode (Table 21-7).
DEDUCED (log 64; unsafe). -/
def onTeamPlace (lid : Nat) (s : State) : Option State :=
  match s.launch? lid with
  | none => none
  | some l =>
    match (if s.canPlace l then s.placeNext l else none) with
    | none => none
    | some (t, kills, core, lcore) =>
      match s.fitOn l core with
      | none => none
      | some fit =>
        let put (s : State) : State := s.putTeam l t kills core lcore fit
        if s.othersFirst (l.sorter core) l.prio l.lid then none
        else if l.pkt.det then some (put s)
        else s.gate l.ctx 4 (lcore % 2 ^ 11) (t % 2 ^ 32 * 2 ^ 16 + (l.queue.getD 0) % 256 * 2 ^ 8) (.teamPlace lid) put

def execTeamPlace (lid : Nat) (s : State) : Host.Outcome State Fault Refusal := s.occurs (onTeamPlace lid s)

/-! ### Pre-emption (R46, R255, R323) -/

/-- One step in finishing a team's matrix requests: a completion, or a grant. None: an operand sector is absent, or replay
holds the grant. -/
def State.drainStep (s : State) (q : Nat) (t : Team) (c : Context) : Option State :=
  let reqs := (s.quad q).reqs
  match reqs.find? fun r => r.tid == t.tid && (s.quad q).completable r with
  | some r => some (s.completeReq q r t.ctx)
  | none =>
    let now := (s.team? t.tid).getD t
    match (s.nextGrant (reqs.filter (·.tid == t.tid))).filter (·.present now) with
    | none => none
    | some r =>
      if r.ordered now then
        match s.choice t.ctx 6 t.lcore (s.partyOf r.tid r.gix) with
        | .go s => some (s.grantReq q r now c)
        | _ => none
      else some (s.grantReq q r now c)

/-- Finish every matrix request of a team; `n` bounds the steps.
DEDUCED (log 45; unsafe). -/
def State.drainReqs (s : State) (q : Nat) (t : Team) (c : Context) : Nat → Option State
  | 0 => none
  | n + 1 => if (s.quad q).reqs.all (·.tid != t.tid) then some s else (s.drainStep q t c).bind fun s => s.drainReqs q t c n

/-- A lane parked on a translation fault resumes at the faulting instruction (R46).
DEDUCED (log 45; unsafe). -/
def Lane.retryPgf (l : Lane) : Lane :=
  match l.st with
  | .parked (.buffer _ _ e _ _) => if e.flt.code == Code.pgf then l.wake l.pc true else l
  | .parked (.heldFault e _ _) => if e.flt.code == Code.pgf then l.wake l.pc true else l
  | _ => l

/-- A group as it is saved: its waits at issue end, and it issues their instruction again when it resumes; a lane parked on a translation
fault retries its instruction; tests of `wfl` are made afresh.
DEDUCED (log 45; unsafe). -/
def Group.suspend (g : Group) : Group :=
  { g with wait := none, behind := none, wfls := g.wfls.map (fun w => { w with probe := none }), lanes := g.lanes.map Lane.retryPgf }

/-- A `cpy` stops at an element boundary (R323): the source elements up to the last of which something has been written are finished, with the words that they lie in, so that the number
written is that of the elements from which it goes on.
DEDUCED (log 45; unsafe). -/
def State.evenCopy (s : State) (t : Team) (c : Copy) : Landed :=
  let k := (c.pieces.filter (·.done)).foldl (fun k p => max k (p.el + 1)) 0
  let words := (c.pieces.filter fun p => p.el < k && !p.done).map (·.dst.inWord.1)
  s.landPieces t c (c.piecesWhere fun p => words.contains p.dst.inWord.1 && !p.done)

/-- A sector of scratchpad of which a copy has nothing left to write is present (R212). -/
def State.presentAfter (s : State) (id : Nat) : State :=
  match s.copy? id with
  | none => s
  | some c => c.pieces.foldl (fun s p =>
      match p.dst with
      | .spad tid o => if c.pieces.all fun q => q.unit != p.unit || q.done then s.present tid (o / 64) else s
      | _ => s) s

/-- The copies of a team at its pre-emption (R323): each `cpy` stops, each `cpx` has read its source. The word of a pool that this met bad kills the team. -/
def State.stopCopies (s : State) (t : Team) : List Copy → Landed
  | [] => .done s
  | c :: cs =>
    if c.cpx then
      match s.cpxRead t c with
      | (some _, s) => .poolBad s
      | (none, s) => s.stopCopies t cs
    else
      match s.evenCopy t c with
      | .done s => (s.presentAfter c.id).stopCopies t cs
      | r => r

/-- Stop a team at an instruction boundary and save it (R46, R255, R323): its accesses are performed, its matrix requests
complete, its `cpx` sources are read, its transactional groups are aborted and its banks are freed. None: not yet.
DEDUCED (log 45; unsafe). -/
def State.preempt (s : State) (tid : Nat) : Option State :=
  match s.team? tid with
  | none => none
  | some t =>
    match s.ctx? t.ctx with
    | none => none
    | some c =>
      if (s.slot.map (·.tid)) == some tid then none
      else
        let probes := t.groups.flatMap fun g => g.wfls.filterMap (·.probe)
        let s := probes.foldl (fun s id => match s.acc? id with | some a => s.forget a | none => s) s
        let s := s.force fun a => a.tid == tid || (match a.place with | .spad n _ => n == tid | _ => false)
        match s.drainReqs (quadOf t.core) t c 64 with
        | none => none
        | some s =>
          match s.stopCopies t (s.copies.filter (·.tid == tid)) with
          | .full => none
          | .poolBad s => some (s.killFor tid)
          | .done s =>
            let s := s.modQuad (quadOf t.core) fun q => { q with owner := q.owner.filter (·.2 != tid), waits := q.waits.filter (·.tid != tid) }
            -- an aborted group holds no row; the numbers are kept for the image (R310, Table 21-4)
            let abort (x : Tx) : Tx := if x.tid == tid && !x.aborted then { x with aborted := true, rows := x.rows.map fun r => { r with bytes := [] } } else x
            let agents := s.agents.map fun a => { a with txs := a.txs.map abort }
            let s := { s.changed fun p => p.tid == tid with agents := agents, urgent := s.urgent.filter (·.1 != tid) }
            some ((s.modTeam tid fun t => { t with st := .saved, groups := t.groups.map Group.suspend }).setFence t.ctx)

/-- Pre-empt several teams together. -/
def State.preemptAll (s : State) : List Nat → Option State
  | [] => some s
  | t :: ts => (s.preempt t).bind fun s => s.preemptAll ts

/-- The teams that go with a victim: its whole grid where that is co-resident (R289). -/
def State.victims (s : State) (t : Team) : List Nat :=
  if ((s.launch? t.lid).map (·.pkt.cores)).getD false then (s.teams.filter fun x => x.lid == t.lid && x.st != .saved).map (·.tid) else [t.tid]

/-- The state without a team and those that go with it. -/
def State.without (s : State) (t : Team) : State :=
  let gone := s.victims t
  let teams := s.teams.filter fun x => !gone.contains x.tid
  let quads := s.quads.map fun q => (q.1, { q.2 with owner := q.2.owner.filter fun o => !gone.contains o.2 })
  { s with teams := teams, quads := quads }

/-- The team that a waiting one displaces (R289): of the lowest priority below it, most recently placed, whose removal makes the room. A team that waits on its
core for the rest of its grid (R45) is resident there as well. -/
def State.victimFor (s : State) (prio : Nat) (fits : State → Team → Bool) : Option Team :=
  let can := s.teams.filter fun t => t.st != .saved && t.prio < prio && fits (s.without t) t
  can.foldl (fun (best : Option Team) t =>
    match best with
    | none => some t
    | some b => if t.prio < b.prio || (t.prio == b.prio && (b.placed < t.placed || (b.placed == t.placed && t.core < b.core))) then some t else some b) none

/-- Whether team `n` of a launch fits on a victim's core without it. -/
def Launch.fitsFor (l : Launch) (n : Nat) (s : State) (v : Team) : Bool :=
  match s.ctx? l.ctx with
  | some c => (!l.pkt.det || c.lmap[n % max c.nlcore 1]? == some v.core) && c.lmap.contains v.core && (s.fitOn l v.core).isSome
  | none => false

/-- The teams that a launch's waiting work may displace: its next team one, and each saved team of it one. -/
def State.displaced (s : State) (l : Launch) : List Team :=
  let fresh : Option Team := if s.canPlace l then none else (s.nextTeams l).findSome? fun a => s.victimFor l.prio (l.fitsFor a.1)
  fresh.toList ++ (s.teams.filter fun t => t.lid == l.lid && t.st == .saved && !s.canResume t).filterMap fun t =>
    s.victimFor t.prio fun s' v => (s'.resumeCores t).contains v.core && (s'.resumeOn t v.core).isSome

/-- A team that has waited 16,384 cycles unplaced causes one pre-emption (R289). Which of a launch's waiting teams has waited so long is free.
DESIGN CHOICE (log 48; unsafe). -/
def onStarvationPreempt (lid : Nat) (s : State) : Option State :=
  (s.launch? lid).bind fun l =>
    match (if ((s.ctx? l.ctx).map Context.runs).getD false then s.displaced l else []) with
    | [] => none
    | [v] => s.preemptAll (s.victims v)
    | v :: vs => let (k, s) := s.freeNat; s.preemptAll (s.victims ((v :: vs).getD (k % (vs.length + 1)) v))

def execStarvationPreempt (lid : Nat) (s : State) : Host.Outcome State Fault Refusal := s.occurs (onStarvationPreempt lid s)

/-! ### Resuming (R47, R48, R255) -/

/-- Give a resumed team's allocations physical banks of its engine. -/
def State.takeBanks (s : State) (t : Team) (core : Nat) : State :=
  t.allocs.foldl (fun s a =>
    let banks := ((s.quad (quadOf core)).freeBanks).take a.banks.length
    let s := s.modQuad (quadOf core) fun q => { q with owner := q.owner ++ banks.map fun b => (b, t.tid) }
    s.modTeam t.tid fun t => t.modAlloc a.tag fun x => { x with banks := banks }) s

/-- A restored lane parked on an entry, which no die holds, parks on a fresh one (R403). -/
def Lane.reenter (serial : Nat) (park : Dword → Dword → Park) (l : Lane) : Lane :=
  match l.st with
  | .parked (.heldFault e r n) => if e.serial == serial then { l with st := .parked (park r n) } else l
  | _ => l

def State.freshEntry (s : State) (t : Team) (g : Group) (e : FEntry) : State :=
  let (n, s) := s.newId
  let d := dieOf t.core
  let e' : FEntry := { e with core := t.core, slot := g.slotNo, who := some (t.tid, g.gix), serial := n }
  let s := s.report d e'
  let park (r next : Dword) : Park := match s.reportPark d n with | some i => .buffer d i e' r next | none => .heldFault e' r next
  s.modGroup t.tid g.gix fun g => { g with lanes := g.lanes.map (Lane.reenter e.serial park) }

def State.freshEntries (s : State) (tid : Nat) : State :=
  match s.team? tid with
  | none => s
  | some t =>
    t.groups.foldl (fun s g =>
      let es := (g.lanes.filterMap fun l => match l.st with | .parked (.heldFault e _ _) => some e | _ => none).eraseDups
      (es.filter fun e => !(s.dies.any fun d => d.heldFaults.any (·.serial == e.serial))).foldl (fun s e => s.freshEntry t g e) s) s

/-- Put a saved team on a core. GRCH is set where a group's map of octets to slices changes (R47); what its groups fetch is no older than memory is now
(R416). -/
def State.putSaved (s : State) (t : Team) (core lcore : Nat) (fit : Fit) : State :=
  let (slots, s) := s.takeSlots t.ctx core lcore t.groups.length
  let (n, s) := s.newId
  let group (p : Group × Nat) : Group :=
    let os := fit.octets.getD p.2 p.1.octets
    { p.1 with octets := os, grch := p.1.grch || os.map (·.slice) != p.1.octets.map (·.slice), slotNo := slots.getD p.2 p.1.slotNo, ahead := some s.asItStands }
  -- a co-resident grid goes on together (R45, R289)
  let waits := ((s.launch? t.lid).map fun l => l.pkt.cores && (l.waiting || s.teams.any fun x => x.lid == t.lid && x.st == .waiting)).getD false
  let st : TeamSt := if waits then .waiting else .resident
  let place (x : Team) : Team :=
    { x with st := st, pin := none, core := core, lcore := lcore, placed := n, spadBase := fit.lines, groups := x.groups.zipIdx.map group }
  let s := (s.modTeam t.tid place).relay core fit.spans
  let cl := clusterOf core
  let move (p : Place) : Place := match p with | .pool l _ o => .pool l cl o | p => p
  let movePiece (p : Piece) : Piece := { p with dst := move p.dst, src := p.src.map move }
  let moveCopy (c : Copy) : Copy := { c with core := core, pieces := c.pieces.map movePiece }
  let bare (x : Tx) : Tx := if x.tid == t.tid then { x with rows := if x.aborted then [] else x.rows } else x
  let agents := s.agents.map fun a => { a with txs := a.txs.map bare }
  let s := { s with copies := modWhere (fun c => c.tid == t.tid && !c.cpx) moveCopy s.copies, agents := agents }
  let bytes := ((s.launch? t.lid).map (·.pkt.pool)).getD 0
  (((s.takeBanks t core).reservePool t.lid cl bytes).setFence t.ctx).freshEntries t.tid

/-- The place of a saved team with the map that its groups were saved with, where that is unfolded and still has room: then it may keep it.
DEDUCED (log 45; unsafe). -/
def State.sameMap (s : State) (t : Team) (core : Nat) : Option Fit :=
  let apart (g : Group) : Bool := (g.octets.map (·.slice)).eraseDups.length == g.octets.length
  if t.groups.all apart then s.resumeAs t core true else none

/-- Resume one team on a core; whether it keeps a map that still fits is free.
DEDUCED (log 45; unsafe). -/
def State.resume (s : State) (t : Team) (core : Nat) : Option State :=
  match s.ctx? t.ctx, s.resumeOn t core with
  | some c, some fit =>
    let lcore := if ((s.launch? t.lid).map (·.pkt.det)).getD false then t.lcore else c.lcoreOf core
    match s.sameMap t core with
    | none => some (s.putSaved t core lcore fit)
    | some same => let (keep, s) := s.freeBool; some (s.putSaved t core lcore (if keep then same else fit))
  | _, _ => none

/-- Resume the teams of a co-resident grid together, each on the first core that takes it. -/
def State.resumeRest (s : State) : List Team → Option State
  | [] => some s
  | t :: ts =>
    match (s.resumeCores t).find? fun n => (s.resumeOn t n).isSome with
    | none => none
    | some n => (s.resume t n).bind fun s => s.resumeRest ts

/-- A pre-empted team resumes whole on a core (R47, R48, R289). -/
def onTeamResume (tid core : Nat) (s : State) : Option State :=
  match s.team? tid with
  | none => none
  | some t =>
    let die := ((s.launch? t.lid).map (·.sorter core)).getD (dieOf core)
    if !s.canResume t || s.othersFirst die t.prio t.lid || !(s.resumeCores t).contains core then none
    else
      match s.resume t core with
      | none => none
      | some s' =>
        if !((s.launch? t.lid).map (·.pkt.cores)).getD false then some s'
        else
          match s'.resumeRest (s'.teams.filter fun x => x.lid == t.lid && x.st == .saved) with
          | some s => some (s.startGrid t.lid)
          | none => none

def execTeamResume (tid core : Nat) (s : State) : Host.Outcome State Fault Refusal := s.occurs (onTeamResume tid core s)

/-! ### Retirement (R53) -/

/-- Whether a team has retired all its lanes and its asynchronous work. -/
def State.teamDone (s : State) (t : Team) : Bool :=
  t.st == .resident
    && t.groups.all (fun g => g.lanes.all (fun l => !l.live) && g.cc == 0 && g.mc == 0 && g.oc == 0)
    && !(s.copies.any (·.tid == t.tid)) && !((s.quad (quadOf t.core)).reqs.any (·.tid == t.tid))
    && !(s.accs.any fun a => a.tid == t.tid && (a.kind.isLoad || a.kind.isFetch))
    && !(s.agents.any fun a => a.walker.any (·.tid == some t.tid))

/-- A team retires: what it stored in its own storage is performed, and its storage is released. -/
def onTeamRetire (tid : Nat) (s : State) : Option State :=
  match s.team? tid with
  | none => none
  | some t =>
    if !s.teamDone t || (s.slot.map (·.tid)) == some tid then none
    else
      let s := s.force fun a => match a.place with
        | .spad n _ => n == tid
        | .acc n _ _ => n == tid
        | .pool l _ _ => l == t.lid && a.tid == tid
        | .mem _ => match a.kind with | .tx _ => a.tid == tid | _ => false
      some ((s.removeTeam t).endOne t.lid |>.tick t.ctx)

def execTeamRetire (tid : Nat) (s : State) : Host.Outcome State Fault Refusal := s.occurs (onTeamRetire tid s)

/-! ### The compactor and the issue stage (R25, R36, R51, R57) -/

/-- Move an octet of a group between issues to a slice with room (R25, R51): a group stays unfolded, and a context under fixed
allocation is not moved (R52). -/
def onCompactorMove (tid gix octet slice : Nat) (s : State) : Option State :=
  match s.team? tid, s.group? tid gix with
  | some t, some g =>
    let slices := g.octets.map (·.slice)
    let folded := slices.eraseDups.length != slices.length
    let issuing := match s.slot with | some sl => sl.tid == tid && sl.gix == gix | none => false
    if t.st == .saved || s.isFixed t.ctx || g.octets.length ≤ octet || 8 ≤ slice || slices[octet]? == some slice || (slices.contains slice && !folded) || issuing then none
    else
      (holdIn (s.coreSpans t.core) slice ⟨0, regAlloc false g.budget, false, .octet tid gix octet⟩).map fun r =>
        (s.modGroup tid gix fun g => { g with octets := g.octets.set octet r.1 }).relay t.core (r.2.getD slice [])
  | _, _ => none

def execCompactorMove (tid gix octet slice : Nat) (s : State) : Host.Outcome State Fault Refusal := s.occurs (onCompactorMove tid gix octet slice s)

/-- Whether a group that must issue next is still ready: then no other's claim comes before its.
DESIGN CHOICE (log 30; safe). -/
def State.claimStands (s : State) : Bool :=
  match s.urgent with
  | none => false
  | some u => s.teams.any fun t => t.tid == u.1 && t.groups.any fun g => g.gix == u.2 && s.hasWord t g

/-- A group that has been ready for 64 cycles issues next (R36).
DESIGN CHOICE (log 30; safe). -/
def onIssueAgeLimit (tid gix : Nat) (s : State) : Option State :=
  match s.team? tid, s.group? tid gix with
  | some t, some g => if s.slot.isSome || !s.canIssue t g || s.claimStands then none else some { s with urgent := some (tid, gix) }
  | _, _ => none

def execIssueAgeLimit (tid gix : Nat) (s : State) : Host.Outcome State Fault Refusal := s.occurs (onIssueAgeLimit tid gix s)

/-- HOLD on the 64th instruction of a chain is not honoured (R36): the latches of the lanes that issued it are invalidated, and the path switches as for a
voluntary switch.
DESIGN CHOICE (log 30; safe). -/
def onHoldChainLimit (tid gix : Nat) (s : State) : Option State :=
  match s.team? tid, s.group? tid gix with
  | some t, some g =>
    if g.chain < 64 then none
    else
      let others := s.neighbours t g
      some (s.modGroup tid gix fun g => { (g.eachLane g.tip fun l => { l.invalidate with lastHold := false }) with chain := 0, tip := [], yieldTo := others })
  | _, _ => none

def execHoldChainLimit (tid gix : Nat) (s : State) : Host.Outcome State Fault Refusal := s.occurs (onHoldChainLimit tid gix s)

end Sys2Proof.Machine
end

