-- ==== Sys2Proof/Machine/TblExec.lean ====
section
/-! DEFINITION. Algebra and companding tables, the range table and translation caches (R340 to R353). -/

namespace Sys2Proof.Machine

/-! ### Algebra tables (R341 to R345) -/

/-- Whether a descriptor in use is refused. -/
def AlgSlot.bad (a : AlgSlot) : Bool :=
  a.reserved || 3 ≤ a.cancel || 0x13 ≤ a.op || (a.op == 3 && !a.w64) || (2 ≤ a.op && a.op != 3 && a.w64) || (a.ix && !fpOpr a.op)

/-- Whether a relation entry of two slots in use is refused. -/
def relBad (img : List Byte) (f e : Nat) : Bool :=
  let r := algRel img f e
  let a := algSlot img f
  let b := algSlot img e
  ((r.testBit 1 || r.testBit 3) && (b.op == 0 || b.op == 17 || b.op == 18))
    || ((r.testBit 0 || r.testBit 2 || r.testBit 3) && ((fpOpr a.op && !a.ix) || (fpOpr b.op && !b.ix)))

/-- Whether `algl` accepts an image (R345). -/
def algOk (img : List Byte) : Bool :=
  let n := algCount img
  let used := List.range n
  pf img 0 1 == 1 && n ≤ 16 && pf img 2 62 == 0
    && used.all (fun i => !(algSlot img i).bad && used.all fun j => i == j || (algSlot img i).op != (algSlot img j).op || (algSlot img i).w64 != (algSlot img j).w64)
    && (List.range 16).all (fun f =>
      (f < n || pf img (64 + 4 * f) 4 == 0)
        && (List.range 16).all fun e => if f < n && e < n then !relBad img f e else algRel img f e == 0)

/-- Read a run of bytes for an instruction at dev scope, checked as a load (R347, R349): page by page where it crosses one.
The earlier accesses of the lanes are performed first.
DEDUCED (log 20, 43; unsafe). -/
def State.imageAt (s : State) (x : Issue) (a : Dword) (n align : Nat) : Except Flt (List Byte) × State :=
  let room := min n (65536 - a.toNat % 65536)
  let cls2 (k : Checked) : Bool := Pte.cls k.leaf.e == 2
  let finish (s : State) (runs : List (Nat × Nat × Nat)) : Except Flt (List Byte) × State :=
    let s := s.await false x.tid x.gix x.act ⟨true, true, true⟩ false 255 .dev
    runs.foldl (fun (w : Except Flt (List Byte) × State) r =>
      match w.1 with
      | .error f => (.error f, w.2)
      | .ok bs =>
        if !w.2.onChip r.1 && !w.2.reachable (chipOf r.1) then (.error { Flt.at' Code.eccu a with remote := true }, w.2)
        else
          let (got, s) := (w.2.visit x.c.ctx (.core x.core) r.2.2 r.1 true).readHome r.1 r.2.1
          if s.poisoned r.1 r.2.1 then (.error (Flt.at' Code.eccu a), s) else (.ok (bs ++ got), s)) (.ok [], s)
  match s.checkVa x.core x.c a n align .read false true with
  | (.error f, s) => (.error f, s)
  | (.ok k, s) =>
    if cls2 k then (.error (Flt.at' Code.prot a), s)
    else if room == n then finish s [(k.gpa, n, Pte.cls k.leaf.e)]
    else
      match s.checkVa x.core x.c (a + BitVec.ofNat 64 room) (n - room) 1 .read false true with
      | (.error f, s) => (.error { f with addr := a + BitVec.ofNat 64 room }, s)
      | (.ok k', s) => if cls2 k' then (.error (Flt.at' Code.prot a), s) else finish s [(k.gpa, room, Pte.cls k.leaf.e), (k'.gpa, n - room, Pte.cls k'.leaf.e)]

/-- Install an image: the pending entries it would have governed retire under the old one (R347).
DEDUCED (log 43; unsafe). -/
def State.installAlg (s : State) (ctx n : Nat) (img : List Byte) : State :=
  let mine (e : Entry) : Bool := e.table == some (ctx, n)
  let s := ((s.agents.flatMap (·.holes)).filter fun h => h.entries.any mine).foldl (fun s h => s.retireWhile h.dw mine 17) s
  s.modCtx ctx fun c => { c with alg := setKey n img c.alg }

def execAlgl (h : Hdr) (t : BitVec 3) (a : Src) (s : State) : Host.Outcome State Fault Refusal :=
  run (.algl h t a) (fun x s =>
    if x.act.isEmpty then { s := s }
    else
      match s.imageAt x (x.u64 a) 256 256 with
      | (.error f, s) => { s := s, faults := x.all f }
      | (.ok img, s) =>
        if !algOk img then { s := s, faults := x.all (Flt.mk' Code.algv) }
        else withMark x 2 t.toNat s fun s => { s := s.installAlg x.c.ctx t.toNat img }) s

def execAlgq (h : Hdr) (t : BitVec 3) (d : Dst) (a : Src) (s : State) : Host.Outcome State Fault Refusal :=
  run (.algq h t d a) (fun x s =>
    let i := (x.u32 a).toNat
    if x.act.isEmpty then { s := s }
    else if 63 < i then { s := s, faults := x.all (Flt.mk' Code.prot) }
    else
      let w := pf (((s.ctx? x.c.ctx).getD x.c).algTable t.toNat) (4 * i) 4
      { s := s.put x d (x.act.map fun j => (j, BitVec.ofNat 64 w)) }) s

/-! ### Companding tables (R349, R350) -/

/-- The pairs of an image of 136 bytes. -/
def cmpPairs (img : List Byte) : List (Word × Word) := (List.range 17).map fun i => (BitVec.ofNat 32 (pf img (8 * i) 4), BitVec.ofNat 32 (pf img (8 * i + 4) 4))

/-- Whether a sequence runs strictly upwards from 0 to 1. -/
def cmpRising (l : List Word) : Bool :=
  let v (w : Word) : Fp := Fp.read .f32 false w.toNat
  l.head? == some 0 && l.getLast? == some 0x3F800000 && l.all (fun w => !(v w).isNan)
    && (l.zip (l.drop 1)).all fun p => decide (Fp.order (v p.1) (v p.2) < 0)

def cmpOk (ps : List (Word × Word)) : Bool := cmpRising (ps.map (·.1)) && cmpRising (ps.map (·.2))

/-- The matrix requests of a context under way. -/
def State.matrixWork (s : State) (ctx : Nat) : List Nat :=
  s.quads.flatMap fun q => (q.2.reqs.filter fun r => ((s.team? r.tid).map fun t => t.ctx == ctx).getD false).map (·.id)

/-- A group no longer waits behind matrix requests. -/
def State.unbehind (s : State) (x : Issue) : State := s.modIssue x fun g => { g with behind := none }

/-- A `cmpl` waits behind matrix requests: until it is over its group issues no other word, not the other word of this slot either (R350).
DEDUCED (log 43; unsafe). -/
def State.waitBehind (s : State) (x : Issue) (owed : List Nat) : State :=
  let s := s.modIssue x fun g => { g with behind := some ⟨x.lanes, owed⟩ }
  { s with slot := s.slot.map fun sl => { sl with other := none } }

/-- `cmpl` waits for the matrix requests of its context that were issued before it (R350): those that it found under way when it began to wait.
DEDUCED (log 43; unsafe). -/
def execCmpl (h : Hdr) (t : BitVec 3) (a : Src) (s : State) : Host.Outcome State Fault Refusal :=
  run (.cmpl h t a) (fun x s =>
    if x.act.isEmpty then { s := s }
    else
      match s.imageAt x (x.u64 a) 136 8 with
      | (.error f, s) => { s := s.unbehind x, faults := x.all f }
      | (.ok img, s) =>
        let ps := cmpPairs img
        let now := s.matrixWork x.c.ctx
        let owed := match x.g.behind with | none => now | some w => w.owed.filter now.contains
        if !cmpOk ps then { s := s.unbehind x, faults := x.all (Flt.mk' Code.shape) }
        else if !owed.isEmpty then { s := s.waitBehind x owed, retry := true }
        else
          withMark x 2 t.toNat (s.waitBehind x []) fun s =>
            { s := (s.modCtx x.c.ctx fun c => { c with cmp := setKey t.toNat ps c.cmp }).unbehind x }) s

/-! ### The range table (R351, R352) -/

/-- The free indices of a die's range table for a context. -/
def Context.freeRanges (c : Context) (die : Nat) : List Nat := (List.range 64).filter fun i => !(c.ranges.any fun r => r.die == die && r.index == i)

/-- DESIGN CHOICE (log 60; safe). -/
def execRgi (h : Hdr) (d : Dst) (a b : Src) (s : State) : Host.Outcome State Fault Refusal :=
  run (.rgi h d a b) (fun x s =>
    let base := (x.u64 a).toNat
    let len := (x.u32 b).toNat
    let die := dieOf x.core
    let out (s : State) (v : Dword) : Res := { s := s.put x d (x.act.map fun j => (j, v)) }
    if x.act.isEmpty then { s := s }
    else if len == 0 then { s := s, faults := x.all (Flt.mk' Code.shape) }
    else if 2 ^ 56 < base + len then { s := s, faults := x.all (Flt.mk' Code.prot) }
    else
      match ((s.ctx? x.c.ctx).getD x.c).freeRanges die with
      | [] => out s 0xFFFFFFFF
      | is =>
        let (k, s) := s.freeNat
        let i := is.getD (k % is.length) 0
        out (s.modCtx x.c.ctx fun c => { c with ranges := c.ranges ++ [⟨die, i, base, len, .rgi⟩] }) (BitVec.ofNat 64 i)) s

def execRgr (h : Hdr) (a : Src) (s : State) : Host.Outcome State Fault Refusal :=
  run (.rgr h a) (fun x s =>
    let i := (x.u32 a).toNat
    let mine (r : Range) : Bool := r.die == dieOf x.core && r.index == i && r.owner == .rgi
    if x.act.isEmpty then { s := s }
    else if !(((s.ctx? x.c.ctx).getD x.c).ranges.any mine) then { s := s, faults := x.all (Flt.mk' Code.prot) }
    else { s := s.modCtx x.c.ctx fun c => { c with ranges := c.ranges.filter fun r => !mine r } }) s

/-! ### Translation caches (R353) -/

/-- The cached translations that a `tlbi` drops.
DEDUCED (log 43; unsafe). -/
def State.tlbVictims (s : State) (ctx : Nat) (va : Option Nat) : List TlbEntry :=
  (s.cores.flatMap (·.2.tlb) ++ s.dies.flatMap (·.tlb)).filter fun e =>
    e.ctx == ctx && (match va with | none => true | some a => e.page == a / 65536 * 65536 / 2 ^ e.bits)

/-- Whether an address was translated through one of some entries. -/
def throughTlb (es : List TlbEntry) (va : Nat) : Bool := es.any fun e => e.page == va / 2 ^ e.bits

/-- Whether a copy still has accesses under way through one of some entries. -/
def Copy.through (c : Copy) (es : List TlbEntry) : Bool :=
  let src := Rec.read c.srcRec
  let dst := Rec.read c.dstRec
  (src.space == 0 && c.data.isNone && (src.addrs c.ts).any (throughTlb es)) || (!c.cpx && dst.space == 0 && (dst.addrs c.td).any (throughTlb es))

/-- DESIGN CHOICE (log 15; unsafe); DEDUCED (log 43; unsafe). -/
def execTlbi (h : Hdr) (a : Option Src) (s : State) : Host.Outcome State Fault Refusal :=
  run (.tlbi h a) (fun x s =>
    if x.act.isEmpty then { s := s }
    else if !x.privileged then { s := s, faults := x.all (Flt.mk' Code.prot) }
    else
      let va := a.map fun f => (x.u64 f).toNat
      let es := s.tlbVictims x.c.ctx va
      if s.copies.any fun c => c.ctx == x.c.ctx && c.through es then { s := s, retry := true }
      else
        let s := s.await false x.tid x.gix x.act ⟨false, true, true⟩ false 255 .dev
        let s := s.dropTlb x.c.ctx va
        let old (b : Acc) : Bool := b.ctx == x.c.ctx && throughTlb es b.va.toNat && (match b.place with | .mem _ => true | _ => false)
        { s := s.settle fun b => if !old b then .no else if b.kind.isPost then .home else .done }) s

end Sys2Proof.Machine
end

