-- ==== Sys2Proof/Machine/Service.lean ====
section
/-! DEFINITION. The service of the fault buffers, completion words, and the destruction of a context (R278, R290 to R293, R399). -/

namespace Sys2Proof.Machine

/-! ### Fault buffers (R291, R292) -/

/-- The lanes of a held fault stand at its entry once that is written. -/
def Lane.entryWritten (d i serial : Nat) (l : Lane) : Lane :=
  match l.st with
  | .parked (.heldFault e r n) => if e.serial == serial then { l with st := .parked (.buffer d i e r n) } else l
  | _ => l

def State.eachLane (s : State) (f : Lane → Lane) : State :=
  { s with teams := s.teams.map fun t => { t with groups := t.groups.map fun g => { g with lanes := g.lanes.map f } } }

/-- Write the oldest fault that a die holds, if a place is free. -/
def State.writeHeld (s : State) (d : Nat) : Option State :=
  match s.die? d with
  | none => none
  | some die =>
    match die.heldFaults with
    | [] => none
    | e :: rest =>
      if 1024 ≤ die.count then none
      else
        let s := (s.modDie d fun x => { x with heldFaults := rest }).writeEntry d e
        some (s.eachLane (Lane.entryWritten d die.fbhead e.serial))

/-- Move the tail: a value beyond the head, or more than 1,024 behind it, is ignored (Table 12-8). -/
def Die.setTail (d : Die) (x : Nat) : Die := if (d.fbhead + 2 ^ 32 - x) % 2 ^ 32 ≤ 1024 then { d with fbtail := x } else d

/-- The latest head index whose low ten bits are given. -/
def Die.latest (d : Die) (i : Nat) : Nat := (d.fbhead + 2 ^ 32 - 1 - (d.fbhead + 2 ^ 32 - 1 - i % 1024) % 1024) % 2 ^ 32

/-- The entry that a lane is parked on, at an index of a die. -/
def Lane.entryAt (d h : Nat) (l : Lane) : Option FEntry :=
  match l.st with
  | .parked (.buffer d' h' e _ _) => if d' == d && h' == h then some e else none
  | _ => none

/-- A lane released from its entry: at the resume PC of the code, where all but TRAP retry, or at the successor. -/
def Lane.freed (d h : Nat) (skip : Bool) (l : Lane) : Lane :=
  match l.st with
  | .parked (.buffer d' h' e resume succ) =>
    if d' == d && h' == h then (if skip then l.wake succ false else l.wake resume (e.flt.code != Code.trap)) else l
  | _ => l

/-- A halted lane goes on where it stands (R191); what was active has been parked meanwhile (R64). -/
def Lane.unhalt (l : Lane) : Lane :=
  if !l.halted then l
  else if l.st == .active && !l.retry then { l.invalidate with halted := false }
  else { l with halted := false }

/-- A group whose lanes are released from an entry; after `hlt` all of it goes on. -/
def Group.freed (d h : Nat) (skip : Bool) (g : Group) : Group :=
  let halt := g.lanes.any fun l => ((l.entryAt d h).map (·.halt)).getD false
  let lanes := g.lanes.map (Lane.freed d h skip)
  { g with lanes := if halt then lanes.map Lane.unhalt else lanes }

/-- A write of FBREL (R292): release the lanes of the latest entry with an index to retry (0) or to go past (1), or kill their
team (2). -/
def State.fbrel (s : State) (d i action : Nat) : State :=
  match s.die? d with
  | none => s
  | some die =>
    let h := die.latest i
    if action < 2 then { s with teams := s.teams.map fun t => { t with groups := t.groups.map (Group.freed d h (action == 1)) } }
    else if action == 2 then
      -- the launch keeps the code of its first kill through a buffer (R278)
      let first (s : State) (tid code : Nat) : State :=
        match s.team? tid with
        | some t => s.modLaunch t.lid fun l => { l with killed := l.killed.orElse fun _ => some code }
        | none => s
      (s.teams.filterMap fun t => ((t.groups.flatMap (·.lanes)).findSome? (Lane.entryAt d h)).map fun e => (t.tid, e.flt.code)).foldl
        (fun s p => (first s p.1 p.2).killTeam p.1 p.2) s
    else s

/-! ### Completion words (R278) -/

/-- The status word of a packet (R278): not written to address 0 or a misaligned one; a fault is reported. None: it waits for the
dirty log. -/
def State.writeStatus (s : State) (ctx : Nat) (va : Dword) (status : Nat) : Option State :=
  if va == 0 || va.toNat % 4 != 0 then some s
  else
    match s.engineWrite ⟨ctx, 3, 0, .host⟩ va (toLe 4 (status % 256)) 4 with
    | none => none
    | some (.ok s) => some s
    | some (.error f) => some (s.reportBare ctx f false)

/-- The bytes in a place of a queue's ring. -/
def State.ringBytes (s : State) (q : Queue) (i : Nat) : List Byte := s.read (s.gpaOf (q.base + 64 * (i % 2 ^ q.m))) 64

/-- The completion address of a packet's bytes. -/
def complOf (bs : List Byte) : Dword := BitVec.ofNat 64 (pf bs 56 8)

/-! ### Destruction (R278, R399) -/

/-- The status of a packet in flight when its context goes: the code of the first kill through a fault buffer, else STALL (R278). -/
def State.lastStatus (s : State) (q seq : Nat) : Nat :=
  match s.launches.find? fun l => l.queue == some q && l.seq == seq with
  | some l => l.killed.getD Code.stall
  | none => Code.stall

/-- Every packet of a queue that has been appended and has not completed completes. -/
def State.endQueue (s : State) (q : Queue) : Option State :=
  let flying := q.flights.map fun f => (f.compl, s.lastStatus q.q f.seq)
  let waiting := (List.range (q.wr - q.rd)).map fun i => (complOf (s.ringBytes q (q.rd + i)), Code.stall)
  (flying ++ waiting).foldl (fun (w : Option State) p => w.bind fun s => s.writeStatus q.ctx p.1 p.2) (some s)

/-- What the chip holds for a context beside its teams is released, and its translations and code lines are dropped. -/
def State.release (s : State) (ctx : Nat) : State :=
  let lids := (s.launches.filter (·.ctx == ctx)).map (·.lid)
  let s := s.dropTlb ctx none
  { s with
    launches := s.launches.filter (·.ctx != ctx)
    pools := s.pools.filter fun p => !lids.contains p.lid
    queues := s.queues.filter (·.ctx != ctx)
    copies := s.copies.filter (·.ctx != ctx)
    tiles := s.tiles.filter (·.ctx != ctx)
    agents := s.agents.map fun a => { a with walker := a.walker.filter (·.ctx != ctx) }
    cores := s.cores.map fun p => (p.1, { p.2 with ilines := p.2.ilines.filter (·.ctx != ctx) }) }

/-- Destroy a context: its teams end, its packets complete, then everything of it is released. None: a completion word waits for the
dirty log.
DEDUCED (log 51; unsafe). -/
def State.destroyCtx (s : State) (ctx : Nat) : Option State :=
  let s := (s.teams.filter (·.ctx == ctx)).foldl (fun s t => (s.dropWork t).removeTeam t) s
  ((s.queues.filter (·.ctx == ctx)).foldl (fun (w : Option State) q => w.bind fun s => s.endQueue q) (some s)).map fun s =>
    let s := s.release ctx
    { s with ctxs := s.ctxs.filter (·.ctx != ctx), letterboxes := s.letterboxes.filter (·.ctx != ctx) }

end Sys2Proof.Machine
end

