-- ==== Sys2Proof/Machine/Queue.lean ====
section
/-! DEFINITION. Host command queues: appends, the choice of the next packet, and its completion (R277 to R283, R287, R414). -/

namespace Sys2Proof.Machine

/-! ### Appends (R277, R281) -/

def Queue.full (q : Queue) : Bool := 2 ^ q.m ≤ q.wr - q.rd

/-- The outcome of an append. -/
inductive Appended where
  | enqueued (s : State)
  | full
  | rejected (s : State)
  | waits
  deriving DecidableEq, Repr

/-- Append 64 bytes to a queue, if they pass the checks; else QPKT goes to their completion address.
DESIGN CHOICE (log 48; unsafe). -/
def State.appendTo (s : State) (q : Queue) (bs : List Byte) : Appended :=
  match parsePacket bs with
  | none =>
    match s.writeStatus q.ctx (complOf bs) Code.qpkt with
    | none => .waits
    | some s => .rejected s
  | some _ =>
    if q.full then .full
    else
      let slot := s.gpaOf (q.base + 64 * (q.wr % 2 ^ q.m))
      .enqueued (((s.visit q.ctx .host 0 slot false).writeHome slot bs).modQueue q.q fun q => { q with wr := q.wr + 1 })

/-- The payload that names a queue (Table 15-8). -/
def queuePayload (base m prio : Nat) : Brand := BitVec.ofNat 128 (base % 2 ^ 64 + m % 256 * 2 ^ 64 + prio % 256 * 2 ^ 72)

/-- The queue that a record's payload names. -/
def State.queueOf (s : State) (payload : Brand) : Option Queue := s.queues.find? fun q => queuePayload q.base q.m q.prio == payload

/-- Read a packet for a doorbell, in its queue's context under the checks of R219. -/
def State.doorbellRead (s : State) (ctx : Nat) (va : Dword) : Except Flt (List Byte) × State :=
  match s.ctx? ctx with
  | none => (.error (Flt.at' Code.pgf va), s)
  | some c =>
    match s.checkVa (c.lmap.headD 0) c va 64 64 .read false true with
    | (.error f, s) => (.error f, s)
    | (.ok k, s) =>
      if !s.onChip k.gpa && !s.reachable (chipOf k.gpa) then (.error { Flt.at' Code.eccu va with remote := true }, s)
      else
        let (bs, s) := (s.engineArrives ⟨ctx, 3, 0, .host⟩ (Pte.cls k.leaf.e) k.gpa 64 true).readHome k.gpa 64
        if s.poisoned k.gpa 64 then (.error (Flt.at' Code.eccu va), s) else (.ok bs, s)

/-- Take a doorbell of a queue with room (R277): its packet is appended or dropped. None: it waits for the dirty log. -/
def State.takeDoorbell (s : State) (q : Queue) (va : Dword) : Option State :=
  match s.doorbellRead q.ctx va with
  | (.error f, s) => some (s.reportBare q.ctx f false)
  | (.ok bs, s) =>
    match s.appendTo q bs with
    | .enqueued s => some s
    | .rejected s => some s
    | .full => none
    | .waits => none

/-! ### Dispatch (R282, R287) -/

/-- The packet at a queue's head, unless a WAITM holds the queue. Its bytes passed the checks when they were appended. -/
def State.headPacket (s : State) (q : Queue) : Option Packet :=
  if q.rd == q.wr || q.waiting.isSome then none else parsePacket (s.ringBytes q q.rd)

/-- Whether a queue's head is eligible (R282). -/
def State.eligible (s : State) (q : Queue) : Bool :=
  match s.headPacket q, s.ctx? q.ctx with
  | some p, some c =>
    c.runs && (if p.kind == 1 then s.launchOpen && (!p.after || q.flights.isEmpty) else if p.kind == 2 || p.kind == 5 then true else q.flights.isEmpty)
  | _, _ => false

/-- Whether a chosen head can be dispatched now: a launch needs a place in every sorter (R276, R283). -/
def State.dispatchable (s : State) (q : Queue) : Bool := match s.headPacket q with | some p => p.kind != 1 || s.sorterRoom q.ctx none | none => false

/-- The wait of one queue at a decision, `d` cycles after the last one of its partition: a head that has become eligible since has
waited some part of them, and a deterministic launch does not age.
DESIGN CHOICE (log 48; unsafe). -/
def State.ageQueue (s : State) (d : Nat) (q : Queue) : State :=
  if !s.eligible q then s.modQueue q.q fun q => { q with age := 0, ripe := false }
  else if ((s.headPacket q).map fun p => p.kind == 1 && p.det).getD false then s.modQueue q.q fun q => { q with age := 0, ripe := true }
  else if q.ripe then s.modQueue q.q fun q => { q with age := q.age + d }
  else
    let (e, s) := s.freeNat
    s.modQueue q.q fun q => { q with age := e % (d + 1), ripe := true }

/-- Time passes, a free number of cycles, for the queues of a partition.
DESIGN CHOICE (log 48; unsafe). -/
def State.age (s : State) (ctx : Nat) : State :=
  let (d, s) := s.freeNat
  (s.queues.filter (·.ctx == ctx)).foldl (fun s q => s.ageQueue d q) s

/-- Effective priority (R287).
DESIGN CHOICE (log 48; unsafe). -/
def Queue.effective (q : Queue) : Nat := min 15 (q.prio + q.age / 2 ^ 20)

/-- How far above the queue last dispatched at its level a queue stands (R287). -/
def State.turn (s : State) (q : Queue) : Nat := (q.q + 511 - lookupKey (16 * q.ctx + q.effective) 255 s.rr) % 256

/-- The queue that a partition dispatches next (R287).
DESIGN CHOICE (log 48; unsafe). -/
def State.choose (s : State) (ctx : Nat) : Option Queue :=
  (s.queues.filter fun q => q.ctx == ctx && s.eligible q).foldl (fun (best : Option Queue) q =>
    match best with
    | none => some q
    | some b =>
      if b.effective < q.effective || (b.effective == q.effective && (s.turn q < s.turn b || (s.turn q == s.turn b && q.q < b.q))) then some q
      else some b) none

/-- Take a packet off its queue. -/
def State.takeHead (s : State) (q : Queue) (p : Packet) : State :=
  let s := { s with rr := setKey (16 * q.ctx + q.effective) q.q s.rr }
  s.modQueue q.q fun x => { x with rd := x.rd + 1, age := 0, ripe := false, flights := x.flights ++ [⟨q.rd, p.compl⟩] }

/-- Dispatch a queue's head of a kind, where the arbiter chooses it: the queue as it stood, the packet, and the state without it. A chosen launch that finds
no place waits, and nothing of its partition is dispatched before it.
DESIGN CHOICE (log 48; unsafe). -/
def State.dispatch (s : State) (n kind : Nat) (k : Queue → Packet → State → Option State) : Option State :=
  match s.queue? n with
  | none => none
  | some q0 =>
    let s := s.age q0.ctx
    match s.choose q0.ctx with
    | none => none
    | some q =>
      match s.headPacket q with
      | none => none
      | some p => if q.q != n || p.kind != kind || !s.dispatchable q then none else k q p (s.takeHead q p)

/-- A packet completes with a status (R278). None: the completion word waits for the dirty log. -/
def State.endPacket (s : State) (n seq status : Nat) : Option State :=
  match s.queue? n with
  | none => some s
  | some q =>
    match q.flights.find? (·.seq == seq) with
    | none => some s
    | some f => (s.writeStatus q.ctx f.compl status).map fun s => s.modQueue n fun q => { q with flights := q.flights.filter (·.seq != seq) }

/-- Whether a code object's record counts a reference that no queue is known to hold: one that software took for a queue with `bref`, or the host (R414).
DEDUCED (log 50; unsafe). -/
def State.spareRef (s : State) (b : Brand) : Bool :=
  match s.findRec b with
  | some (_, r) => r.st == 1 && (s.queues.filter fun q => q.refs.contains b).length < r.refs
  | none => false

/-- A queue that launches a kernel holds one of the references on its code object (R414): software took it, and the count does not change.
DEDUCED (log 50; unsafe). -/
def State.holdObject (s : State) (q : Queue) (pc : Dword) : State :=
  match (s.ctx? q.ctx).bind fun c => s.codeObject c pc with
  | none => s
  | some b => if q.refs.contains b || !s.spareRef b then s else s.modQueue q.q fun x => { x with refs := x.refs ++ [b] }

end Sys2Proof.Machine
end

