-- ==== Sys2Proof/Machine/Sha.lean ====
section
/-! DEFINITION. SHA-256, which the image digest and the firmware digests use (R401, R420). PRESUMED: the function itself is the public
standard; the manual only names it. -/

namespace Sys2Proof.Machine

namespace Sha

/-- The round constants. -/
def k : List Word :=
  [0x428a2f98, 0x71374491, 0xb5c0fbcf, 0xe9b5dba5, 0x3956c25b, 0x59f111f1, 0x923f82a4, 0xab1c5ed5]
  ++ [0xd807aa98, 0x12835b01, 0x243185be, 0x550c7dc3, 0x72be5d74, 0x80deb1fe, 0x9bdc06a7, 0xc19bf174]
  ++ [0xe49b69c1, 0xefbe4786, 0x0fc19dc6, 0x240ca1cc, 0x2de92c6f, 0x4a7484aa, 0x5cb0a9dc, 0x76f988da]
  ++ [0x983e5152, 0xa831c66d, 0xb00327c8, 0xbf597fc7, 0xc6e00bf3, 0xd5a79147, 0x06ca6351, 0x14292967]
  ++ [0x27b70a85, 0x2e1b2138, 0x4d2c6dfc, 0x53380d13, 0x650a7354, 0x766a0abb, 0x81c2c92e, 0x92722c85]
  ++ [0xa2bfe8a1, 0xa81a664b, 0xc24b8b70, 0xc76c51a3, 0xd192e819, 0xd6990624, 0xf40e3585, 0x106aa070]
  ++ [0x19a4c116, 0x1e376c08, 0x2748774c, 0x34b0bcb5, 0x391c0cb3, 0x4ed8aa4a, 0x5b9cca4f, 0x682e6ff3]
  ++ [0x748f82ee, 0x78a5636f, 0x84c87814, 0x8cc70208, 0x90befffa, 0xa4506ceb, 0xbef9a3f7, 0xc67178f2]

/-- The initial value. -/
def h0 : List Word := [0x6a09e667, 0xbb67ae85, 0x3c6ef372, 0xa54ff53a, 0x510e527f, 0x9b05688c, 0x1f83d9ab, 0x5be0cd19]

/-- The next word of a message schedule that is held newest first. -/
def extend (w : List Word) : List Word :=
  let x := w.getD 14 0
  let y := w.getD 1 0
  let s0 := x.rotateRight 7 ^^^ x.rotateRight 18 ^^^ x >>> 3
  let s1 := y.rotateRight 17 ^^^ y.rotateRight 19 ^^^ y >>> 10
  (w.getD 15 0 + s0 + w.getD 6 0 + s1) :: w

/-- The 64 words of the schedule of a block. -/
def schedule (block : List Word) : List Word := ((List.range 48).foldl (fun w _ => extend w) block.reverse).reverse

/-- One round. -/
def round (v : List Word) (kw : Word × Word) : List Word :=
  match v with
  | [a, b, c, d, e, f, g, h] =>
    let s1 := e.rotateRight 6 ^^^ e.rotateRight 11 ^^^ e.rotateRight 25
    let ch := (e &&& f) ^^^ (~~~e &&& g)
    let t1 := h + s1 + ch + kw.1 + kw.2
    let s0 := a.rotateRight 2 ^^^ a.rotateRight 13 ^^^ a.rotateRight 22
    let maj := (a &&& b) ^^^ (a &&& c) ^^^ (b &&& c)
    [t1 + (s0 + maj), a, b, c, d + t1, e, f, g]
  | v => v

/-- Take one block into the value. -/
def compress (v block : List Word) : List Word := (v.zip ((k.zip (schedule block)).foldl round v)).map fun p => p.1 + p.2

/-- The big-endian word of four bytes, and its bytes. -/
def beWord (bs : List Byte) : Word := bs.foldl (fun w b => w <<< 8 ||| b.zeroExtend 32) 0
def beBytes (w : Word) : List Byte := [w.extractLsb' 24 8, w.extractLsb' 16 8, w.extractLsb' 8 8, w.extractLsb' 0 8]

/-- A message with its padding. -/
def pad (bs : List Byte) : List Byte :=
  let n := 8 * bs.length
  bs ++ 0x80 :: List.replicate ((119 - bs.length % 64) % 64) 0 ++ beBytes (BitVec.ofNat 32 (n / 2 ^ 32)) ++ beBytes (BitVec.ofNat 32 n)

/-- Take the blocks of a padded message; `n` counts them. -/
def blocks : Nat → List Byte → List Word → List Word
  | 0, _, v => v
  | n + 1, bs, v => blocks n (bs.drop 64) (compress v ((List.range 16).map fun i => beWord ((bs.drop (4 * i)).take 4)))

end Sha

/-- The 32 bytes of the SHA-256 digest of a message.
PRESUMED (log 24; unsafe). -/
def sha256 (bs : List Byte) : List Byte :=
  let m := Sha.pad bs
  (Sha.blocks (m.length / 64) m Sha.h0).flatMap Sha.beBytes

end Sys2Proof.Machine
end

