-- ==== Sys2Proof/Machine/Image.lean ====
section
/-! DEFINITION. Context records and context images: creation, the bytes of an image, and what they hold (R398, R401 to R403). -/

namespace Sys2Proof.Machine

/-! ### Context records (Table 21-1) -/

/-- A field of a context record in memory. -/
def State.recField (s : State) (rec' off n : Nat) : Nat := s.readNat (s.gpaOf (rec' + off)) n

/-- The ranks of a device grid of a size, and where each is (R324). A context without a grid has one.
DEDUCED (log 55; unsafe). -/
def State.gridOf (s : State) (rec' : Nat) (n : Nat × Nat × Nat) : (Nat × Nat × Nat) × List (Nat × Nat) :=
  let at' := s.recField rec' 96 8
  if at' == 0 then ((1, 1, 1), [])
  else
    (n, (List.range (min 1024 (n.1 * n.2.1 * n.2.2))).map fun i => (s.readNat (s.gpaOf (at' + 4 * i)) 2, s.readNat (s.gpaOf (at' + 4 * i + 2)) 2))

/-- Whether a record has a field outside its range (R42, R398).
DEDUCED (log 55; unsafe). -/
def State.recBad (s : State) (rec' : Nat) : Bool :=
  let f := s.recField rec'
  let flags := f 49 1
  let dln := f 48 1
  let nl := f 52 4
  let grid := (f 90 2, f 92 2, f 94 2)
  rec' % 256 != 0 || 0xC000000000 < rec' + 256 || f 8 24 != 0 || f 88 2 != 0 || f 120 136 != 0 || 15 < flags || (flags.testBit 2 && flags.testBit 3)
    || !(dln == 0 || (10 ≤ dln && dln ≤ 20)) || nl == 0 || 1536 < nl || 32767 < f 50 2 || f 0 8 % 2 ^ 18 != 0 || !isDram (f 0 8)
    || f 32 8 % 4096 != 0 || f 64 8 % 4096 != 0 || f 112 8 % 16 != 0
    || (f 96 8 != 0 && (grid.1 * grid.2.1 * grid.2.2 == 0 || 1024 < grid.1 * grid.2.1 * grid.2.2))

/-- The core map that a record names; none where it names a core twice or a core that does not exist (R42).
DEDUCED (log 55; unsafe). -/
def State.recMap (s : State) (rec' : Nat) : Option (List Nat) :=
  let at' := s.recField rec' 56 8
  let m := (List.range (min 1536 (s.recField rec' 52 4))).map fun i => s.readNat (s.gpaOf (at' + 2 * i)) 2
  if m.all (· < 1536) && m.eraseDups.length == m.length then some m else none

/-- The fields that the host writes of a context that exists, as its record holds them now (R398, R406). What is fixed at creation stays: the core map, the
kind of allocation and the size of the grid (R49, R324); a log that has been consumed is not replayed again (R407).
DEDUCED (log 55; unsafe). -/
def State.readRec (s : State) (c : Context) : Context :=
  let f := s.recField c.record
  let flags := f 49 1
  let dln := f 48 1
  let held := c.st == .stopped || c.st == .logFull
  let len := f 72 8
  { c with
    ptroot := f 0 8, dlbase := f 32 8, dln := if dln == 0 || (10 ≤ dln && dln ≤ 20) then dln else c.dln, priv := flags.testBit 0, log := flags.testBit 2
    replay := flags.testBit 3 && c.replayPos.length < len, pmbase := f 64 8, pmlen := len, rankTable := (s.gridOf c.record c.nrank).2, bcap := f 104 4
    blist := f 112 8, pmpos := if held then f 80 8 else c.pmpos }

/-- The context that a record makes (R398). None: it is refused.
DESIGN CHOICE (log 8; unsafe); DEDUCED (log 55; unsafe). -/
def State.contextFrom (s : State) (rec' : Nat) : Option Context :=
  if s.recBad rec' then none
  else
    (s.recMap rec').map fun m =>
      let f := s.recField rec'
      let flags := f 49 1
      s.readRec
        { ctx := f 50 2, record := rec', ptroot := 0, dlbase := 0, dln := f 48 1, dlhead := 0, dltail := BitVec.ofNat 32 (f 44 4), priv := flags.testBit 0
          fixed := flags.testBit 1, log := flags.testBit 2, replay := flags.testBit 3, nlcore := f 52 4, lmap := m, pmbase := 0, pmlen := 0, pmpos := 0
          nrank := (s.gridOf rec' (f 90 2, f 92 2, f 94 2)).1, rankTable := [], blist := 0, bcap := 0, bcount := 0, bovf := false, thnd := 0, ten := 0, fence := false, alg := [], cmp := []
          streams := [], ranges := [], st := if flags.testBit 3 && f 72 8 == 0 then .replayEnded else .running, frozen := false, saving := none, progress := 0, traffic := [], phases := [], replayPos := []
          heldEvents := [] }

/-- The device's own fields of a record, written as the context holds them. -/
def State.writeOwn (s : State) (c : Context) : State :=
  ((s.writeRec c 40 4 c.dlhead.toNat).writeRec c 80 8 c.pmpos).writeRec c 108 4 (c.bcount + if c.bovf then 2 ^ 31 else 0)

/-- The tail of a dirty log moves; accesses parked for room retry (R206). -/
def Lane.leaveLog (l : Lane) : Lane := if l.st == .parked .dirtyLog then l.wake l.pc true else l
def State.setTail (s : State) (ctx : Nat) (x : Word) : State :=
  let s := s.modCtx ctx fun c => { c with dltail := x }
  let group (g : Group) : Group := { g with lanes := g.lanes.map Lane.leaveLog }
  let team (t : Team) : Team := { t with groups := t.groups.map group }
  { s with teams := modWhere (·.ctx == ctx) team s.teams }

/-! ### Records of the brand table (Table 15-7) -/

def BRec.bytes (r : BRec) : List Byte :=
  toLe 7 r.seq ++ toLe 1 (r.kind % 16 + r.st % 16 * 16) ++ toLe 4 (r.refs % 2 ^ 20 + r.origin % 2 ^ 12 * 2 ^ 20) ++ toLe 4 r.version.toNat ++ toLe 16 r.payload.toNat

def BRec.read (bs : List Byte) : BRec :=
  ⟨pf bs 0 7, pf bs 7 1 % 16, pf bs 7 1 / 16, pf bs 8 4 / 2 ^ 20, pf bs 8 4 % 2 ^ 20, BitVec.ofNat 32 (pf bs 12 4), BitVec.ofNat 128 (pf bs 16 16)⟩

/-! ### The sections of an image (Tables 21-4 to 21-6)

The order and the sizes are the manual's. Where the tables give a field no place of its own, the fields stand in the tables' order; what a restore needs
beside them stands in the bytes that the tables leave over. -/

/-- Bytes cut or filled with zeros to a length. -/
def fitBytes (n : Nat) (bs : List Byte) : List Byte := bs.take n ++ List.replicate (n - bs.length) 0

def bit (b : Bool) : Nat := if b then 1 else 0

/-- A run of bytes within others, and an item for each of the records of some size in them. -/
def cut (bs : List Byte) (off n : Nat) : List Byte := (bs.drop off).take n
def records {α : Type} (size : Nat) (f : List Byte → α) (bs : List Byte) : List α := (List.range (bs.length / max size 1)).map fun i => f (cut bs (size * i) size)

/-- A store that holds some values, from key 0 on. -/
def cellsAt {w : Nat} (first : Nat) (xs : List (BitVec w)) : Cells w := xs.zipIdx.foldl (fun c p => Cells.set c (first + p.2) p.1) []
def cellsFrom {w : Nat} (xs : List (BitVec w)) : Cells w := cellsAt 0 xs
/-- The numbers of `n` bytes each in a run of bytes. -/
def wordsIn (n : Nat) (bs : List Byte) : List Nat := records n leNat bs

/-- A stream register (Table 21-4); one that was never allocated shows zeros.
DESIGN CHOICE (log 23; unsafe). -/
def streamBytes (c : Context) (n : Nat) : List Byte :=
  match c.streams.find? (·.n == n) with
  | some r => toLe 8 (bit r.on) ++ toLe 4 r.keyLo.toNat ++ toLe 4 r.keyHi.toNat ++ toLe 16 r.brand.toNat
  | none => toLe 32 0

def streamIn (n : Nat) (bs : List Byte) : Option Stream :=
  if bs.all (· == 0) then none
  else some ⟨n, pf bs 0 1 % 2 == 1, BitVec.ofNat 128 (pf bs 16 16), BitVec.ofNat 32 (pf bs 8 4), BitVec.ofNat 32 (pf bs 12 4)⟩

def rangeBytes (c : Context) (die index : Nat) : List Byte :=
  match c.ranges.find? fun r => r.die == die && r.index == index with
  | some r => toLe 8 r.base ++ toLe 4 r.len ++ toLe 4 1
  | none => toLe 16 0

def rangeIn (i : Nat) (bs : List Byte) : Option Range := if pf bs 12 1 % 2 == 1 then some ⟨i / 64, i % 64, pf bs 0 8, pf bs 8 4, .rgi⟩ else none

def cmpBytes (t : List (Word × Word)) : List Byte := t.flatMap fun p => toLe 4 p.1.toNat ++ toLe 4 p.2.toNat
def cmpIn (bs : List Byte) : List (Word × Word) := records 8 (fun b => (BitVec.ofNat 32 (pf b 0 4), BitVec.ofNat 32 (pf b 4 4))) bs

def queueBytes (q : Queue) : List Byte := toLe 16 q.brand.toNat ++ toLe 8 q.rd ++ toLe 8 q.wr ++ toLe 8 q.mark.toNat ++ toLe 8 q.age

/-- The kinds of a lane's state and park reason. -/
def laneKind (l : Lane) : Nat :=
  match l.woke with
  | some keep => if keep then 14 else 13
  | none =>
    match l.st with
    | .active => 0
    | .exited => 1
    | .never => 2
    | .parked (.join _ _) => 3
    | .parked (.sector _ _) => 4
    | .parked (.buffer _ _ _ _ _) => 5
    | .parked (.heldFault _ _ _) => 6
    | .parked .dirtyLog => 7
    | .parked .exiting => 8
    | .parked (.barrier _ _ _) => 9
    | .parked (.counter _ _ _) => 10
    | .parked (.word _) => 11
    | .parked (.phase _ _) => 12

/-- What the reason is about: a mask, a barrier, a fault code. -/
def laneArg (l : Lane) : Nat :=
  match l.st with
  | .parked (.join m _) => m
  | .parked (.barrier b _ _) => b
  | .parked (.buffer _ _ e _ _) => e.flt.code
  | .parked (.heldFault e _ _) => e.flt.code
  | .parked (.phase p _) => bit p
  | _ => 0

/-- The fault that a lane waits on. -/
def Lane.fault? (l : Lane) : Option FEntry :=
  match l.st with
  | .parked (.buffer _ _ e _ _) => some e
  | .parked (.heldFault e _ _) => some e
  | _ => none

/-- A lane's state and park reason: bits 3:0 kind; 7:4 of a fault ALT, REMOTE, halt and nested; 12:8 what it is about; 13 latches kept; 14 trap-held;
15 halted.
DESIGN CHOICE (log 23; unsafe). -/
def laneCode (l : Lane) : Nat :=
  let flags := match l.fault? with | some e => bit e.flt.alt + 2 * bit e.flt.remote + 4 * bit e.halt + 8 * bit e.nested | none => 0
  laneKind l + 2 ^ 4 * flags + 2 ^ 8 * (laneArg l % 32) + 2 ^ 13 * bit (l.retry || l.lastHold) + 2 ^ 14 * bit l.held + 2 ^ 15 * bit l.halted

def latchBits (l : List Latch) : Nat := (l.zipIdx.map fun p => bit p.1.valid * 2 ^ p.2).foldl (· + ·) 0

def laneBytes (budget : Nat) (l : Lane) : List Byte :=
  toLe 2 (laneCode l) ++ toLe 1 l.p.toNat ++ toLe 1 (latchBits l.latches + 16 * latchBits l.saved) ++ toLe 8 (shownPc l.pc).toNat
    ++ fitBytes 16 (l.latches.flatMap fun x => toLe 4 x.val.toNat) ++ fitBytes 16 (l.saved.flatMap fun x => toLe 4 x.val.toNat)
    ++ (List.range budget).flatMap fun i => toLe 4 (Cells.get l.v i).toNat

/-- The latches that 16 bytes and four valid bits give. -/
def latchesIn (valid : Nat) (bs : List Byte) : List Latch := (wordsIn 4 bs).zipIdx.map fun p => ⟨BitVec.ofNat 32 p.1, valid.testBit p.2, none⟩

/-- A lane of an image. One that waits for anything but the service of a fault issues its instruction again; `entry` gives the fault that a lane waits on
(R403), and `succ` what follows a PC. -/
def laneIn (entry : Nat → Dword → FEntry) (succ : Dword → Dword) (bs : List Byte) : Lane :=
  let code := pf bs 0 2
  let kind := code % 16
  let pc := BitVec.ofNat 64 (pf bs 4 8)
  let valid := pf bs 3 1
  let fault := kind == 5 || kind == 6
  let st : LaneSt :=
    if kind == 1 then .exited
    else if kind == 2 then .never
    else if fault then .parked (.heldFault (entry code pc) (resumePc (code / 2 ^ 8 % 32) pc (succ pc)) (succ pc))
    else .active
  { st := st, pc := pc, v := cellsFrom ((wordsIn 4 (bs.drop 44)).map (BitVec.ofNat 32)), p := BitVec.ofNat 7 (pf bs 2 1)
    latches := latchesIn (valid % 16) (cut bs 12 16), saved := latchesIn (valid / 16) (cut bs 28 16)
    lastHold := false, retry := !fault && (code.testBit 13 || (3 ≤ kind && kind ≤ 12)), held := code.testBit 14
    woke := if kind == 13 then some false else if kind == 14 then some true else none, halted := code.testBit 15 }

def groupBytes (g : Group) : List Byte :=
  fitBytes 32 (toLe 1 g.gix ++ toLe 1 g.role ++ toLe 2 g.budget ++ toLe 1 g.grant ++ toLe 1 (bit g.grch) ++ toLe 1 (bit g.handler) ++ toLe 1 g.slotNo
      ++ fitBytes 8 (g.octets.flatMap fun o => toLe 1 o.slice))
    ++ fitBytes 16 (toLe 4 g.fpst.toNat ++ toLe 2 g.cc ++ toLe 2 g.mc ++ toLe 2 g.oc)
    ++ toLe 8 g.gissue.toNat ++ toLe 8 g.gwait.toNat ++ toLe 8 g.gpass.toNat ++ toLe 8 g.gpark.toNat
    ++ fitBytes 64 (toLe 4 g.tcause.toNat ++ toLe 8 g.tmask.toNat ++ toLe 8 g.tpc.toNat ++ toLe 12 g.tword.toNat ++ toLe 8 g.taddr.toNat
      ++ (List.range 4).flatMap fun i => toLe 4 (Cells.get g.tscr i).toNat)
    ++ ((List.range 64).flatMap fun i => toLe 4 (Cells.get g.k i).toNat) ++ ((List.range 8).flatMap fun i => toLe 8 (Cells.get g.j i).toNat)
    ++ g.lanes.flatMap (laneBytes g.budget)

/-- How long a group's record is, from its first 32 bytes. -/
def groupSize (bs : List Byte) : Nat := 464 + pf bs 4 1 * (44 + 4 * pf bs 2 2)

/-- A group of an image; `name` numbers the faults that its lanes wait on. -/
def groupIn (ctx core tid name : Nat) (succ : Dword → Dword) (bs : List Byte) : Group :=
  let budget := pf bs 2 2
  let raw := records (44 + 4 * budget) id ((bs.drop 464).take (pf bs 4 1 * (44 + 4 * budget)))
  let key (l : List Byte) : Nat × Nat := (pf l 0 2 % 2 ^ 13, pf l 4 8)
  let entry (code : Nat) (pc : Dword) : FEntry :=
    let like := (List.range raw.length).filter fun i => key (raw.getD i []) == (code % 2 ^ 13, pc.toNat)
    let flt : Flt := ⟨code / 2 ^ 8 % 32, code.testBit 4, code.testBit 5, 0, 0⟩
    ⟨ctx, core, pf bs 7 1, flt, code.testBit 6, code.testBit 7, false, laneMask like, pc, some (tid, pf bs 0 1), name + like.headD 0⟩
  let words (off n : Nat) : List Word := (wordsIn 4 (cut bs off (4 * n))).map (BitVec.ofNat 32)
  { gix := pf bs 0 1, role := pf bs 1 1, budget := budget, grant := pf bs 4 1, grch := pf bs 5 1 == 1, slotNo := pf bs 7 1
    octets := (cut bs 8 ((pf bs 4 1 + 7) / 8)).map fun b => ⟨b.toNat, 0⟩, lanes := raw.map (laneIn entry succ)
    k := cellsFrom (words 144 64), j := cellsFrom ((wordsIn 8 (cut bs 400 64)).map (BitVec.ofNat 64))
    fpst := BitVec.ofNat 5 (pf bs 32 4), cc := pf bs 36 2, mc := pf bs 38 2, oc := pf bs 40 2, handler := pf bs 6 1 == 1
    tcause := BitVec.ofNat 32 (pf bs 80 4), tmask := BitVec.ofNat 64 (pf bs 84 8), tpc := BitVec.ofNat 64 (pf bs 92 8), tpend := none, tword := BitVec.ofNat 96 (pf bs 100 12)
    taddr := BitVec.ofNat 64 (pf bs 112 8), tscr := cellsFrom (words 120 4), gissue := BitVec.ofNat 64 (pf bs 48 8), gwait := BitVec.ofNat 64 (pf bs 56 8)
    gpass := BitVec.ofNat 64 (pf bs 64 8), gpark := BitVec.ofNat 64 (pf bs 72 8), wait := none, chain := 0, tip := [], yieldTo := [], wfls := [], last := []
    stale := [], seen := [], behind := none, ahead := none }

def tagBytes (t : Team) (slot : Nat) : List Byte :=
  fitBytes 64 (match t.tags.find? (·.slot == slot) with | some x => toLe 8 (1 + 2 * bit x.lock + 4 * x.line) | none => [])
def tagIn (slot : Nat) (bs : List Byte) : Option Tag := let x := pf bs 0 8; if x % 2 == 1 then some ⟨slot, x.testBit 1, x / 4⟩ else none

def bindingBytes (b : Option Binding) : List Byte := match b with | some b => toLe 8 (1 + 2 * bit b.pool) ++ toLe 4 b.off ++ toLe 4 b.fw.toNat | none => toLe 16 0
def bindingIn (bs : List Byte) : Option Binding :=
  if pf bs 0 1 % 2 == 1 then some ⟨pf bs 0 1 / 2 % 2 == 1, pf bs 8 4, BitVec.ofNat 32 (pf bs 12 4), []⟩ else none

def allocBytes (a : Alloc) : List Byte :=
  fitBytes 16 (toLe 2 a.tag ++ toLe 2 a.first ++ toLe 2 a.banks.length) ++ bindingBytes a.active ++ bindingBytes a.shadow
    ++ (List.range (16384 * a.banks.length)).flatMap fun i => toLe 4 (Cells.get a.words (16384 * a.first + i)).toNat
def allocSize (bs : List Byte) : Nat := 48 + 65536 * pf bs 4 2
def allocIn (bs : List Byte) : Alloc :=
  ⟨pf bs 0 2, pf bs 2 2, List.range (pf bs 4 2), bindingIn (cut bs 16 16), bindingIn (cut bs 32 16),
    cellsAt (16384 * pf bs 2 2) ((wordsIn 4 (cut bs 48 (65536 * pf bs 4 2))).map (BitVec.ofNat 32))⟩

/-- Source elements written by a copy (R323). -/
def Copy.written (c : Copy) : Nat := (c.pieces.filter (·.done)).foldl (fun k p => max k (p.el + 1)) 0

/-- A stopped copy: both records, with RESUME the number of elements written; its tiles, group, slot and status stand beside it.
DESIGN CHOICE (log 23; unsafe). -/
def copyBytes (c : Copy) : List Byte :=
  c.srcRec.take 112 ++ toLe 8 c.written ++ toLe 4 c.ts ++ toLe 1 c.gix ++ toLe 1 c.slot ++ toLe 2 0
    ++ c.dstRec.take 112 ++ toLe 8 c.written ++ toLe 4 c.td ++ toLe 1 c.status ++ toLe 3 0

/-- A stopped copy of an image: one piece stands for the elements written, until its places are translated again. -/
def copyIn (id core tid ctx : Nat) (bs : List Byte) : Copy :=
  let k := pf bs 112 8
  let written : List Piece := if k == 0 then [] else [⟨.mem 0, none, [], 0, k - 1, none, 0, true⟩]
  { id := id, core := core, tid := tid, gix := pf bs 124 1, ctx := ctx, cpx := false, srcRec := cut bs 0 112 ++ toLe 16 0, dstRec := cut bs 128 112 ++ toLe 16 0
    ts := pf bs 120 4, td := pf bs 248 4, pieces := written, hist := [], snap := ⟨[], []⟩, got := [], data := none, targets := [], slot := pf bs 125 1, status := pf bs 252 1
    remote := false }

/-- A team's record before its groups (Table 21-5). -/
def State.teamBytes (s : State) (launches : List Launch) (t : Team) : List Byte :=
  let copies := s.copies.filter fun c => c.tid == t.tid && !c.cpx
  fitBytes 32 (toLe 4 t.t ++ toLe 4 (launches.findIdx (·.lid == t.lid)) ++ toLe 2 t.lcore ++ toLe 2 t.core ++ toLe 1 t.prio ++ toLe 1 t.allocSerial.toNat
      ++ toLe 1 0 ++ toLe 1 t.kills ++ toLe 2 copies.length ++ toLe 1 t.allocs.length ++ toLe 1 t.groups.length ++ toLe 2 t.spadLines ++ toLe 1 t.ngroups)
    ++ Cells.bytes t.spad 0 (512 * t.spadLines)
    ++ ((List.range t.spadLines).map fun l => BitVec.ofNat 8 ((List.range 8).map fun i => bit (!t.absent.contains (8 * l + i)) * 2 ^ i).sum)
    ++ ((List.range (8 * (t.spadLines / 8))).flatMap (tagBytes t)) ++ ((List.range (t.spadLines / 8)).flatMap fun i => toLe 1 (Cells.get t.ptrs i).toNat)
    ++ ((List.range 32).flatMap fun i => toLe 8 (Cells.get t.bars i).toNat) ++ Cells.bytes t.shapes 0 4096
    ++ copies.flatMap copyBytes ++ t.allocs.flatMap allocBytes ++ t.groups.flatMap groupBytes

/-- A team of a launch that has no storage, in the place of a record: one placed before its turn that has retired (1), or one to be placed afresh (2).
DESIGN CHOICE (log 23; unsafe). -/
def stubBytes (kind t launch kills core : Nat) : List Byte := fitBytes 32 (toLe 4 t ++ toLe 4 launch ++ toLe 2 0 ++ toLe 2 core ++ toLe 2 0 ++ toLe 1 kind ++ toLe 1 kills)

def stubs (teams : List Team) (i : Nat) (l : Launch) : List Byte :=
  ((l.ahead.filter fun t => !teams.any fun x => x.lid == l.lid && x.t == t).flatMap fun t => stubBytes 1 t i 0 0)
    ++ l.again.flatMap fun a => stubBytes 2 a.1 i a.2.1 a.2.2

/-- Split some bytes into a number of records, each as long as its first bytes say. -/
def splitN (size : List Byte → Nat) : Nat → List Byte → List (List Byte) × List Byte
  | 0, bs => ([], bs)
  | n + 1, bs => let r := splitN size n (bs.drop (size bs)); (bs.take (size bs) :: r.1, r.2)

/-- What a team's record holds: the team, its stopped copies, and the rest of the bytes. `name` numbers what is in it. -/
def teamIn (c : Context) (succ : Dword → Dword) (name : Nat) (bs : List Byte) : Team × List Copy × List Byte :=
  let tid := name
  let core := pf bs 10 2
  let lines := pf bs 20 2
  let sets := lines / 8
  let fixedPart := 32 + 512 * lines + lines + 512 * sets + sets + 256 + 4096
  let at1 := 32 + 512 * lines
  let at2 := at1 + lines
  let at3 := at2 + 512 * sets
  let at4 := at3 + sets
  let copies := splitN (fun _ => 256) (pf bs 16 2) (bs.drop fixedPart)
  let allocs := splitN allocSize (pf bs 18 1) copies.2
  let groups := splitN groupSize (pf bs 19 1) allocs.2
  let absent := (List.range (8 * lines)).filter fun i => !(pf bs (at1 + i / 8) 1).testBit (i % 8)
  let team : Team :=
    { tid := tid, lid := pf bs 4 4, t := pf bs 0 4, core := core, lcore := pf bs 8 2, ctx := c.ctx, prio := pf bs 12 1, st := .saved, kills := pf bs 15 1
      placed := tid, pin := none, ngroups := pf bs 22 1, spadLines := lines, spadBase := 0, spad := Cells.setBytes [] 0 (cut bs 32 (512 * lines)), flaw := false
      absent := absent, tags := ((records 64 id (cut bs at2 (512 * sets))).zipIdx.filterMap fun p => tagIn p.2 p.1)
      ptrs := cellsFrom ((cut bs at3 sets).map (·.setWidth 3)), bars := cellsFrom ((wordsIn 8 (cut bs at4 256)).map (BitVec.ofNat 64))
      shapes := Cells.setBytes [] 0 (cut bs (at4 + 256) 4096), allocSerial := BitVec.ofNat 8 (pf bs 13 1), allocs := allocs.1.map allocIn, claims := []
      groups := groups.1.zipIdx.map fun p => groupIn c.ctx core tid (tid + 1 + 64 * p.2) succ p.1 }
  (team, copies.1.zipIdx.map fun p => copyIn (tid + 1 + 64 * 32 + p.2) core tid c.ctx p.1, groups.2)

/-- The names that a team's record takes at most. -/
def teamNames : Nat := 2 ^ 20

def txBytes (teams : List Team) (x : Nat × Tx) : List Byte :=
  toLe 4 (x.1 * 64 + x.2.slot + x.2.serial.toNat * 65536) ++ toLe 2 x.2.rows.length ++ toLe 2 (teams.findIdx (·.tid == x.2.tid))
    ++ x.2.rows.flatMap fun r => toLe 8 (r.row * 2048)
def txSize (bs : List Byte) : Nat := 8 + 8 * pf bs 4 2
def txIn (teams : List Team) (bs : List Byte) : Nat × Tx :=
  let tid := ((teams[pf bs 6 2]?).map (·.tid)).getD 0
  (pf bs 0 2 / 64 % 16, ⟨pf bs 0 1 % 64, BitVec.ofNat 16 (pf bs 2 2), tid, true, (wordsIn 8 (cut bs 8 (8 * pf bs 4 2))).map fun a => ⟨a / 2048, []⟩⟩)

def poolSection (launches : List Launch) (p : Pool) : List Byte :=
  fitBytes 64 (toLe 8 (launches.findIdx (·.lid == p.lid)) ++ toLe 8 p.cluster ++ toLe 8 p.bytes) ++ Cells.bytes p.data 0 p.bytes
def poolSize (bs : List Byte) : Nat := 64 + pf bs 16 8
def poolIn (bs : List Byte) : Pool := ⟨pf bs 0 8, pf bs 8 8, pf bs 16 8, Cells.setBytes [] 0 (cut bs 64 (pf bs 16 8)), []⟩

def claimBytes (team : Nat) (c : Claim) : List Byte := toLe 16 c.brand.toNat ++ toLe 4 c.count ++ toLe 4 team ++ toLe 8 c.n
/-- A claim of an image: the team by its place, and the claim without its members. -/
def claimIn (bs : List Byte) : Nat × Claim := (pf bs 20 4, ⟨BitVec.ofNat 128 (pf bs 0 16), pf bs 16 4, pf bs 24 8, [], []⟩)

/-- A fault entry held (Table 12-7), without lanes of its own. -/
def entryIn (bs : List Byte) : FEntry :=
  let w := pf bs 0 8
  let code := w % 256
  let x := pf bs 24 8
  let num := code == Code.trap || code == Code.brk
  let flt : Flt := ⟨code, w.testBit 12, w.testBit 9, if num then x else 0, if num then 0 else BitVec.ofNat 64 x⟩
  ⟨w / 2 ^ 48 % 2 ^ 15, w / 2 ^ 37 % 2 ^ 11, w / 2 ^ 31 % 64, flt, w.testBit 11, w.testBit 10, w.testBit 8, BitVec.ofNat 64 (pf bs 8 8),
    BitVec.ofNat 64 (pf bs 16 8), none, 0⟩

/-- A packet in flight in 80 bytes (Table 21-4): the packet, then of a launch its priority, queue, statuses, next team, teams not retired and place in the
queue.
DESIGN CHOICE (log 23; unsafe). -/
def flightBytes (queues : List Queue) (p : Packet) (prio : Nat) (queue : Option Nat) (status : Nat) (killed : Option Nat) (next live seq : Nat) : List Byte :=
  let place := match queue with | some n => queues.findIdx (·.q == n) | none => 255
  packetBytes p ++ toLe 1 prio ++ toLe 1 place ++ toLe 1 status ++ toLe 1 (killed.getD 255) ++ toLe 5 next ++ toLe 5 live ++ toLe 2 seq

def Launch.bytes (queues : List Queue) (l : Launch) : List Byte := flightBytes queues l.pkt l.prio l.queue l.status l.killed l.next l.live l.seq

/-- A packet that is not a launch: its kind, its brand, its argument and where it completes. -/
def barePacket (kind : Nat) (brand : Brand) (arg compl : Dword) : Packet :=
  { kind := kind, cores := false, det := false, split := false, after := false, brand := brand, arg := arg, nx := 0, ny := 0, nz := 0, width := 0, groups := 0
    consumers := 0, lanes := 0, spadLines := 0, pool := 0, payload := 0, compl := compl }

/-- The packets of a context's queues that wait for a phase end or a mark. -/
def State.waitingPackets (x : Image) : List (List Byte) :=
  let at' (q seq : Nat) : Dword := (((x.queues.find? (·.q == q)).bind fun y => y.flights.find? (·.seq == seq)).map (·.compl)).getD 0
  (x.c.phases.filterMap fun r =>
      match r with
      | .packet q seq pod => some (flightBytes x.queues (barePacket 6 0 (if pod then 5 else 3) (at' q seq)) 0 (some q) 0 none 0 0 seq)
      | _ => none)
    ++ x.queues.filterMap fun q => q.waiting.map fun w => flightBytes x.queues (barePacket 5 w.1 w.2 (at' q.q (q.rd - 1))) 0 (some q.q) 0 none 0 0 (q.rd - 1)

/-- The sixteen sections. -/
def State.sections (s : State) (x : Image) : List (List Byte) :=
  let c := x.c
  [ s.read (s.gpaOf c.record) 256
  , fitBytes 64 (toLe 8 c.thnd.toNat ++ toLe 4 c.ten.toNat ++ toLe 1 (bit c.fence))
  , (List.range 7).flatMap fun i => c.algTable (i + 1)
  , (List.range 7).flatMap fun i => cmpBytes (c.cmpTable (i + 1))
  , (List.range 64).flatMap (streamBytes c)
  , (List.range 8).flatMap fun d => (List.range 64).flatMap (rangeBytes c d)
  , (s.listedBrands c).flatMap fun b => toLe 16 b.toNat ++ ((s.findRec b).map fun r => r.2.bytes).getD (toLe 32 0)
  , x.queues.flatMap queueBytes
  , x.txs.flatMap (txBytes x.teams)
  , x.launches.flatMap (Launch.bytes x.queues) ++ (State.waitingPackets x).flatten
  , x.teams.flatMap (s.teamBytes x.launches) ++ x.launches.zipIdx.flatMap fun p => stubs x.teams p.2 p.1
  , x.faults.flatMap (·.bytes 0)
  , x.teams.zipIdx.flatMap fun t => t.1.claims.flatMap (claimBytes t.2)
  , toLe 8 c.pmpos ++ c.replayPos.flatMap (toLe 8)
  , x.pools.flatMap (poolSection x.launches)
  , [] ]

/-- Where each section goes, every one aligned to 64, and the bytes from 256 on.
DESIGN CHOICE (log 23; unsafe). -/
def layout (secs : List (List Byte)) : List (Nat × Nat) × List Byte :=
  secs.foldl (fun (w : List (Nat × Nat) × List Byte) sec =>
    (w.1 ++ [(256 + w.2.length, sec.length)], w.2 ++ fitBytes ((sec.length + 63) / 64 * 64) sec)) ([], [])

/-- The bytes of an image, and its digest (R401).
DESIGN CHOICE (log 23; unsafe). -/
def State.imageBytes (s : State) (x : Image) : List Byte × List Byte :=
  let l := layout (s.sections x)
  let kib := (256 + l.2.length + 1023) / 1024
  let body := fitBytes (1024 * kib - 256) l.2
  let digest := sha256 body
  (toLe 8 0x4B580801494D4147 ++ toLe 2 1 ++ toLe 2 x.c.ctx ++ toLe 4 kib ++ toLe 6 s.serial.toNat ++ toLe 2 s.boot.toNat ++ toLe 72 0 ++ digest
    ++ (l.1.flatMap fun d => toLe 4 d.1 ++ toLe 4 d.2) ++ body, digest)

/-! ### Reading an image (R403) -/

/-- A section of an image's bytes. -/
def sectionIn (bs : List Byte) (i : Nat) : List Byte := cut bs (pf bs (128 + 8 * i) 4) (pf bs (132 + 8 * i) 4)

/-- The records of a section, each as long as its first bytes say; `n` bounds them. -/
def splitAll (size : List Byte → Nat) : Nat → List Byte → List (List Byte)
  | 0, _ => []
  | n + 1, bs => if bs.isEmpty then [] else bs.take (size bs) :: splitAll size n (bs.drop (size bs))

/-- What the section of teams holds: the teams with their copies, and the stubs; `name` numbers them, `n` bounds them. -/
def teamsIn (c : Context) (succ : Dword → Dword) : Nat → Nat → List Byte → List (Team × List Copy) × List (List Byte)
  | 0, _, _ => ([], [])
  | n + 1, name, bs =>
    if bs.isEmpty then ([], [])
    else if pf bs 14 1 != 0 then
      let r := teamsIn c succ n name (bs.drop 32)
      (r.1, bs.take 32 :: r.2)
    else
      let x := teamIn c succ name bs
      let r := teamsIn c succ n (name + teamNames) x.2.2
      ((x.1, x.2.1) :: r.1, r.2)

/-- The kernel of a packet, from a brand's record that the image brings or the chip holds. -/
def State.kernelIn (s : State) (recs : List (Brand × BRec)) (p : Packet) : Kernel :=
  let payload := ((((recs.find? (·.1 == p.brand)).map (·.2)).orElse fun _ => (s.findRec p.brand).map (·.2)).map (·.payload)).getD 0
  let pc := payload.extractLsb' 0 64
  kernelOf payload ((((recs.map (·.2)).find? fun r => r.covers pc).map fun r => bByte r.payload 13).getD 2)

/-- A launch of an image; `i` is its place, `names` the queues. -/
def State.launchIn (s : State) (ctx : Nat) (recs : List (Brand × BRec)) (queues : List Queue) (stubs : List (List Byte)) (i : Nat) (bs : List Byte) : Option Launch :=
  let q := queues[pf bs 65 1]?
  let mine (kind : Nat) : List (List Byte) := stubs.filter fun x => pf x 14 1 == kind && pf x 4 4 == i
  (parsePacket (bs.take 64)).map fun p =>
    { lid := i, ctx := ctx, queue := q.map (·.q), pkt := p, kern := s.kernelIn recs p, prio := pf bs 64 1, next := pf bs 68 5
      ahead := sortBy id ((mine 1).map fun x => pf x 0 4), again := (mine 2).map fun x => (pf x 0 4, pf x 15 1, pf x 10 2), live := pf bs 73 5
      status := pf bs 66 1, seq := (q.map fun q => q.rd - (q.rd + 2 ^ 16 - pf bs 78 2) % 2 ^ 16).getD 0, die := none
      killed := if pf bs 67 1 == 255 then none else some (pf bs 67 1) }

/-- What the bytes of an image hold (Tables 21-3 to 21-6), for the context of a record.
DESIGN CHOICE (log 23; unsafe). -/
def State.imageIn (s : State) (n : Context) (bs : List Byte) (digest : List Byte) : Image :=
  let sec := sectionIn bs
  let rec' := sec 0
  let succ (pc : Dword) : Dword :=
    match s.fetchLine (n.lmap.headD 0) n none (pcLine pc) with
    | (.line bits, s) => (s.successor (n.lmap.headD 0) n none pc bits).1
    | _ => pc
  let recs := records 48 (fun b => (BitVec.ofNat 128 (pf b 0 16), BRec.read (b.drop 16))) (sec 6)
  let queueIn (i : Nat) (b : List Byte) : Queue :=
    let brand := BitVec.ofNat 128 (pf b 0 16)
    let payload := (((recs.find? (·.1 == brand)).map (·.2)).map (·.payload)).getD 0
    { q := i, brand := brand, ctx := n.ctx, base := (payload.extractLsb' 0 64).toNat, m := bByte payload 8, prio := bByte payload 9, mark := BitVec.ofNat 64 (pf b 32 8)
      rd := pf b 16 8, wr := pf b 24 8, age := pf b 40 8, ripe := false, refs := [], flights := [], waiting := none, held := [] }
  let queues := (records 48 id (sec 7)).zipIdx.map fun p => queueIn p.2 p.1
  let flights := records 80 id (sec 9)
  let isLaunch (b : List Byte) : Bool := pf b 0 1 == 1
  let nl := (flights.filter isLaunch).length
  let ts := teamsIn n succ ((sec 10).length / 32 + 1) (nl + 1) (sec 10)
  let seqIn (q : Queue) (b : List Byte) : Nat := q.rd - (q.rd + 2 ^ 16 - pf b 78 2) % 2 ^ 16
  let fill (q : Queue) : Queue :=
    let mine := flights.filter fun b => pf b 65 1 == q.q
    { q with flights := mine.map fun b => ⟨seqIn q b, complOf b⟩
             waiting := (mine.find? fun b => pf b 0 1 == 5).map fun b => (BitVec.ofNat 128 (pf b 8 16), BitVec.ofNat 64 (pf b 24 8)) }
  let phases := flights.filterMap fun b => if pf b 0 1 == 6 then (queues[pf b 65 1]?).map fun q => PhaseReq.packet q.q (seqIn q b) (pf b 24 1 == 5) else none
  let team (p : (Team × List Copy) × Nat) : Team :=
    let claims := ((records 32 claimIn (sec 12)).filter (·.1 == p.2)).map fun x =>
      { x.2 with members := (((recs.find? (·.1 == x.2.brand)).map fun r => membersOf n r.2.payload)).getD [] }
    { p.1.1 with claims := claims }
  let teams := ts.1.zipIdx.map team
  let tables (size : Nat) : List (List Byte × Nat) := (records size id (sec (if size == 256 then 2 else 3))).zipIdx
  let c : Context :=
    { n with
      dlhead := BitVec.ofNat 32 (pf rec' 40 4), pmpos := pf (sec 13) 0 8, bcount := pf rec' 108 4 % 2 ^ 31, bovf := pf rec' 111 1 / 128 == 1
      thnd := BitVec.ofNat 64 (pf (sec 1) 0 8), ten := BitVec.ofNat 32 (pf (sec 1) 8 4), fence := pf (sec 1) 12 1 == 1
      alg := (tables 256).map fun p => (p.2 + 1, p.1), cmp := (tables 136).map fun p => (p.2 + 1, cmpIn p.1)
      streams := (records 32 id (sec 4)).zipIdx.filterMap fun p => streamIn p.2 p.1
      ranges := (records 16 id (sec 5)).zipIdx.filterMap fun p => rangeIn p.2 p.1
      phases := phases, replayPos := (wordsIn 8 (sec 13)).drop 1 }
  { digest := digest, c := c, teams := teams, launches := (flights.filter isLaunch).zipIdx.filterMap fun p => s.launchIn n.ctx recs queues ts.2 p.2 p.1
    queues := queues.map fill, pools := (splitAll poolSize ((sec 14).length + 1) (sec 14)).map poolIn, records := recs, copies := ts.1.flatMap (·.2)
    txs := (splitAll txSize ((sec 8).length + 1) (sec 8)).map (txIn teams), faults := records 32 entryIn (sec 11), top := nl + 1 + teamNames * ts.1.length }

end Sys2Proof.Machine
end

