-- ==== Sys2Proof/Machine/Save.lean ====
section
/-! DEFINITION. Stopping, saving, restoring, resuming and destroying a context (R399 to R403). -/

namespace Sys2Proof.Machine

/-! ### Commands of CSCTL (R399) -/

/-- A die's CSSTAT reports a context with an error. -/
def State.csNote (s : State) (d ctx err : Nat) : State := s.modDie d fun x => { x with csctx := ctx, cserr := err }

/-- Every team of a context stops at an instruction boundary (R46, R400 step 1). None: not yet. -/
def State.stopTeams (s : State) (ctx : Nat) : Option State := s.preemptAll ((s.teams.filter fun t => t.ctx == ctx && t.st != .saved).map (·.tid))

/-- DEDUCED (log 52; unsafe). -/
def State.stopCtx (s : State) (d ctx : Nat) : Option State :=
  match s.ctx? ctx with
  | none => some (s.csNote d ctx 7)
  | some c =>
    if c.st == .running || c.st == .replayEnded then some ((s.modCtx ctx fun c => { c with st := .stopping }).csNote d ctx 0)
    else some (s.csNote d ctx 7)

/-- Whether a context has stopped, of itself or by command, and is not being saved.
DEDUCED (log 52; unsafe). -/
def Context.atRest (c : Context) : Bool := (c.st == .stopped || c.st == .logFull) && c.saving.isNone

/-- DEDUCED (log 52; unsafe). -/
def State.saveCtx (s : State) (d ctx : Nat) : Option State :=
  if !((s.ctx? ctx).map Context.atRest).getD false then some (s.csNote d ctx 7)
  else
    match s.stopTeams ctx with
    | none => none
    | some s => some ((s.modCtx ctx fun c => { c with saving := some d }).csNote d ctx 0)

/-- Resume (R403, R406): the record is read again, and the teams are placed as they find room.
DEDUCED (log 52; unsafe). -/
def State.resumeCtx (s : State) (d ctx : Nat) : Option State :=
  if !((s.ctx? ctx).map Context.atRest).getD false then some (s.csNote d ctx 7)
  else
    match s.stopTeams ctx with
    | none => none
    | some s =>
      let go (c : Context) : Context := { c with st := if !c.replay && (s.recField c.record 49 1).testBit 3 then .replayEnded else .running }
      some ((s.modCtx ctx fun c => go (s.readRec c)).csNote d ctx 0)

def State.endCtx (s : State) (d ctx : Nat) : Option State :=
  if (s.ctx? ctx).isNone then some (s.csNote d ctx 7)
  else
    match s.destroyCtx ctx with
    | none => none
    | some s => some (s.csNote d ctx 0)

/-! ### The write of an image (R400 to R402) -/

/-- The doublewords at which a context has entries waiting. -/
def State.holesOf (s : State) (ctx : Nat) : List Nat := (s.agents.flatMap (·.holes)).filterMap fun h => if h.entries.any (·.ctx == ctx) then some h.dw else none

/-- Retire every pigeonhole entry of a context (R384). None: replay holds one. -/
def State.retireCtx (s : State) (ctx : Nat) : Option State :=
  let dws := s.holesOf ctx
  if dws.any s.headHeld then none else some (dws.foldl (fun s dw => s.retireWhile dw (fun e => e.ctx == ctx) 17) s)

/-- A lane parked on an entry waits for a fresh one where it is placed again (R403). -/
def Lane.unentered (l : Lane) : Lane :=
  match l.st with
  | .parked (.buffer _ _ e r n) => { l with st := .parked (.heldFault e r n) }
  | _ => l

def Group.eachOf (f : Lane → Lane) (g : Group) : Group := { g with lanes := g.lanes.map f }

def Team.eachOf (f : Lane → Lane) (t : Team) : Team := { t with groups := t.groups.map (Group.eachOf f) }

/-- What stands for the record of a listed brand that is dead: its SEQ in state 2.
DESIGN CHOICE (log 23; unsafe). -/
def deadRec (b : Brand) : BRec := ⟨bSeq b, 0, 2, 0, 0, 0, 0⟩

/-- What an image of a context holds; the brands of its list each with its record, the dead ones too (Table 21-4). -/
def State.imageOf (s : State) (c : Context) : Image :=
  let ls := s.launches.filter (·.ctx == c.ctx)
  let ts := (s.teams.filter (·.ctx == c.ctx)).map (Team.eachOf Lane.unentered)
  { digest := [], c := c, teams := ts, launches := ls, queues := s.queues.filter (·.ctx == c.ctx)
    pools := s.pools.filter fun p => ls.any (·.lid == p.lid)
    records := (s.listedBrands c).map fun b => (b, ((s.findRec b).map (·.2)).getD (deadRec b))
    copies := s.copies.filter (·.ctx == c.ctx)
    txs := s.agents.zipIdx.flatMap fun p => (p.1.txs.filter fun x => ts.any (·.tid == x.tid)).map fun x => (p.2, x)
    faults := sortBy (·.serial) (s.dies.flatMap fun d => d.heldFaults.filter (·.ctx == c.ctx)), top := s.nextId }

/-- Give up everything that the chip holds for a saved context (R400 step 6). Tiles that have not begun wait in their senders' staging (R330, R404). -/
def State.leave (s : State) (ctx : Nat) : State :=
  let tiles := s.tiles.filter fun x => x.ctx == ctx && !x.begun
  let s := ((s.teams.filter (·.ctx == ctx)).foldl State.removeTeam s).release ctx
  let die (d : Die) : Die := { d with heldFaults := d.heldFaults.filter (·.ctx != ctx) }
  ({ s with dies := s.dies.map die, tiles := s.tiles ++ tiles }).modCtx ctx fun c => { c with st := .saved, saving := none, ranges := [], phases := [], heldEvents := [] }

/-- Drain, then write the image at CSIMG (R400 steps 5 and 6). None: not yet.
DESIGN CHOICE (log 23; unsafe); PRESUMED (log 24; unsafe). -/
def State.writeImage (s : State) (d ctx : Nat) : Option State :=
  let s := s.force fun a => a.ctx == ctx
  if s.blocked then some s
  else
    (s.retireCtx ctx).bind fun s =>
    match s.ctx? ctx, s.die? d with
    | some c, some die =>
      let x := s.imageOf c
      let w := s.imageBytes x
      let s := s.write (s.gpaOf (die.csimg.toNat % 2 ^ 50)) w.1
      let s := { s with images := { x with digest := w.2 } :: s.images.filter (·.digest != w.2) }
      some (((s.modDie d fun x => { x with cslen := BitVec.ofNat 32 (w.1.length / 1024) }).leave ctx).csNote d ctx 0)
    | _, _ => none

/-! ### Restoring (R360, R403) -/

/-- The names of an image are made fresh: each grows by `b`. -/
def FEntry.shift (b : Nat) (e : FEntry) : FEntry := { e with serial := e.serial + b, who := e.who.map fun w => (w.1 + b, w.2) }

def Lane.shift (b : Nat) (l : Lane) : Lane :=
  match l.st with
  | .parked (.heldFault e r n) => { l with st := .parked (.heldFault (e.shift b) r n) }
  | .parked (.sector t k) => { l with st := .parked (.sector (t + b) k) }
  | _ => l

def Group.shift (b : Nat) (g : Group) : Group :=
  let last (l : Last) : Last := { l with id := l.id + b }
  { g with
    lanes := g.lanes.map (Lane.shift b), yieldTo := g.yieldTo.map fun y => (y.1 + b, y.2), last := g.last.map last
    seen := g.seen.map fun p => (p.1, p.2 + b), behind := g.behind.map fun w => { w with owed := w.owed.map (· + b) }, ahead := none }

def Team.shift (b : Nat) (t : Team) : Team := { t with tid := t.tid + b, lid := t.lid + b, groups := t.groups.map (Group.shift b) }

def Place.shift (b : Nat) : Place → Place
  | .mem g => .mem g
  | .spad t o => .spad (t + b) o
  | .pool l c o => .pool (l + b) c o
  | .acc t g w => .acc (t + b) g w

def Copy.shift (b : Nat) (c : Copy) : Copy :=
  let piece (p : Piece) : Piece := { p with dst := p.dst.shift b, src := p.src.map (Place.shift b) }
  { c with id := c.id + b, tid := c.tid + b, pieces := c.pieces.map piece, got := [] }

def PhaseReq.shift (b : Nat) (q : Nat → Nat) : PhaseReq → PhaseReq
  | .lanes t g p i => .lanes (t + b) g p i
  | .packet n k p => .packet (q n) k p

/-- The context that a record and an image make together: what the host writes comes from the record, what the device writes from the image. -/
def Context.ended (n c : Context) : Context :=
  { n with
    dlhead := c.dlhead, pmpos := c.pmpos, bcount := c.bcount, bovf := c.bovf, thnd := c.thnd, ten := c.ten, fence := c.fence, alg := c.alg, cmp := c.cmp
    streams := c.streams, ranges := c.ranges, traffic := c.traffic, progress := c.progress, replayPos := c.replayPos
    replay := n.replay && c.replayPos.length < n.pmlen, st := .stopped }

/-- The live record of a brand comes with the context (R360): where the chip has a moved record of it, in that one's place; where it has none and did not mint
it, under the origin index of its pair. None: no origin index or slot is free.
DEDUCED (log 53; unsafe). -/
def State.bringBrand (s : State) (p : Brand × BRec) : Option State :=
  let b := p.1
  let own := bSerial b == s.serial && bBoot b == s.boot
  if p.2.st != 1 then some s
  else
    match s.findRec b with
    | some (k, r) => if r.st == 3 then some (s.putRec k { p.2 with origin := r.origin }) else some s
    | none =>
      if own then some s
      else
        let s := if (s.originOf b).isSome then s else { s with origins := s.origins ++ [(bSerial b, bBoot b)] }
        if 4095 < s.origins.length then none
        else
          let o := (s.originOf b).getD 0
          (freeSlot s (probeStart (bSeq b) o)).map fun k => s.putRec k { p.2 with origin := o }

/-- A pool allocation goes whole into one cluster of the partition, the first that takes it, and the teams that used it are bound to that
cluster. -/
def State.bringPool (s : State) (c : Context) (p : Pool) : Option State :=
  let clusters := (c.lmap.map clusterOf).eraseDups
  (clusters.find? fun k => s.poolUsed k + p.bytes ≤ 2 ^ 25 && (s.pool? p.lid k).isNone).map fun k =>
    let mine (t : Team) : Bool := t.lid == p.lid && clusterOf t.core == p.cluster
    { s with pools := s.pools ++ [{ p with cluster := k }], teams := modWhere mine (fun t => { t with pin := some k }) s.teams }

/-- A team's claims are taken again on the ports that lead to their members now.
DEDUCED (log 53; unsafe). -/
def State.bringClaims (s : State) (c : Context) (t : Team) : Option State :=
  t.claims.foldl (fun (w : Option State) cl =>
    w.bind fun s =>
      match s.portsFor c cl.members with
      | none => none
      | some ps =>
        if s.claimPossible cl.n ps && s.claimFree cl.n ps then
          let s := s.grantClaim t.tid cl.brand cl.n cl.members ps
          some (s.modTeam t.tid fun t => { t with claims := modWhere (·.brand == cl.brand) (fun k => { k with count := cl.count }) t.claims })
        else none) (some (s.modTeam t.tid fun t => { t with claims := [] }))

/-- A restored copy stands in its group's reports where it does not yet, so that `cpq` finds it in flight (R338). -/
def Group.listCopy (k : Copy) (g : Group) : Group :=
  if g.last.any (·.id == k.id) then g else { g with last := ⟨k.slot, k.id, 0, false⟩ :: g.last.filter (·.slot != k.slot) }

/-- A stopped `cpy` continues, from the first source element that is not written, through the translations of its context as they are now (R323): what cannot
be translated any more is not written, and the fault is reported. A `cpx` is not saved.
DEDUCED (log 53; unsafe). -/
def State.bringCopy (s : State) (c : Context) (k : Copy) : Option State :=
  match s.team? k.tid with
  | none => some s
  | some t =>
    let s := s.modGroup k.tid k.gix (Group.listCopy k)
    let src := Rec.read k.srcRec
    let dst := Rec.read k.dstRec
    let give (s : State) (f : Flt) : State :=
      let ended (p : Piece) : Piece := { p with done := true }
      let s := s.reportBare c.ctx f false
      { s with copies := s.copies ++ [{ k with pieces := k.pieces.map ended, status := f.code }] }
    match (if src.space == 0 then s.boxOn (c.lmap.headD 0) c src k.ts false else .ok [] s) with
    | .flt f s => some (give s f)
    | .ok sAt s =>
      match (if dst.space == 0 then s.boxOn (c.lmap.headD 0) c dst k.td true else .ok [] s) with
      | .flt f s => some (give s f)
      | .ok dAt s =>
        let n := k.written
        let ps := (cpyPieces t src dst k.ts k.td sAt dAt).map fun p => { p with done := p.el < n }
        some { s with copies := s.copies ++ [{ k with pieces := ps, snap := s.asItStands }] }

/-- Carry a step over a list, while it succeeds. -/
def overAll {α : Type} (f : State → α → Option State) (l : List α) (s : State) : Option State := l.foldl (fun (w : Option State) a => w.bind fun s => f s a) (some s)

/-- The state in which a restored context finds its partition empty. -/
def State.emptied (s : State) (cores : List Nat) : State :=
  let quads := s.quads.map fun q => if cores.any fun n => quadOf n == q.1 then (q.1, { q.2 with owner := [] }) else q
  { s with teams := s.teams.filter fun t => t.st == .saved || !cores.contains t.core, quads := quads }

/-- Whether the saved teams of a context can be placed on its partition: each, and a co-resident grid whole (R41, R45, R255). -/
def State.placeable (s : State) (c : Context) : Bool :=
  let e := s.emptied c.lmap
  (s.teams.filter (·.ctx == c.ctx)).all fun t =>
    if ((s.launch? t.lid).map (·.pkt.cores)).getD false then (e.resumeRest (s.teams.filter (·.lid == t.lid))).isSome
    else (e.resumeCores t).any fun n => (e.resumeOn t n).isSome

/-- New numbers for an image's queues: its own where they are free.
DEDUCED (log 53; unsafe). -/
def State.queueNames (s : State) (x : Image) : List (Nat × Nat) :=
  x.queues.foldl (fun l q =>
    let free (n : Nat) : Bool := !(s.queues.any (·.q == n)) && !(l.any (·.2 == n))
    let name := if free q.q then some q.q else (List.range 256).find? fun n => free n && !(x.queues.any (·.q == n))
    match name with
    | some n => l ++ [(q.q, n)]
    | none => l) []

/-- Rebuild everything that an image holds, for the context of a record (R403). None: it does not fit.
DEDUCED (log 53; unsafe). -/
def State.rebuild (s : State) (n : Context) (x : Image) : Option State :=
  let b := s.nextId
  let names := s.queueNames x
  let q (k : Nat) : Nat := lookupKey k k names
  let c := { n.ended x.c with st := .restoring, phases := x.c.phases.map (PhaseReq.shift b q) }
  let launch (l : Launch) : Launch := { l with lid := l.lid + b, queue := l.queue.map q }
  let queue (y : Queue) : Queue := { y with q := q y.q }
  let pool (p : Pool) : Pool := { p with lid := p.lid + b }
  let ts := x.teams.map (Team.shift b)
  if names.length != x.queues.length then none
  else
    let s := { s with
      nextId := b + max b x.top, ctxs := s.ctxs.filter (·.ctx != c.ctx) ++ [c], teams := s.teams ++ ts
      launches := s.launches ++ x.launches.map launch, queues := s.queues ++ x.queues.map queue }
    ((((overAll (fun s p => s.bringPool c p) (x.pools.map pool) s).bind (overAll State.bringBrand x.records)).bind
      (overAll (fun s t => s.bringClaims c t) ts)).bind (overAll (fun s k => s.bringCopy c k) (x.copies.map (Copy.shift b)))).bind fun s =>
      if !s.placeable c then none
      else
        let s := x.txs.foldl (fun s p => s.modAgent p.1 fun a => { a with txs := a.txs ++ [{ p.2 with tid := p.2.tid + b }] }) s
        let s := x.records.zipIdx.foldl (fun s p => s.write (s.gpaOf (c.blist + 16 * p.2)) (toLe 16 p.1.1.toNat)) s
        let s := s.writeOwn c
        some ((x.faults.filter (·.who.isNone)).foldl (fun s e => s.report (s.homeDie c.ctx) (e.shift b)) s)

/-- The image that some bytes are: as this chip saved it, where it did and still knows it by its digest, else as the bytes say. -/
def State.imageOfBytes (s : State) (n : Context) (bs digest : List Byte) : Image := (s.images.find? (·.digest == digest)).getD (s.imageIn n bs digest)

/-- Restore (R403): the image at CSIMG, for the record at CSREC, is checked, and everything in it is rebuilt in STATE 5.
DESIGN CHOICE (log 23; unsafe). -/
def State.restoreCtx (s : State) (d ctx : Nat) : Option State :=
  match s.die? d with
  | none => some s
  | some die =>
    let at' := s.gpaOf (die.csimg.toNat % 2 ^ 50)
    let head := s.read at' 256
    let kib := pf head 12 4
    let no (e : Nat) : Option State := some (s.csNote d ctx e)
    if !((s.ctx? ctx).map fun c => c.st == .saved).getD true then no 7
    else if pf head 0 8 != 0x4B580801494D4147 || pf head 8 2 != 1 then no 3
    else
      let bs := s.read at' (1024 * kib)
      let digest := sha256 (bs.drop 256)
      if digest != (head.drop 96).take 32 then no 1
      else
        match s.contextFrom (256 * die.csrec.toNat) with
        | none => no 7
        | some n =>
          if n.ctx != ctx || pf head 10 2 != ctx then no 7
          else
            match s.rebuild n (s.imageOfBytes n bs digest) with
            | none => no 2
            | some s => some (s.csNote d ctx 0)

/-- A write of CSCTL (Table 21-2).
DEDUCED (log 52; unsafe). -/
def State.csctl (s : State) (d op ctx : Nat) : Option State :=
  match op with
  | 1 => s.stopCtx d ctx
  | 2 => s.saveCtx d ctx
  | 3 => s.restoreCtx d ctx
  | 4 => s.resumeCtx d ctx
  | 5 => s.endCtx d ctx
  | _ => some (s.csNote d ctx 7)

end Sys2Proof.Machine
end

