-- ==== Sys2Proof/Machine/HomeExec.lean ====
section
/-! DEFINITION. The events of outstanding accesses, pigeonholes, phase ends, uncorrectable errors and replay (R208, R210, R220, R260, R294 to R307,
R384, R385, R407). -/

namespace Sys2Proof.Machine

/-! ### Accesses (R220, R260, R295, R307) -/

/-- Whether an access enters a pigeonhole of this chip by itself: an operator, or a plain access to a page with a table (R295). -/
def State.enters (s : State) (a : Acc) : Bool :=
  match a.place with
  | .mem g => s.onChip g && a.cls != 2 && (match a.kind with | .load => a.alg != 0 | .store => a.alg != 0 | .post _ => true | .fetch _ => true | .tx _ => false)
  | _ => false

/-- A load's data arrives (R220): performed at its place in the order, or returned by its entry.
DEDUCED (log 62; unsafe). -/
def onLoadDataArrival (id : Nat) (s : State) : Option State :=
  match s.acc? id with
  | none => none
  | some a =>
    if !a.kind.isLoad || a.shape == .probe then none
    else if a.val.isSome then some (s.deliver a)
    else if a.arrived || s.enters a || !(s.before a).isEmpty then none
    else some (s.finishAcc id)

def execLoadDataArrival (id : Nat) (s : State) : Host.Outcome State Fault Refusal := s.occurs (onLoadDataArrival id s)

/-- The value of a fetching operator returns (R307). -/
def onOperatorReturn (id : Nat) (s : State) : Option State :=
  match s.acc? id with
  | none => none
  | some a => if a.kind.isFetch && a.val.isSome then some (s.deliver a) else none

def execOperatorReturn (id : Nat) (s : State) : Host.Outcome State Fault Refusal := s.occurs (onOperatorReturn id s)

/-- A store that enters no pigeonhole, or a write of a transactional group, is performed (R260, R310). -/
def onStorePerformedAtHome (id : Nat) (s : State) : Option State :=
  match s.acc? id with
  | none => none
  | some a =>
    let mine := a.kind.isStore || (match a.kind with | .tx _ => true | _ => false)
    if !mine || s.enters a || !(s.before a).isEmpty then none else some (s.performAcc a)

def execStorePerformedAtHome (id : Nat) (s : State) : Host.Outcome State Fault Refusal := s.occurs (onStorePerformedAtHome id s)

/-- An entry arrives at its pigeonhole (R295, R305), or at another chip. Its arrival is a choice site. -/
def onEntryArrival (id : Nat) (s : State) : Option State :=
  match s.acc? id with
  | none => none
  | some a =>
    if a.shape == .probe || a.arrived || !(s.enters a || a.kind.isPost) || !(s.before a).isEmpty then none
    else
      match a.place with
      | .mem g =>
        let site := arrivalSite (a.party / 2 ^ 11 * 64) (g / 8)
        let payload := arrivalPayload a.party (g / 8)
        match (if s.enters a then s.choice a.ctx 1 site payload else .go s) with
        | .go _ =>
          let e : Instr := .entryArrival id
          some ((s.performAcc a).modCtx a.ctx fun c => { c with heldEvents := c.heldEvents.filter (·.2 != e) })
        | _ => s.gate a.ctx 1 site payload (.entryArrival id) fun s => s
      | _ => some (s.performAcc a)

def execEntryArrival (id : Nat) (s : State) : Host.Outcome State Fault Refusal := s.occurs (onEntryArrival id s)

/-- The host moves the tail of a dirty log, and parked accesses retry (R206). -/
def onDirtyLogTailAdvance (ctx : Nat) (x : Word) (s : State) : Option State :=
  s.viaLink (.dirtyLogTailAdvance ctx x) fun s =>
    match s.ctx? ctx with
    | none => some s
    | some c => some ((s.writeRec c 44 4 x.toNat).setTail ctx x)

def execDirtyLogTailAdvance (ctx : Nat) (x : Word) (s : State) : Host.Outcome State Fault Refusal := s.occurs (onDirtyLogTailAdvance ctx x s)

/-! ### Pigeonholes (R297 to R303) -/

/-- Whether replay lets an agent apply a rewrite: the log names it next at its doubleword, and every arrival there that the log puts before it has come (R407,
R410). -/
def State.rewriteNamed (s : State) (ctx dw mark : Nat) : Bool :=
  match s.ctx? ctx with
  | some c => !c.replay || c.log || (((s.siteMarks c mark).head?.map (·.2)) == some mark && ((s.nextRewrite c dw).map (·.1)) == some 0)
  | none => true

/-- The agent applies a rewrite to the entries at a position and the next (R298). It is a choice site; under replay one that the log does not name next is not
applied. -/
def onEntryRewrite (dw pos : Nat) (rw : Rewrite) (s : State) : Option State :=
  match s.hole? dw with
  | none => none
  | some h =>
    match h.entries[pos]?, h.entries[pos + 1]? with
    | some e, some f =>
      match s.rewritten rw e f with
      | none => none
      | some es =>
        let site := stackOf (8 * dw)
        let payload := localOf (8 * dw) / 8 * 2 ^ 11 + pos % 16 * 2 ^ 7 + rewriteCode rw * 2 ^ 4
        if !s.rewriteNamed f.ctx dw (postmarkOf 2 site payload) then none
        else
          s.gate f.ctx 2 site payload (.entryRewrite dw pos rw) fun s =>
            let s := s.setHole dw (h.entries.take pos ++ es ++ h.entries.drop (pos + 2))
            match rw with
            | .forward => ((if f.acc.isSome then s.send f.ctx (.agent (stackOf f.gpa)) else s).setVal f.acc e.data).tick f.ctx
            | _ => s
    | _, _ => none

def execEntryRewrite (dw pos : Nat) (rw : Rewrite) (s : State) : Host.Outcome State Fault Refusal := s.occurs (onEntryRewrite dw pos rw s)

/-- The head of a pigeonhole executes (R301), unless replay keeps it. -/
def onEntryRetire (dw : Nat) (s : State) : Option State :=
  if (s.hole? dw).isNone || s.headHeld dw then none else some (s.retireHead dw)

def execEntryRetire (dw : Nat) (s : State) : Host.Outcome State Fault Refusal := s.occurs (onEntryRetire dw s)

/-- An entry that returns a value has waited 1,024 cycles: it and what is ahead of it retire (R303). -/
def onRetirementBound (dw pos : Nat) (s : State) : Option State :=
  match (s.hole? dw).bind fun h => h.entries[pos]? with
  | none => none
  | some e => if !e.reads || s.headHeld dw then none else some (s.retireSome dw (pos + 1))

def execRetirementBound (dw pos : Nat) (s : State) : Host.Outcome State Fault Refusal := s.occurs (onRetirementBound dw pos s)

/-! ### Phase ends (R384 to R386) -/

/-- Whether every message sent for a context has been received. -/
def Context.balanced (c : Context) : Bool := (c.traffic.foldl (fun n t => n + t.sent - t.received) 0) == 0

/-- A lane leaves a phase end of a scope. -/
def Lane.leavePhase (pod : Bool) (l : Lane) : Lane :=
  match l.st with
  | .parked (.phase p succ) => if p == pod then l.wake succ false else l
  | _ => l

/-- A request is over: its lanes go on, or its packet completes. None: the completion word waits for the dirty log. -/
def State.endPhase (s : State) (r : PhaseReq) : Option State :=
  match r with
  | .lanes tid gix pod _ => some (s.modGroup tid gix fun g => { g with lanes := g.lanes.map (Lane.leavePhase pod) })
  | .packet q seq _ => s.endPacket q seq 0

/-- A phase end serves some requests of a context: the entries of the context retire, and the requests are over. -/
def State.servePhases (s : State) (ctx : Nat) (rs : List PhaseReq) : Option State :=
  (s.retireCtx ctx).bind fun s =>
    (overAll State.endPhase rs s).map fun s => s.modCtx ctx fun c => { c with phases := c.phases.filter fun r => !rs.contains r }

/-- Two sweeps of the counters agree (R384): every request that waits is served. -/
def onPhaseEndSweep (ctx : Nat) (s : State) : Option State :=
  match s.ctx? ctx with
  | none => none
  | some c =>
    if c.phases.isEmpty || !c.balanced then none
    else
      match s.servePhases ctx c.phases with
      | some s => some s
      | none => none

def execPhaseEndSweep (ctx : Nat) (s : State) : Host.Outcome State Fault Refusal := s.occurs (onPhaseEndSweep ctx s)

/-- Whether a request asks for the idle wires. -/
def PhaseReq.idle : PhaseReq → Bool
  | .lanes _ _ _ i => i
  | .packet _ _ _ => false

/-- Whether a request is of dev scope, of the group of another. -/
def PhaseReq.beside (r : PhaseReq) : PhaseReq → Bool
  | .lanes t g pod _ => !pod && (match r with | .lanes u k _ _ => t == u && g == k | _ => false)
  | .packet _ _ _ => false

/-- The idle wires hold a second time (R385): the requests for them are served. -/
def onIdleWireWait (ctx : Nat) (s : State) : Option State :=
  match s.ctx? ctx with
  | none => none
  | some c =>
    let idle := c.phases.filter PhaseReq.idle
    if idle.isEmpty || !c.balanced then none
    else
      match s.servePhases ctx (c.phases.filter fun r => idle.any fun i => i.beside r) with
      | some s => some s
      | none => none

def execIdleWireWait (ctx : Nat) (s : State) : Host.Outcome State Fault Refusal := s.occurs (onIdleWireWait ctx s)

/-! ### Errors and replay -/

/-- Whether a team exists. -/
def State.hasTeam (s : State) (tid : Nat) : Bool := (s.team? tid).isSome

/-- An uncorrectable error (R208, R210, R256): the team that owns the storage is killed, when a peer reads it where the peer is to meet it; or the word of memory
is poisoned after the reads that are under way.
DESIGN CHOICE (log 56; safe). -/
def onUncorrectableError (loc : ErrAt) (s : State) : Option State :=
  let kill (tid : Nat) : Option State := if s.hasTeam tid then some (s.killFor tid) else none
  match loc with
  | .regs tid => kill tid
  | .spad tid => kill tid
  | .peer tid =>
    if !s.hasTeam tid then none
    else
      let s := s.force fun a => a.kind.isLoad && a.tid != tid && (match a.place with | .spad t _ => t == tid | _ => false)
      some (s.modTeam tid fun t => { t with flaw := true })
  | .pool tid lid cl w =>
    match s.team? tid, s.pool? lid cl with
    | some t, some p =>
      if t.lid != lid || p.bytes ≤ 4 * w then none
      else some ((s.modPool lid cl fun p => { p with bad := insertNat w p.bad }).killFor tid)
    | _, _ => none
  | .acc q bank =>
    -- a free bank's error is corrected when the bank is zeroed
    match (s.quad q).owner.find? (·.1 == bank) with
    | some o => kill o.2
    | none => some s
  | .dram w =>
    if !s.onChip (4 * w) || !isDram (4 * w) then none
    else
      let s := s.force fun a => (a.kind.isLoad || a.kind.isFetch) && (match a.place with | .mem g => shareWord g a.size (4 * w) 4 | _ => false)
      some { s with poison := insertNat w s.poison }

def execUncorrectableError (loc : ErrAt) (s : State) : Host.Outcome State Fault Refusal := s.occurs (onUncorrectableError loc s)

/-- A held event has become the next of its site and happens (R407). -/
def onReplayHeldRelease (ctx : Nat) (s : State) : Option State :=
  match s.ctx? ctx with
  | none => none
  | some c =>
    match c.heldEvents.find? fun p => !c.replay || ((s.siteMarks c p.1).head?.map (·.2)) == some p.1 with
    | none => none
    | some p => some { (s.modCtx ctx fun c => { c with heldEvents := c.heldEvents.filter (· != p) }) with events := p.2 :: s.events }

def execReplayHeldRelease (ctx : Nat) (s : State) : Host.Outcome State Fault Refusal := s.occurs (onReplayHeldRelease ctx s)

end Sys2Proof.Machine
end

