-- ==== Sys2Proof/Machine/Lms.lean ====
section
/-! DEFINITION. The hash-based signatures of firmware: HSS over LMS and LM-OTS with SHA-256, in the parameter sets of R419. PRESUMED (log 24): the scheme
itself is the public standard that the manual names (RFC 8554). -/

namespace Sys2Proof.Machine

namespace Lms

/-- A big-endian number, and the bytes of one. -/
def beNat (bs : List Byte) : Nat := leNat bs.reverse
def toBe (n x : Nat) : List Byte := (toLe n x).reverse
def field (bs : List Byte) (off n : Nat) : List Byte := (bs.drop off).take n

/-- The one-time parameter sets accepted (R419): bits of a digit, digits, and the shift of the checksum. -/
def otsOf (code : Nat) : Option (Nat × Nat × Nat) := if code == 3 then some (4, 67, 4) else if code == 4 then some (8, 34, 0) else none

/-- The tree heights accepted (R419). -/
def heightOf (code : Nat) : Option Nat := if code == 5 then some 5 else if code == 6 then some 10 else if code == 7 then some 15 else if code == 8 then some 20 else none

/-- Digit `i` of `w` bits of a string. -/
def digit (bs : List Byte) (w i : Nat) : Nat := ((bs.getD (i * w / 8) 0).toNat / 2 ^ (8 - (w * (i % (8 / w)) + w))) % 2 ^ w

/-- The message digest with its checksum. -/
def checked (q : List Byte) (w shift : Nat) : List Byte :=
  q ++ toBe 2 (((List.range (256 / w)).map fun i => 2 ^ w - 1 - digit q w i).sum * 2 ^ shift)

/-- The one-time public key that a signature of a message stands for. -/
def otsKey (id : List Byte) (leaf : Nat) (w p shift : Nat) (sig msg : List Byte) : List Byte :=
  let tag := id ++ toBe 4 leaf
  let q := checked (sha256 (tag ++ toBe 2 0x8181 ++ field sig 4 32 ++ msg)) w shift
  let chain (i : Nat) : List Byte :=
    let a := digit q w i
    (List.range (2 ^ w - 1 - a)).foldl (fun t j => sha256 (tag ++ toBe 2 i ++ toBe 1 (a + j) ++ t)) (field sig (36 + 32 * i) 32)
  sha256 (tag ++ toBe 2 0x8080 ++ (List.range p).flatMap chain)

/-- The root that a leaf's hash and the path beside it give. -/
def rootOf (id : List Byte) (path : List (List Byte)) (node : Nat) (hash : List Byte) : List Byte :=
  (path.foldl (fun (w : Nat × List Byte) sib =>
    let pre := id ++ toBe 4 (w.1 / 2) ++ toBe 2 0x8383
    (w.1 / 2, sha256 (if w.1 % 2 == 1 then pre ++ sib ++ w.2 else pre ++ w.2 ++ sib))) (node, hash)).2

/-- The length of a signature, from its codes; none where a code is not accepted. -/
def sigLength (sig : List Byte) : Option Nat :=
  (otsOf (beNat (field sig 4 4))).bind fun o =>
    (heightOf (beNat (field sig (40 + 32 * o.2.1) 4))).map fun h => 44 + 32 * o.2.1 + 32 * h

/-- Whether a signature of a message verifies under a public key of 56 bytes, with the codes of the key. -/
def verifies (key sig msg : List Byte) : Bool :=
  match otsOf (beNat (field sig 4 4)), sigLength sig with
  | some (w, p, shift), some n =>
    let ht := field sig (40 + 32 * p) 4
    let h := (heightOf (beNat ht)).getD 0
    let q := beNat (field sig 0 4)
    let id := field key 8 16
    let node := 2 ^ h + q
    let leaf := sha256 (id ++ toBe 4 node ++ toBe 2 0x8282 ++ otsKey id q w p shift (field sig 4 (36 + 32 * p)) msg)
    let path := (List.range h).map fun i => field sig (44 + 32 * p + 32 * i) 32
    sig.length == n && key.length == 56 && field key 0 4 == ht && field key 4 4 == field sig 4 4 && q < 2 ^ h && rootOf id path node leaf == field key 24 32
  | _, _ => false

/-- Whether a signature of one or two levels of a message verifies under a key of 60 bytes (R419): the levels, the codes and the length are checked.
PRESUMED (log 24; unsafe). -/
def hssVerifies (key sig msg : List Byte) : Bool :=
  let levels := beNat (field key 0 4)
  let rest := sig.drop 4
  if key.length != 60 || beNat (field sig 0 4) + 1 != levels then false
  else if levels == 1 then verifies (key.drop 4) rest msg
  else if levels == 2 then
    match sigLength rest with
    | none => false
    | some n =>
      let mid := field rest n 56
      verifies (key.drop 4) (rest.take n) mid && verifies mid (rest.drop (n + 56)) msg
  else false

/-! ### Signing (R419, R421)

A tree's secrets are drawn from its seed by hashing. PRESUMED (log 24): the way of drawing them is the one that the public standard describes. -/

/-- A hash of a tree's identifier, a leaf, a tag and the seed. -/
def draw (id seed : List Byte) (leaf tag : Nat) : List Byte := sha256 (id ++ toBe 4 leaf ++ toBe 2 tag ++ toBe 1 0xFF ++ seed)

/-- A chain of a leaf's one-time key, from step `a` on for `n` steps. -/
def walkChain (id : List Byte) (leaf i a n : Nat) (x : List Byte) : List Byte :=
  (List.range n).foldl (fun t j => sha256 (id ++ toBe 4 leaf ++ toBe 2 i ++ toBe 1 (a + j) ++ t)) x

/-- The one-time public key of a leaf. -/
def otsPublic (id seed : List Byte) (w p leaf : Nat) : List Byte :=
  sha256 (id ++ toBe 4 leaf ++ toBe 2 0x8080 ++ (List.range p).flatMap fun i => walkChain id leaf i 0 (2 ^ w - 1) (draw id seed leaf i))

/-- A node of a tree of height `h`, `k` levels above the leaves. -/
def treeNode (id seed : List Byte) (w p h : Nat) : Nat → Nat → List Byte
  | 0, r => sha256 (id ++ toBe 4 r ++ toBe 2 0x8282 ++ otsPublic id seed w p (r - 2 ^ h))
  | k + 1, r => sha256 (id ++ toBe 4 r ++ toBe 2 0x8383 ++ treeNode id seed w p h k (2 * r) ++ treeNode id seed w p h k (2 * r + 1))

/-- The one-time signature of a message under a randomizer. -/
def otsSign (id seed : List Byte) (code w p shift leaf : Nat) (c msg : List Byte) : List Byte :=
  let q := checked (sha256 (id ++ toBe 4 leaf ++ toBe 2 0x8181 ++ c ++ msg)) w shift
  toBe 4 code ++ c ++ (List.range p).flatMap fun i => walkChain id leaf i 0 (digit q w i) (draw id seed leaf i)

/-- The public key of a tree, of 56 bytes; none where its codes are not accepted. -/
def publicKey (id seed : List Byte) (lv : Nat × Nat) : Option (List Byte) :=
  match heightOf lv.1, otsOf lv.2 with
  | some h, some (w, p, _) => some (toBe 4 lv.1 ++ toBe 4 lv.2 ++ id ++ treeNode id seed w p h h 1)
  | _, _ => none

/-- The signature of a message by a leaf of a tree. -/
def sign (id seed : List Byte) (lv : Nat × Nat) (leaf : Nat) (c msg : List Byte) : Option (List Byte) :=
  match heightOf lv.1, otsOf lv.2 with
  | some h, some (w, p, shift) =>
    let path := (List.range h).flatMap fun k => treeNode id seed w p h k ((2 ^ h + leaf) / 2 ^ k ^^^ 1)
    some (toBe 4 leaf ++ otsSign id seed lv.2 w p shift leaf c msg ++ toBe 4 lv.1 ++ path)
  | _, _ => none

/-- The public key of the chip's identity, of 60 bytes (R419): its levels, and the key of its top tree. -/
def hssPublic (k : Identity) : List Byte :=
  toBe 4 k.levels.length ++ ((k.levels.head?).bind (publicKey k.id k.seed)).getD []

/-- The signature of a message by the chip's identity, with one level or two, under a randomizer (R419, R421). `leaf` counts the leaves of the last level that have
been used: with two levels its higher part is the counter of the top tree, each leaf of which signs one tree below.
PRESUMED (log 24; unsafe); DESIGN CHOICE (log 25; unsafe). -/
def hssSign (k : Identity) (leaf : Nat) (c msg : List Byte) : List Byte :=
  match k.levels with
  | [a] => toBe 4 0 ++ (sign k.id k.seed a leaf c msg).getD []
  | [a, b] =>
    let n := 2 ^ (heightOf b.1).getD 0
    let top := leaf / n
    let seed := draw k.id k.seed top 0xFFFE
    let id := (draw k.id k.seed top 0xFFFF).take 16
    let key := (publicKey id seed b).getD []
    toBe 4 1 ++ (sign k.id k.seed a top (draw k.id k.seed top 0xFFFD) key).getD [] ++ key ++ (sign id seed b (leaf % n) c msg).getD []
  | _ => []

end Lms

/-- The parts of a firmware image: its public key, its signature and the firmware. The manual gives no format: four bytes with the signature's length, the key,
the signature, the firmware.
DESIGN CHOICE (log 25; unsafe). -/
def firmwareParts (img : List Byte) : List Byte × List Byte × List Byte :=
  let n := Lms.beNat (img.take 4)
  (Lms.field img 4 60, Lms.field img 64 n, img.drop (64 + n))

/-- Whether a firmware image verifies against the key whose digest is held in one-time-programmable storage (R420).
DESIGN CHOICE (log 25; unsafe). -/
def firmwareOk (digest img : List Byte) : Bool :=
  let p := firmwareParts img
  sha256 p.1 == digest && Lms.hssVerifies p.1 p.2.1 p.2.2

end Sys2Proof.Machine
end

