-- ==== Sys2Proof/Machine/HostExec.lean ====
section
/-! DEFINITION. The events of the links, the host, the fabric manager and bring-up (R11, R331 to R333, R354, R356, R413, R417 to R422). -/

namespace Sys2Proof.Machine

/-! ### Links (R331, R417, R418) -/

/-- A fabric flit fails its CRC: it is sent again, and what it carries is delivered once (R331).
DEDUCED (log 57; unsafe). -/
def onFlitCrcFail (port seq : Nat) (s : State) : Option State :=
  match s.port? port with
  | none => none
  | some p => if !p.up || !p.flits.holds seq then none else some (s.modPort port fun p => { p with flits := p.flits.again })

def execFlitCrcFail (port seq : Nat) (s : State) : Host.Outcome State Fault Refusal := s.occurs (onFlitCrcFail port seq s)

/-- Whether an access goes out by a port. -/
def State.goesBy (s : State) (port : Nat) (a : Acc) : Bool :=
  match a.place with
  | .mem g => !s.onChip g && s.route (chipOf g) == .port port
  | _ => false

/-- A fabric link stays down (R331): the chips behind it cannot be reached any more (R354).
DEDUCED (log 57; unsafe). -/
def onFabricLinkDown (port : Nat) (s : State) : Option State :=
  match s.port? port with
  | none => none
  | some p =>
    if !p.up then none
    else
      let s := s.force fun a => (a.kind.isLoad || a.kind.isFetch) && s.goesBy port a
      some (s.modPort port fun p => { p with up := false, flits := p.flits.lose })

def execFabricLinkDown (port : Nat) (s : State) : Host.Outcome State Fault Refusal := s.occurs (onFabricLinkDown port s)

def State.modUcie (s : State) (m : Nat) (f : Ucie → Ucie) : State := { s with ucies := s.ucies.modify m f }

/-- A module sends a flit again, from the end that keeps it; the other end discards a number that it has taken. -/
def Ucie.resend (seq : Nat) (u : Ucie) : Ucie :=
  if u.flits.holds seq then { u with flits := u.flits.again, far := u.far.accept 4096 seq } else { u with far := u.far.again, flits := u.flits.accept 4096 seq }

/-- A flit of a module fails its CRC: it is sent again, and its command is executed once (R418).
DEDUCED (log 57; unsafe). -/
def onUcieFlitCrcFail (m seq : Nat) (s : State) : Option State :=
  match s.ucies[m]? with
  | none => none
  | some u => if !u.up || !(u.flits.holds seq || u.far.holds seq) then none else some (s.modUcie m (Ucie.resend seq))

def execUcieFlitCrcFail (m seq : Nat) (s : State) : Host.Outcome State Fault Refusal := s.occurs (onUcieFlitCrcFail m seq s)

/-- Whether an access goes out by some port. -/
def State.goesOut (s : State) (a : Acc) : Bool := (List.range 18).any fun p => s.goesBy p a

/-- A module goes down; the link runs on the rest (R418). With the last one the ports, which stand on the host die, are cut off, and what the chips behind them
have answered has come (R354).
DEDUCED (log 57; unsafe). -/
def onUcieModuleDown (m : Nat) (s : State) : Option State :=
  match s.ucies[m]? with
  | none => none
  | some u =>
    if !u.up then none
    else
      let s := if s.lastModule m then s.force fun a => (a.kind.isLoad || a.kind.isFetch) && s.goesOut a else s
      some (s.modUcie m fun u => { u with up := false, flits := u.flits.lose, far := u.far.lose })

def execUcieModuleDown (m : Nat) (s : State) : Host.Outcome State Fault Refusal := s.occurs (onUcieModuleDown m s)

/-- A module comes back; what the host did meanwhile proceeds in its order, and the vectors that waited are raised (R11, R418). -/
def onUcieLinkReturn (m : Nat) (s : State) : Option State :=
  match s.ucies[m]? with
  | none => none
  | some u =>
    if u.up then none
    else
      let raise (d : Die) : Die := { d with msix := d.msix + d.msixDue, msixDue := 0 }
      some { (s.modUcie m fun u => { u with up := true }) with events := s.linkHeld ++ s.events, linkHeld := [], dies := s.dies.map raise }

def execUcieLinkReturn (m : Nat) (s : State) : Host.Outcome State Fault Refusal := s.occurs (onUcieLinkReturn m s)

/-! ### Writes of the host (R11, R398) -/

/-- Whether two runs of bytes overlap. -/
def meets (a n b m : Nat) : Bool := a < b + m && b < a + n

/-- A context takes what the host has written of its record or its rank table. Accesses that are parked for room in the dirty log retry where its tail moves or
its size changes: without a log none waits (R205, R206). -/
def State.refresh (s : State) (gpa n : Nat) (c : Context) : State :=
  let ranks := c.nrank.1 * c.nrank.2.1 * c.nrank.2.2
  let table := s.gpaOf (s.recField c.record 96 8)
  if !(meets gpa n (s.gpaOf c.record) 256 || meets gpa n table (4 * ranks)) then s
  else
    let s := s.modCtx c.ctx fun c => s.readRec c
    let tail := BitVec.ofNat 32 (s.recField c.record 44 4)
    if tail == c.dltail && ((s.ctx? c.ctx).map (·.dln)) == some c.dln then s else s.setTail c.ctx tail

/-- Bytes with some of them overwritten. -/
def patch (at' : Nat) (old : List Byte) (gpa : Nat) (bs : List Byte) : List Byte :=
  old.zipIdx.map fun p => if gpa ≤ at' + p.2 && at' + p.2 < gpa + bs.length then bs.getD (at' + p.2 - gpa) 0 else p.1

/-- The brand table takes what the host has written in it (R360). -/
def State.writeTable (s : State) (gpa : Nat) (bs : List Byte) : State :=
  match s.brandBase with
  | none => s
  | some b =>
    let base := s.gpaOf b
    let lo := max gpa base
    let hi := min (gpa + bs.length) (base + 2 ^ 25)
    if hi ≤ lo then s
    else
      (List.range ((hi - 1 - base) / 32 - (lo - base) / 32 + 1)).foldl (fun s k =>
        let i := (lo - base) / 32 + k
        let old := ((s.brandAt i).map (·.bytes)).getD (List.replicate 32 0)
        s.putRec i (BRec.read (patch (base + 32 * i) old gpa bs))) s

/-- A write of the host arrives at the pigeonhole of each doubleword it touches (R295, R305), where it is a choice site of a context.
DEDUCED (log 44; unsafe). -/
def State.hostArrives (s : State) (gpa n : Nat) : State :=
  (touched gpa n).foldl (fun s dw => (s.ctxs.filter (s.hostSite · dw)).foldl (fun s c => s.arrivalMark c.ctx dw 48 0) s) s

/-- A write of the host: to device memory, a STORE without a table, or to a device register (R11, R295).
DESIGN CHOICE (log 66; unsafe). -/
def onHostWrite (gpa : Nat) (bytes : List Byte) (s : State) : Option State :=
  if !s.onChip gpa || bytes.isEmpty then none
  else if isDevice gpa then
    s.viaLink (.hostWrite gpa bytes) fun s => some (match deviceAct gpa bytes with | some e => { s with events := e :: s.events } | none => s.boxWrite gpa bytes)
  else if 0xC000000000 < localOf gpa + bytes.length then none
  else
    s.viaLink (.hostWrite gpa bytes) fun s =>
      let s := (((s.hostArrives gpa bytes.length).hold 0 gpa).writeHome gpa bytes).writeTable gpa bytes
      some (s.ctxs.foldl (fun s c => s.refresh gpa bytes.length c) s)

def execHostWrite (gpa : Nat) (bytes : List Byte) (s : State) : Host.Outcome State Fault Refusal := s.occurs (onHostWrite gpa bytes s)

/-- The host has the device mint a brand for a context (R413). -/
def onHostBrandMint (ctx : Nat) (kd : Kind) (payload : Brand) (s : State) : Option State :=
  s.viaLink (.hostBrandMint ctx kd payload) fun s => if (s.ctx? ctx).isNone then some s else some (s.mint ctx kd.code payload).2

def execHostBrandMint (ctx : Nat) (kd : Kind) (payload : Brand) (s : State) : Host.Outcome State Fault Refusal := s.occurs (onHostBrandMint ctx kd payload s)

/-! ### The fabric manager (R333, R354) -/

/-- The live records of a saved context's brands become moved records that name the chip it goes to (R360).
DEDUCED (log 53; unsafe). -/
def State.moveRecords (s : State) (ctx chip : Nat) : State :=
  match s.ctx? ctx with
  | none => s
  | some c =>
    if c.st != .saved then s
    else
      (s.listedBrands c).foldl (fun s b =>
        match s.findRec b with
        | some (_, r) => if r.st == 1 then (s.modRec b fun r => { r with st := 3, payload := BitVec.ofNat 128 chip }).shootDown b else s
        | none => s) s

/-- The pair of a retired chip that is mapped to this chip enters the origin table, where it is not yet: the moved records that the host has copied here
under its index are then found (R356, R360).
DEDUCED (log 53; unsafe). -/
def State.adopt (s : State) (serial : BitVec 48) (boot : BitVec 24) (chip : Nat) : State :=
  if chip == s.chip && serial != s.serial && !s.origins.contains (serial, boot) && s.origins.length < 4095 then { s with origins := s.origins ++ [(serial, boot)] }
  else s

/-- A write of the routing table; or, when a context moves, of the records that lead to its new chip. The chip's own number is its own.
DESIGN CHOICE (log 3; unsafe). -/
def onRoutingTableWrite (w : RouteWrite) (s : State) : Option State :=
  let ok := match w with
    | .chip c r => c < 1024 && (c == s.chip) == (r == .self) && (match r with | .port f => decide (f < 18) | _ => true)
    | .home _ _ c => decide (c < 1024)
    | .moved _ c => c < 1024 && c != s.chip
  if !ok then none
  else
    s.viaLink (.routingTableWrite w) fun s =>
      match w with
      | .chip c r => some ({ s with routes := setKey c r s.routes }.didSetup 9)
      | .home sr bt c =>
        let rest := s.homes.filter fun h => !(h.1 == sr && h.2.1 == bt)
        some (({ s with homes := rest ++ [(sr, bt, c)] }.adopt sr bt c).didSetup 9)
      | .moved ctx c => some (s.moveRecords ctx c)

def execRoutingTableWrite (w : RouteWrite) (s : State) : Host.Outcome State Fault Refusal := s.occurs (onRoutingTableWrite w s)

/-- A reduction window is programmed (R333). -/
def onReductionWindowProgram (lo hi : Nat) (s : State) : Option State :=
  if hi ≤ lo || 2 ^ 60 < hi then none
  else s.viaLink (.reductionWindowProgram lo hi) fun s => some { s with windows := s.windows.filter (·.lo != lo) ++ [⟨lo, hi⟩] }

def execReductionWindowProgram (lo hi : Nat) (s : State) : Host.Outcome State Fault Refusal := s.occurs (onReductionWindowProgram lo hi s)

/-! ### Bring-up, firmware and attestation (R356, R419 to R422) -/

/-- The host sets the base of the brand table, which clears it and the origin table (R356), and every cache of records with them. -/
def onBrandTableBaseSet (base : Nat) (s : State) : Option State :=
  if 0xC000000000 < base + 2 ^ 25 then none
  else s.viaLink (.brandTableBaseSet base) fun s => 
      let core (p : Nat × CoreSt) : Nat × CoreSt := (p.1, { p.2 with brands := [] })
      some ({ s with brandBase := some base, brands := [], origins := [], pasts := [], cores := s.cores.map core }.didSetup 8)

def execBrandTableBaseSet (base : Nat) (s : State) : Host.Outcome State Fault Refusal := s.occurs (onBrandTableBaseSet base s)

/-- A courier's firmware, which its 256 KiB of memory holds, is verified, and run or not (R11, R332, R420).
DESIGN CHOICE (log 25; unsafe). -/
def onCourierFirmwareLoad (port : Nat) (img : List Byte) (s : State) : Option State :=
  if (s.port? port).isNone then none
  else
    s.viaLink (.courierFirmwareLoad port img) fun s =>
      let ok := (firmwareParts img).2.2.length ≤ 2 ^ 18 && firmwareOk s.otpKey img
      let s := s.modPort port fun p => { p with firmware := if ok then some img else none, valid := ok }
      some (if ok then s.didSetup (10 + port) else s)

def execCourierFirmwareLoad (port : Nat) (img : List Byte) (s : State) : Host.Outcome State Fault Refusal := s.occurs (onCourierFirmwareLoad port img s)

/-- The host die's firmware is verified, and replaced or kept with the failure reported (R420).
DESIGN CHOICE (log 25; unsafe). -/
def onHostDieFirmwareLoad (img : List Byte) (s : State) : Option State :=
  some (if firmwareOk s.otpKey img then ({ s with hostFw := img } : State).opened else { s with fwFailures := s.fwFailures + 1 })

def execHostDieFirmwareLoad (img : List Byte) (s : State) : Host.Outcome State Fault Refusal := s.occurs (onHostDieFirmwareLoad img s)

/-- An attestation report leaves the chip, signed by its identity key with a fresh leaf, whose counter is advanced first; with none left the chip refuses (R421).
PRESUMED (log 24; unsafe); DESIGN CHOICE (log 25; unsafe). -/
def onAttestationReport (nonce : List Byte) (s : State) : Option State :=
  if nonce.length != 32 then none
  else if s.otpLeft == 0 then some s
  else
    let host := sha256 s.hostFw
    let couriers := s.ports.map fun p => sha256 (p.firmware.getD [])
    let (c, s) := s.freeBytes 32
    let msg := nonce ++ toLe 6 s.serial.toNat ++ toLe 3 s.boot.toNat ++ host ++ couriers.flatten ++ toLe 4 s.otpLeaf
    let r : Report :=
      { nonce := nonce, serial := s.serial, boot := s.boot, hostDigest := host, courierDigests := couriers, leaf := s.otpLeaf, signer := s.idKey
        signature := Lms.hssSign s.idKey s.otpLeaf c msg }
    some { s with otpLeaf := s.otpLeaf + 1, otpLeft := s.otpLeft - 1, reports := s.reports ++ [r] }

def execAttestationReport (nonce : List Byte) (s : State) : Host.Outcome State Fault Refusal := s.occurs (onAttestationReport nonce s)

/-- A cold reset (R422): the host die verifies its firmware and starts it or none; the boot count advances and the brand sequence starts at 1, or the count is
exhausted and no brand is minted. What is kept without power stays, and so does what left the chip.
DEDUCED (log 59; unsafe). -/
def onColdReset (s : State) : Option State :=
  let ended := s.boot == BitVec.allOnes 24
  let boot := if ended then s.boot else s.boot + 1
  let bad := !s.hostFw.isEmpty && !firmwareOk s.otpKey s.hostFw
  some { State.reset with
    chip := s.chip, serial := s.serial, boot := boot, brandSeq := if ended then 0 else 1, routes := [(s.chip, .self)], homes := [(s.serial, boot, s.chip)]
    otpKey := s.otpKey, idKey := s.idKey, otpLeaf := s.otpLeaf, otpLeft := s.otpLeft, hostFw := if bad then [] else s.hostFw
    fwFailures := s.fwFailures + bit bad, reports := s.reports, events := s.events
    fresh := s.fresh, nextId := s.nextId }

def execColdReset (s : State) : Host.Outcome State Fault Refusal := s.occurs (onColdReset s)

end Sys2Proof.Machine
end

