-- ==== Sys2Proof/Machine/OpqExec.lean ====
section
/-! DEFINITION. The instructions of class OPQ: operators, local atomics, transactional groups and walker records (R230, R231,
R306 to R315). -/

namespace Sys2Proof.Machine

/-! ### Operators (R306, R307) -/

/-- The bytes an operator covers. -/
def opSize (op : Opr) : Nat := if op == .addI64 then 8 else 4

/-- How an operator reads its operand (R230, R306). -/
def opRd (op : Opr) : Rd :=
  match op with
  | .addF32 => .f32
  | .subfF32 => .f32
  | .maxF32 => .f32
  | .minF32 => .f32
  | .mulF32 => .f32
  | .addI64 => .i64
  | _ => .i32

/-- The operand of an operator in a lane. -/
def Issue.operand (x : Issue) (op : Opr) (f : Src) (j : Nat) : List Byte := toLe (opSize op) (x.val (opRd op) f j).toNat

/-- Check one lane's post (R219, R203, R204). -/
def State.postSpot (s : State) (x : Issue) (seen : List Seen) (a : Dword) (size : Nat) (need : Need) : Spot × List Seen × State :=
  match s.checkSeen seen x.core x.c a size size need true true with
  | (.error f, seen, s) => (.flt f, seen, s)
  | (.ok k, seen, s) =>
    match s.dirty x.c.ctx a k.leaf with
    | .done s => (.ok (.mem k.gpa) (Pte.alg k.leaf.e) 0, seen, s)
    | .full => (.park .dirtyLog, seen, s)
    | .flt f => (.flt f, seen, s)

def State.postSpots (s : State) (x : Issue) (addr : Nat → Dword) (size : Nat) (need : Need) : Spots :=
  x.act.foldl (fun (w : Spots) j =>
    let r := w.s.postSpot x w.seen (addr j) size need
    ⟨r.2.2, r.2.1, w.got ++ [(j, addr j, r.1)]⟩) ⟨s, [], []⟩

/-- One post: its operator, whether it fetches, its colour, destination, addresses, operands and comparands. -/
structure Post where
  op : Opr
  fetch : Bool
  colour : BitVec 3
  d : Dst
  addr : Nat → Dword
  data : Nat → List Byte
  cmp : Nat → Word

/-- The access of one lane's post. -/
def Post.acc (p : Post) (x : Issue) (id instr j : Nat) (va : Dword) (place : Place) (alg : Nat) : Acc :=
  { id := id, instr := instr, core := x.core, tid := x.tid, gix := x.gix, lane := j, also := [], ctx := x.c.ctx
    kind := if p.fetch then .fetch p.op else .post p.op, place := place, va := va, size := opSize p.op, data := p.data j, cmp := p.cmp j
    alg := alg, cls := 0, colour := p.colour.toNat, d := p.d, shape := .plain, party := x.party, arrived := false, val := none
    path := none, left := false, fixedAt := none, picks := [], each := 0, cover := [] }

/-- Send one lane's post. A fetching operator pushes the latch and counts in OC; where it may be ECCU its return is waited
for, and ECCU undoes both (R210, R307). -/
def State.sendPost (s : State) (x : Issue) (p : Post) (instr j : Nat) (va : Dword) (place : Place) (alg : Nat) : Option Flt × State :=
  let (id, s) := s.newId
  let s := s.issueAcc (p.acc x id instr j va place alg)
  let count (s : State) : State :=
    s.modIssue x fun g => { (g.eachLane [j] fun l => l.pushAwaits (awaitWords [(id, opSize p.op)])) with oc := g.oc + 1 }
  if !p.fetch then (none, s)
  else if !s.risky place (opSize p.op) then (none, count s)
  else
    let s := s.forceBefore id
    let (lost, s) := s.cutOff place
    let (there, s) := if lost then s.freeBool else (true, s)
    let s := if there then s.complete id else s
    let given (s : State) : State := match s.acc? id with | some a => s.forget a | none => s
    if lost then (some { Flt.at' Code.eccu va with remote := true }, given s)
    else if ((s.acc? id).bind (·.val)) == some [] then (some (s.eccuOf place va), given s)
    else (none, count s)

/-- The effect of posts, lane by lane in rising order; a fetching operator waits for room in OC (R374). -/
def postBody (x : Issue) (p : Post) (s : State) : Res :=
  if p.fetch && 65535 < ((s.group? x.tid x.gix).getD x.g).oc + x.act.length then { s := s, retry := true }
  else
    let w := s.postSpots x p.addr (opSize p.op) (if p.fetch then .both else .write)
    let (instr, s) := w.s.newId
    let r := w.got.foldl (fun (r : State × List (Nat × Flt)) q =>
      match q.2.2 with
      | .ok place alg _ =>
        match r.1.sendPost x p instr q.1 q.2.1 place alg with
        | (some f, s) => (s, r.2 ++ [(q.1, f)])
        | (none, s) => (s, r.2)
      | _ => r) (s, [])
    let parks := spotParks w.got
    { s := r.1.parkAll x parks, faults := spotFaults w.got ++ r.2, stay := parks.map (·.1) }

def execOps (h : Hdr) (op : Opr) (col : BitVec 3) (a b c : Src) (s : State) : Host.Outcome State Fault Refusal :=
  run (.ops h op col a b c) (fun x s => postBody x ⟨op, false, col, .none, x.va a b, x.operand op c, fun _ => 0⟩ s) s

def execOpf (h : Hdr) (op : Opr) (col : BitVec 3) (d : Dst) (a b c : Src) (s : State) : Host.Outcome State Fault Refusal :=
  run (.opf h op col d a b c) (fun x s => postBody x ⟨op, true, col, d, x.va a b, x.operand op c, fun _ => 0⟩ s) s

def execOcas (h : Hdr) (col : BitVec 3) (d : Dst) (a b c : Src) (s : State) : Host.Outcome State Fault Refusal :=
  run (.ocas h col d a b c) (fun x s => postBody x ⟨.cas, true, col, d, x.w64 a, x.operand .cas b, x.w32 c⟩ s) s

/-! ### Local atomics (R230, R231) -/

/-- One lane's local atomic: the word is read and written at once, and the lane receives the old value. -/
def State.satLane (s : State) (x : Issue) (op : Opr) (d : Dst) (v : Nat → Nat) (cmp : Nat → Word) (j off : Nat) : State :=
  let old := leNat (s.spadBytes x.tid off (opSize op))
  let s := s.writeSpad (some (x.tid, x.gix, j)) x.tid off (toLe (opSize op) (opNew op old (v j) (cmp j).toNat))
  s.put x d [(j, BitVec.ofNat 64 old)]

/-- A local atomic follows its lane's earlier loads, returns and stores (Tables 10-2 to 10-7), and every store in the core's
path to the scratchpad. -/
def execSat (h : Hdr) (op : Opr) (col : BitVec 3) (d : Dst) (a b : Src) (c : Option Src) (s : State) : Host.Outcome State Fault Refusal :=
  run (.sat h op col d a b c) (fun x s =>
    let t := (s.team? x.tid).getD x.team
    let spots := x.act.map fun j => (j, (0 : Dword), spadSpot t (x.w32 a j).toNat (opSize op))
    let good := spots.filterMap fun p => match p.2.2 with | .ok (.spad _ off) _ _ => some (p.1, off) | _ => none
    let s := s.await false x.tid x.gix (good.map (·.1)) ⟨true, true, false⟩ true 255 .pod
    let s := s.force fun y => y.core == x.core && y.kind.isStore && y.path.isSome && (match y.place with | .spad u _ => u == x.tid | _ => false)
    let s := good.foldl (fun s p =>
      s.satLane x op d (fun j => (x.val (opRd op) b j).toNat) (fun j => (c.map fun f => x.w32 f j).getD 0) p.1 p.2) s
    let parks := spotParks spots
    { s := s.parkAll x parks, faults := spotFaults spots, stay := parks.map (·.1) }) s

/-! ### Transactional groups (R309 to R311) -/

/-- The handle of a transactional group (Table 13-5).
DESIGN CHOICE (log 7; unsafe). -/
def txHandle (serial : BitVec 16) (stack slot : Nat) : Word := serial ++ BitVec.ofNat 16 (stack % 16 * 64 + slot % 64)
def txStack (h : Word) : Nat := h.toNat / 64 % 16

/-- The open or aborted group of a team that a handle names (R311). -/
def State.tx? (s : State) (tid : Nat) (h : Word) : Option Tx :=
  if h.toNat / 1024 % 64 != 0 then none
  else (s.agent (txStack h)).txs.find? fun t => t.tid == tid && t.slot == h.toNat % 64 && t.serial == h.extractLsb' 16 16

/-- Change the group of a handle. -/
def State.modTx (s : State) (h : Word) (f : Tx → Tx) : State :=
  s.modAgent (txStack h) fun a => { a with txs := modWhere (fun t => t.slot == h.toNat % 64 && t.serial == h.extractLsb' 16 16) f a.txs }

/-- Close the group of a handle. -/
def State.closeTx (s : State) (h : Word) : State :=
  s.modAgent (txStack h) fun a => { a with txs := a.txs.filter fun t => t.slot != h.toNat % 64 || t.serial != h.extractLsb' 16 16 }

/-- A command on a group goes to its agent, and the group's next issue waits for the answer (R311, R383). -/
def State.tellTx (s : State) (x : Issue) (h : Word) : State :=
  let n : Node := .agent (txStack h)
  (s.pass x.c.ctx (.core x.core) n).pass x.c.ctx n (.core x.core)

/-- Whether an open group of an agent holds a row. -/
def Agent.holdsRow (a : Agent) (row : Nat) : Bool := a.txs.any fun t => !t.aborted && t.rows.any (·.row == row)

/-- Open a group at an agent with its first row, in a slot that is free there (R309 to R311).
DESIGN CHOICE (log 7; unsafe); DEDUCED (log 34; unsafe); DESIGN CHOICE (log 60; safe). -/
def State.openTx (s : State) (tid gpa : Nat) : Except Flt Word × State :=
  let n := stackOf gpa
  let a := s.agent n
  let slots := (List.range 64).filter fun i => !(a.txs.any (·.slot == i))
  if slots.isEmpty || a.holdsRow (gpa / 2048) then (.error (Flt.mk' Code.txov), s)
  else
    let (k, s) := s.freeNat
    let slot := slots.getD (k % slots.length) 0
    let s := s.modAgent n fun a => { a with serial := a.serial + 1, txs := a.txs ++ [⟨slot, a.serial, tid, false, [⟨gpa / 2048, []⟩]⟩] }
    (.ok (txHandle a.serial n slot), s)

def execTxb (h : Hdr) (d : Dst) (a : Src) (s : State) : Host.Outcome State Fault Refusal :=
  run (.txb h d a) (fun x s =>
    if x.act.isEmpty then { s := s }
    else
      let va := x.w64 a x.low
      match s.checkVa x.core x.c va 4 1 .write true true with
      | (.error f, s) => { s := s, faults := x.all f }
      | (.ok k, s) =>
        if !s.onChip k.gpa then { s := s, faults := x.all (Flt.at' Code.prot va) }
        else
          match s.openTx x.tid k.gpa with
          | (.error f, s) => { s := s.visit x.c.ctx (.core x.core) 0 k.gpa true, faults := x.all { f with addr := va } }
          | (.ok w, s) => { s := (s.visit x.c.ctx (.core x.core) 0 k.gpa true).put x d (x.act.map fun j => (j, w.zeroExtend 64)) }) s

/-- Why a lane's transactional write faults beside its address: a row of another agent or chip, a 65th row, a row of another open group (R311). -/
def State.txBars (s : State) (x : Issue) (w : Word) (va : Dword) (gpa : Nat) : Option Flt :=
  let rows := ((s.tx? x.tid w).map (·.rows)).getD []
  if !s.onChip gpa || stackOf gpa != txStack w then some (Flt.at' Code.prot va)
  else if !(rows.any (·.row == gpa / 2048)) && (64 ≤ rows.length || (s.agent (txStack w)).holdsRow (gpa / 2048)) then some (Flt.at' Code.txov va)
  else none

/-- Record one lane's transactional write: its row joins the group, and the write travels to the agent (R310, R311). -/
def State.sendTx (s : State) (x : Issue) (w : Word) (colour : BitVec 3) (instr j : Nat) (va : Dword) (gpa : Nat) (bs : List Byte) : State :=
  let row := gpa / 2048
  let mine := (((s.tx? x.tid w).map (·.rows)).getD []).any (·.row == row)
  let s := if mine then s else s.modTx w fun t => { t with rows := t.rows ++ [⟨row, []⟩] }
  let (id, s) := s.newId
  s.issueAcc
    { id := id, instr := instr, core := x.core, tid := x.tid, gix := x.gix, lane := j, also := [], ctx := x.c.ctx, kind := .tx w
      place := .mem gpa, va := va, size := bs.length, data := bs, cmp := 0, alg := 0, cls := 0, colour := colour.toNat, d := .none
      shape := .plain, party := x.party, arrived := false, val := none, path := none, left := false, fixedAt := none, picks := [], each := 0, cover := [] }

/-- One lane of `txs`: its checks, then the dirty bit (R204), then the write. -/
def State.txLane (s : State) (x : Issue) (w : Word) (colour : BitVec 3) (instr : Nat) (seen : List Seen) (j : Nat) (va : Dword) (bs : List Byte) :
    Spot × List Seen × State :=
  match s.checkSeen seen x.core x.c va bs.length bs.length .write true true with
  | (.error f, seen, s) => (.flt f, seen, s)
  | (.ok k, seen, s) =>
    match s.txBars x w va k.gpa with
    | some f => (.flt f, seen, s)
    | none =>
      match s.dirty x.c.ctx va k.leaf with
      | .done s => (.ok (.mem k.gpa) 0 0, seen, s.sendTx x w colour instr j va k.gpa bs)
      | .full => (.park .dirtyLog, seen, s)
      | .flt f => (.flt f, seen, s)

/-- DEDUCED (log 34; unsafe). -/
def execTxs (h : Hdr) (col : BitVec 3) (a b c : Src) (s : State) : Host.Outcome State Fault Refusal :=
  run (.txs h col a b c) (fun x s =>
    let w := x.u32 a
    let size := if c.isPair then 8 else 4
    match s.tx? x.tid w with
    | none => { s := s, faults := x.all (Flt.mk' Code.prot) }
    | some t =>
      if t.aborted then { s := s }
      else
        let (instr, s) := s.newId
        let sp := x.act.foldl (fun (w' : Spots) j =>
          let r := w'.s.txLane x w col instr w'.seen j (x.w64 b j) (x.bytesOf c size j)
          ⟨r.2.2, r.2.1, w'.got ++ [(j, x.w64 b j, r.1)]⟩) ⟨s, [], []⟩
        let parks := spotParks sp.got
        { s := sp.s.parkAll x parks, faults := spotFaults sp.got, stay := parks.map (·.1) }) s

/-- The recorded bytes of a row as runs within one doubleword: address and bytes. -/
def TxRow.runs (r : TxRow) : List (Nat × List Byte) :=
  let bs := (List.range 2048).filterMap fun i => (r.bytes.find? (·.1 == i)).map (·.2) |>.map fun b => (r.row * 2048 + i, b)
  (bs.foldl (fun (acc : List (Nat × List Byte)) p =>
    match acc with
    | (a, l) :: rest => if a + l.length == p.1 && a / 8 == p.1 / 8 then (a, l ++ [p.2]) :: rest else (p.1, [p.2]) :: acc
    | [] => [(p.1, [p.2])]) []).reverse

/-- Commit a group: every recorded byte enters its pigeonhole as a store without a table, at one instant (R310). -/
def State.commitTx (s : State) (ctx party : Nat) (t : Tx) : State :=
  (t.rows.flatMap TxRow.runs).foldl (fun s p =>
    s.append party { op := .store, gpa := p.1, size := p.2.length, data := p.2, cmp := 0, table := none, lanes := [], acc := none, fetching := false, va := 0, ctx := ctx }) s

/-- The transactional writes of a handle have all reached the agent. -/
def State.awaitTx (s : State) (x : Issue) (w : Word) : State :=
  s.settle fun a =>
    match a.kind with
    | .tx v => if v == w || (a.tid == x.tid && a.gix == x.gix) then .home else .no
    | _ => .no

def execTxc (h : Hdr) (d : Dst) (a : Src) (s : State) : Host.Outcome State Fault Refusal :=
  run (.txc h d a) (fun x s =>
    let w := x.u32 a
    if x.act.isEmpty then { s := s }
    else
      match s.tx? x.tid w with
      | none => { s := s, faults := x.all (Flt.mk' Code.prot) }
      | some _ =>
        let s := s.awaitTx x w
        match s.tx? x.tid w with
        | none => { s := s }
        | some t =>
          let status : Dword := if t.aborted then 1 else 0
          let s := if t.aborted then s else s.commitTx x.c.ctx x.party t
          { s := ((s.closeTx w).tellTx x w).put x d (x.act.map fun j => (j, status)) }) s

def execTxa (h : Hdr) (a : Src) (s : State) : Host.Outcome State Fault Refusal :=
  run (.txa h a) (fun x s =>
    let w := x.u32 a
    if x.act.isEmpty then { s := s }
    else
      match s.tx? x.tid w with
      | none => { s := s, faults := x.all (Flt.mk' Code.prot) }
      | some _ => { s := (s.closeTx w).tellTx x w }) s

/-! ### Walker records (R315) -/

/-- Whether the walkers that records go to have room for all of them. -/
def State.walkerRoom (s : State) (gpas : List Nat) : Bool :=
  (List.range 16).all fun n => (s.agent n).walker.length + (gpas.filter fun g => stackOf g == n).length ≤ 256

/-- Post a record to a walker of this chip. -/
def State.postRecord (s : State) (x : Issue) (va : Dword) (gpa : Nat) : State :=
  let (snap, s) := s.snapshot
  (s.modAgent (stackOf gpa) fun a => { a with walker := a.walker ++ [⟨va, x.c.ctx, some x.tid, snap⟩] }).send x.c.ctx (.core x.core)

/-- A record's address is checked as an access of 64 bytes, which no class-2 page admits (R200, R219).
DEDUCED (log 61; unsafe). -/
def execEwk (h : Hdr) (a b : Src) (s : State) : Host.Outcome State Fault Refusal :=
  run (.ewk h a b) (fun x s =>
    let w := s.spots x x.act (fun _ => .virt) (x.va a b) 64 false
    let got := w.got.map fun p => match p.2.2 with | .ok _ _ 2 => (p.1, p.2.1, Spot.flt (Flt.at' Code.prot p.2.1)) | _ => p
    let good := got.filterMap fun p => match p.2.2 with | .ok (.mem gpa) _ _ => some (p.1, p.2.1, gpa) | _ => none
    if !w.s.walkerRoom (good.map (·.2.2)) then { s := w.s, retry := true }
    else
      let s := w.s.await false x.tid x.gix (good.map (·.1)) ⟨true, true, true⟩ true 255 .pod
      { s := good.foldl (fun s p => s.postRecord x p.2.1 p.2.2) s, faults := spotFaults got }) s

end Sys2Proof.Machine
end

