-- ==== Sys2Proof/Machine/QueExec.lean ====
section
/-! DEFINITION. The events of command queues, launches and letterboxes (R277 to R288, R413, R414). -/

namespace Sys2Proof.Machine

/-! ### Queues and doorbells -/

/-- The host creates a queue of a context (R277): its brand is minted by the device. -/
def onQueueCreate (ctx base m prio : Nat) (s : State) : Option State :=
  s.viaLink (.queueCreate ctx base m prio) fun s =>
    let ok := (s.ctx? ctx).isSome && 4 ≤ m && m ≤ 16 && prio ≤ 15 && base % 64 == 0 && base + 64 * 2 ^ m ≤ 0xC000000000
    match (List.range 256).find? fun n => !(s.queues.any (·.q == n)) with
    | none => some s
    | some n =>
      if !ok then some s
      else
        let (b, s) := s.mint ctx kindQueue (queuePayload base m prio)
        if b == 0 then some s
        else
          let q : Queue :=
            { q := n, brand := b, ctx := ctx, base := base, m := m, prio := prio, mark := 0, rd := 0, wr := 0, age := 0, ripe := false, refs := []
              flights := [], waiting := none, held := [] }
          some { s with queues := s.queues ++ [q] }

def execQueueCreate (ctx base m prio : Nat) (s : State) : Host.Outcome State Fault Refusal := s.occurs (onQueueCreate ctx base m prio s)

/-- A doorbell store: taken at once, or held behind a full ring, a completion word that waits, and those held already (R277). -/
def onDoorbell (q : Nat) (va : Dword) (s : State) : Option State :=
  s.viaLink (.doorbell q va) fun s =>
    match s.queue? q with
    | none => some s
    | some x =>
      if x.full || !x.held.isEmpty then some (s.modQueue q fun x => { x with held := x.held ++ [va] })
      else
        some ((s.takeDoorbell x va).getD (s.modQueue q fun x => { x with held := x.held ++ [va] }))

def execDoorbell (q : Nat) (va : Dword) (s : State) : Host.Outcome State Fault Refusal := s.occurs (onDoorbell q va s)

/-- A held doorbell is taken when a slot frees (R277). -/
def onDoorbellHeldTaken (q : Nat) (s : State) : Option State :=
  match s.queue? q with
  | none => none
  | some x =>
    match x.held with
    | [] => none
    | va :: rest =>
      if x.full then none
      else (s.modQueue q fun x => { x with held := rest }).takeDoorbell x va

def execDoorbellHeldTaken (q : Nat) (s : State) : Host.Outcome State Fault Refusal := s.occurs (onDoorbellHeldTaken q s)

/-! ### Dispatch (R279 to R283) -/

/-- A dispatch whose resolve has its place in the log; one that waits is not dispatched yet, and one that the log does not name stops the context (R407). -/
def State.meeting (s0 : State) (ctx : Nat) (m : Met) (k : Resolved → State → Option State) : Option State :=
  match m with
  | .got r s => k r s
  | .wait => none
  | .stop _ => some (s0.replayStop ctx)

/-- Dispatch a LAUNCH (R283): its kernel is resolved now, and it enters the sorters at its effective priority, or is refused.
DEDUCED (log 49; unsafe). -/
def onLaunch (q : Nat) (s : State) : Option State :=
  s.dispatch q 1 fun x p v =>
    s.meeting x.ctx (v.resolveLaunch x.ctx p) fun r s =>
    match s.checkLaunch x.ctx p r with
    | none => s.endPacket q x.rd Code.qpkt
    | some k =>
      if p.cores && !s.fitsWhole x.ctx p k then s.endPacket q x.rd Code.qpkt
      else some ((s.enterLaunch x.ctx (some q) none x.rd p k x.effective).2.holdObject x k.entry)

def execLaunch (q : Nat) (s : State) : Host.Outcome State Fault Refusal := s.occurs (onLaunch q s)

/-- Dispatch a REPLACE (R280): a `bcas` of the record.
DEDUCED (log 49; unsafe). -/
def onReplace (q : Nat) (s : State) : Option State :=
  s.dispatch q 2 fun x p s =>
    match s.casBrand p.brand p.payload (p.arg.extractLsb' 0 32) with
    | .done s => s.endPacket q x.rd 0
    | .differs s => s.endPacket q x.rd 1
    | .prot s => s.endPacket q x.rd Code.bgone
    | .gone s => s.endPacket q x.rd Code.bgone
    | .unreach s => s.endPacket q x.rd Code.bgone

def execReplace (q : Nat) (s : State) : Host.Outcome State Fault Refusal := s.occurs (onReplace q s)

/-- Dispatch an UNLOAD (R280, R414): the queue's reference is dropped as by `bdrp`.
DEDUCED (log 49, 50; unsafe). -/
def onUnload (q : Nat) (s : State) : Option State :=
  s.dispatch q 3 fun x p s =>
    if !x.refs.contains p.brand && !s.spareRef p.brand then s.endPacket q x.rd Code.qpkt
    else
      match s.dropBrand p.brand with
      | .done s => (s.modQueue q fun y => { y with refs := y.refs.erase p.brand }).endPacket q x.rd 0
      | .differs s => s.endPacket q x.rd Code.qpkt
      | .prot s => s.endPacket q x.rd Code.qpkt
      | .gone s => s.endPacket q x.rd Code.qpkt
      | .unreach s => s.endPacket q x.rd Code.qpkt

def execUnload (q : Nat) (s : State) : Host.Outcome State Fault Refusal := s.occurs (onUnload q s)

/-- Dispatch a MARK (R280). -/
def onMark (q : Nat) (s : State) : Option State :=
  s.dispatch q 4 fun x p s => (s.modQueue q fun y => { y with mark := p.arg }).endPacket q x.rd 0

def execMark (q : Nat) (s : State) : Host.Outcome State Fault Refusal := s.occurs (onMark q s)

/-- Dispatch a WAITM (R282): it holds the queue, or ends at once where the brand is dead or of another kind.
DEDUCED (log 49; unsafe). -/
def onWaitm (q : Nat) (s : State) : Option State :=
  s.dispatch q 5 fun x p v =>
    let hold (s : State) : Option State := some (s.modQueue q fun y => { y with waiting := some (p.brand, p.arg) })
    s.meeting x.ctx (v.resolveLaunch x.ctx p) fun r s =>
    match r with
    | .gone => s.endPacket q x.rd Code.bgone
    | .unreach => hold s
    | .live r => if r.kind != kindQueue then s.endPacket q x.rd Code.qpkt else hold s

def execWaitm (q : Nat) (s : State) : Host.Outcome State Fault Refusal := s.occurs (onWaitm q s)

/-- The awaited mark is reached, or its queue's brand has died (R282). The mark of a queue on another chip may have any value.
DESIGN CHOICE (log 18; safe). -/
def onWaitmComplete (q : Nat) (s : State) : Option State :=
  match s.queue? q with
  | none => none
  | some x =>
    match x.waiting, x.flights.getLast? with
    | some (b, v), some f =>
      let ended (s : State) (status : Nat) : Option State := (s.modQueue q fun y => { y with waiting := none }).endPacket q f.seq status
      match s.home b with
      | .gone => ended s Code.bgone
      | .away => ended s 0
      | .unreach => none
      | .here r =>
        match s.queueOf r.payload with
        | some y => if v.toNat ≤ y.mark.toNat then ended s 0 else none
        | none => none
    | _, _ => none

def execWaitmComplete (q : Nat) (s : State) : Host.Outcome State Fault Refusal := s.occurs (onWaitmComplete q s)

/-- Dispatch a PHASE (R280): a phase end is asked for. -/
def onPhase (q : Nat) (s : State) : Option State :=
  s.dispatch q 6 fun x p s => some (s.modCtx x.ctx fun c => { c with phases := c.phases ++ [.packet q x.rd (p.arg.extractLsb' 0 8 == 5)] })

def execPhase (q : Nat) (s : State) : Host.Outcome State Fault Refusal := s.occurs (onPhase q s)

/-! ### The end of a launch (R283) -/

/-- A launch completes once every team has retired and every access of its teams has been performed; that of a letterbox writes the completion word of its
template (R283, R285). -/
def onLaunchComplete (lid : Nat) (s : State) : Option State :=
  match s.launch? lid with
  | none => none
  | some l =>
    if !l.ended then none
    else
      let s := s.force fun a => a.ctx == l.ctx && (s.team? a.tid).isNone
      let s := { s with launches := s.launches.filter (·.lid != lid) }
      match l.queue with
      | none => s.writeStatus l.ctx l.pkt.compl l.status
      | some q => s.endPacket q l.seq l.status

def execLaunchComplete (lid : Nat) (s : State) : Host.Outcome State Fault Refusal := s.occurs (onLaunchComplete lid s)

/-! ### Letterboxes (R284 to R286) -/

/-- A store to GRID by any process (R285).
DEDUCED (log 51; unsafe). -/
def onLetterboxGrid (lb : Nat) (x : Dword) (s : State) : Option State :=
  s.viaLink (.letterboxGrid lb x) fun s =>
    match s.box? lb with
    | some b => if b.walker then some s else some (s.boxStore lb 0x018 x)
    | none => some s

def execLetterboxGrid (lb : Nat) (x : Dword) (s : State) : Host.Outcome State Fault Refusal := s.occurs (onLetterboxGrid lb x s)

/-- The oldest held store of a letterbox is taken: a launch when a place in the sorter frees, a record when its walker has room. -/
def onLetterboxGridHeld (lb : Nat) (s : State) : Option State :=
  match s.box? lb with
  | none => none
  | some b =>
    match b.held with
    | [] => none
    | (off, x) :: rest => (s.modBox lb fun b => { b with held := rest }).boxTake { b with held := rest } off x

def execLetterboxGridHeld (lb : Nat) (s : State) : Host.Outcome State Fault Refusal := s.occurs (onLetterboxGridHeld lb s)

/-- A store of a record's address to a walker letterbox (R286).
DEDUCED (log 51; unsafe). -/
def onWalkerLetterbox (lb : Nat) (x : Dword) (s : State) : Option State :=
  s.viaLink (.walkerLetterbox lb x) fun s =>
    match s.box? lb with
    | some b => if b.walker then some (s.boxStore lb 0x018 x) else some s
    | none => some s

def execWalkerLetterbox (lb : Nat) (x : Dword) (s : State) : Host.Outcome State Fault Refusal := s.occurs (onWalkerLetterbox lb x s)

end Sys2Proof.Machine
end

