-- ==== Sys2Proof/Machine/Special.lean ====
section
/-! DEFINITION. The special functions (R93 to R96, R150, R151): the seeds from their table, and the correctly rounded
functions from fixed-point values of 512 fraction bits. -/

namespace Sys2Proof

namespace Sfu

/-- Table 4-4, column Mr. -/
def seedR : List Nat :=
  [4064, 4002, 3942, 3884, 3827, 3772, 3718, 3666, 3616, 3567, 3519, 3472, 3427, 3383, 3339, 3297]
  ++ [3256, 3216, 3178, 3139, 3102, 3066, 3031, 2996, 2962, 2929, 2897, 2865, 2834, 2804, 2774, 2745]
  ++ [2717, 2689, 2661, 2635, 2608, 2583, 2558, 2533, 2509, 2485, 2461, 2439, 2416, 2394, 2372, 2351]
  ++ [2330, 2310, 2289, 2270, 2250, 2231, 2212, 2194, 2175, 2158, 2140, 2123, 2106, 2089, 2072, 2056]
/-- Table 4-4, column M0. -/
def seed0 : List Nat :=
  [4080, 4049, 4018, 3988, 3959, 3931, 3903, 3875, 3848, 3822, 3796, 3771, 3746, 3722, 3698, 3675]
  ++ [3652, 3630, 3608, 3586, 3565, 3544, 3523, 3503, 3483, 3464, 3444, 3426, 3407, 3389, 3371, 3353]
  ++ [3336, 3319, 3302, 3285, 3269, 3252, 3237, 3221, 3205, 3190, 3175, 3160, 3146, 3131, 3117, 3103]
  ++ [3089, 3076, 3062, 3049, 3036, 3023, 3010, 2998, 2985, 2973, 2961, 2949, 2937, 2925, 2913, 2902]
/-- Table 4-4, column M1. -/
def seed1 : List Nat :=
  [2885, 2863, 2841, 2820, 2800, 2779, 2760, 2740, 2721, 2703, 2684, 2667, 2649, 2632, 2615, 2599]
  ++ [2582, 2567, 2551, 2536, 2521, 2506, 2491, 2477, 2463, 2449, 2436, 2422, 2409, 2396, 2384, 2371]
  ++ [2359, 2347, 2335, 2323, 2311, 2300, 2289, 2278, 2267, 2256, 2245, 2235, 2224, 2214, 2204, 2194]
  ++ [2185, 2175, 2165, 2156, 2147, 2138, 2129, 2120, 2111, 2102, 2093, 2085, 2077, 2068, 2060, 2052]

/-- The top six fraction bits of a non-zero magnitude, normalised (R93). -/
def seedIndex (m : Nat) : Nat := m * 64 / 2 ^ m.log2 - 64

/-- `rcps` of one element (R93, R94). -/
def rcps (f : FpFmt) (ftz : Bool) (x : Fp) : FRes :=
  match x with
  | .nan s => ⟨f.nan, FpFlags.when s FpFlags.nv⟩
  | .inf n => ⟨f.zero n, 0⟩
  | .fin n m e => if m == 0 then ⟨f.inf n, FpFlags.dz⟩ else roundTo f .rne ftz n (seedR.getD (seedIndex m) 0) (-12 - (e + m.log2)) false

/-- `rsqs` of one element (R93, R94). -/
def rsqs (f : FpFmt) (ftz : Bool) (x : Fp) : FRes :=
  match x with
  | .nan s => ⟨f.nan, FpFlags.when s FpFlags.nv⟩
  | .inf n => if n then ⟨f.nan, FpFlags.nv⟩ else ⟨f.zero false, 0⟩
  | .fin n m e =>
    if m == 0 then ⟨f.inf n, FpFlags.dz⟩
    else if n then ⟨f.nan, FpFlags.nv⟩
    else
      let ex := e + m.log2
      let odd := ex % 2
      roundTo f .rne ftz false ((if odd == 0 then seed0 else seed1).getD (seedIndex m) 0) (-12 - (ex - odd) / 2) false

/-- Fraction bits of the fixed-point values. -/
def fbits : Nat := 512
def one : Nat := 2 ^ fbits

def atanhLoop : Nat → Nat → Nat → Nat → Nat → Nat
  | 0, _, _, acc, _ => acc
  | fuel + 1, sq, term, acc, k => atanhLoop fuel sq (term * sq / one) (acc + term / k) (k + 2)

/-- The natural logarithm of a fixed-point value from 1 to 2. -/
def ln (y : Nat) : Nat :=
  let z := (y - one) * one / (y + one)
  2 * atanhLoop 180 (z * z / one) z 0 1

def ln2 : Nat := ln (2 * one)

def expLoop : Nat → Nat → Nat → Nat → Nat → Nat
  | 0, _, _, acc, _ => acc
  | fuel + 1, t, term, acc, k => expLoop fuel t (term * t / one / k) (acc + term) (k + 1)

/-- The exponential of a fixed-point value from 0 to 1. -/
def exp (t : Nat) : Nat := expLoop 120 t one 0 1

def atanLoop : Nat → Nat → Int → Int → Nat → Int
  | 0, _, _, acc, _ => acc
  | fuel + 1, sq, term, acc, k => atanLoop fuel sq (-(term / (sq : Int))) (acc + term / (k : Int)) (k + 2)

/-- Pi, by Machin's formula. -/
def pi : Nat := (16 * atanLoop 120 25 (one / 5 : Nat) 0 1 - 4 * atanLoop 40 57121 (one / 239 : Nat) 0 1).toNat

def sinLoop : Nat → Nat → Int → Int → Nat → Int
  | 0, _, _, acc, _ => acc
  | fuel + 1, sq, term, acc, k => sinLoop fuel sq (-(term * (sq : Int) / (one : Int) / ((k + 1) * (k + 2) : Nat))) (acc + term) (k + 2)

/-- The sine of a fixed-point angle up to a quarter turn. -/
def sin (t : Nat) : Nat := (sinLoop 70 (t * t / one) t 0 1).toNat

/-- Round an inexact fixed-point magnitude of a sign, times `2 ^ n`. -/
def finish (f : FpFmt) (ftz neg : Bool) (m : Nat) (n : Int) : FRes := roundTo f .rne ftz neg m (n - fbits) true

/-- The sine of `pi * r / h`, of a sign that `neg` flips: exact at multiples of a quarter turn (R95, R96). -/
def sinTurn (f : FpFmt) (ftz neg : Bool) (r h : Nat) : FRes :=
  let r := r % (2 * h)
  let flip := h ≤ r
  let r := if flip then r - h else r
  let r := if h < 2 * r then h - r else r
  let neg := neg != flip
  if r == 0 then ⟨f.zero neg, 0⟩
  else if 2 * r == h then roundTo f .rne ftz neg 1 0 false
  else finish f ftz neg (sin (pi * r / h)) 0

/-- `sinp` (R95, R96): an integer gives a zero with the sign of the operand. -/
def sinp (f : FpFmt) (ftz : Bool) (x : Fp) : FRes :=
  match x with
  | .nan s => ⟨f.nan, FpFlags.when s FpFlags.nv⟩
  | .inf _ => ⟨f.nan, FpFlags.nv⟩
  | .fin n m e =>
    let h := 2 ^ (-e).toNat
    if 0 ≤ e || m % h == 0 then ⟨f.zero n, 0⟩ else sinTurn f ftz n m h

/-- `cosp` (R95, R96): a half-integer gives +0. -/
def cosp (f : FpFmt) (ftz : Bool) (x : Fp) : FRes :=
  match x with
  | .nan s => ⟨f.nan, FpFlags.when s FpFlags.nv⟩
  | .inf _ => ⟨f.nan, FpFlags.nv⟩
  | .fin _ m e =>
    if 0 < e then roundTo f .rne ftz false 1 0 false
    else
      let h := 2 ^ (-e).toNat
      if (2 * m + h) % (2 * h) == 0 then ⟨0, 0⟩ else sinTurn f ftz false (2 * m + h) (2 * h)

/-- `ex2` (R95, R96). -/
def ex2 (f : FpFmt) (ftz : Bool) (x : Fp) : FRes :=
  match x with
  | .nan s => ⟨f.nan, FpFlags.when s FpFlags.nv⟩
  | .inf n => if n then ⟨0, 0⟩ else ⟨f.inf false, 0⟩
  | .fin n m e =>
    let h : Int := 2 ^ (-e).toNat
    let v := Fp.signedAt n m e (min e 0)
    if v % h == 0 then roundTo f .rne ftz false 1 (v / h) false
    else finish f ftz false (exp ((v % h).toNat * ln2 / h.toNat)) (v / h)

/-- `lg2` (R95, R96). -/
def lg2 (f : FpFmt) (ftz : Bool) (x : Fp) : FRes :=
  match x with
  | .nan s => ⟨f.nan, FpFlags.when s FpFlags.nv⟩
  | .inf n => if n then ⟨f.nan, FpFlags.nv⟩ else ⟨f.inf false, 0⟩
  | .fin n m e =>
    if m == 0 then ⟨f.inf true, FpFlags.dz⟩
    else if n then ⟨f.nan, FpFlags.nv⟩
    else
      let ex := e + m.log2
      if m == 2 ^ m.log2 then roundTo f .rne ftz (ex < 0) ex.natAbs 0 false
      else
        let v := ex * one + (ln (m * one / 2 ^ m.log2) * one / ln2 : Nat)
        finish f ftz (v < 0) v.natAbs 0

/-- `tnh` (R95, R96). Below `2 ^ -13` the value lies under its operand by less than a quarter of the last place; from
64 on it lies under 1 by less than `2 ^ -180`. -/
def tnh (f : FpFmt) (ftz : Bool) (x : Fp) : FRes :=
  match x with
  | .nan s => ⟨f.nan, FpFlags.when s FpFlags.nv⟩
  | .inf n => roundTo f .rne ftz n 1 0 false
  | .fin n m e =>
    let top := e + m.log2
    if m == 0 then ⟨f.zero n, 0⟩
    else if top < -13 then roundTo f .rne ftz n (m * 2 ^ 64 - 1) (e - 64) true
    else if 6 ≤ top then roundTo f .rne ftz n (2 ^ 64 - 1) (-64) true
    else
      let t := 2 * m * (one * 2 ^ e.toNat / 2 ^ (-e).toNat)
      let big := exp (t % ln2) * 2 ^ (t / ln2)
      finish f ftz n ((big - one) * one / (big + one)) 0

end Sfu

end Sys2Proof
end

