-- ==== Sys2Proof/Machine/SfuExec.lean ====
section
/-! DEFINITION. The instructions of class SFU (R150, R151, R93 to R96). -/

namespace Sys2Proof.Machine

/-- A special function on each element of SA (R151). -/
def runSfu (i : Instr) (fmt : FFmt) (ftz : Bool) (d : Dst) (a : Src) (op : FpFmt → Bool → Fp → FRes) (s : State) : Host.Outcome State Fault Refusal :=
  runFlags i d (fun x j => fp1 fmt ftz false (op fmt.elem ftz) (x.fbits fmt a j)) s

def execRcps (h : Hdr) (fmt : FFmt) (ftz : Bool) (d : Dst) (a : Src) (s : State) : Host.Outcome State Fault Refusal :=
  runSfu (.rcps h fmt ftz d a) fmt ftz d a Sfu.rcps s

def execRsqs (h : Hdr) (fmt : FFmt) (ftz : Bool) (d : Dst) (a : Src) (s : State) : Host.Outcome State Fault Refusal :=
  runSfu (.rsqs h fmt ftz d a) fmt ftz d a Sfu.rsqs s

def execEx2 (h : Hdr) (fmt : FFmt) (ftz : Bool) (d : Dst) (a : Src) (s : State) : Host.Outcome State Fault Refusal :=
  runSfu (.ex2 h fmt ftz d a) fmt ftz d a Sfu.ex2 s

def execLg2 (h : Hdr) (fmt : FFmt) (ftz : Bool) (d : Dst) (a : Src) (s : State) : Host.Outcome State Fault Refusal :=
  runSfu (.lg2 h fmt ftz d a) fmt ftz d a Sfu.lg2 s

def execSinp (h : Hdr) (fmt : FFmt) (ftz : Bool) (d : Dst) (a : Src) (s : State) : Host.Outcome State Fault Refusal :=
  runSfu (.sinp h fmt ftz d a) fmt ftz d a Sfu.sinp s

def execCosp (h : Hdr) (fmt : FFmt) (ftz : Bool) (d : Dst) (a : Src) (s : State) : Host.Outcome State Fault Refusal :=
  runSfu (.cosp h fmt ftz d a) fmt ftz d a Sfu.cosp s

def execTnh (h : Hdr) (fmt : FFmt) (ftz : Bool) (d : Dst) (a : Src) (s : State) : Host.Outcome State Fault Refusal :=
  runSfu (.tnh h fmt ftz d a) fmt ftz d a Sfu.tnh s

end Sys2Proof.Machine
end

