-- ==== Sys2Proof/Machine/Regs.lean ====
section
/-! DEFINITION. Writing the registers of a die: context save control, faults and the shepherd, islands and monitors (Tables 7-5, 12-8, 12-9, 21-2, 22-4). -/

namespace Sys2Proof.Machine

/-- Bits 31:0 of a 64-bit value replaced, and bits 63:32. -/
def setLow (x : Dword) (w : Word) : Dword := x.extractLsb' 32 32 ++ w
def setHigh (x : Dword) (w : Word) : Dword := w ++ x.extractLsb' 0 32

/-- How a system register is reached. -/
inductive Reach where
  | ro | wo | rw
  deriving DecidableEq, Repr

/-- The access of a system register that Table 7-5 or the tables it names list. -/
def reachOf (num : Nat) : Reach :=
  if [0x020, 0x036, 0x038].contains num then .wo
  else if [0x000, 0x001, 0x002, 0x005, 0x006, 0x007, 0x008, 0x009, 0x021, 0x024, 0x034, 0x042, 0x045].contains num then .ro
  else .rw

/-! ### Frequencies (R8, R12, R423) -/

/-- Give an island a frequency; it settles where that is a change.
DEDUCED (log 58; unsafe). -/
def State.setFreq (s : State) (i mhz : Nat) : State :=
  { s with islands := s.islands.modify i fun x => { x with freq := mhz, settling := x.settling || x.current != mhz } }

def freqOk (mhz : Nat) : Bool := 400 ≤ mhz && mhz ≤ 1050

/-- The fastest of some islands, the lowest-numbered among equals.
DEDUCED (log 58; unsafe). -/
def State.fastest (s : State) (among : List Nat) : Option Nat :=
  let f (i : Nat) : Nat := (s.islands.getD i Island.reset).freq
  among.foldl (fun (best : Option Nat) i => match best with | none => some i | some b => if f b < f i then some i else some b) none

/-! ### Writes of die registers -/

/-- A thaw by the shepherd's control (R293): a frozen partition runs on with a new window. -/
def State.thaw (s : State) (ctx : Nat) : State := s.modCtx ctx fun c => if c.frozen then { c with frozen := false, progress := 0 } else c

/-- A destruction by the shepherd's control.
DEDUCED (log 54; unsafe). -/
def State.shDestroy (s : State) (ctx : Nat) : Option State :=
  if (s.ctx? ctx).isNone then some s else match s.destroyCtx ctx with | some s => some s | none => none

/-- Write a die's register. A register that is read only, or has no number, keeps its value.
DEDUCED (log 33; unsafe). -/
def State.dieWrite (s : State) (d num : Nat) (x : Word) : Option State :=
  let n := x.toNat
  let put (f : Die → Die) : Option State := some (s.modDie d f)
  match num with
  | 0x020 => s.csctl d (n % 8) (n / 2 ^ 16 % 2 ^ 15)
  | 0x022 => put fun y => { y with csimg := setLow y.csimg (x &&& 0xFFFFF000) }
  | 0x023 => put fun y => { y with csimg := setHigh y.csimg x }
  | 0x025 => put fun y => { y with csrec := x }
  | 0x030 => put fun y => { y with ovf := y.ovf && !x.getLsbD 31 }
  | 0x031 => put fun y => { y with fbovf := x }
  | 0x032 => some ((s.modDie d fun y => { y with fbbase := y.fbbase / 2 ^ 32 * 2 ^ 32 + n / 2 ^ 15 * 2 ^ 15 }).didSetup d)
  | 0x033 => put fun y => { y with fbbase := y.fbbase % 2 ^ 32 + n * 2 ^ 32 }
  | 0x035 => put fun y => y.setTail n
  | 0x036 => some (s.fbrel d (n % 1024) (n / 1024 % 4))
  | 0x037 => put fun y => if 16 ≤ n % 32 && n % 32 ≤ 30 then { y with shwin := n % 32 } else y
  | 0x038 => if n / 2 ^ 16 % 4 == 1 then some (s.thaw (n % 2 ^ 15)) else if n / 2 ^ 16 % 4 == 2 then s.shDestroy (n % 2 ^ 15) else some s
  | 0x040 => put fun y => { y with islsel := n % 16 }
  | 0x041 => some (if freqOk (n % 2 ^ 11) then s.setFreq (((s.die? d).map (·.islsel)).getD 0) (n % 2 ^ 11) else s)
  | 0x043 =>
    if freqOk (n % 2 ^ 11) then some { s with islands := s.islands.modify (((s.die? d).map (·.islsel)).getD 0) fun i => { i with cap := n % 2 ^ 11 } }
    else some s
  | 0x044 => put fun y => { y with templim := x }
  | _ => some s

end Sys2Proof.Machine
end

