-- ==== Sys2Proof/Machine/SvcExec.lean ====
section
/-! DEFINITION. The events of fault buffers, the shepherd, the islands, registers and contexts (R8, R12, R290 to R293, R398 to R403, R423). -/

namespace Sys2Proof.Machine

/-- A command of the host to a die. -/
def State.onDie (s : State) (die : Nat) (e : Instr) (k : State → Option State) : Option State :=
  if 8 ≤ die then none else s.viaLink e k

/-! ### Fault buffers (R290 to R292) -/

/-- The oldest held fault is written once a place is free (R291). -/
def onFaultHeldWritten (die : Nat) (s : State) : Option State :=
  match s.writeHeld die with
  | some s => some s
  | none => none

def execFaultHeldWritten (die : Nat) (s : State) : Host.Outcome State Fault Refusal := s.occurs (onFaultHeldWritten die s)

/-- FBREL with ACTION 0 (R292). -/
def onFbrelRetry (die : Nat) (index : BitVec 10) (s : State) : Option State :=
  s.onDie die (.fbrelRetry die index) fun s => some (s.fbrel die index.toNat 0)

def execFbrelRetry (die : Nat) (index : BitVec 10) (s : State) : Host.Outcome State Fault Refusal := s.occurs (onFbrelRetry die index s)

/-- FBREL with ACTION 1 (R292). -/
def onFbrelSkip (die : Nat) (index : BitVec 10) (s : State) : Option State :=
  s.onDie die (.fbrelSkip die index) fun s => some (s.fbrel die index.toNat 1)

def execFbrelSkip (die : Nat) (index : BitVec 10) (s : State) : Host.Outcome State Fault Refusal := s.occurs (onFbrelSkip die index s)

/-- FBREL with ACTION 2 (R292). -/
def onFbrelKill (die : Nat) (index : BitVec 10) (s : State) : Option State :=
  s.onDie die (.fbrelKill die index) fun s => some (s.fbrel die index.toNat 2)

def execFbrelKill (die : Nat) (index : BitVec 10) (s : State) : Host.Outcome State Fault Refusal := s.occurs (onFbrelKill die index s)

/-- The host moves FBTAIL (R290, Table 12-8). It releases no lanes. -/
def onFbtailWrite (die : Nat) (x : Word) (s : State) : Option State :=
  s.onDie die (.fbtailWrite die x) fun s => some (s.modDie die fun d => d.setTail x.toNat)

def execFbtailWrite (die : Nat) (x : Word) (s : State) : Host.Outcome State Fault Refusal := s.occurs (onFbtailWrite die x s)

/-! ### The shepherd (R293) -/

/-- SHCTL with 1: thaw. -/
def onShctlThaw (ctx : Nat) (s : State) : Option State :=
  s.viaLink (.shctlThaw ctx) fun s => some (s.thaw ctx)

def execShctlThaw (ctx : Nat) (s : State) : Host.Outcome State Fault Refusal := s.occurs (onShctlThaw ctx s)

/-- SHCTL with 2: destroy. -/
def onShctlDestroy (ctx : Nat) (s : State) : Option State :=
  s.viaLink (.shctlDestroy ctx) fun s => (s.shDestroy ctx)

def execShctlDestroy (ctx : Nat) (s : State) : Host.Outcome State Fault Refusal := s.occurs (onShctlDestroy ctx s)

/-- Whether a lane of a group is not counted as work: halted, or parked on an entry of a fault buffer. -/
def Lane.idle (l : Lane) : Bool :=
  l.halted ||
    match l.st with
    | .parked (.buffer _ _ _ _ _) => true
    | .parked (.heldFault _ _ _) => true
    | _ => false

/-- Whether a team, placed or pre-empted, counts as remaining work. -/
def Team.works (t : Team) : Bool :=
  let live := t.groups.filter fun g => g.lanes.any Lane.live
  live.isEmpty || live.any fun g => g.lanes.any fun l => l.live && !l.idle

/-- Whether replay holds something of a context (R293, R407): an event, a matrix grant, or a write of the host that its log names.
DEDUCED (log 44; unsafe). -/
def State.holds (s : State) (c : Context) : Bool :=
  let write (e : Instr) : Bool := match e with | .hostWrite gpa bs => (touched gpa bs.length).any (s.hostNamed c) | _ => false
  !c.heldEvents.isEmpty || s.hostHeld.any write
    || s.quads.any fun q => q.2.reqs.any fun r => r.grant.isNone && s.grantHeld r && ((s.team? r.tid).map (·.ctx)) == some c.ctx

/-- Whether work of a partition remains.
DEDUCED (log 54; unsafe). -/
def State.workRemains (s : State) (c : Context) : Bool :=
  s.teams.any (fun t => t.ctx == c.ctx && t.works) || s.launches.any (fun l => l.ctx == c.ctx && l.waiting)
    || s.queues.any (fun q => q.ctx == c.ctx && s.eligible q) || s.holds c

/-- A window of a partition ends: without progress while work remains it is frozen, with a STALL entry. A partition that is stopped is not
watched.
DEDUCED (log 54; unsafe). -/
def onShepherdWindow (ctx : Nat) (s : State) : Option State :=
  match s.ctx? ctx with
  | none => none
  | some c =>
    let fresh := s.modCtx ctx fun c => { c with progress := 0 }
    if c.runs && c.progress == 0 && s.workRemains c then
      some ((fresh.modCtx ctx fun c => { c with frozen := true }).reportBare ctx (Flt.mk' Code.stall) false)
    else some fresh

def execShepherdWindow (ctx : Nat) (s : State) : Host.Outcome State Fault Refusal := s.occurs (onShepherdWindow ctx s)

/-! ### Registers and islands (R8, R12, R423) -/

/-- The letterbox that a mapping makes.
DESIGN CHOICE (log 9; unsafe). -/
def boxOfMap (lb ctx prio : Nat) (walker : Bool) (die width groups consumers lanes spadLines pool : Nat) (flags : BitVec 8) (done : Dword) : Letterbox :=
  { lb := lb, ctx := ctx, prio := prio, walker := walker, die := die, width := width, groups := groups, consumers := consumers, lanes := lanes
    spadLines := spadLines, pool := pool, flags := flags, compl := done, brandLo := 0, brandHi := 0, arg := 0, taken := 0, reject := 0, held := [] }

/-- Whether a letterbox has a template with which a launch can pass the checks, and a place in the device-register range (R284).
DESIGN CHOICE (log 9, 66; unsafe). -/
def boxOk (b : Letterbox) : Bool :=
  b.lb < 256 && b.prio ≤ 15 && b.die < 8 && b.width < 256 && b.groups < 256 && b.consumers < 256 && b.lanes < 65536 && b.spadLines < 65536 && b.pool < 2 ^ 32
    && (b.walker || (parsePacket (packetBytes (boxPacket b 0x0001000100000001))).isSome)

/-- The host writes a register (R188, R284): what is read only, or has no number, keeps its value.
DESIGN CHOICE (log 9; unsafe); DEDUCED (log 33; unsafe). -/
def onRegisterWrite (r : RegAt) (x : Dword) (s : State) : Option State :=
  s.viaLink (.registerWrite r x) fun s =>
    match r with
    | .die d num => if 8 ≤ d || num < 0x020 || reachOf num == .ro then some s else (s.dieWrite d num (x.extractLsb' 0 32))
    | .letterbox lb off => some (s.boxStore lb off x)
    | .mapLetterbox lb ctx prio walker die width groups consumers lanes spadLines pool flags done =>
      let b := boxOfMap lb ctx prio walker die width groups consumers lanes spadLines pool flags done
      if boxOk b && (s.ctx? ctx).isSome then some { s with letterboxes := s.letterboxes.filter (·.lb != lb) ++ [b] } else some s

def execRegisterWrite (r : RegAt) (x : Dword) (s : State) : Host.Outcome State Fault Refusal := s.occurs (onRegisterWrite r x s)

/-- A write of ISLFREQ through a die (Table 22-4). -/
def onIslfreq (die : Nat) (x : Word) (s : State) : Option State :=
  s.onDie die (.islfreq die x) fun s => (s.dieWrite die 0x041 x)

def execIslfreq (die : Nat) (x : Word) (s : State) : Host.Outcome State Fault Refusal := s.occurs (onIslfreq die x s)

/-- An island's clock has settled (R8). -/
def onFrequencySettled (island : Nat) (s : State) : Option State :=
  match s.islands[island]? with
  | none => none
  | some i =>
    if !i.settling then none
    else some { s with islands := s.islands.modify island fun x => { x with current := x.freq, settling := false } }

def execFrequencySettled (island : Nat) (s : State) : Host.Outcome State Fault Refusal := s.occurs (onFrequencySettled island s)

/-- The power controller lowers the fastest of some islands to a frequency that it may set (R12).
DEDUCED (log 58; unsafe). -/
def State.lower (s : State) (among : List Nat) (mhz : Nat) : Option State :=
  match s.fastest among with
  | none => none
  | some i =>
    let x := s.islands.getD i Island.reset
    if freqOk mhz && mhz < x.freq && mhz ≤ x.cap then some (s.setFreq i mhz) else none

/-- The package exceeds its power rating (R12).
DEDUCED (log 58; unsafe). -/
def onPackagePowerLimit (mhz : Nat) (s : State) : Option State := s.lower (List.range 16) mhz

def execPackagePowerLimit (mhz : Nat) (s : State) : Host.Outcome State Fault Refusal := s.occurs (onPackagePowerLimit mhz s)

/-- A die's temperature, which is free, exceeds TEMPLIM (R423): the fastest of its two islands is lowered. Nothing happens where it does not.
DESIGN CHOICE (log 17; safe); DEDUCED (log 58; unsafe). -/
def onTemplimExceeded (die mhz : Nat) (s : State) : Option State :=
  (s.die? die).bind fun d =>
    let (temp, s) := s.freeWord
    if d.overLimit temp then s.lower [2 * die, 2 * die + 1] mhz else none

def execTemplimExceeded (die mhz : Nat) (s : State) : Host.Outcome State Fault Refusal := s.occurs (onTemplimExceeded die mhz s)

/-! ### Contexts (R398 to R403) -/

/-- The host creates a context (R398): refused where a field is out of range or its number is taken.
DEDUCED (log 55; unsafe). -/
def onContextCreate (rec' : Nat) (s : State) : Option State :=
  s.viaLink (.contextCreate rec') fun s =>
    match s.contextFrom rec' with
    | none => some s
    | some c =>
      if ((s.ctx? c.ctx).map fun x => x.st != .saved).getD false then some s
      else
        let s : State := { s with ctxs := s.ctxs.filter (fun x => x.ctx != c.ctx) ++ [c] }
        some (s.writeOwn c)

def execContextCreate (rec' : Nat) (s : State) : Host.Outcome State Fault Refusal := s.occurs (onContextCreate rec' s)

def onCsctlStop (die ctx : Nat) (s : State) : Option State :=
  s.onDie die (.csctlStop die ctx) fun s => (s.csctl die 1 ctx)

def execCsctlStop (die ctx : Nat) (s : State) : Host.Outcome State Fault Refusal := s.occurs (onCsctlStop die ctx s)

def onCsctlSave (die ctx : Nat) (s : State) : Option State :=
  s.onDie die (.csctlSave die ctx) fun s => (s.csctl die 2 ctx)

def execCsctlSave (die ctx : Nat) (s : State) : Host.Outcome State Fault Refusal := s.occurs (onCsctlSave die ctx s)

def onCsctlRestore (die ctx : Nat) (s : State) : Option State :=
  s.onDie die (.csctlRestore die ctx) fun s => (s.csctl die 3 ctx)

def execCsctlRestore (die ctx : Nat) (s : State) : Host.Outcome State Fault Refusal := s.occurs (onCsctlRestore die ctx s)

def onCsctlResume (die ctx : Nat) (s : State) : Option State :=
  s.onDie die (.csctlResume die ctx) fun s => (s.csctl die 4 ctx)

def execCsctlResume (die ctx : Nat) (s : State) : Host.Outcome State Fault Refusal := s.occurs (onCsctlResume die ctx s)

def onCsctlDestroy (die ctx : Nat) (s : State) : Option State :=
  s.onDie die (.csctlDestroy die ctx) fun s => (s.csctl die 5 ctx)

def execCsctlDestroy (die ctx : Nat) (s : State) : Host.Outcome State Fault Refusal := s.occurs (onCsctlDestroy die ctx s)

/-- The teams of a context have stopped (R400 step 1): by command, or where it stopped of itself; or a context is restored (R403). -/
def onContextStopped (ctx : Nat) (s : State) : Option State :=
  match s.ctx? ctx with
  | none => none
  | some c =>
    let own := (c.st == .stopped || c.st == .logFull) && s.teams.any fun t => t.ctx == ctx && t.st != .saved
    if c.st == .restoring then some (s.modCtx ctx fun c => { c with st := .stopped })
    else if c.st != .stopping && !own then none
    else
      match s.stopTeams ctx with
      | none => none
      | some s => some (s.modCtx ctx fun c => if c.st == .stopping then { c with st := .stopped } else c)

def execContextStopped (ctx : Nat) (s : State) : Host.Outcome State Fault Refusal := s.occurs (onContextStopped ctx s)

/-- The outgoing work of a context that is to be saved is done, and it is sealed (R400 steps 2 to 4). -/
def onContextSeal (ctx : Nat) (s : State) : Option State :=
  match s.ctx? ctx with
  | none => none
  | some c =>
    let out := s.copies.any (fun k => k.ctx == ctx && k.cpx) || s.agents.any fun a => a.walker.any (·.ctx == ctx)
    if !(c.st == .stopped || c.st == .logFull) || c.saving.isNone || out then none
    else some (s.modCtx ctx fun c => { c with st := .sealed })

def execContextSeal (ctx : Nat) (s : State) : Host.Outcome State Fault Refusal := s.occurs (onContextSeal ctx s)

/-- Whether a tile for a context is landing. -/
def State.landing (s : State) (ctx : Nat) : Bool := s.tiles.any fun x => x.ctx == ctx && x.begun

/-- The drain is over and the image is written (R400 steps 5 and 6, R401). -/
def onContextImageWrite (die ctx : Nat) (s : State) : Option State :=
  match s.ctx? ctx with
  | none => none
  | some c =>
    if c.st != .sealed || c.saving != some die || s.landing ctx then none
    else
      match s.writeImage die ctx with
      | some s => some s
      | none => none

def execContextImageWrite (die ctx : Nat) (s : State) : Host.Outcome State Fault Refusal := s.occurs (onContextImageWrite die ctx s)

end Sys2Proof.Machine
end

