-- ==== Sys2Proof/Machine/SynExec.lean ====
section
/-! DEFINITION. The instructions of class SYN: fences, waits on counters, barriers and words, and phase ends (R269 to R272,
R374 to R386). -/

namespace Sys2Proof.Machine

/-! ### Fences (R269 to R271) -/

/-- What a group fetches from now on is no older than memory is now, and what has arrived at a pigeonhole (R304, R415). -/
def State.freshFetch (s : State) (tid gix : Nat) : State := s.modGroup tid gix fun g => { g with ahead := some s.asItStands }

/-- DEDUCED (log 36; safe). -/
def execFnc (h : Hdr) (ks : Kinds) (sc : Scope) (a : Src) (s : State) : Host.Outcome State Fault Refusal :=
  run (.fnc h ks sc a) (fun x s =>
    if x.act.isEmpty then { s := s }
    else
      let s := s.await true x.tid x.gix x.act ks ks.ld a.immVal.toNat sc
      -- a fetch is a load of colour 0 at dev scope (R415)
      { s := if ks.ld && 3 ≤ sc.code && a.immVal.toNat.testBit 0 then s.freshFetch x.tid x.gix else s }) s

/-- After `ofnc` the engines' ports see every store that a load would have seen (R271): those performed, and those in the
core's store path. -/
def execOfnc (h : Hdr) (s : State) : Host.Outcome State Fault Refusal :=
  run (.ofnc h) (fun x s =>
    if x.act.isEmpty then { s := s }
    else
      let s := s.force fun a => a.core == x.core && a.kind.isStore &&
        match a.place with
        | .spad t _ => t == x.tid
        | .pool l c _ => l == x.team.lid && c == clusterOf x.core
        | _ => false
      { s := s.modIssue x fun g => { g with stale := [] } }) s

/-! ### Completion counters (R375) -/

/-- The lanes of act park until the counter is low enough; where it is, they go on with their latches invalid.
DEDUCED (log 29; unsafe). -/
def execWt (h : Hdr) (ctr : Ctr) (a : Src) (s : State) : Host.Outcome State Fault Refusal :=
  run (.wt h ctr a) (fun x s =>
    let n := (x.u32 a).toNat
    if ((s.group? x.tid x.gix).getD x.g).counter ctr ≤ n then { s := s.modIssue x fun g => g.eachLane x.act Lane.invalidate }
    else { s := s.parkLanes x.tid x.gix x.act (.counter ctr n x.next), stay := x.act }) s

/-! ### Named barriers (R376 to R381) -/

/-- The state of a barrier (Table 18-2). -/
structure Bar where
  drop : Nat
  phase : BitVec 16
  count : Nat
  arr : Nat
  deriving DecidableEq, Repr

def Bar.read (w : Dword) : Bar := ⟨(w.extractLsb' 32 8).toNat, w.extractLsb' 16 16, (w.extractLsb' 8 8).toNat, (w.extractLsb' 0 8).toNat⟩
def Bar.word (b : Bar) : Dword := BitVec.ofNat 64 (b.drop % 256 * 2 ^ 32 + b.phase.toNat * 2 ^ 16 + b.count % 256 * 256 + b.arr % 256)

/-- One arrival with a count (R377): the barrier after it, or none where it raises BARCNT. -/
def Bar.arrive (b : Bar) (n : Nat) (dropping : Bool) : Option Bar :=
  if 255 < n || (n == 0 && b.count == 0) || (n != 0 && b.arr != 0 && n != b.count) then none
  else
    let count := if n != 0 && b.arr == 0 then n else b.count
    let drop := b.drop + (if dropping then 1 else 0)
    if b.arr + 1 == count then some ⟨0, b.phase + 1, count - drop, 0⟩ else some ⟨drop, b.phase, count, b.arr + 1⟩

/-- `bari` (R378). -/
def Bar.init (b : Bar) (n : Nat) : Option Bar :=
  if n == 0 || 255 < n then none
  else if b.arr == 0 then some { b with count := n }
  else if n == b.count then some b
  else none

/-- A lane leaves the wait for a phase that has completed (R379, R380). -/
def Lane.leaveBarrier (n : Nat) (phase : BitVec 16) (l : Lane) : Lane :=
  match l.st with
  | .parked (.barrier m p succ) => if m == n && p != phase then l.wake succ false else l
  | _ => l

def Team.bar (t : Team) (n : Nat) : Bar := Bar.read (Cells.get t.bars n)

/-- Set a barrier; where its phase has completed, the lanes that wait for it go on.
DEDUCED (log 37; unsafe). -/
def Team.setBar (t : Team) (n : Nat) (b : Bar) : Team :=
  { t with bars := Cells.set t.bars n b.word
           groups := t.groups.map fun g => { g with lanes := g.lanes.map (Lane.leaveBarrier n b.phase) } }

/-- One change of a barrier, a choice site of kind 8 (R405); BARCNT where the change is refused. -/
def barBody (x : Issue) (n : Nat) (f : Bar → Option Bar) (d : Dst) (s : State) : Res :=
  let b := ((s.team? x.tid).getD x.team).bar n
  match f b with
  | none => { s := s, faults := x.all (Flt.mk' Code.barcnt) }
  | some b' => withMark x 0 n s fun s => { s := (s.put x d (x.act.map fun j => (j, b.phase.zeroExtend 64))).modTeam x.tid fun t => t.setBar n b' }

/-- An arrival is counted after the lanes' earlier accesses are performed at team scope (R381).
DEDUCED (log 37; unsafe). -/
def arriveBody (x : Issue) (n : Nat) (count : Src) (dropping : Bool) (d : Dst) (s : State) : Res :=
  if x.act.isEmpty then { s := s }
  else barBody x n (fun b => b.arrive (x.u32 count).toNat dropping) d (s.await false x.tid x.gix x.act ⟨true, true, true⟩ true 255 .team)

def execBari (h : Hdr) (a b : Src) (s : State) : Host.Outcome State Fault Refusal :=
  run (.bari h a b) (fun x s =>
    if x.act.isEmpty then { s := s } else barBody x (a.immVal.toNat % 32) (fun r => r.init (x.u32 b).toNat) .none s) s

def execBara (h : Hdr) (d : Dst) (a b : Src) (s : State) : Host.Outcome State Fault Refusal :=
  run (.bara h d a b) (fun x s => arriveBody x (a.immVal.toNat % 32) b false d s) s

def execBard (h : Hdr) (d : Dst) (a b : Src) (s : State) : Host.Outcome State Fault Refusal :=
  run (.bard h d a b) (fun x s => arriveBody x (a.immVal.toNat % 32) b true d s) s

/-- The waits: by token, which tells staleness, or by parity (R379, R380).
DEDUCED (log 37; unsafe). -/
def execBarw (h : Hdr) (par : Bool) (d : Dst) (a b : Src) (s : State) : Host.Outcome State Fault Refusal :=
  run (.barw h par d a b) (fun x s =>
    let n := a.immVal.toNat % 32
    let phase := (((s.team? x.tid).getD x.team).bar n).phase
    let age := phase - (x.u32 b).extractLsb' 0 16
    let waits := if par then phase.getLsbD 0 == (x.u32 b).getLsbD 0 else age == 0
    let stale : Dword := if !par && 2 ≤ age.toNat then 1 else 0
    let s := s.put x d (x.act.map fun j => (j, stale))
    if waits then { s := s.parkLanes x.tid x.gix x.act (.barrier n phase x.next), stay := x.act } else { s := s }) s

/-! ### Waiting on a word (R382) -/

/-- The conditions: the word on the left. -/
def wflHolds (c : WflCond) (x v : Word) : Bool :=
  match c with
  | .eq => x == v
  | .ne => x != v
  | .ltn => decide (x.toNat < v.toNat)
  | .gen => decide (v.toNat ≤ x.toNat)
  | .lts => x.slt v
  | .ges => v.sle x

/-- Issue a test: a load of the lanes, performed at once where no pigeonhole holds the word.
DEDUCED (log 38; unsafe). -/
def State.probe (s : State) (core tid gix ctx : Nat) (w : Wfl) : Nat × State :=
  let (id, s) := s.newId
  let s := s.issueAcc
    { id := id, instr := id, core := core, tid := tid, gix := gix, lane := w.lanes.headD 0, also := w.lanes.drop 1, ctx := ctx, kind := .load
      place := .mem w.gpa, va := w.va, size := 4, data := [], cmp := 0, alg := w.alg, cls := 0, colour := 0, d := .none, shape := .probe
      party := s.partyOf tid gix, arrived := false, val := none, path := none, left := false, fixedAt := none, picks := [], each := 0, cover := [] }
  let s := s.forceBefore id
  match s.acc? id with
  | some a => (id, s.performAcc a)
  | none => (id, s)

/-- What an answered test says. -/
inductive Tested where
  | waiting
  | again
  | holds (v : Word)
  | bad
  deriving DecidableEq, Repr

/-- DEDUCED (log 38; unsafe). -/
def State.tested (s : State) (id : Nat) (w : Wfl) : Tested :=
  match (s.acc? id).map (·.val) with
  | some (some []) => .bad
  | some (some bs) => let v := BitVec.ofNat 32 (leNat bs); if wflHolds w.cond v w.v then .holds v else .again
  | _ => .waiting

/-- The end of a test: the probe is answered for its core. -/
def State.endProbe (s : State) (core ctx id : Nat) : State := (s.dropAcc id).recv ctx (.core core)

/-- `wfl` completes: kD receives the value, and earlier loads of the lanes are ordered as by `fnc.ld.dev 0xFF`, the fetches of the group among them (R382,
R415).
DEDUCED (log 38; unsafe). -/
def State.endWfl (s : State) (tid gix : Nat) (w : Wfl) (v : Word) : State :=
  let s := s.await false tid gix w.lanes ⟨true, false, false⟩ true 255 .dev
  (s.freshFetch tid gix).modGroup tid gix fun g => g.put w.d (w.lanes.map fun j => (j, v.zeroExtend 64))

/-- DEDUCED (log 29, 38; unsafe). -/
def execWfl (h : Hdr) (cond : WflCond) (d : Dst) (a b : Src) (s : State) : Host.Outcome State Fault Refusal :=
  run (.wfl h cond d a b) (fun x s =>
    if x.act.isEmpty then { s := s }
    else
      let va := x.u64 a
      match s.checkVa x.core x.c va 4 4 .read false false with
      | (.error f, s) => { s := s, faults := x.all f }
      | (.ok k, s) =>
        if Pte.cls k.leaf.e == 2 then { s := s, faults := x.all (Flt.at' Code.prot va) }
        else if rangeHit x.c (dieOf x.core) va.toNat 4 then { s := s, faults := x.all (Flt.at' Code.rngc va) }
        else
          let w : Wfl :=
            { lanes := x.act, va := va, gpa := k.gpa, alg := Pte.alg k.leaf.e, cond := cond, v := x.u32 b, d := d, succ := x.next, probe := none }
          let (id, s) := s.probe x.core x.tid x.gix x.c.ctx w
          let park (p : Option Nat) (s : State) : Res :=
            { s := (s.parkLanes x.tid x.gix x.act (.word x.next)).modIssue x fun g => { g with wfls := g.wfls ++ [{ w with probe := p }] }, stay := x.act }
          match s.tested id w with
          | .holds v => { s := ((s.endProbe x.core x.c.ctx id).endWfl x.tid x.gix w v).modIssue x fun g => g.eachLane x.act Lane.invalidate }
          | .bad => { s := s.endProbe x.core x.c.ctx id, faults := x.all (s.eccuOf (.mem k.gpa) va) }
          | .again => park none (s.endProbe x.core x.c.ctx id)
          | .waiting => park (some id) s) s

/-- The lanes of a `wfl` go on. -/
def Group.wakeWfl (g : Group) (w : Wfl) : Group :=
  { (g.eachLane w.lanes fun l => match l.st with | .parked (.word succ) => l.wake succ false | _ => l) with wfls := g.wfls.filter (· != w) }

/-- The first `wfl` of a group whose test, made now or answered, settles something. -/
def State.wflNext (s : State) (t : Team) (g : Group) : List Wfl → Option State
  | [] => none
  | w :: rest =>
    let later := s.wflNext t g rest
    let begun := match w.probe with
      | some id => (id, s)
      | none => s.probe t.core t.tid g.gix t.ctx w
    let s1 := begun.2
    let drop (s : State) : State := (s.endProbe t.core t.ctx begun.1)
    let keep (p : Option Nat) (s : State) : State :=
      s.modGroup t.tid g.gix fun g => { g with wfls := g.wfls.map fun u => if u == w then { u with probe := p } else u }
    match s1.tested begun.1 w with
    | .holds v => some (((drop s1).endWfl t.tid g.gix w v).modGroup t.tid g.gix fun g => g.wakeWfl w)
    | .bad =>
      let pc := (g.lane (w.lanes.headD 0)).pc
      let s2 := (drop s1).modGroup t.tid g.gix fun g => { (g.eachLane w.lanes fun l => { l with st := .active }) with wfls := g.wfls.filter (· != w) }
      some (s2.takeFault t.tid g.gix (s1.eccuOf (.mem w.gpa) w.va) w.lanes pc w.succ 0)
    | .again => if w.probe.isSome then some (keep none (drop s1)) else later
    | .waiting => if w.probe.isNone then some (keep (some begun.1) s1) else later

/-- The event of R382: a test after the word has changed.
DEDUCED (log 38; unsafe). -/
def onWflTest (tid gix : Nat) (s : State) : Option State :=
  match s.team? tid, s.group? tid gix with
  | some t, some g =>
    if t.st != .resident then none
    else
      match s.wflNext t g g.wfls with
      | some s => some s
      | none => none
  | _, _ => none

def execWflTest (tid gix : Nat) (s : State) : Host.Outcome State Fault Refusal := s.occurs (onWflTest tid gix s)

/-! ### Phase ends (R384 to R386) -/

/-- The lanes of act park until a phase end of their scope, which is asked for once their earlier accesses are performed. -/
def execPhs (h : Hdr) (idle : Bool) (sc : Scope) (s : State) : Host.Outcome State Fault Refusal :=
  run (.phs h idle sc) (fun x s =>
    if x.act.isEmpty then { s := s }
    else
      let s := s.await false x.tid x.gix x.act ⟨true, true, true⟩ true 255 sc
      let s := s.modCtx x.c.ctx fun c => { c with phases := c.phases ++ [.lanes x.tid x.gix (sc == .pod) idle] }
      { s := s.parkLanes x.tid x.gix x.act (.phase (sc == .pod) x.next), stay := x.act }) s

end Sys2Proof.Machine
end

