-- ==== Sys2Proof/Machine/SysExec.lean ====
section
/-! DEFINITION. The system instructions (R184, R187 to R191). -/

namespace Sys2Proof.Machine

/-- A fault on every lane of act where the group is not privileged (R187); with no lane, nothing.
DEDUCED (log 65; unsafe). -/
def privBody (x : Issue) (s : State) (k : Res) : Res :=
  if x.act.isEmpty then { s := s } else if !x.privileged then { s := s, faults := x.all (Flt.mk' Code.prot) } else k

/-- Return from the handler (R184).
DEDUCED (log 29; unsafe). -/
def execTrt (h : Hdr) (s : State) : Host.Outcome State Fault Refusal :=
  run (.trt h) (fun x s =>
    privBody x s (
      if !x.g.handler || !x.g.handlerLanes.all x.act.contains then { s := s, faults := x.all (Flt.mk' Code.prot) }
      else if !pcOk x.g.tpc then { s := s, faults := x.all (Flt.mk' Code.btgt) }
      else { s := s.modIssue x Group.leaveTrap, stay := x.lanes })) s

/-- Whether a code line lies among `n` lines from an address on. -/
def lineIn (a : Dword) (n va : Nat) : Bool := (List.range n).any fun i => va == (a.toNat / 128 * 128 + 128 * i) % 2 ^ 64

/-- Drop code lines from every instruction cache of the chip (R189).
DESIGN CHOICE (log 15; safe). -/
def execIcinv (h : Hdr) (a b : Src) (s : State) : Host.Outcome State Fault Refusal :=
  run (.icinv h a b) (fun x s =>
    let at' := x.act.map fun j => x.w64 a j
    let n := b.immVal.toNat
    let keep (l : ILine) : Bool := !(l.ctx == x.c.ctx && at'.any fun a => lineIn a n l.va)
    let core (c : CoreSt) : CoreSt := { c with ilines := c.ilines.filter keep }
    { s := { s with cores := s.cores.map fun p => (p.1, core p.2) } }) s

/-! ### System registers (R188, Table 7-5) -/

/-- A group's own trap registers. -/
def Group.sysRead (g : Group) (num : Nat) : Word :=
  match num with
  | 0x000 => g.tcause
  | 0x001 => g.tmask.extractLsb' 0 32
  | 0x002 => g.tmask.extractLsb' 32 32
  | 0x003 => g.tpc.extractLsb' 0 32
  | 0x004 => g.tpc.extractLsb' 32 32
  | 0x005 => g.tword.extractLsb' 0 32
  | 0x006 => g.tword.extractLsb' 32 32
  | 0x007 => g.tword.extractLsb' 64 32
  | 0x008 => g.taddr.extractLsb' 0 32
  | 0x009 => g.taddr.extractLsb' 32 32
  | n => Cells.get g.tscr (n - 0x00A)

def Group.sysWrite (g : Group) (num : Nat) (x : Word) : Group :=
  match num with
  | 0x003 => { g with tpc := setLow g.tpc x, tpend := none }
  | 0x004 => { g with tpc := setHigh g.tpc x, tpend := none }
  | n => if 0x00A ≤ n then { g with tscr := Cells.set g.tscr (n - 0x00A) x } else g

/-- The bits of TEN that hold a value.
DEDUCED (log 33; unsafe). -/
def tenMask : Word := 0x0037DFBE

/-- Read a system register. -/
def State.sysRead (s : State) (x : Issue) (num : Nat) : Word × State :=
  let c := (s.ctx? x.c.ctx).getD x.c
  if num < 0x010 then (x.g.sysRead num, s)
  else
    match num with
    | 0x010 => (c.thnd.extractLsb' 0 32, s)
    | 0x011 => (c.thnd.extractLsb' 32 32, s)
    | 0x012 => (c.ten, s)
    | _ => s.dieRead (dieOf x.core) num

/-- Write a system register.
DEDUCED (log 33; unsafe). -/
def State.sysWrite (s : State) (x : Issue) (num : Nat) (v : Word) : Option State :=
  if num < 0x010 then some (s.modIssue x fun g => g.sysWrite num v)
  else
    match num with
    | 0x010 => some (s.modCtx x.c.ctx fun c => { c with thnd := setLow c.thnd v })
    | 0x011 => some (s.modCtx x.c.ctx fun c => { c with thnd := setHigh c.thnd v })
    | 0x012 => some (s.modCtx x.c.ctx fun c => { c with ten := v &&& tenMask })
    | _ => s.dieWrite (dieOf x.core) num v

def execSysr (h : Hdr) (d : Dst) (a : Src) (s : State) : Host.Outcome State Fault Refusal :=
  run (.sysr h d a) (fun x s =>
    let num := a.immVal.toNat
    privBody x s (
      if reachOf num == .wo then { s := s, faults := x.all (Flt.mk' Code.prot) }
      else
        let r := s.sysRead x num
        { s := r.2.put x d (x.act.map fun j => (j, r.1.zeroExtend 64)) })) s

/-- Whether a write is refused with PROT: of a register that is read only, or of CSCTL for the group's own context (R399).
DEDUCED (log 52; unsafe). -/
def sysBars (x : Issue) (num : Nat) (v : Word) : Bool := reachOf num == .ro || (num == 0x020 && v.toNat / 2 ^ 16 % 2 ^ 15 == x.c.ctx)

def syswBody (num : Nat) (b : Src) (x : Issue) (s : State) : Res :=
  privBody x s (
    let v := x.w32 b x.low
    if sysBars x num v then { s := s, faults := x.all (Flt.mk' Code.prot) }
    else
      match s.sysWrite x num v with
      | some s => { s := s }
      | none => { s := s, retry := true })

def execSysw (h : Hdr) (a b : Src) (s : State) : Host.Outcome State Fault Refusal := run (.sysw h a b) (syswBody a.immVal.toNat b) s

/-! ### Device launches and halt -/

/-- Append a packet to the queue that a brand's record names (R190): the status, or none where the completion word waits for the dirty
log. A queue of another chip may answer anything.
DESIGN CHOICE (log 18; safe); DEDUCED (log 49; unsafe). -/
def State.submit (s : State) (x : Issue) (b : Brand) (r : BRec) (bs : List Byte) : Option (Dword × State) :=
  match s.home b with
  | .away => let (n, s) := s.freeNat; some (BitVec.ofNat 64 (n % 3), s)
  | _ =>
    match s.queueOf r.payload with
    | none => (s.writeStatus x.c.ctx (complOf bs) Code.qpkt).map fun s => (2, s)
    | some q =>
      match s.appendTo q bs with
      | .enqueued s => some (0, s)
      | .full => some (1, s)
      | .rejected s => some (2, s)
      | .waits => none

def execLnch (h : Hdr) (d : Dst) (a b : Src) (s : State) : Host.Outcome State Fault Refusal :=
  run (.lnch h d a b) (fun x s =>
    if x.act.isEmpty then { s := s }
    else
      withResolve x (x.brand a) s fun r s =>
      match r with
      | .gone => { s := s, faults := x.all (Flt.mk' Code.bgone) }
      | .unreach => { s := s, faults := x.all { Flt.mk' Code.bgone with alt := true } }
      | .live r =>
        if r.kind != kindQueue then { s := s, faults := x.all (Flt.mk' Code.prot) }
        else
          match s.imageAt x (x.w64 b x.low) 64 64 with
          | (.error f, s) => { s := s, faults := x.all f }
          | (.ok bs, s) =>
            match s.submit x (x.brand a) r bs with
            | none => { s := s, retry := true }
            | some (v, s) => { s := s.put x d (x.act.map fun j => (j, v)) }) s

/-- A live lane of a halted group that did not take part stands still (R191). -/
def Group.haltOthers (act : List Nat) (g : Group) : Group :=
  { g with lanes := g.lanes.zipIdx.map fun p => if p.1.live && !act.contains p.2 then { p.1 with halted := true } else p.1 }

/-- Halt the group with an entry of code BRK (R191).
DEDUCED (log 65; unsafe). -/
def execHlt (h : Hdr) (s : State) : Host.Outcome State Fault Refusal :=
  run (.hlt h) (fun x s =>
    privBody x s { s := (s.bufferFault x.team x.g (Flt.mk' Code.brk) x.act x.pc x.next true).modIssue x (Group.haltOthers x.act), stay := x.act }) s

end Sys2Proof.Machine
end

