-- ==== Sys2Proof/Machine/Lanes.lean ====
section
/-! DEFINITION. The combining and moving of values between the lanes of a run (R109 to R112, R159 to R167), on values
alone. -/

namespace Sys2Proof

namespace Xln

/-- The length a run code names under grant `g` (R159). -/
def runLen (run : Run) (g : Nat) : Nat :=
  match run with
  | .wg => g
  | .w8 => 8
  | .w16 => 16
  | .w32 => 32
  | .w64 => 64

/-- The first lane of the run of lane `j`. -/
def base (len j : Nat) : Nat := if len == 0 then 0 else j / len * len

/-- The number of lanes of the run at base `b`, which never extends beyond the grant. -/
def size (g len b : Nat) : Nat := min g (b + len) - b

/-- The integer type of a cross-lane type code. -/
def intTy : Ty → IntTy
  | .n32 => .n32
  | .s64 => .s64
  | .n64 => .n64
  | _ => .s32

/-- A value with the flags gathered so far. -/
abbrev Acc := Dword × FpFlags

def f32Of (r : FRes) (fl : FpFlags) : Acc := (BitVec.ofNat 64 r.bits, r.flags ||| fl)

/-- One step of a reduction (R166). -/
def combine (op : RedOp) (ty : Ty) (a b : Acc) : Acc :=
  let fl := a.2 ||| b.2
  let x := Fp.read .f32 false (a.1.toNat % 2 ^ 32)
  let y := Fp.read .f32 false (b.1.toNat % 2 ^ 32)
  match ty, op with
  | .f32, .min => f32Of (Fp.minMax .f32 false x y) fl
  | .f32, .max => f32Of (Fp.minMax .f32 true x y) fl
  | .f32, _ => f32Of (Fp.add .f32 .rne false x y) fl
  | _, .add => (IntOp.add (intTy ty) false a.1 b.1, fl)
  | _, .adds => (IntOp.add (intTy ty) true a.1 b.1, fl)
  | _, .min => (IntOp.min (intTy ty) a.1 b.1, fl)
  | _, .max => (IntOp.max (intTy ty) a.1 b.1, fl)
  | _, .and => (a.1 &&& b.1, fl)
  | _, .or => (a.1 ||| b.1, fl)
  | _, .xor => (a.1 ^^^ b.1, fl)

/-- One level of the tree of R109: neighbours combine, an odd last node passes on. -/
def level (f : Acc → Acc → Acc) : List (Option Acc) → List (Option Acc)
  | x :: y :: rest =>
    (match x, y with
      | some a, some b => some (f a b)
      | some a, none => some a
      | none, b => b) :: level f rest
  | xs => xs

/-- The root of the tree over the lanes of a run, each full or empty (R109). -/
def tree (f : Acc → Acc → Acc) : Nat → List (Option Acc) → Option Acc
  | 0, xs => xs.headD none
  | fuel + 1, xs =>
    match xs with
    | [] => none
    | [x] => x
    | _ => tree f fuel (level f xs)

/-- The reduction of a run. A run has at most 64 lanes, so seven levels reach the root. -/
def reduce (op : RedOp) (ty : Ty) (xs : List (Option Dword)) : Option Acc :=
  tree (combine op ty) 7 (xs.map fun x => x.map fun v => (v, 0))

/-- Inclusive prefixes of the full places of a run, in order; an empty place stays empty (R110). -/
def prefixes (f : Acc → Acc → Acc) : Option Acc → List (Option Dword) → List (Option Acc)
  | _, [] => []
  | acc, none :: rest => none :: prefixes f acc rest
  | none, some v :: rest => some (v, 0) :: prefixes f (some (v, 0)) rest
  | some a, some v :: rest => some (f a (v, 0)) :: prefixes f (some (f a (v, 0))) rest

/-- Whether key `a` sorts strictly before key `b` (R112): every NaN after every number, either way. -/
def before (ty : Ty) (desc : Bool) (a b : Dword) : Bool :=
  if ty == .f32 then
    let x := Fp.read .f32 false (a.toNat % 2 ^ 32)
    let y := Fp.read .f32 false (b.toNat % 2 ^ 32)
    if x.isNan then false
    else if y.isNan then true
    else if desc then Fp.order y x < 0 else Fp.order x y < 0
  else
    let x := (intTy ty).toInt (a.toNat % 2 ^ 32)
    let y := (intTy ty).toInt (b.toNat % 2 ^ 32)
    if desc then y < x else x < y

/-- Insert after every element the new one does not sort before. -/
def insertKey (ty : Ty) (desc : Bool) (x : Dword) : List Dword → List Dword
  | [] => [x]
  | y :: rest => if before ty desc x y then x :: y :: rest else y :: insertKey ty desc x rest

/-- The stable sort of R112 on the keys in bits 31:0. -/
def sort (ty : Ty) (desc : Bool) (xs : List Dword) : List Dword := xs.foldl (fun acc x => insertKey ty desc x acc) []

/-- The source lane of `shfl` (R163). -/
def shflFrom (op : ShflOp) (b z j n : Nat) : Nat :=
  let r := j - b
  match op with
  | .up => if n ≤ r then j - n else j
  | .down => if r + n < z then j + n else j
  | .xor => if r ^^^ n < z then b + (r ^^^ n) else j
  | .rot => b + (if z == 0 then r else (r + n) % z)

end Xln

end Sys2Proof
end

