-- ==== Sys2Proof/Machine/XlnExec.lean ====
section
/-! DEFINITION. The instructions of class XLN (R158 to R167). -/

namespace Sys2Proof.Machine

/-- A source of a combining instruction, at the width of its type. -/
def Issue.cross (x : Issue) (ty : Ty) (f : Src) (j : Nat) : Dword := x.val (Rd.ofTy ty) f j

/-- The register of SA in any lane, as it stood before the issue slot (R160, R161). -/
def Issue.far (x : Issue) (f : Src) (m : Nat) : Dword :=
  match f with
  | .v n _ _ pair => getReg ((x.pre[m]?).map (·.v) |>.getD []) n.toNat pair
  | _ => 0

/-- The run of a lane: its first lane and its size (R159). -/
def Issue.runOf (x : Issue) (run : Run) (j : Nat) : Nat × Nat :=
  let len := Xln.runLen run x.g.grant
  (Xln.base len j, Xln.size x.g.grant len (Xln.base len j))

/-- The lanes of a run that are in act, in order. -/
def Issue.runLanes (x : Issue) (run : Run) (j : Nat) : List Nat :=
  let r := x.runOf run j
  x.act.filter fun m => r.1 ≤ m && m < r.1 + r.2

/-- The places of a run, filled for the lanes of act. -/
def Issue.places (x : Issue) (run : Run) (ty : Ty) (f : Src) (j : Nat) : List (Option Dword) :=
  let r := x.runOf run j
  (List.range r.2).map fun i => if x.act.contains (r.1 + i) then some (x.cross ty f (r.1 + i)) else none

def execPerm (h : Hdr) (ty : Ty) (d : Dst) (a b : Src) (s : State) : Host.Outcome State Fault Refusal :=
  runValue (.perm h ty d a b) d (fun x j => x.far a ((x.w32 b j).toNat % x.g.grant)) s

def execShfl (h : Hdr) (op : ShflOp) (run : Run) (ty : Ty) (d : Dst) (a b : Src) (s : State) : Host.Outcome State Fault Refusal :=
  runValue (.shfl h op run ty d a b) d (fun x j =>
    let r := x.runOf run j
    x.far a (Xln.shflFrom op r.1 r.2 j (x.w32 b j).toNat)) s

def execBcst (h : Hdr) (run : Run) (ty : Ty) (d : Dst) (a b : Src) (s : State) : Host.Outcome State Fault Refusal :=
  runValue (.bcst h run ty d a b) d (fun x j =>
    let r := x.runOf run j
    x.far a (r.1 + (x.w32 b j).toNat % r.2)) s

/-- The answer of `poll` in the run of a lane (R164). -/
def pollOf (x : Issue) (op : PollOp) (run : Run) (a : Src) (j : Nat) : Dword :=
  let ls := x.runLanes run j
  let yes (m : Nat) : Bool := x.w32 a m != 0
  let bit (b : Bool) : Dword := if b then 1 else 0
  match op with
  | .every => bit (ls.all yes)
  | .anyOf => bit (ls.any yes)
  | .same => bit (ls.all fun m => x.w32 a m == x.w32 a (ls.headD 0))
  | .mask => (ls.filter yes).foldl (fun w m => w ||| (1#64 <<< (m - (x.runOf run j).1))) 0

def execPoll (h : Hdr) (op : PollOp) (run : Run) (d : Dst) (a : Src) (s : State) : Host.Outcome State Fault Refusal :=
  runValue (.poll h op run d a) d (fun x j => pollOf x op run a j) s

/-- A reduction in each run; the flags of every run enter FPST (R166). -/
def execRed (h : Hdr) (op : RedOp) (run : Run) (ty : Ty) (d : Dst) (a : Src) (s : State) : Host.Outcome State Fault Refusal :=
  Sys2Proof.Machine.run (.red h op run ty d a) (fun x s =>
    let rs := x.act.map fun j => (j, (Xln.reduce op ty (x.places run ty a j)).getD (0, 0))
    { s := s.modIssue x fun g => (g.put d (rs.map fun p => (p.1, p.2.1))).orFlags (rs.foldl (fun fl p => fl ||| p.2.2) 0) }) s

/-- Inclusive prefixes in each run (R166). -/
def execScan (h : Hdr) (op : RedOp) (run : Run) (ty : Ty) (d : Dst) (a : Src) (s : State) : Host.Outcome State Fault Refusal :=
  Sys2Proof.Machine.run (.scan h op run ty d a) (fun x s =>
    let rs := x.act.map fun j =>
      (j, ((Xln.prefixes (Xln.combine op ty) none (x.places run ty a j)).getD (j - (x.runOf run j).1) none).getD (0, 0))
    { s := s.modIssue x fun g => (g.put d (rs.map fun p => (p.1, p.2.1))).orFlags (rs.foldl (fun fl p => fl ||| p.2.2) 0) }) s

def execMcnt (h : Hdr) (rank : Bool) (run : Run) (ty : Ty) (d : Dst) (a : Src) (s : State) : Host.Outcome State Fault Refusal :=
  runValue (.mcnt h rank run ty d a) d (fun x j =>
    let same := (x.runLanes run j).filter fun m => x.cross ty a m == x.cross ty a j
    BitVec.ofNat 64 (if rank then (same.filter (· < j)).length else same.length)) s

def execCmpt (h : Hdr) (run : Run) (ty : Ty) (d : Dst) (a b : Src) (s : State) : Host.Outcome State Fault Refusal :=
  runValue (.cmpt h run ty d a b) d (fun x j =>
    let ls := x.runLanes run j
    let kept := ls.filter fun m => x.w32 b m != 0
    match kept[ls.findIdx (· == j)]? with
    | some m => x.cross ty a m
    | none => 0) s

def execL2k (h : Hdr) (ty : Ty) (d : Dst) (a b : Src) (s : State) : Host.Outcome State Fault Refusal :=
  runValue (.l2k h ty d a b) d (fun x j => x.far a ((x.w32 b j).toNat % x.g.grant)) s

def execSrt (h : Hdr) (op : SrtOp) (run : Run) (ty : Ty) (d : Dst) (a : Src) (s : State) : Host.Outcome State Fault Refusal :=
  runValue (.srt h op run ty d a) d (fun x j =>
    let ls := x.runLanes run j
    let kv := op == .asckv || op == .desckv
    let keys := ls.map fun m => if kv then x.w64 a m else x.cross ty a m
    (Xln.sort ty (op == .desc || op == .desckv) keys).getD (ls.findIdx (· == j)) 0) s

end Sys2Proof.Machine
end

