-- ==== Sys2Proof/Machine/Dispatch.lean ====
section
/-! DEFINITION. The meaning of each constructor of `Instr`: one call of its definition. -/

namespace Sys2Proof.Machine

/-- What one instruction or event does. -/
def exec (i : Instr) (s : State) : Host.Outcome State Fault Refusal :=
  match i with
  | .iadd h ty sat d a b => Sys2Proof.Machine.execIadd h ty sat d a b s
  | .isub h ty sat d a b => Sys2Proof.Machine.execIsub h ty sat d a b s
  | .imul h ty sat hi d a b => Sys2Proof.Machine.execImul h ty sat hi d a b s
  | .imad h ty sat d a b c => Sys2Proof.Machine.execImad h ty sat d a b c s
  | .imin h ty d a b => Sys2Proof.Machine.execImin h ty d a b s
  | .imax h ty d a b => Sys2Proof.Machine.execImax h ty d a b s
  | .iabs h ty sat d a => Sys2Proof.Machine.execIabs h ty sat d a s
  | .and h ty d a b => Sys2Proof.Machine.execAnd h ty d a b s
  | .or h ty d a b => Sys2Proof.Machine.execOr h ty d a b s
  | .xor h ty d a b => Sys2Proof.Machine.execXor h ty d a b s
  | .andn h ty d a b => Sys2Proof.Machine.execAndn h ty d a b s
  | .shl h ty sat d a b => Sys2Proof.Machine.execShl h ty sat d a b s
  | .shr h ty d a b => Sys2Proof.Machine.execShr h ty d a b s
  | .rot h ty d a b => Sys2Proof.Machine.execRot h ty d a b s
  | .bfe h ty d a b => Sys2Proof.Machine.execBfe h ty d a b s
  | .bfi h ty d a b c => Sys2Proof.Machine.execBfi h ty d a b c s
  | .popc h ty d a => Sys2Proof.Machine.execPopc h ty d a s
  | .clz h ty d a => Sys2Proof.Machine.execClz h ty d a s
  | .brev h ty d a => Sys2Proof.Machine.execBrev h ty d a s
  | .icmp h cond ty d a b => Sys2Proof.Machine.execIcmp h cond ty d a b s
  | .sel h ty d a b c => Sys2Proof.Machine.execSel h ty d a b c s
  | .mov h ty d a => Sys2Proof.Machine.execMov h ty d a s
  | .movi h d imm => Sys2Proof.Machine.execMovi h d imm s
  | .lea h sh ty d a b => Sys2Proof.Machine.execLea h sh ty d a b s
  | .iaddc h co d a b c => Sys2Proof.Machine.execIaddc h co d a b c s
  | .sreg h d a => Sys2Proof.Machine.execSreg h d a s
  | .fadd h rnd ftz clamp d a b => Sys2Proof.Machine.execFadd h rnd ftz clamp d a b s
  | .fsub h rnd ftz clamp d a b => Sys2Proof.Machine.execFsub h rnd ftz clamp d a b s
  | .fmul h rnd ftz clamp d a b => Sys2Proof.Machine.execFmul h rnd ftz clamp d a b s
  | .ffma h rnd ftz clamp d a b c => Sys2Proof.Machine.execFfma h rnd ftz clamp d a b c s
  | .fmin h ftz clamp d a b => Sys2Proof.Machine.execFmin h ftz clamp d a b s
  | .fmax h ftz clamp d a b => Sys2Proof.Machine.execFmax h ftz clamp d a b s
  | .fcmp h cond ftz d a b => Sys2Proof.Machine.execFcmp h cond ftz d a b s
  | .fclass h ftz d a => Sys2Proof.Machine.execFclass h ftz d a s
  | .frnd h rnd ftz clamp d a => Sys2Proof.Machine.execFrnd h rnd ftz clamp d a s
  | .fscale h rnd ftz clamp d a b => Sys2Proof.Machine.execFscale h rnd ftz clamp d a b s
  | .fadd2 h fmt rnd ftz clamp d a b => Sys2Proof.Machine.execFadd2 h fmt rnd ftz clamp d a b s
  | .fmul2 h fmt rnd ftz clamp d a b => Sys2Proof.Machine.execFmul2 h fmt rnd ftz clamp d a b s
  | .ffma2 h fmt rnd ftz clamp d a b c => Sys2Proof.Machine.execFfma2 h fmt rnd ftz clamp d a b c s
  | .cvt h dt st rnd d a => Sys2Proof.Machine.execCvt h dt st rnd d a s
  | .cvti h dt st rnd d a b => Sys2Proof.Machine.execCvti h dt st rnd d a b s
  | .pk16 h dt st rnd d a b => Sys2Proof.Machine.execPk16 h dt st rnd d a b s
  | .upk16 h dt st d a b => Sys2Proof.Machine.execUpk16 h dt st d a b s
  | .qnt h d a b c => Sys2Proof.Machine.execQnt h d a b c s
  | .dqnt h dt d a b c => Sys2Proof.Machine.execDqnt h dt d a b c s
  | .bpt h d a b => Sys2Proof.Machine.execBpt h d a b s
  | .bpr h d a b c => Sys2Proof.Machine.execBpr h d a b c s
  | .olst h d a b c => Sys2Proof.Machine.execOlst h d a b c s
  | .rcps h fmt ftz d a => Sys2Proof.Machine.execRcps h fmt ftz d a s
  | .rsqs h fmt ftz d a => Sys2Proof.Machine.execRsqs h fmt ftz d a s
  | .ex2 h fmt ftz d a => Sys2Proof.Machine.execEx2 h fmt ftz d a s
  | .lg2 h fmt ftz d a => Sys2Proof.Machine.execLg2 h fmt ftz d a s
  | .sinp h fmt ftz d a => Sys2Proof.Machine.execSinp h fmt ftz d a s
  | .cosp h fmt ftz d a => Sys2Proof.Machine.execCosp h fmt ftz d a s
  | .tnh h fmt ftz d a => Sys2Proof.Machine.execTnh h fmt ftz d a s
  | .perm h ty d a b => Sys2Proof.Machine.execPerm h ty d a b s
  | .shfl h op run ty d a b => Sys2Proof.Machine.execShfl h op run ty d a b s
  | .bcst h run ty d a b => Sys2Proof.Machine.execBcst h run ty d a b s
  | .poll h op run d a => Sys2Proof.Machine.execPoll h op run d a s
  | .red h op run ty d a => Sys2Proof.Machine.execRed h op run ty d a s
  | .scan h op run ty d a => Sys2Proof.Machine.execScan h op run ty d a s
  | .mcnt h rank run ty d a => Sys2Proof.Machine.execMcnt h rank run ty d a s
  | .cmpt h run ty d a b => Sys2Proof.Machine.execCmpt h run ty d a b s
  | .l2k h ty d a b => Sys2Proof.Machine.execL2k h ty d a b s
  | .srt h op run ty d a => Sys2Proof.Machine.execSrt h op run ty d a s
  | .bra h t => Sys2Proof.Machine.execBra h t s
  | .brx h a => Sys2Proof.Machine.execBrx h a s
  | .call h d t => Sys2Proof.Machine.execCall h d t s
  | .ret h a => Sys2Proof.Machine.execRet h a s
  | .enrol h m => Sys2Proof.Machine.execEnrol h m s
  | .join h m => Sys2Proof.Machine.execJoin h m s
  | .exit h => Sys2Proof.Machine.execExit h s
  | .width h d a => Sys2Proof.Machine.execWidth h d a s
  | .yield h => Sys2Proof.Machine.execYield h s
  | .nop h => Sys2Proof.Machine.execNop h s
  | .trap h a => Sys2Proof.Machine.execTrap h a s
  | .lp h d t => Sys2Proof.Machine.execLp h d t s
  | .brk h a => Sys2Proof.Machine.execBrk h a s
  | .ld h sz sx d a b => Sys2Proof.Machine.execLd h sz sx d a b s
  | .st h sz col a b c => Sys2Proof.Machine.execSt h sz col a b c s
  | .lds h sz sx d a b => Sys2Proof.Machine.execLds h sz sx d a b s
  | .sts h sz col a b c => Sys2Proof.Machine.execSts h sz col a b c s
  | .ldc h sz sx d a b => Sys2Proof.Machine.execLdc h sz sx d a b s
  | .stc h sz col a b c => Sys2Proof.Machine.execStc h sz col a b c s
  | .ldx h sz sx d a b => Sys2Proof.Machine.execLdx h sz sx d a b s
  | .stx h sz col a b c => Sys2Proof.Machine.execStx h sz col a b c s
  | .ldk h sz sx d a b => Sys2Proof.Machine.execLdk h sz sx d a b s
  | .stk h sz col a b c => Sys2Proof.Machine.execStk h sz col a b c s
  | .prf h a b => Sys2Proof.Machine.execPrf h a b s
  | .tlk h d a => Sys2Proof.Machine.execTlk h d a s
  | .tset h lck a b => Sys2Proof.Machine.execTset h lck a b s
  | .tinv h a => Sys2Proof.Machine.execTinv h a s
  | .tlck h a => Sys2Proof.Machine.execTlck h a s
  | .tulk h a => Sys2Proof.Machine.execTulk h a s
  | .prsq h d a => Sys2Proof.Machine.execPrsq h d a s
  | .prsc h set a b => Sys2Proof.Machine.execPrsc h set a b s
  | .ops h op col a b c => Sys2Proof.Machine.execOps h op col a b c s
  | .opf h op col d a b c => Sys2Proof.Machine.execOpf h op col d a b c s
  | .ocas h col d a b c => Sys2Proof.Machine.execOcas h col d a b c s
  | .sat h op col d a b c => Sys2Proof.Machine.execSat h op col d a b c s
  | .txb h d a => Sys2Proof.Machine.execTxb h d a s
  | .txs h col a b c => Sys2Proof.Machine.execTxs h col a b c s
  | .txc h d a => Sys2Proof.Machine.execTxc h d a s
  | .txa h a => Sys2Proof.Machine.execTxa h a s
  | .ewk h a b => Sys2Proof.Machine.execEwk h a b s
  | .fnc h ks sc a => Sys2Proof.Machine.execFnc h ks sc a s
  | .ofnc h => Sys2Proof.Machine.execOfnc h s
  | .wt h ctr a => Sys2Proof.Machine.execWt h ctr a s
  | .bari h a b => Sys2Proof.Machine.execBari h a b s
  | .bara h d a b => Sys2Proof.Machine.execBara h d a b s
  | .barw h par d a b => Sys2Proof.Machine.execBarw h par d a b s
  | .bard h d a b => Sys2Proof.Machine.execBard h d a b s
  | .wfl h cond d a b => Sys2Proof.Machine.execWfl h cond d a b s
  | .phs h idle sc => Sys2Proof.Machine.execPhs h idle sc s
  | .aalc h d a => Sys2Proof.Machine.execAalc h d a s
  | .afre h a => Sys2Proof.Machine.execAfre h a s
  | .mlds h pool a b c => Sys2Proof.Machine.execMlds h pool a b c s
  | .mswp h a => Sys2Proof.Machine.execMswp h a s
  | .mstr h m ty a b c => Sys2Proof.Machine.execMstr h m ty a b c s
  | .mlp h m ty a b => Sys2Proof.Machine.execMlp h m ty a b s
  | .macr h ty d a b c => Sys2Proof.Machine.execMacr h ty d a b c s
  | .macw h a b c => Sys2Proof.Machine.execMacw h a b c s
  | .mzro h a b => Sys2Proof.Machine.execMzro h a b s
  | .shp h h32 a b => Sys2Proof.Machine.execShp h h32 a b s
  | .cpy h h32 a b c => Sys2Proof.Machine.execCpy h h32 a b c s
  | .cpx h h32 a b c => Sys2Proof.Machine.execCpx h h32 a b c s
  | .cpc h h32 d a b => Sys2Proof.Machine.execCpc h h32 d a b s
  | .cpq h h32 d => Sys2Proof.Machine.execCpq h h32 d s
  | .algl h t a => Sys2Proof.Machine.execAlgl h t a s
  | .algq h t d a => Sys2Proof.Machine.execAlgq h t d a s
  | .cmpl h t a => Sys2Proof.Machine.execCmpl h t a s
  | .rgi h d a b => Sys2Proof.Machine.execRgi h d a b s
  | .rgr h a => Sys2Proof.Machine.execRgr h a s
  | .tlbi h a => Sys2Proof.Machine.execTlbi h a s
  | .bnew h kd d a => Sys2Proof.Machine.execBnew h kd d a s
  | .bres h kd d a c => Sys2Proof.Machine.execBres h kd d a c s
  | .bcas h d a b c => Sys2Proof.Machine.execBcas h d a b c s
  | .bkil h a => Sys2Proof.Machine.execBkil h a s
  | .bshd h => Sys2Proof.Machine.execBshd h s
  | .bref h a => Sys2Proof.Machine.execBref h a s
  | .bdrp h a => Sys2Proof.Machine.execBdrp h a s
  | .rnd h sr d a => Sys2Proof.Machine.execRnd h sr d a s
  | .rndu h sr d a => Sys2Proof.Machine.execRndu h sr d a s
  | .rsal h sr a => Sys2Proof.Machine.execRsal h sr a s
  | .rsfr h sr => Sys2Proof.Machine.execRsfr h sr s
  | .pcr h d a => Sys2Proof.Machine.execPcr h d a s
  | .lgm h a => Sys2Proof.Machine.execLgm h a s
  | .trt h => Sys2Proof.Machine.execTrt h s
  | .icinv h a b => Sys2Proof.Machine.execIcinv h a b s
  | .sysr h d a => Sys2Proof.Machine.execSysr h d a s
  | .sysw h a b => Sys2Proof.Machine.execSysw h a b s
  | .lnch h d a b => Sys2Proof.Machine.execLnch h d a b s
  | .hlt h => Sys2Proof.Machine.execHlt h s
  | .faultHeldWritten die => Sys2Proof.Machine.execFaultHeldWritten die s
  | .fbrelRetry die index => Sys2Proof.Machine.execFbrelRetry die index s
  | .fbrelSkip die index => Sys2Proof.Machine.execFbrelSkip die index s
  | .fbrelKill die index => Sys2Proof.Machine.execFbrelKill die index s
  | .fbtailWrite die x => Sys2Proof.Machine.execFbtailWrite die x s
  | .shctlThaw ctx => Sys2Proof.Machine.execShctlThaw ctx s
  | .shctlDestroy ctx => Sys2Proof.Machine.execShctlDestroy ctx s
  | .shepherdWindow ctx => Sys2Proof.Machine.execShepherdWindow ctx s
  | .registerWrite r x => Sys2Proof.Machine.execRegisterWrite r x s
  | .islfreq die x => Sys2Proof.Machine.execIslfreq die x s
  | .frequencySettled island => Sys2Proof.Machine.execFrequencySettled island s
  | .packagePowerLimit mhz => Sys2Proof.Machine.execPackagePowerLimit mhz s
  | .templimExceeded die mhz => Sys2Proof.Machine.execTemplimExceeded die mhz s
  | .csctlStop die ctx => Sys2Proof.Machine.execCsctlStop die ctx s
  | .contextStopped ctx => Sys2Proof.Machine.execContextStopped ctx s
  | .csctlSave die ctx => Sys2Proof.Machine.execCsctlSave die ctx s
  | .contextSeal ctx => Sys2Proof.Machine.execContextSeal ctx s
  | .contextImageWrite die ctx => Sys2Proof.Machine.execContextImageWrite die ctx s
  | .csctlRestore die ctx => Sys2Proof.Machine.execCsctlRestore die ctx s
  | .csctlResume die ctx => Sys2Proof.Machine.execCsctlResume die ctx s
  | .csctlDestroy die ctx => Sys2Proof.Machine.execCsctlDestroy die ctx s
  | .contextCreate rec => Sys2Proof.Machine.execContextCreate rec s
  | .queueCreate ctx base m prio => Sys2Proof.Machine.execQueueCreate ctx base m prio s
  | .doorbell q va => Sys2Proof.Machine.execDoorbell q va s
  | .doorbellHeldTaken q => Sys2Proof.Machine.execDoorbellHeldTaken q s
  | .launch q => Sys2Proof.Machine.execLaunch q s
  | .replace q => Sys2Proof.Machine.execReplace q s
  | .unload q => Sys2Proof.Machine.execUnload q s
  | .mark q => Sys2Proof.Machine.execMark q s
  | .waitm q => Sys2Proof.Machine.execWaitm q s
  | .waitmComplete q => Sys2Proof.Machine.execWaitmComplete q s
  | .phase q => Sys2Proof.Machine.execPhase q s
  | .launchComplete lid => Sys2Proof.Machine.execLaunchComplete lid s
  | .letterboxGrid lb x => Sys2Proof.Machine.execLetterboxGrid lb x s
  | .letterboxGridHeld lb => Sys2Proof.Machine.execLetterboxGridHeld lb s
  | .walkerLetterbox lb x => Sys2Proof.Machine.execWalkerLetterbox lb x s
  | .teamPlace lid => Sys2Proof.Machine.execTeamPlace lid s
  | .starvationPreempt lid => Sys2Proof.Machine.execStarvationPreempt lid s
  | .teamResume tid core => Sys2Proof.Machine.execTeamResume tid core s
  | .compactorMove tid gix octet slice => Sys2Proof.Machine.execCompactorMove tid gix octet slice s
  | .widthRoomFreed tid gix => Sys2Proof.Machine.execWidthRoomFreed tid gix s
  | .issueAgeLimit tid gix => Sys2Proof.Machine.execIssueAgeLimit tid gix s
  | .holdChainLimit tid gix => Sys2Proof.Machine.execHoldChainLimit tid gix s
  | .laneExitComplete tid gix lane => Sys2Proof.Machine.execLaneExitComplete tid gix lane s
  | .teamRetire tid => Sys2Proof.Machine.execTeamRetire tid s
  | .loadDataArrival id => Sys2Proof.Machine.execLoadDataArrival id s
  | .operatorReturn id => Sys2Proof.Machine.execOperatorReturn id s
  | .storePerformedAtHome id => Sys2Proof.Machine.execStorePerformedAtHome id s
  | .dirtyLogTailAdvance ctx x => Sys2Proof.Machine.execDirtyLogTailAdvance ctx x s
  | .entryArrival id => Sys2Proof.Machine.execEntryArrival id s
  | .entryRewrite dw pos rw => Sys2Proof.Machine.execEntryRewrite dw pos rw s
  | .entryRetire dw => Sys2Proof.Machine.execEntryRetire dw s
  | .retirementBound dw pos => Sys2Proof.Machine.execRetirementBound dw pos s
  | .walkerRecord agent => Sys2Proof.Machine.execWalkerRecord agent s
  | .copySectorArrival id sector => Sys2Proof.Machine.execCopySectorArrival id sector s
  | .copyComplete id => Sys2Proof.Machine.execCopyComplete id s
  | .cpxTileArrival src => Sys2Proof.Machine.execCpxTileArrival src s
  | .cpxComplete id => Sys2Proof.Machine.execCpxComplete id s
  | .claimGrant tid gix => Sys2Proof.Machine.execClaimGrant tid gix s
  | .courierScheduleStep port => Sys2Proof.Machine.execCourierScheduleStep port s
  | .matrixGrant quad idx => Sys2Proof.Machine.execMatrixGrant quad idx s
  | .matrixComplete quad idx => Sys2Proof.Machine.execMatrixComplete quad idx s
  | .aalcBanksFree quad => Sys2Proof.Machine.execAalcBanksFree quad s
  | .wflTest tid gix => Sys2Proof.Machine.execWflTest tid gix s
  | .phaseEndSweep ctx => Sys2Proof.Machine.execPhaseEndSweep ctx s
  | .idleWireWait ctx => Sys2Proof.Machine.execIdleWireWait ctx s
  | .brandResolve core b => Sys2Proof.Machine.execBrandResolve core b s
  | .uncorrectableError loc => Sys2Proof.Machine.execUncorrectableError loc s
  | .replayHeldRelease ctx => Sys2Proof.Machine.execReplayHeldRelease ctx s
  | .flitCrcFail port seq => Sys2Proof.Machine.execFlitCrcFail port seq s
  | .fabricLinkDown port => Sys2Proof.Machine.execFabricLinkDown port s
  | .ucieFlitCrcFail m seq => Sys2Proof.Machine.execUcieFlitCrcFail m seq s
  | .ucieModuleDown m => Sys2Proof.Machine.execUcieModuleDown m s
  | .hostWrite gpa bytes => Sys2Proof.Machine.execHostWrite gpa bytes s
  | .routingTableWrite w => Sys2Proof.Machine.execRoutingTableWrite w s
  | .reductionWindowProgram lo hi => Sys2Proof.Machine.execReductionWindowProgram lo hi s
  | .brandTableBaseSet base => Sys2Proof.Machine.execBrandTableBaseSet base s
  | .courierFirmwareLoad port img => Sys2Proof.Machine.execCourierFirmwareLoad port img s
  | .attestationReport nonce => Sys2Proof.Machine.execAttestationReport nonce s
  | .coldReset => Sys2Proof.Machine.execColdReset s
  | .nonInstructionEncoding why => Sys2Proof.Machine.execNonInstructionEncoding why s
  | .ucieLinkReturn m => Sys2Proof.Machine.execUcieLinkReturn m s
  | .hostDieFirmwareLoad img => Sys2Proof.Machine.execHostDieFirmwareLoad img s
  | .hostBrandMint ctx kd payload => Sys2Proof.Machine.execHostBrandMint ctx kd payload s

end Sys2Proof.Machine
end

