-- ==== Sys2Proof/Machine/Moves.lean ====
section
/-! DEFINITION. The moves that the device may make of itself. -/

namespace Sys2Proof.Machine

/-- Moves that outstanding accesses, pigeonholes, walkers and couriers may offer. -/
def State.memoryMoves (s : State) : List Instr :=
  s.accs.flatMap (fun a =>
      match a.kind with
      | .load => [.loadDataArrival a.id, .entryArrival a.id]
      | .store => [.storePerformedAtHome a.id, .entryArrival a.id]
      | .post _ => [.entryArrival a.id]
      | .fetch _ => [if a.arrived then .operatorReturn a.id else .entryArrival a.id]
      | .tx _ => [.storePerformedAtHome a.id])
    ++ s.agents.zipIdx.flatMap (fun p => p.1.holes.map (fun h => .entryRetire h.dw) ++ (if p.1.walker.isEmpty then [] else [.walkerRecord p.2]))
    ++ s.ports.zipIdx.flatMap fun p => if p.1.steps.isEmpty && p.1.forwards.isEmpty then [] else [.courierScheduleStep p.2]

/-- Moves that copies and the matrix engines may offer. -/
def State.engineMoves (s : State) : List Instr :=
  s.copies.flatMap (fun c =>
      if c.cpx then ((c.targets.filter fun r => !s.tiles.any (·.own == some (c.id, r))).map fun r => .cpxTileArrival (.own c.id r)) ++ [.cpxComplete c.id]
      else (c.pieces.filter (!·.done)).foldr (fun p us => insertNat p.unit us) [] |>.map (.copySectorArrival c.id) |>.append [.copyComplete c.id])
    ++ s.tiles.map (fun x => .cpxTileArrival (.rest x.id))
    ++ s.quads.flatMap fun q =>
      (List.range q.2.reqs.length).flatMap (fun i => [.matrixGrant q.1 i, .matrixComplete q.1 i]) ++ (if q.2.waits.isEmpty then [] else [.aalcBanksFree q.1])

/-- Moves that groups and teams may offer. -/
def State.groupMoves (s : State) : List Instr :=
  s.teams.flatMap fun t =>
    t.groups.flatMap (fun g =>
        (if g.wfls.isEmpty then [] else [.wflTest t.tid g.gix])
          ++ (g.lanesWhere fun l => l.st == .parked .exiting).map (.laneExitComplete t.tid g.gix)
          ++ (match g.wait with | some (.width _ _) => [.widthRoomFreed t.tid g.gix] | some (.claim _ _ _ _ _ _) => [.claimGrant t.tid g.gix] | _ => []))
      ++ (if t.st == .saved then [.teamResume t.tid t.core] ++ ((s.ctx? t.ctx).map fun c => c.lmap.map (.teamResume t.tid)).getD []
          else if s.teamDone t then [.teamRetire t.tid] else [])

/-- Moves that launches, queues, contexts and dies may offer. -/
def State.queueMoves (s : State) : List Instr :=
  s.launches.flatMap (fun l =>
      (if l.waiting then [.teamPlace l.lid] else [])
        ++ (if l.waiting || s.teams.any (fun t => t.lid == l.lid && t.st == .saved) then [.starvationPreempt l.lid] else [])
        ++ (if l.ended then [.launchComplete l.lid] else []))
    ++ s.queues.flatMap (fun q =>
      (if q.rd == q.wr then [] else [.launch q.q, .replace q.q, .unload q.q, .mark q.q, .waitm q.q, .phase q.q])
        ++ (if q.waiting.isSome then [.waitmComplete q.q] else []) ++ (if q.held.isEmpty then [] else [.doorbellHeldTaken q.q]))
    ++ s.letterboxes.flatMap (fun b => if b.held.isEmpty then [] else [.letterboxGridHeld b.lb])
    ++ s.ctxs.flatMap (fun c =>
      (if c.phases.isEmpty then [] else [.phaseEndSweep c.ctx, .idleWireWait c.ctx]) ++ (if c.heldEvents.isEmpty then [] else [.replayHeldRelease c.ctx])
        ++ (if c.st == .stopping || c.st == .stopped || c.st == .logFull || c.st == .restoring then [.contextStopped c.ctx, .contextSeal c.ctx] else [])
        ++ (match c.saving with | some d => [.contextImageWrite d c.ctx] | none => []))
    ++ s.dies.zipIdx.flatMap (fun p => if p.1.heldFaults.isEmpty then [] else [.faultHeldWritten p.2])
    ++ s.islands.zipIdx.flatMap fun p => if p.1.settling then [.frequencySettled p.2] else []

/-- Whether one act of the host must come before another: writes to a common doubleword.
DESIGN CHOICE (log 12; safe). -/
def hostClash : Instr → Instr → Bool
  | .hostWrite a bs, .hostWrite b cs => a / 8 * 8 < b + cs.length && b / 8 * 8 < a + bs.length
  | _, _ => false

/-- What a store to a device register has begun, and the acts of the host that wait and are not behind another (R203, R206, R407, R418).
DESIGN CHOICE (log 12; safe). -/
def State.hostMoves (s : State) : List Instr :=
  s.due ++ (s.hostHeld.zipIdx.filter fun p => !(s.hostHeld.take p.2).any fun e => hostClash e p.1).map (·.1)

/-- Every move of its own that the device may have to offer.
DESIGN CHOICE (log 12; safe). -/
def State.moves (s : State) : List Instr := s.memoryMoves ++ s.engineMoves ++ s.groupMoves ++ s.queueMoves ++ s.hostMoves

end Sys2Proof.Machine
end

