-- ==== Sys2Proof/Machine/Step.lean ====
section
/-! DEFINITION. One step of the machine, and the placing of an instruction for the next step to run. -/

namespace Sys2Proof.Machine

/-- A fetch that needed an arrival out of its place in a log: the slot waits (R407). -/
def State.waitFetch (s0 s : State) : State :=
  match s0.slot with
  | some sl => waitAgain (s0.instead s) sl
  | none => s0.instead s

/-- Run what the word of the slot began. -/
def runWord (s : State) : Host.Outcome State Fault Refusal :=
  match s.beginWord with
  | .run i t => if t.blocked then .next (s.waitFetch t) else exec i t
  | .ended t => .next (if t.blocked then s.waitFetch t else t)

/-- The state after a move of the device, if the move does something. One that needs an arrival out of its place in a log waits, or the log names no such
arrival (R407).
DESIGN CHOICE (log 12; safe). -/
def moved (s : State) (e : Instr) : Option State :=
  match exec e { s with hostHeld := s.hostHeld.erase e, due := s.due.erase e } with
  | .next t =>
    if t.blocked then t.unforeseen.map fun c => s.replayStop c
    else if t == s then none
    else some { t with stalled := [] }
  | _ => none

/-- One of the device's own moves that is enabled, which one is free; none where no move is.
DESIGN CHOICE (log 12; safe). -/
def ownMove (s : State) : Option State :=
  let ts := s.moves.filterMap (moved s)
  match ts with
  | [] => none
  | [t] => some t
  | t :: _ =>
    let u := ts.getD (Config.freeNat s.fresh % ts.length) t
    some { u with fresh := max u.fresh (s.fresh + 1) }

/-- The next issue, where a group can issue; else time passes.
DESIGN CHOICE (log 13; safe). -/
def issueNext (s : State) : Host.Outcome State Fault Refusal :=
  match s.openNext with
  | some t => runWord t
  | none => .next { s with stalled := [] }

/-- The next issue, or a move of the device: which is free where a group can issue and the device has something under way, unless
the group must issue next (R36).
DESIGN CHOICE (log 13; safe). -/
def advance (s : State) : Host.Outcome State Fault Refusal :=
  if s.openNext.isSome && (s.urgentNow.isSome || s.moves.isEmpty) then issueNext s
  else
    let (first, s) := if s.openNext.isSome then s.freeBool else (true, s)
    match (if first then ownMove s else none) with
    | some t => .next t
    | none => issueNext s

/-- The head of the tape happens; where it would need an arrival out of its place in a log (R407), or comes behind an act of the host that waits, it waits.
DESIGN CHOICE (log 12; safe). -/
def takeEvent (e : Instr) (s : State) : Host.Outcome State Fault Refusal :=
  let held : State := { s with hostHeld := s.hostHeld ++ [e] }
  if s.hostHeld.any fun d => hostClash d e then .next held
  else
    match exec e { s with stalled := [] } with
    | .next t => .next (if t.blocked then held.instead t else t)
    | o => o

/-- One step: word B of a slot that is open; else the end of a HOLD chain of 64; else the head of the tape or the next
issue, which of the two is free where both can happen.
DESIGN CHOICE (log 12, 13, 63; safe). -/
def step (s : State) : Host.Outcome State Fault Refusal :=
  if s.slot.isSome then runWord s.secondWord
  else
    match s.overdue with
    | some (tid, gix) => exec (.holdChainLimit tid gix) s
    | none =>
      match s.events with
      | [] => advance s
      | e :: rest =>
        if s.openNext.isNone then takeEvent e { s with events := rest }
        else
          let (now, s) := s.freeBool
          if now then takeEvent e { s with events := rest } else advance s

/-! ### Placing an instruction -/

/-- The group, team, launch and context that run a placed instruction: context 0 with its table at 256 MiB, one team of
one 8-lane group on core 0, every register as at launch.
DESIGN CHOICE (log 11; safe). -/
def placedLane : Lane :=
  { st := .active, pc := 0, v := [], p := 0, latches := List.replicate 4 ⟨0, false, none⟩, saved := List.replicate 4 ⟨0, false, none⟩
    lastHold := false, retry := false, held := false, woke := none, halted := false }

/-- DESIGN CHOICE (log 11; safe). -/
def placedGroup : Group :=
  { gix := 0, role := 0, budget := 256, grant := 8, grch := false, slotNo := 0, octets := [⟨0, 0⟩], lanes := List.replicate 8 placedLane, k := [], j := []
    fpst := 0, cc := 0, mc := 0, oc := 0, handler := false, tcause := 0, tmask := 0, tpc := 0, tpend := none, tword := 0, taddr := 0, tscr := [], gissue := 0
    gwait := 0, gpass := 0, gpark := 0, wait := none, chain := 0, tip := [], yieldTo := [], wfls := [], last := [], stale := [], seen := [], behind := none, ahead := none }

/-- DESIGN CHOICE (log 11; safe). -/
def placedTeam : Team :=
  { tid := 0, lid := 0, t := 0, core := 0, lcore := 0, ctx := 0, prio := 0, st := .resident, kills := 0, placed := 0, pin := none, ngroups := 1, spadLines := 1, spadBase := 0, spad := []
    flaw := false, absent := [], tags := [], ptrs := [], bars := [], shapes := [], allocSerial := 0, allocs := [], claims := [], groups := [placedGroup] }

/-- DESIGN CHOICE (log 11; safe). -/
def placedContext : Context :=
  { ctx := 0, record := 0x18000000, ptroot := 0x10000000, dlbase := 0, dln := 0, dlhead := 0, dltail := 0, priv := true, fixed := false, log := false
    replay := false, nlcore := 1, lmap := [0], pmbase := 0, pmlen := 0, pmpos := 0, nrank := (1, 1, 1), rankTable := [], blist := 0, bcap := 0
    bcount := 0, bovf := false, thnd := 0, ten := 0, fence := false, alg := [], cmp := [], streams := [], ranges := [], st := .running
    frozen := false, saving := none, progress := 0, traffic := [], phases := [], replayPos := [], heldEvents := [] }

/-- DESIGN CHOICE (log 11; safe). -/
def placedLaunch : Launch :=
  { lid := 0, ctx := 0, queue := none
    pkt := { kind := 1, cores := false, det := false, split := false, after := false, brand := 0, arg := 0, nx := 1, ny := 1, nz := 1, width := 8
             groups := 1, consumers := 0, lanes := 0, spadLines := 1, pool := 0, payload := 0, compl := 0 }
    kern := { entry := 0, width := 8, idem := false, split := false, budgetA := 256, budgetB := 0, mmrev := 2 }
    prio := 0, next := 1, ahead := [], again := [], live := 1, status := 0, seq := 0, die := none, killed := none }

/-- The state with an instruction word in slot 0 of the line at virtual address 0, a page table that maps it, and one
group at that PC: the next step fetches and runs exactly that word.
DESIGN CHOICE (log 11; safe). -/
def State.withFetchWord (s : State) (nbits w : Nat) : State :=
  let root := s.gpaOf 0x10000000
  let code := s.gpaOf 0x12000000
  let s := s.write root (toLe 8 (s.gpaOf 0x10040000 + 1))
  let s := s.write (s.gpaOf 0x10040000) (toLe 8 (code + 0x3F))
  let s := s.write code (toLe 8 1 ++ toLe 12 (w % 2 ^ nbits))
  { s with ctxs := [placedContext], teams := [placedTeam], launches := [placedLaunch], events := [], slot := none, cycle := none, stalled := [], urgent := some (0, 0)
           nextId := max s.nextId 1 }

end Sys2Proof.Machine
end

