-- ==== Sys2Proof/Safety.lean ====
section
/-! DEFINITION. The words that claims are written in: an instruction that is ready to run, what running it leaves alone, and the
invariant of every step. -/

namespace Sys2Proof

open Sys2Proof.Machine

/-- Memory has its canonical form. -/
def Safe (s : State) : Prop := Memory.wf s.mem = true

/-- The well-formed instruction `i` stands in the issue slot and nothing stops it: the interlocks of R56 are met, no field of it faults
(R20, R64) and no trap of word A waits. Gives the instruction as it issues and the state after the interlocks. -/
def opening (i : Instr) (s : State) : Option (Issue × State) :=
  match formOf i, s.issue? with
  | some fm, some (sl, t, g, c) =>
    let o := openForm fm s sl t g c
    if i.wellFormed && o.2.1.isEmpty && !o.2.2.blocked && o.2.2.group? sl.tid sl.gix == some o.1.g && ((o.2.2.slot).bind (·.trap)).isNone then some (o.1, o.2.2)
    else none
  | _, _ => none

/-- The slot after a word: word B is next, or the slot is closed (R33). -/
def slotAfter (sl : Option Slot) : Option Slot := sl.bind fun a => if a.other.isSome then some { a with lanes := [] } else none

/-- From `t` to `w` only the group `gix` of team `tid` changes, as `R` says: no memory, no other register of the machine, no other group
and nothing else of any team. -/
structure GroupStep (tid gix : Nat) (t w : State) (R : Group → Group → Prop) : Prop where
  rest : w = { t with teams := w.teams }
  teams : w.teams.map (fun m => { m with groups := [] }) = t.teams.map (fun m => { m with groups := [] })
  others : ∀ tid' gix', (tid' = tid → gix' ≠ gix) → w.group? tid' gix' = t.group? tid' gix'
  mine : ∀ g, t.group? tid gix = some g → ∃ g', w.group? tid gix = some g' ∧ R g g'

/-- A group after a word that the lanes `done` of the issue completed: such a lane stands at `go` and has issued (R64, R67), but for those of `stay`, which stand
still; GISSUE and GPASS count the word, with the slot's other word, which the lanes `past` issued (R35, R387), and the HOLD chain goes on or ends (R36). -/
def Moved (x : Issue) (past done stay : List Nat) (go : Nat → Dword) (second : Bool) (g g' : Group) : Prop :=
  g' = { g with
    lanes := g'.lanes, gissue := g.gissue + 1, gpass := g.gpass + BitVec.ofNat 64 (g.morePasses past x.lanes - (if past.isEmpty then 1 else 0))
    chain := if x.hold && !done.isEmpty then g.chain + 1 else if second then g.chain else 0
    tip := if x.hold && !done.isEmpty then (if 64 ≤ g.chain then g.tip else []) ++ done.filter (fun j => !(g'.lane j).retries) else if second then g.tip else [] } ∧
  g'.lanes.length = g.lanes.length ∧
  ∀ j l, g.lanes[j]? = some l →
    g'.lanes[j]? = some (if j ∈ done ∧ j ∉ stay then { l with pc := go j, lastHold := x.hold, retry := false } else l)

/-- From `w`, which holds the instruction's own effect, the word ends in `u`: the lanes move on, the group's counts, the passes of the cycle and the context's
progress grow, and the slot is handed on. Nothing else changes. -/
structure Settles (x : Issue) (stay : List Nat) (go : Nat → Dword) (w u : State) : Prop where
  slot : u.slot = slotAfter w.slot
  ctxs : u.ctxs = w.ctxs.map fun k => if k.ctx = x.c.ctx then { k with progress := k.progress + 1 } else k
  stalled : u.stalled = []
  urgent : u.urgent = w.claimAfter x.tid x.gix
  cores : ∀ n, u.core n = { w.core n with issue := (u.core n).issue }
  issue : ∀ cy g, w.cycle = some cy → w.group? x.tid x.gix = some g → u.cycle = some (cy.issues g x.lanes) ∧
    ∀ n, (u.core n).issue = (w.core n).issue + if x.core = n then BitVec.ofNat 64 ((cy.issues g x.lanes).passes - cy.passes) else 0
  group : GroupStep x.tid x.gix w { u with slot := w.slot, ctxs := w.ctxs, stalled := w.stalled, urgent := w.urgent, cores := w.cores, cycle := w.cycle }
    (Moved x w.pastLanes x.lanes stay go ((w.slot.map (·.second)).getD false))

/-! ### Results -/

/-- A lane that receives a value: it is written to the destination and pushed (R58, R63, R116). -/
def received (d : Dst) (v : Dword) (l : Lane) : Lane :=
  match d with
  | .none => l
  | .v n pair => { l.pushVal pair v with v := setReg l.v n.toNat pair v }
  | .nw pair => l.pushVal pair v
  | .k _ pair => l.pushVal pair v
  | .p n => (l.setPred n (v.getLsbD 0)).push (if v.getLsbD 0 then 1 else 0)

/-- The value a lane receives: its own, or with a uniform destination that of the lowest lane of act (R115). -/
def delivered (x : Issue) (d : Dst) (val : Nat → Dword) (j : Nat) : Dword :=
  match d with
  | .k _ _ => val x.low
  | _ => val j

/-- The uniform registers after a result (R115). -/
def uniformAfter (x : Issue) (d : Dst) (val : Nat → Dword) (k : Cells 32) : Cells 32 :=
  match d with
  | .k n pair => if x.act = [] then k else setReg k n.toNat pair (val x.low)
  | _ => k

/-- The lanes of act receive a result each and the flags are ORed into FPST; nothing else of the group changes. -/
def Received (x : Issue) (d : Dst) (val : Nat → Dword) (fl : FpFlags) (g g' : Group) : Prop :=
  g' = { g with lanes := g'.lanes, k := uniformAfter x d val g.k, fpst := g.fpst ||| fl } ∧
  g'.lanes.length = g.lanes.length ∧
  ∀ j l, g.lanes[j]? = some l → g'.lanes[j]? = some (if j ∈ x.act then received d (delivered x d val j) l else l)

/-- The instruction completes: its own effect is `R` on its group and nothing else, then the word settles at the successor; every byte
of memory is as it was. -/
def Completes (i : Instr) (s : State) (x : Issue) (t : State) (R : Group → Group → Prop) : Prop :=
  ∃ w u, exec i s = .next u ∧ GroupStep x.tid x.gix t w R ∧ Settles x [] (fun _ => x.next) w u ∧ ∀ a, Cells.get u.mem a = Cells.get t.mem a

/-- The instruction completes with the effect that `w` holds: its lanes move to `go`, but for those of `stay`, which the effect has dealt with. -/
def CompletesTo (i : Instr) (s : State) (x : Issue) (stay : List Nat) (go : Nat → Dword) (w : State) : Prop :=
  ∃ u, exec i s = .next u ∧ Settles x stay go w u ∧ ∀ a, Cells.get u.mem a = Cells.get w.mem a

/-- Where a lane goes: those of act to `target`, the others to the successor (R55). -/
def sends (x : Issue) (target : Nat → Dword) (j : Nat) : Dword := if j ∈ x.act then target j else x.next

/-- The instruction raises one fault on every lane of act and has no other effect (R180), unless entering its handler must wait for an arrival out of its
place in a log (R407). -/
def FaultsAll (i : Instr) (s : State) (x : Issue) (w : State) (f : Flt) : Prop :=
  (finish x { s := w, faults := x.all f }).blocked = false → exec i s = .next (finish x { s := w, faults := x.all f })

/-- Some lanes of the issue fault, each with its own fault, in `w`: the others go on to `go`, but for those of `stay`, the faulting ones stay where they are, and the faults
are taken (R170, R180), unless entering the handler must wait for an arrival out of its place in a log (R407). -/
def FaultsSome (i : Instr) (s : State) (x : Issue) (stay : List Nat) (w : State) (go : Nat → Dword) (fs : List (Nat × Flt)) : Prop :=
  ∃ m u, u = (State.takeFaults { (m.countCycle x.core x.tid x.gix x.lanes).tick x.c.ctx with stalled := [], urgent := w.claimAfter x.tid x.gix } x fs).endWord true ∧ (u.blocked = false → exec i s = .next u) ∧
    GroupStep x.tid x.gix w m (Moved x w.pastLanes (x.lanes.filter fun j => !(fs.any (·.1 == j))) stay go ((w.slot.map (·.second)).getD false))

/-- The instruction has had its effect, which `w` holds, on the lanes that do not fault, those of `stay` dealt with: it completes where no lane faults, and where some do
they stay with their faults while the others go on to the successor (R180). -/
def Ends (i : Instr) (s : State) (x : Issue) (stay : List Nat) (w : State) (fs : List (Nat × Flt)) : Prop :=
  (fs = [] → CompletesTo i s x stay (fun _ => x.next) w) ∧
  (fs ≠ [] → (w.slot.map (·.aFault)).getD false = false → FaultsSome i s x stay w (fun _ => x.next) fs)

/-- From `s` to `s'` only cached copies of translations, of code lines and of granules, the counts of messages, and the counter of free values may differ
(R193, R197, R383, R415). -/
def OnlyCaches (s s' : State) : Prop :=
  s' = { s with cores := s'.cores, dies := s'.dies, agents := s'.agents, ctxs := s'.ctxs, fresh := s'.fresh } ∧
  s'.agents.map (fun a => { a with buffer := [] }) = s.agents.map (fun a => { a with buffer := [] }) ∧
  s'.ctxs.map (fun c => { c with traffic := [] }) = s.ctxs.map (fun c => { c with traffic := [] }) ∧
  s'.dies.map (fun d => { d with tlb := [] }) = s.dies.map (fun d => { d with tlb := [] }) ∧
  ∀ n, { s'.core n with tlb := [], ilines := [] } = { s.core n with tlb := [], ilines := [] }

/-- Every register of every group keeps its value: general, predicate, uniform, rejoin, status, trap and scratch registers. -/
def RegsKept (t u : State) : Prop :=
  ∀ tid gix g, t.group? tid gix = some g → ∃ g', u.group? tid gix = some g' ∧ g'.k = g.k ∧ g'.j = g.j ∧ g'.fpst = g.fpst ∧ g'.grant = g.grant ∧
    g'.handler = g.handler ∧ g'.tcause = g.tcause ∧ g'.tmask = g.tmask ∧ g'.tpc = g.tpc ∧ g'.tword = g.tword ∧ g'.taddr = g.taddr ∧ g'.tscr = g.tscr ∧
    g'.lanes.length = g.lanes.length ∧ ∀ (j : Nat) (l : Lane), g.lanes[j]? = some l → ∃ l' : Lane, g'.lanes[j]? = some l' ∧ l'.v = l.v ∧ l'.p = l.p

/-! ### Integer results -/

/-- The number of elements of an operand, and element `e` of it (R92). -/
def IntTy.count (ty : IntTy) : Nat := if ty.width = 16 then 2 else 1
def IntTy.elem (ty : IntTy) (x : Dword) (e : Nat) : Nat := x.toNat / 2 ^ (ty.width * e) % 2 ^ ty.width
/-- Element `e` read as its type reads it. -/
def IntTy.val (ty : IntTy) (x : Dword) (e : Nat) : Int := ty.toInt (ty.elem x e)

/-- Every element of a result is the exact result, saturated or wrapped (R92, R120). -/
def IntTy.Result (ty : IntTy) (sat : Bool) (exact : Nat → Int) (r : Dword) : Prop :=
  ∀ e, e < ty.count → if sat then ty.val r e = max ty.lo (min ty.hi (exact e)) else ((ty.elem r e : Nat) : Int) = exact e % 2 ^ ty.width

end Sys2Proof
end

