-- ==== Sys2Proof/Certificates/Slice0/Obligations.lean ====
section
/-! DEFINITION. The statements about the machine that are to be proved. -/

open Sys2Proof Sys2Proof.Machine

/-! ### Class INT -/

/-- Table 5-4: the exact result of each arithmetic instruction, for each element. -/
def Sys2Proof.exactArith : Instr → Option (IntTy × Bool × Dst × (Issue → Nat → Nat → Int))
  | .iadd _ ty sat d a b => some (ty, sat, d, fun x j e => ty.val (x.int ty a j) e + ty.val (x.int ty b j) e)
  | .isub _ ty sat d a b => some (ty, sat, d, fun x j e => ty.val (x.int ty a j) e - ty.val (x.int ty b j) e)
  | .imul _ ty sat false d a b => some (ty, sat, d, fun x j e => ty.val (x.int ty a j) e * ty.val (x.int ty b j) e)
  | .imul _ ty _ true d a b => some (ty, false, d, fun x j e => ty.val (x.int ty a j) e * ty.val (x.int ty b j) e / 2 ^ ty.width)
  | .imad _ ty sat d a b c => some (ty, sat, d, fun x j e => ty.val (x.int ty a j) e * ty.val (x.int ty b j) e + ty.val (x.int ty c j) e)
  | .imin _ ty d a b => some (ty, false, d, fun x j e => min (ty.val (x.int ty a j) e) (ty.val (x.int ty b j) e))
  | .imax _ ty d a b => some (ty, false, d, fun x j e => max (ty.val (x.int ty a j) e) (ty.val (x.int ty b j) e))
  | .iabs _ ty sat d a => some (ty, sat, d, fun x j e => ((ty.val (x.int ty a j) e).natAbs : Int))
  | .and _ ty d a b => some (ty, false, d, fun x j e => ((ty.elem (x.int ty a j) e &&& ty.elem (x.int ty b j) e : Nat) : Int))
  | .or _ ty d a b => some (ty, false, d, fun x j e => ((ty.elem (x.int ty a j) e ||| ty.elem (x.int ty b j) e : Nat) : Int))
  | .xor _ ty d a b => some (ty, false, d, fun x j e => ((ty.elem (x.int ty a j) e ^^^ ty.elem (x.int ty b j) e : Nat) : Int))
  | .andn _ ty d a b => some (ty, false, d, fun x j e => ((ty.elem (x.int ty a j) e &&& (2 ^ ty.width - 1 - ty.elem (x.int ty b j) e) : Nat) : Int))
  | _ => none

/-- R120: iadd, isub, imul, imad, imin, imax, iabs, and, or, xor, andn give each lane of act the exact integer result of Table 5-4 for
each element, saturated or wrapped; the frame: no other register, flag or byte changes. -/
def Obligations.IntegerArithmetic : Prop :=
  ∀ i ty sat d exact s x t, exactArith i = some (ty, sat, d, exact) → opening i s = some (x, t) →
    ∃ val, (∀ j ∈ x.act, ty.Result sat (exact x j) (val j)) ∧ Completes i s x t (Received x d val 0)

/-- The amount by which element `e` is shifted (R121). -/
def Sys2Proof.shiftAmount (ty : IntTy) (b : Dword) (e : Nat) : Nat := if ty.width = 16 then b.toNat / 2 ^ (16 * e) % 2 ^ 16 else b.toNat % 2 ^ 32

/-- R121: shl gives `a * 2 ^ n` exactly, then saturated or wrapped; shr gives `floor (a / 2 ^ n)`, for every amount; rot moves bit `i` of an
element to bit `(i + n) mod w`. The frame: no other register, flag or byte changes. -/
def Obligations.IntegerShifts : Prop :=
  ∀ h ty d a b s x t,
    (∀ sat, opening (.shl h ty sat d a b) s = some (x, t) →
      ∃ val, (∀ j ∈ x.act, ty.Result sat (fun e => ty.val (x.int ty a j) e * 2 ^ shiftAmount ty (x.amount ty b j) e) (val j)) ∧
        Completes (.shl h ty sat d a b) s x t (Received x d val 0)) ∧
    (opening (.shr h ty d a b) s = some (x, t) →
      ∃ val, (∀ j ∈ x.act, ty.Result false (fun e => ty.val (x.int ty a j) e / 2 ^ shiftAmount ty (x.amount ty b j) e) (val j)) ∧
        Completes (.shr h ty d a b) s x t (Received x d val 0)) ∧
    (opening (.rot h ty d a b) s = some (x, t) →
      ∃ val, (∀ j ∈ x.act, ∀ e, e < ty.count → ∀ i, i < ty.width →
          (ty.elem (val j) e).testBit ((i + shiftAmount ty (x.amount ty b j) e) % ty.width) = (ty.elem (x.int ty a j) e).testBit i) ∧
        Completes (.rot h ty d a b) s x t (Received x d val 0))

/-- Bit `p` of an operand as `bfe` reads it: above the width, the sign of a signed type and 0 of a natural one. -/
def Sys2Proof.fieldBit (ty : IntTy) (a : Dword) (p : Nat) : Bool := if p < ty.width then a.getLsbD p else ty.signed && a.getLsbD (ty.width - 1)

/-- The start and the length of a field descriptor, the length at most the width (R122). -/
def Sys2Proof.fieldStart (f : Dword) : Nat := f.toNat % 128
def Sys2Proof.fieldLen (ty : IntTy) (f : Dword) : Nat := min (f.toNat / 128 % 128) ty.width

/-- R122, R123: bfe and bfi bit by bit, popc, clz and brev. The frame: no other register, flag or byte changes. -/
def Obligations.IntegerFieldsAndCounts : Prop :=
  ∀ h ty d a b c s x t,
    (opening (.bfe h ty d a b) s = some (x, t) →
      ∃ val, (∀ j ∈ x.act, ∀ i, i < ty.width → (val j).getLsbD i =
          (if i < fieldLen ty (x.int32 b j) then fieldBit ty (x.int ty a j) (fieldStart (x.int32 b j) + i)
           else ty.signed && (decide (0 < fieldLen ty (x.int32 b j)) &&
             fieldBit ty (x.int ty a j) (fieldStart (x.int32 b j) + fieldLen ty (x.int32 b j) - 1)))) ∧
        Completes (.bfe h ty d a b) s x t (Received x d val 0)) ∧
    (opening (.bfi h ty d a b c) s = some (x, t) →
      ∃ val, (∀ j ∈ x.act, ∀ i, i < ty.width → (val j).getLsbD i =
          (if fieldStart (x.int32 c j) ≤ i ∧ i < fieldStart (x.int32 c j) + fieldLen ty (x.int32 c j)
           then (x.int ty a j).getLsbD (i - fieldStart (x.int32 c j)) else (x.int ty b j).getLsbD i)) ∧
        Completes (.bfi h ty d a b c) s x t (Received x d val 0)) ∧
    (opening (.popc h ty d a) s = some (x, t) →
      ∃ val, (∀ j ∈ x.act, (val j).toNat = ((List.range ty.width).filter fun i => (x.int ty a j).getLsbD i).length) ∧
        Completes (.popc h ty d a) s x t (Received x d val 0)) ∧
    (opening (.clz h ty d a) s = some (x, t) →
      ∃ val, (∀ j ∈ x.act, (val j).toNat ≤ ty.width ∧ (∀ i, ty.width - (val j).toNat ≤ i → i < ty.width → (x.int ty a j).getLsbD i = false) ∧
          ((val j).toNat < ty.width → (x.int ty a j).getLsbD (ty.width - 1 - (val j).toNat) = true)) ∧
        Completes (.clz h ty d a) s x t (Received x d val 0)) ∧
    (opening (.brev h ty d a) s = some (x, t) →
      ∃ val, (∀ j ∈ x.act, ∀ i, i < ty.width → (val j).getLsbD i = (x.int ty a j).getLsbD (ty.width - 1 - i)) ∧
        Completes (.brev h ty d a) s x t (Received x d val 0))

/-- The six conditions of `icmp` on the operands as integers (R124). -/
def Sys2Proof.icondHolds (cond : ICond) (a b : Int) : Prop :=
  match cond with
  | .eq => a = b
  | .ne => a ≠ b
  | .lt => a < b
  | .le => a ≤ b
  | .gt => b < a
  | .ge => b ≤ a

/-- R124, R125, R126: icmp writes 1 where its condition holds of the operands read by type, else 0; sel writes SA where bit 0 of SC is 1 and SB
elsewhere; mov writes SA and movi its 32-bit immediate unchanged; lea writes `(a + (ext b << n)) mod 2^64`. The frame: no other register, flag or
byte changes. -/
def Sys2Proof.CompareSelectMoveLea : Prop :=
  ∀ h ty d a b c s x t,
    (∀ cond, opening (.icmp h cond ty d a b) s = some (x, t) →
      ∃ val, (∀ j ∈ x.act, (icondHolds cond (ty.val (x.int ty a j) 0) (ty.val (x.int ty b j) 0) ∧ val j = 1) ∨
          (¬ icondHolds cond (ty.val (x.int ty a j) 0) (ty.val (x.int ty b j) 0) ∧ val j = 0)) ∧
        Completes (.icmp h cond ty d a b) s x t (Received x d val 0)) ∧
    (opening (.sel h ty d a b c) s = some (x, t) →
      Completes (.sel h ty d a b c) s x t
        (Received x d (fun j => if (x.int32 c j).getLsbD 0 = true then x.int ty a j else x.int ty b j) 0)) ∧
    (opening (.mov h ty d a) s = some (x, t) → Completes (.mov h ty d a) s x t (Received x d (fun j => x.int ty a j) 0)) ∧
    (∀ imm, opening (.movi h d imm) s = some (x, t) → Completes (.movi h d imm) s x t (Received x d (fun _ => imm.zeroExtend 64) 0)) ∧
    (∀ sh, opening (.lea h sh ty d a b) s = some (x, t) →
      ∃ val, (∀ j ∈ x.act, ((val j).toNat : Int) =
          ((x.w64 a j).toNat + (if ty.signed then (x.w32 b j).toInt else ((x.w32 b j).toNat : Int)) * 2 ^ sh.toNat) % 2 ^ 64) ∧
        Completes (.lea h sh ty d a b) s x t (Received x d val 0))

/-- The sum of R127 in a lane: 0 to `2^33 - 1`. -/
def Sys2Proof.carrySum (x : Issue) (a b c : Src) (j : Nat) : Nat := (x.w32 a j).toNat + (x.w32 b j).toNat + (x.w32 c j).toNat % 2

/-- R127: iaddc writes and pushes the sum of SA, SB and the carry-in modulo `2^32`, and then writes its carry to the predicate of the variant,
under NW too; the carry is not pushed. The frame: nothing else of the group, and no byte, changes. -/
def Sys2Proof.AddWithCarry : Prop :=
  ∀ h co d a b c s x t, opening (.iaddc h co d a b c) s = some (x, t) →
    Completes (.iaddc h co d a b c) s x t fun g g' =>
      ∃ m, Received x d (fun j => BitVec.ofNat 64 (carrySum x a b c j % 2 ^ 32)) 0 g m ∧
        g' = { m with lanes := g'.lanes } ∧ g'.lanes.length = m.lanes.length ∧
        ∀ j l, m.lanes[j]? = some l → g'.lanes[j]? = some (if j ∈ x.act then l.setPred co (decide (2 ^ 32 ≤ carrySum x a b c j)) else l)

/-- R124 to R127: icmp writes 1 where its condition holds of the operands read by type, else 0; sel writes SA where its predicate reads 1 and SB elsewhere;
mov writes SA and movi its 32-bit immediate unchanged; lea writes `(a + (ext b << n)) mod 2^64`; iaddc writes and pushes the sum with the carry-in modulo
`2^32` and writes the carry to its predicate, unpushed. The frame: no other register, predicate or flag and no byte changes. -/
def Obligations.ComparesMovesAndCarries : Prop := CompareSelectMoveLea ∧ AddWithCarry

/-- R116, R63, R62: a predicate written reads back as written, p7 reads 1 whatever is written, and the other predicates are as they were; a 32-bit
result enters l0 and the latches move up; a 64-bit result leaves its low half in l0 and its high half in l1. -/
def Sys2Proof.PredicateAndLatchWrites : Prop :=
  (∀ (l : Lane) n b m, (l.setPred n b).pred m = (if m = 7 then true else if m = n then b else l.pred m)) ∧
  (∀ (l : Lane) n b, (l.setPred n b).latches = l.latches ∧ (l.setPred n b).v = l.v ∧ (l.setPred n b).pc = l.pc) ∧
  (∀ (l : Lane) d v, (d = .nw false ∨ (∃ n, d = .v n false) ∨ ∃ n, d = .k n false) →
    (received d v l).latches = (⟨v.extractLsb' 0 32, true, none⟩ :: l.latches).take 4) ∧
  (∀ (l : Lane) d v, (d = .nw true ∨ (∃ n, d = .v n true) ∨ ∃ n, d = .k n true) →
    (received d v l).latches = (⟨v.extractLsb' 0 32, true, none⟩ :: ⟨v.extractLsb' 32 32, true, none⟩ :: l.latches).take 4) ∧
  (∀ (l : Lane) n v, (received (.p n) v l).latches = (⟨if v.getLsbD 0 then 1 else 0, true, none⟩ :: l.latches).take 4) ∧
  (∀ (l : Lane) d v, (∀ n pair, d ≠ .v n pair) → (received d v l).v = l.v)

/-- Registers as they read after one, or an even pair, is written (R66, R113): the written ones hold the halves of the value and every other register
reads as before. -/
def Sys2Proof.RegisterWrites : Prop :=
  ∀ (f : Cells 32) n pair v, Cells.wf f = true →
    Cells.wf (setReg f n pair v) = true ∧ getReg (setReg f n pair v) n pair = (if pair then v else v &&& 0xFFFFFFFF) ∧
    ∀ m, m ≠ n → (pair = true → m ≠ n + 1) → Cells.get (setReg f n pair v) m = Cells.get f m

/-- R58, R63, R113, R116: a predicate written reads back as written, p7 reads 1 whatever is written, and the other predicates stand; a 32-bit result enters
l0 and the latches move up, a 64-bit result leaves its low half in l0 and its high half in l1, a predicate result pushes 0 or 1; a register or an even pair
that is written reads back as written, and every other register reads as before. -/
def Obligations.RegisterFileWrites : Prop := PredicateAndLatchWrites ∧ RegisterWrites

/-- Table 5-2: the special registers that are not counters. -/
def Sys2Proof.specialValue (s : State) (x : Issue) (j n : Nat) : Nat :=
  let p := ((s.launch? x.team.lid).map (·.pkt)).getD ⟨1, false, false, false, false, 0, 0, 1, 1, 1, 0, 0, 0, 0, 0, 0, 0, 0⟩
  let r := s.rankOf x.c
  [j, x.g.grant, x.g.gix, x.team.t % max p.nx 1, x.team.t / max p.nx 1 % max p.ny 1, x.team.t / (max p.nx 1 * max p.ny 1), p.nx, p.ny, p.nz, x.g.role,
    x.team.ngroups, x.core % 48, x.core / 48 % 4, x.core / 192, 0, 0, (if x.g.grch then 1 else 0), r % max x.c.nrank.1 1,
    r / max x.c.nrank.1 1 % max x.c.nrank.2.1 1, r / (max x.c.nrank.1 1 * max x.c.nrank.2.1 1), x.c.nrank.1, x.c.nrank.2.1, x.c.nrank.2.2].getD n 0

/-- R114, R118: sreg gives the value of Table 5-2. FPST and FPSTC give the flag word, and FPSTC then clears it in the same step (with no lane in act
nothing happens). The three counter numbers give the core's cycle counter, which has moved on by a free amount since it was last sampled: CYCLO its low
half, CYCHI its high half, CYCLE all of it; the core's counter then holds that sample. The frame: nothing else changes.
The model's choice, log 17: the cycle counter's value, which moves on by a free amount. -/
def Obligations.SpecialRegisters : Prop :=
  ∀ h d n s x t, opening (.sreg h d (.imm n)) s = some (x, t) →
    (n.toNat ≤ 0x16 → n.toNat ≠ 0x0E → n.toNat ≠ 0x0F →
      Completes (.sreg h d (.imm n)) s x t (Received x d (fun j => BitVec.ofNat 64 (specialValue t x j n.toNat)) 0)) ∧
    (n = 0x17 → Completes (.sreg h d (.imm n)) s x t (Received x d (fun _ => x.g.fpst.zeroExtend 64) 0)) ∧
    (n = 0x18 → Completes (.sreg h d (.imm n)) s x t fun g g' =>
      ∃ m, Received x d (fun _ => x.g.fpst.zeroExtend 64) 0 g m ∧ g' = { m with fpst := if x.act = [] then m.fpst else 0 }) ∧
    ((n = 0x0E ∨ n = 0x0F ∨ n = 0x19) → ∃ c w u, exec (.sreg h d (.imm n)) s = .next u ∧
      c = (t.core x.core).cycle + BitVec.ofNat 64 (Config.freeNat t.fresh) ∧ (u.core x.core).cycle = c ∧ u.mem = t.mem ∧
      GroupStep x.tid x.gix { (t.modCore x.core fun k => { k with cycle := c }) with fresh := t.fresh + 1 } w
        (Received x d (fun _ => if n = 0x0E then c &&& 0xFFFFFFFF else if n = 0x0F then c >>> 32 else c) 0) ∧
      Settles x [] (fun _ => x.next) w u)

/-! ### Classes FP, CVT and SFU -/

/-- Element `e` of the bits of an operand, and the result that elements make, with their flags ORed (R90). -/
def Sys2Proof.fpElem (fm : FFmt) (x e : Nat) : Nat :=
  match fm with
  | .f32 => x
  | _ => x / 65536 ^ e % 65536
def Sys2Proof.fpJoin (fm : FFmt) (el : Nat → FRes) : FRes :=
  match fm with
  | .f32 => el 0
  | _ => ⟨(el 0).bits + 65536 * (el 1).bits, (el 0).flags ||| (el 1).flags⟩

/-- The flags of every lane of act, ORed (R90). -/
def Sys2Proof.flagsOf (x : Issue) (f : Nat → FRes) : FpFlags := x.act.foldl (fun fl j => fl ||| (f j).flags) 0

/-- Element `e` of a source as the instruction reads it, subnormals as zero under ftz (R88). -/
def Sys2Proof.operand (fm : FFmt) (ftz : Bool) (x : Issue) (a : Src) (j e : Nat) : Fp := Fp.read fm.elem ftz (fpElem fm (x.fbits fm a j) e)

/-- The result and flags of each element of an arithmetic instruction of class FP before clamping (Table 5-7). -/
def Sys2Proof.floatElement : Instr → Option (FFmt × Bool × Dst × (Issue → Nat → Nat → FRes))
  | .fadd _ r z cl d a b => some (.f32, cl, d, fun x j e => Fp.add .f32 r z (operand .f32 z x a j e) (operand .f32 z x b j e))
  | .fsub _ r z cl d a b => some (.f32, cl, d, fun x j e => Fp.add .f32 r z (operand .f32 z x a j e) (operand .f32 z x b j e).negate)
  | .fmul _ r z cl d a b => some (.f32, cl, d, fun x j e => Fp.mul .f32 r z (operand .f32 z x a j e) (operand .f32 z x b j e))
  | .ffma _ r z cl d a b c =>
    some (.f32, cl, d, fun x j e => Fp.fma .f32 r z (operand .f32 z x a j e) (operand .f32 z x b j e) (operand .f32 z x c j e))
  | .fadd2 _ fm r z cl d a b => some (fm, cl, d, fun x j e => Fp.add fm.elem r z (operand fm z x a j e) (operand fm z x b j e))
  | .fmul2 _ fm r z cl d a b => some (fm, cl, d, fun x j e => Fp.mul fm.elem r z (operand fm z x a j e) (operand fm z x b j e))
  | .ffma2 _ fm r z cl d a b c =>
    some (fm, cl, d, fun x j e => Fp.fma fm.elem r z (operand fm z x a j e) (operand fm z x b j e) (operand fm z x c j e))
  | .fmin _ z cl d a b => some (.f32, cl, d, fun x j e => Fp.minMax .f32 false (operand .f32 z x a j e) (operand .f32 z x b j e))
  | .fmax _ z cl d a b => some (.f32, cl, d, fun x j e => Fp.minMax .f32 true (operand .f32 z x a j e) (operand .f32 z x b j e))
  | .fcmp _ cond z d a b => some (.f32, false, d, fun x j e =>
      ⟨if (Fp.compare cond (operand .f32 z x a j e) (operand .f32 z x b j e)).1 then 1 else 0, (Fp.compare cond (operand .f32 z x a j e) (operand .f32 z x b j e)).2⟩)
  | .fclass _ z d a => some (.f32, false, d, fun x j e => ⟨Fp.classMask (operand .f32 z x a j e), 0⟩)
  | .frnd _ r z cl d a => some (.f32, cl, d, fun x j e => Fp.integral .f32 r (operand .f32 z x a j e))
  | .fscale _ r z cl d a b => some (.f32, cl, d, fun x j e => Fp.scale .f32 r z (operand .f32 z x a j e) (x.w32 b j).toInt)
  | _ => none

/-- fadd, fsub, fmul, ffma, fadd2, fmul2, ffma2, fmin, fmax, fcmp, fclass, frnd and fscale give each lane of act the operation's result on each
element of its operands, clamped after rounding where the word says so, and OR the flags of every element of every lane into FPST. The frame: no other
register, no other flag and no byte changes. -/
def Obligations.FloatResults : Prop :=
  ∀ i fm cl d el s x t, floatElement i = some (fm, cl, d, el) → opening i s = some (x, t) →
    Completes i s x t (Received x d (fun j => BitVec.ofNat 64 (fpJoin fm fun e => clampRes fm.elem cl (el x j e)).bits)
      (flagsOf x fun j => fpJoin fm fun e => clampRes fm.elem cl (el x j e)))

/-- A magnitude `m * 2 ^ e` as a multiple of `2 ^ lo`, and how far apart two magnitudes are. -/
def Sys2Proof.scaled (m : Nat) (e lo : Int) : Nat := m * 2 ^ (e - lo).toNat
def Sys2Proof.apart (a b : Nat) : Nat := (a - b) + (b - a)

/-- R87: the rounded result of a real value keeps its sign. A finite result is, among all the finite numbers of the format, the nearest (of two equally
near the even one) under rne, the least at or above in the direction of rpi and rmi, and the greatest at or below in magnitude otherwise; NX says whether
it differs from the value. An infinity arises only above every finite number, under the roundings of Table 4-2, with OF and NX. It is never a NaN. -/
def Sys2Proof.CorrectRounding : Prop :=
  ∀ (f : FpFmt) (r : Rnd) (n : Bool) (m : Nat) (e : Int), 0 < m →
    match Fp.read f false (roundTo f r false n m e false).bits with
    | .fin k m' e' =>
      k = n ∧ ((roundTo f r false n m e false).flags.getLsbD 0 = true ↔ scaled m' e' (min e f.qmin) ≠ scaled m e (min e f.qmin)) ∧
      ∀ b kz mz ez, Fp.read f false b = .fin kz mz ez →
        let v := scaled m e (min e f.qmin)
        let y := scaled m' e' (min e f.qmin)
        let z := scaled mz ez (min e f.qmin)
        if r = .rne then apart y v ≤ apart z v ∧ (apart y v = apart z v → y = z ∨ m' % 2 = 0)
        else if r = (if n then .rmi else .rpi) then v ≤ y ∧ (v ≤ z → y ≤ z)
        else y ≤ v ∧ (z ≤ v → z ≤ y)
    | .inf k =>
      k = n ∧ (roundTo f r false n m e false).flags = FpFlags.of ||| FpFlags.nx ∧ (r = .rne ∨ r = if n then .rmi else .rpi) ∧
      ∀ b kz mz ez, Fp.read f false b = .fin kz mz ez → scaled mz ez (min e f.qmin) < scaled m e (min e f.qmin)
    | .nan _ => False

/-- R130: a sum, a product and a product plus a term of finite operands are rounded once from the exact result. -/
def Sys2Proof.RoundedOnce : Prop :=
  (∀ f r z n m e n' m' e', Fp.signedAt n m e (min e e') + Fp.signedAt n' m' e' (min e e') ≠ 0 →
    Fp.add f r z (.fin n m e) (.fin n' m' e') =
      roundTo f r z (decide (Fp.signedAt n m e (min e e') + Fp.signedAt n' m' e' (min e e') < 0))
        (Fp.signedAt n m e (min e e') + Fp.signedAt n' m' e' (min e e')).natAbs (min e e') false) ∧
  (∀ f r z n m e n' m' e', Fp.mul f r z (.fin n m e) (.fin n' m' e') = roundTo f r z (n != n') (m * m') (e + e') false) ∧
  (∀ f r z n m e n' m' e' c, c.isNan = false → Fp.fma f r z (.fin n m e) (.fin n' m' e') c = Fp.add f r z (.fin (n != n') (m * m') (e + e')) c)

/-- R131: an exact zero sum of finite terms is +0 under rne, rtz and rpi and -0 under rmi, unless both terms are zeros of one sign, which it keeps; a
product has the exclusive OR of its operands' signs; a result keeps the sign of the value that is rounded, flushed or not. -/
def Sys2Proof.SignsOfZeros : Prop :=
  (∀ f r z n m e n' m' e', Fp.signedAt n m e (min e e') + Fp.signedAt n' m' e' (min e e') = 0 →
    Fp.add f r z (.fin n m e) (.fin n' m' e') =
      ⟨f.zero (if m = 0 ∧ m' = 0 ∧ n = n' then n else decide (r = .rmi)), 0⟩) ∧
  (∀ f r z n m e n' m' e', m = 0 ∨ m' = 0 → Fp.mul f r z (.fin n m e) (.fin n' m' e') = ⟨f.zero (n != n'), 0⟩) ∧
  (∀ f r z n m e n' m' e', (Fp.mul f r z (.fin n m e) (.fin n' m' e')).bits / f.signBit % 2 = if n != n' then 1 else 0) ∧
  (∀ f r z n m e, (roundTo f r z n m e false).bits / f.signBit % 2 = if n then 1 else 0)

/-- R86: a NaN operand, `0 × ∞` and `∞ - ∞` give the canonical NaN; NV is set for the last two and for a signalling NaN, and a quiet NaN sets no
flag. ffma is invalid for `0 × ∞` whatever the third operand is. -/
def Sys2Proof.InvalidOperations : Prop :=
  (∀ f r z a b, (a.isNan = true ∨ b.isNan = true) →
    Fp.add f r z a b = ⟨f.nan, if a.isSignalling || b.isSignalling then FpFlags.nv else 0⟩) ∧
  (∀ f r z a b, (a.isNan = true ∨ b.isNan = true) →
    Fp.mul f r z a b = ⟨f.nan, if a.isSignalling || b.isSignalling then FpFlags.nv else 0⟩) ∧
  (∀ f r z n, Fp.add f r z (.inf n) (.inf !n) = ⟨f.nan, FpFlags.nv⟩) ∧
  (∀ f r z n k e, Fp.mul f r z (.inf n) (.fin k 0 e) = ⟨f.nan, FpFlags.nv⟩ ∧ Fp.mul f r z (.fin k 0 e) (.inf n) = ⟨f.nan, FpFlags.nv⟩) ∧
  (∀ f r z n k e c, Fp.fma f r z (.inf n) (.fin k 0 e) c = ⟨f.nan, FpFlags.nv⟩) ∧
  (∀ f r z a b c, a.isNan = true → (Fp.fma f r z a b c).bits = f.nan)

/-- R133, R134: fmin and fmax return the other operand where one is a NaN, the canonical NaN where both are, and the lesser or greater number, -0 below
+0; fcmp gives Table 5-8 where an operand is a NaN, -0 equals +0, and a signalling NaN sets NV under every condition. -/
def Sys2Proof.MinMaxAndUnordered : Prop :=
  (∀ f mx a b, a.isNan = true → b.isNan = false → (Fp.minMax f mx a b).bits = b.write f ∧ (Fp.minMax f mx b a).bits = b.write f) ∧
  (∀ f mx a b, a.isNan = true → b.isNan = true → (Fp.minMax f mx a b).bits = f.nan) ∧
  (∀ f a b, a.isNan = false → b.isNan = false → Fp.less a b = true →
    (Fp.minMax f false a b).bits = a.write f ∧ (Fp.minMax f false b a).bits = a.write f ∧
    (Fp.minMax f true a b).bits = b.write f ∧ (Fp.minMax f true b a).bits = b.write f) ∧
  (∀ e e', Fp.less (.fin true 0 e) (.fin false 0 e') = true ∧ Fp.less (.fin false 0 e') (.fin true 0 e) = false) ∧
  (∀ f mx a b, (Fp.minMax f mx a b).flags = if a.isSignalling || b.isSignalling then FpFlags.nv else 0) ∧
  (∀ cond a b, (a.isNan = true ∨ b.isNan = true) →
    Fp.compare cond a b = (cond == .ne || cond == .un,
      if a.isSignalling || b.isSignalling || cond == .lt || cond == .le || cond == .gt || cond == .ge then FpFlags.nv else 0)) ∧
  (∀ n e n' e', (Fp.compare .eq (.fin n 0 e) (.fin n' 0 e')).1 = true ∧ (Fp.compare .lt (.fin n 0 e) (.fin n' 0 e')).1 = false)

/-- R86, R87, R91, R130, R131, R134: sums, products and products plus a term are rounded once from the exact result, to the nearest number of the format
(rne) or to the next one on the side that the code names, with NX exactly where the result differs and the results of Table 4-2 on overflow; the signs of zero
results; the invalid operations and what NaNs give; minima and maxima with -0 below +0; unordered comparisons. -/
def Obligations.FloatArithmetic : Prop := CorrectRounding ∧ RoundedOnce ∧ SignsOfZeros ∧ InvalidOperations ∧ MinMaxAndUnordered

/-- The results of class CVT that need no format word (Table 6-2, R141 to R143). -/
def Sys2Proof.conversionRule : Instr → Option (Dst × (Issue → Nat → FRes))
  | .cvt _ dt st r d a => some (d, fun x j => convert dt st r (x.typed st a j))
  | .cvti _ dt st r d a b => some (d, fun x j =>
      match st.readExact (x.typed st a j) with
      | .fin k m e => convertTo dt r (.fin k m (e + (x.w32 b j).toInt))
      | y => convertTo dt r y)
  | .pk16 _ dt st r d a b => some (d, fun x j =>
      ⟨(convert dt st r (x.typed st a j)).bits % 65536 + 65536 * ((convert dt st r (x.typed st b j)).bits % 65536),
        (convert dt st r (x.typed st a j)).flags ||| (convert dt st r (x.typed st b j)).flags⟩)
  | .upk16 _ dt st d a b => some (d, fun x j => convert dt st .rne (x.typed st a j >>> (16 * b.immVal.toNat)))
  | .rcps _ fm z d a => some (d, fun x j => fpJoin fm fun e => Sfu.rcps fm.elem z (operand fm z x a j e))
  | .rsqs _ fm z d a => some (d, fun x j => fpJoin fm fun e => Sfu.rsqs fm.elem z (operand fm z x a j e))
  | .ex2 _ fm z d a => some (d, fun x j => fpJoin fm fun e => Sfu.ex2 fm.elem z (operand fm z x a j e))
  | .lg2 _ fm z d a => some (d, fun x j => fpJoin fm fun e => Sfu.lg2 fm.elem z (operand fm z x a j e))
  | .sinp _ fm z d a => some (d, fun x j => fpJoin fm fun e => Sfu.sinp fm.elem z (operand fm z x a j e))
  | .cosp _ fm z d a => some (d, fun x j => fpJoin fm fun e => Sfu.cosp fm.elem z (operand fm z x a j e))
  | .tnh _ fm z d a => some (d, fun x j => fpJoin fm fun e => Sfu.tnh fm.elem z (operand fm z x a j e))
  | _ => none

/-- cvt, cvti, pk16, upk16 give each lane of act the conversion of its source, and rcps, rsqs, ex2, lg2, sinp, cosp and tnh the function of each
element of it; the flags of every lane are ORed into FPST. The frame: no other register, no other flag and no byte changes. -/
def Obligations.ConversionAndFunctionResults : Prop :=
  ∀ i d f s x t, conversionRule i = some (d, f) → opening i s = some (x, t) →
    Completes i s x t (Received x d (fun j => BitVec.ofNat 64 (f x j).bits) (flagsOf x (f x)))

/-- Whether `y` is the integer that a rounding code gives for `v / u` (Table 3-7). -/
def Sys2Proof.RoundsToInt (r : Rnd) (v u y : Int) : Prop :=
  match r with
  | .rne => 2 * (v - y * u).natAbs ≤ u ∧ (2 * ((v - y * u).natAbs : Int) = u → y % 2 = 0)
  | .rtz => (v - y * u).natAbs < u ∧ (y * u).natAbs ≤ v.natAbs
  | .rpi => v ≤ y * u ∧ y * u - v < u
  | .rmi => y * u ≤ v ∧ v - y * u < u

/-- Conversions to an integer type: a NaN gives 0 and NV, an infinity the bound on its side and NV; a finite value gives the integer that the rounding
code selects, with NX where that differs from the value, or where it lies outside the range the bound on its side, with NV; an integer in the range that needs no rounding is given
exactly and without a flag. Integers convert to integers by clamping, without a flag. -/
def Obligations.ConversionToIntegers : Prop :=
  ∀ (dt : Ty), dt.isInt = true →
    (∀ r sg, convertTo dt r (.nan sg) = ⟨0, FpFlags.nv⟩) ∧
    (∀ r n, dt.readInt (BitVec.ofNat 64 (convertTo dt r (.inf n)).bits) = (if n then dt.lo else dt.hi) ∧ (convertTo dt r (.inf n)).flags = FpFlags.nv) ∧
    (∀ r n m e, dt.lo ≤ dt.readInt (BitVec.ofNat 64 (convertTo dt r (.fin n m e)).bits) ∧
      dt.readInt (BitVec.ofNat 64 (convertTo dt r (.fin n m e)).bits) ≤ dt.hi) ∧
    (∀ r n m e,
      let u : Int := 2 ^ (0 - min e 0).toNat
      let v : Int := Fp.signedAt n m e (min e 0)
      let y := dt.readInt (BitVec.ofNat 64 (convertTo dt r (.fin n m e)).bits)
      (dt.hi * u < v → y = dt.hi) ∧ (v < dt.lo * u → y = dt.lo) ∧
      ((convertTo dt r (.fin n m e)).flags = FpFlags.nv ∧ (dt.hi * u < v ∨ v < dt.lo * u) ∨
        (convertTo dt r (.fin n m e)).flags = (if v = y * u then 0 else FpFlags.nx) ∧ RoundsToInt r v u y)) ∧
    (∀ r (v : Int), dt.lo ≤ v → v ≤ dt.hi → convertTo dt r (.fin (decide (v < 0)) v.natAbs 0) = ⟨dt.writeInt v, 0⟩ ∧
      dt.readInt (BitVec.ofNat 64 (dt.writeInt v)) = v) ∧
    (∀ (st : Ty) r x, st.isInt = true → (convert dt st r x).flags = 0 ∧
      dt.readInt (BitVec.ofNat 64 (convert dt st r x).bits) = max dt.lo (min dt.hi (st.readInt x)))

/-- The bits of 1 in a format. -/
def Sys2Proof.oneBits (f : FpFmt) : Nat := f.bias * 2 ^ f.fbits

/-- Table 4-5 and Table 4-6, row by row: the results and the flags of rcps and rsqs for zeros, infinities, negative numbers and NaNs, and those of ex2 at infinities
and zeros, lg2 at zeros, negative numbers, infinities and every form of 1, sinp at zeros, integers and infinities, cosp at every number that lies half way between two
integers and at infinities, and tnh at zeros and infinities. -/
def Obligations.SpecialInputs : Prop :=
  ∀ f z,
    (∀ n e, Sfu.rcps f z (.fin n 0 e) = ⟨f.inf n, FpFlags.dz⟩ ∧ Sfu.rsqs f z (.fin n 0 e) = ⟨f.inf n, FpFlags.dz⟩) ∧
    (∀ n, Sfu.rcps f z (.inf n) = ⟨f.zero n, 0⟩) ∧
    Sfu.rsqs f z (.inf false) = ⟨f.zero false, 0⟩ ∧ Sfu.rsqs f z (.inf true) = ⟨f.nan, FpFlags.nv⟩ ∧
    (∀ m e, m ≠ 0 → Sfu.rsqs f z (.fin true m e) = ⟨f.nan, FpFlags.nv⟩) ∧
    (∀ m e, m ≠ 0 → (Sfu.rcps f z (.fin true m e)).bits = (Sfu.rcps f z (.fin false m e)).bits + f.signBit ∧
      (Sfu.rcps f z (.fin true m e)).flags = (Sfu.rcps f z (.fin false m e)).flags) ∧
    (∀ g, g ∈ [Sfu.rcps, Sfu.rsqs, Sfu.ex2, Sfu.lg2, Sfu.sinp, Sfu.cosp, Sfu.tnh] → ∀ sg, g f z (.nan sg) = ⟨f.nan, if sg then FpFlags.nv else 0⟩) ∧
    Sfu.ex2 f z (.inf true) = ⟨f.zero false, 0⟩ ∧ Sfu.ex2 f z (.inf false) = ⟨f.inf false, 0⟩ ∧ (∀ n e, Sfu.ex2 f z (.fin n 0 e) = ⟨oneBits f, 0⟩) ∧
    (∀ n e, Sfu.lg2 f z (.fin n 0 e) = ⟨f.inf true, FpFlags.dz⟩) ∧ Sfu.lg2 f z (.inf true) = ⟨f.nan, FpFlags.nv⟩ ∧
    Sfu.lg2 f z (.inf false) = ⟨f.inf false, 0⟩ ∧ (∀ m e, m ≠ 0 → Sfu.lg2 f z (.fin true m e) = ⟨f.nan, FpFlags.nv⟩) ∧
    (∀ k : Nat, Sfu.lg2 f z (.fin false (2 ^ k) (0 - k)) = ⟨f.zero false, 0⟩) ∧
    (∀ n, Sfu.sinp f z (.inf n) = ⟨f.nan, FpFlags.nv⟩ ∧ Sfu.cosp f z (.inf n) = ⟨f.nan, FpFlags.nv⟩) ∧
    (∀ n m e, (0 ≤ e ∨ m % 2 ^ (0 - e).toNat = 0) → Sfu.sinp f z (.fin n m e) = ⟨f.zero n, 0⟩) ∧
    (∀ n m e (k : Nat), e < 0 → 2 * m = (2 * k + 1) * 2 ^ (0 - e).toNat → Sfu.cosp f z (.fin n m e) = ⟨f.zero false, 0⟩) ∧
    (∀ n e, Sfu.tnh f z (.fin n 0 e) = ⟨f.zero n, 0⟩) ∧ Sfu.tnh f z (.inf false) = ⟨oneBits f, 0⟩ ∧ Sfu.tnh f z (.inf true) = ⟨oneBits f + f.signBit, 0⟩

/-- The code of an outlier of `qnt`: OUT set and the code 0. -/
def Sys2Proof.qntOut : Nat := 256

/-- R144, R145, R146: where the format words of the lanes of act are valid, of KIND 3 and agree, qnt gives each lane the word of R100 and dqnt the
value of R145, with their flags; else either raises FMTDIV on every lane of act and has no effect. dqnt gives +0 and no flag where OUT is set; qnt gives
an outlier and NV where the scale is not positive and finite. The frame: no other register and no byte changes. -/
def Obligations.Quantisation : Prop :=
  ∀ h d a b c s x t,
    (opening (.qnt h d a b c) s = some (x, t) → formatFaults false x b = [] →
      Completes (.qnt h d a b c) s x t (Received x d
        (fun j => BitVec.ofNat 64 (quantise (x.c.cmpTable (fmtTable (x.w32 b j))) (x.f32 a j) ((x.words c 2 j).getD 0 0) ((x.words c 2 j).getD 1 0)).bits)
        (flagsOf x fun j => quantise (x.c.cmpTable (fmtTable (x.w32 b j))) (x.f32 a j) ((x.words c 2 j).getD 0 0) ((x.words c 2 j).getD 1 0)))) ∧
    (∀ dt, opening (.dqnt h dt d a b c) s = some (x, t) → formatFaults true x b = [] →
      Completes (.dqnt h dt d a b c) s x t (Received x d
        (fun j => BitVec.ofNat 64 (dequantise dt (x.c.cmpTable (fmtTable (x.w32 b j))) (x.w32 a j) (x.w32 b j) (x.f32 c j)).bits)
        (flagsOf x fun j => dequantise dt (x.c.cmpTable (fmtTable (x.w32 b j))) (x.w32 a j) (x.w32 b j) (x.f32 c j)))) ∧
    (∀ q y, formatFaults q x y = if (∃ j ∈ x.act, fmtInvalid q (x.w32 y j) = true ∨ fmtKind (x.w32 y j) ≠ 3 ∨ fmtKey q (x.w32 y j) ≠ fmtKey q (x.w32 y x.low))
      then x.act.map fun j => (j, Flt.mk' Code.fmtdiv) else []) ∧
    (opening (.qnt h d a b c) s = some (x, t) → formatFaults false x b ≠ [] →
      exec (.qnt h d a b c) s = .next (finish x { s := t, faults := x.all (Flt.mk' Code.fmtdiv) })) ∧
    (∀ dt, opening (.dqnt h dt d a b c) s = some (x, t) → formatFaults true x b ≠ [] →
      exec (.dqnt h dt d a b c) s = .next (finish x { s := t, faults := x.all (Flt.mk' Code.fmtdiv) })) ∧
    (∀ dt tab q fw sc, q.getLsbD 8 = true → dequantise dt tab q fw sc = ⟨0, 0⟩) ∧
    (∀ tab v sc th, scaleOk (Fp.read .f32 false sc.toNat) = false → quantise tab v sc th = ⟨qntOut, FpFlags.nv⟩)

/-- R147, R148, R149: bpt gives each lane the plane word of its aligned run of 32 lanes; bpr puts bit `j mod 32` of the plane word into the code; olst
gives the i-th lane of act the entries 2i and 2i + 1 of the outlier list, rounded to BF16, and writes the length of the list to kN, which is not pushed
and is not written where act is empty. The frame: no other register, no flag and no byte changes. -/
def Obligations.PlanesAndOutliers : Prop :=
  ∀ h d a b c s x t,
    (opening (.bpt h d a b) s = some (x, t) → ∃ val, Completes (.bpt h d a b) s x t (Received x d val 0) ∧
      ∀ j ∈ x.act, ∀ i, (val j).getLsbD i =
        (decide (i < 32) && (x.act.contains (j / 32 * 32 + i) && (x.w32 a (j / 32 * 32 + i)).getLsbD (7 - b.immVal.toNat)))) ∧
    (opening (.bpr h d a b c) s = some (x, t) → c.immVal.toNat ≤ 7 → ∃ val, Completes (.bpr h d a b c) s x t (Received x d val 0) ∧
      ∀ j ∈ x.act, ∀ i, (val j).getLsbD i =
        (if i = 7 - c.immVal.toNat then (x.w32 b j).getLsbD (j % 32) else decide (i < 8) && (x.w32 a j).getLsbD i)) ∧
    (∀ n ng pr, opening (.olst h d a b (.k n ng pr)) s = some (x, t) → ∃ list val,
      list = (x.act.filter fun m => (x.w32 b m).getLsbD 8).map (fun m => narrow .bf16 (x.f32 a m).toNat) ∧
      (∀ (i j : Nat), x.act[i]? = some j → val j = BitVec.ofNat 64 (list.getD (2 * i) 0 + 65536 * list.getD (2 * i + 1) 0)) ∧
      Completes (.olst h d a b (.k n ng pr)) s x t fun g g' => ∃ m, Received x d val 0 g m ∧
        g' = if x.act = [] then m else { m with k := Cells.set m.k n.toNat (BitVec.ofNat 32 list.length) })

/-! ### Class XLN -/

/-- The run of a lane (R159): its first lane and one past its last. -/
def Sys2Proof.runStart (run : Run) (g j : Nat) : Nat := if Xln.runLen run g = 0 then 0 else j / Xln.runLen run g * Xln.runLen run g
def Sys2Proof.runEnd (run : Run) (g j : Nat) : Nat := min g (runStart run g j + Xln.runLen run g)
/-- The lanes of act in the run of a lane. -/
def Sys2Proof.inRun (x : Issue) (run : Run) (j : Nat) : List Nat := x.act.filter fun m => decide (runStart run x.g.grant j ≤ m ∧ m < runEnd run x.g.grant j)

/-- R160 to R163: perm, shfl, bcst and l2k give each lane of act the SA register of its source lane as it stood before the issue slot, whatever that
lane's state; perm and l2k take the index modulo the grant, bcst modulo the size of the run, and shfl keeps to the run. The frame: no other register, no
flag and no byte changes. -/
def Obligations.CrossLaneMoves : Prop :=
  ∀ h ty d a b s x t,
    (opening (.perm h ty d a b) s = some (x, t) →
      Completes (.perm h ty d a b) s x t (Received x d (fun j => x.far a ((x.w32 b j).toNat % x.g.grant)) 0)) ∧
    (opening (.l2k h ty d a b) s = some (x, t) →
      Completes (.l2k h ty d a b) s x t (Received x d (fun j => x.far a ((x.w32 b j).toNat % x.g.grant)) 0)) ∧
    (∀ run, opening (.bcst h run ty d a b) s = some (x, t) → Completes (.bcst h run ty d a b) s x t (Received x d (fun j =>
      x.far a (runStart run x.g.grant j + (x.w32 b j).toNat % (runEnd run x.g.grant j - runStart run x.g.grant j))) 0)) ∧
    (∀ op run, opening (.shfl h op run ty d a b) s = some (x, t) → ∃ src : Nat → Nat, Completes (.shfl h op run ty d a b) s x t (Received x d (fun j => x.far a (src j)) 0) ∧
      ∀ j ∈ x.act, j < x.g.grant → runStart run x.g.grant j ≤ src j ∧ src j < runEnd run x.g.grant j ∧
        (op = .up → src j = if (x.w32 b j).toNat ≤ j - runStart run x.g.grant j then j - (x.w32 b j).toNat else j) ∧
        (op = .down → src j = if j + (x.w32 b j).toNat < runEnd run x.g.grant j then j + (x.w32 b j).toNat else j) ∧
        (op = .xor → src j = if (j - runStart run x.g.grant j) ^^^ (x.w32 b j).toNat < runEnd run x.g.grant j - runStart run x.g.grant j
          then runStart run x.g.grant j + ((j - runStart run x.g.grant j) ^^^ (x.w32 b j).toNat) else j) ∧
        (op = .rot → src j = runStart run x.g.grant j +
          (j - runStart run x.g.grant j + (x.w32 b j).toNat) % (runEnd run x.g.grant j - runStart run x.g.grant j)))

/-- R164, R165: poll answers over the lanes of act in the run; mcnt counts the lanes of act in the run with the same SA bits, or those below; cmpt gives
the i-th lane of act of a run the SA value of the i-th lane whose predicate is 1, and zero beyond. The frame: no other register, no flag and no byte
changes. -/
def Obligations.PollCountCompact : Prop :=
  ∀ h d a s x t,
    (∀ op run, opening (.poll h op run d a) s = some (x, t) → ∃ val, Completes (.poll h op run d a) s x t (Received x d val 0) ∧ ∀ j ∈ x.act,
      (op = .every → val j = if ∀ m ∈ inRun x run j, x.w32 a m ≠ 0 then 1 else 0) ∧
      (op = .anyOf → val j = if ∃ m ∈ inRun x run j, x.w32 a m ≠ 0 then 1 else 0) ∧
      (op = .same → val j = if ∀ m ∈ inRun x run j, ∀ n ∈ inRun x run j, x.w32 a m = x.w32 a n then 1 else 0) ∧
      (op = .mask → ∀ i, i < 64 → (val j).getLsbD i = decide (runStart run x.g.grant j + i ∈ inRun x run j ∧ x.w32 a (runStart run x.g.grant j + i) ≠ 0))) ∧
    (∀ rank run ty, opening (.mcnt h rank run ty d a) s = some (x, t) → Completes (.mcnt h rank run ty d a) s x t (Received x d (fun j =>
      BitVec.ofNat 64 ((inRun x run j).filter fun m => x.cross ty a m == x.cross ty a j && (!rank || decide (m < j))).length) 0)) ∧
    (∀ run ty b, opening (.cmpt h run ty d a b) s = some (x, t) → ∃ val, Completes (.cmpt h run ty d a b) s x t (Received x d val 0) ∧
      ∀ j ∈ x.act, ∀ i : Nat, (inRun x run j)[i]? = some j →
        val j = (((inRun x run j).filter fun m => x.w32 b m != 0)[i]?.map fun m => x.cross ty a m).getD 0)

/-- R166, R167: red gives every lane of act the combination of the values of its run, on the tree of R109; scan gives the inclusive prefix of the lane's
place; srt gives the lanes of act of each run the sorted keys in ascending lane order. The flags of the combinations of red and of scan, none for an integer type
(R118), are ORed into FPST; srt sets none. The frame: no other register and no byte changes. -/
def Obligations.ReduceScanSort : Prop :=
  ∀ h run ty d a s x t,
    (∀ op, opening (.red h op run ty d a) s = some (x, t) → ∃ val fl, Completes (.red h op run ty d a) s x t (Received x d val fl) ∧
      (∀ j ∈ x.act, val j = ((Xln.reduce op ty (x.places run ty a j)).map (·.1)).getD 0) ∧
      fl = x.act.foldl (fun f j => f ||| ((Xln.reduce op ty (x.places run ty a j)).map (·.2)).getD 0) 0 ∧ (ty ≠ .f32 → fl = 0)) ∧
    (∀ op, opening (.scan h op run ty d a) s = some (x, t) → ∃ val fl, Completes (.scan h op run ty d a) s x t (Received x d val fl) ∧
      (∀ j ∈ x.act, val j = (((Xln.prefixes (Xln.combine op ty) none (x.places run ty a j)).getD (j - runStart run x.g.grant j) none).map (·.1)).getD 0) ∧
      fl = x.act.foldl (fun f j =>
        f ||| (((Xln.prefixes (Xln.combine op ty) none (x.places run ty a j)).getD (j - runStart run x.g.grant j) none).map (·.2)).getD 0) 0 ∧
      (ty ≠ .f32 → fl = 0)) ∧
    (∀ op, opening (.srt h op run ty d a) s = some (x, t) → ∃ val, Completes (.srt h op run ty d a) s x t (Received x d val 0) ∧
      ∀ j ∈ x.act, (inRun x run j).map val = Xln.sort ty (op == .desc || op == .desckv)
        ((inRun x run j).map fun m => if op == .asckv || op == .desckv then x.w64 a m else x.cross ty a m))

/-! ### Class CTL -/

/-- No entry waits in any pigeonhole. -/
def Sys2Proof.NoneOpen (s : State) : Prop := ∀ dw, s.hole? dw = none

/-- R61, R66, R69: a branch names the line of the branch plus its signed line delta, and a slot; a PC is well formed where bits 63:56 and 6:4 are zero and the
slot is at most 9; the check of a target raises BTGT on a malformed computed PC, the fetch's own fault at the target, ILL at the target for a bad header, BTGT for
a slot without TARGET and for a call to a slot other than 0, and passes otherwise. Where no entry waits in a pigeonhole, which the fetch would come behind, it changes cached
copies at most. -/
def Obligations.TransferTargets : Prop :=
  (∀ pc (g : Target), ((targetPc pc g).toNat : Int) = ((pc.toNat / 128 * 128 : Nat) + 128 * g.delta.toInt + g.slot.toNat) % 2 ^ 64) ∧
  (∀ pc : Dword, pcOk pc = true ↔ pc.toNat < 2 ^ 56 ∧ pc.toNat / 16 % 8 = 0 ∧ pc.toNat % 16 ≤ 9) ∧
  (∀ (s : State) x pc call, pcOk pc = false → s.checkTarget x pc true call = (some (Flt.mk' Code.btgt), s)) ∧
  (∀ (s s' : State) x pc computed call f, (pcOk pc = true ∨ computed = false) → s.fetchLine x.core x.c x.g.ahead (pcLine pc) = (.flt f, s') →
    s.checkTarget x pc computed call = (some { f with addr := pc }, s')) ∧
  (∀ (s s' : State) x pc computed call line, (pcOk pc = true ∨ computed = false) → s.fetchLine x.core x.c x.g.ahead (pcLine pc) = (.line line, s') →
    s.checkTarget x pc computed call =
      (if headerOk line = false then some (Flt.at' Code.ill pc)
       else if slotTarget line (pcSlot pc) = false ∨ (call = true ∧ pcSlot pc ≠ 0) then some (Flt.mk' Code.btgt) else none, s')) ∧
  (∀ (s : State) x pc computed call, NoneOpen s → OnlyCaches s (s.checkTarget x pc computed call).2)

/-- The checks of the targets of a `brx` or `ret`, lane by lane, each in the state that the one before left (R170): the lanes that fail, with their faults. -/
def Sys2Proof.targetChecks (x : Issue) (target : Nat → Dword) : List Nat → State → List (Nat × Flt) × State
  | [], s => ([], s)
  | j :: js, s =>
    let c := s.checkTarget x (target j) true false
    let r := targetChecks x target js c.2
    ((match c.1 with | some f => [(j, f)] | none => []) ++ r.1, r.2)

/-- R170, R172: brx and ret send each lane of act to the PC in its own source and the other lanes that issue to the successor. The PC is checked for each lane
separately: the lanes whose target fails stay at the instruction with their fault, while the others transfer. Where no entry waits in a pigeonhole the checks change cached
copies at most, and no byte of memory. -/
def Sys2Proof.ComputedTransfers : Prop :=
  ∀ i a s x t fs v, ((∃ h, i = .brx h a) ∨ ∃ h, i = .ret h a) → opening i s = some (x, t) → targetChecks x (x.w64 a) x.act t = (fs, v) →
    (NoneOpen t → OnlyCaches t v ∧ ∀ a, Cells.get v.mem a = Cells.get t.mem a) ∧ (∀ p ∈ fs, p.1 ∈ x.act) ∧
    (v.blocked = false → fs = [] → CompletesTo i s x [] (sends x (x.w64 a)) v) ∧
    (fs ≠ [] → (t.slot.map (·.aFault)).getD false = false → FaultsSome i s x [] v (sends x (x.w64 a)) fs)

/-- R169 to R172, R174: bra sends the lanes of act to its target; call also writes the successor to its destination; lp does nothing where act is empty or kC is 0,
else counts kC down and sends the lanes to its target unless it has reached 0. Where the check of a target fails, the lanes of act stay with its fault, and call and lp
write nothing; a call whose destination is above the budget faults after that check and writes nothing (R76). With no lane in act bra and call only go on. Each holds where no
arrival that the check needs waits for its place in a log. The frame: from the state after the check only the result and the PCs change, and no byte of memory. -/
def Sys2Proof.DirectTransfers : Prop :=
  (∀ i s x t, ((∃ h g, i = .bra h g) ∨ ∃ h d g, i = .call h d g ∧ callOver h d g s = false) → opening i s = some (x, t) → x.act = [] →
    CompletesTo i s x [] (fun _ => x.next) t) ∧
  (∀ h g s x t, opening (.bra h g) s = some (x, t) → x.act ≠ [] →
    (∀ t', t.checkTarget x (targetPc x.pc g) false false = (none, t') →
      t'.blocked = false → CompletesTo (.bra h g) s x [] (sends x fun _ => targetPc x.pc g) t') ∧
    (∀ f t', t.checkTarget x (targetPc x.pc g) false false = (some f, t') → FaultsAll (.bra h g) s x t' f)) ∧
  (∀ h d g s x t, opening (.call h d g) s = some (x, t) → callOver h d g s = false → x.act ≠ [] →
    (∀ t', t.checkTarget x (targetPc x.pc g) false true = (none, t') → t'.blocked = false →
      ∃ w, GroupStep x.tid x.gix t' w (Received x d (fun _ => shownPc x.next) 0) ∧ CompletesTo (.call h d g) s x [] (sends x fun _ => targetPc x.pc g) w) ∧
    (∀ f t', t.checkTarget x (targetPc x.pc g) false true = (some f, t') → FaultsAll (.call h d g) s x t' f)) ∧
  (∀ h d g s x t, opening (.bra h g) s = some (x, t) → callOver h d g s = true → x.act ≠ [] →
    ∀ f t', t.checkTarget x (targetPc x.pc g) false true = (f, t') → FaultsAll (.call h d g) s x t' (f.getD (Flt.mk' Code.prot))) ∧
  (∀ h n g s x t, opening (.lp h (.k n false) g) s = some (x, t) →
    ((x.act = [] ∨ Cells.get x.g.k n.toNat = 0) → CompletesTo (.lp h (.k n false) g) s x [] (fun _ => x.next) t) ∧
    (x.act ≠ [] → Cells.get x.g.k n.toNat = 1 →
      ∃ w, GroupStep x.tid x.gix t w (Received x (.k n false) (fun _ => 0) 0) ∧ CompletesTo (.lp h (.k n false) g) s x [] (fun _ => x.next) w) ∧
    (x.act ≠ [] → 2 ≤ (Cells.get x.g.k n.toNat).toNat →
      (∀ t', t.checkTarget x (targetPc x.pc g) false false = (none, t') → t'.blocked = false →
        ∃ w, GroupStep x.tid x.gix t' w (Received x (.k n false) (fun _ => BitVec.ofNat 64 ((Cells.get x.g.k n.toNat).toNat - 1)) 0) ∧
          CompletesTo (.lp h (.k n false) g) s x [] (sends x fun _ => targetPc x.pc g) w) ∧
      (∀ f t', t.checkTarget x (targetPc x.pc g) false false = (some f, t') → FaultsAll (.lp h (.k n false) g) s x t' f)))

/-- R169 to R172, R174: bra, brx, call, ret and lp. -/
def Obligations.Transfers : Prop := DirectTransfers ∧ ComputedTransfers

/-- R175, R176, R37: enrol sets the bits of the lanes of act in jN. join lets a lane whose bit is clear go on; the others park at the join, and where that makes
every enrolled lane arrive, the mask is cleared and every lane parked on it becomes active at its own successor, its latches invalid. The frame: nothing
else of the group, and no byte, changes. -/
def Obligations.EnrolAndJoin : Prop :=
  (∀ h (m : BitVec 3) s x t, opening (.enrol h m) s = some (x, t) → Completes (.enrol h m) s x t fun g g' =>
    g' = { g with j := g'.j } ∧ (Cells.wf g.j = true → ∀ j, j < 64 → (Cells.get g'.j m.toNat).getLsbD j = ((Cells.get g.j m.toNat).getLsbD j || decide (j ∈ x.act))) ∧
    (Cells.wf g.j = true → ∀ n, n ≠ m.toNat → Cells.get g'.j n = Cells.get g.j n)) ∧
  (∀ h (m : BitVec 3) s x t, opening (.join h m) s = some (x, t) → ∃ w mine,
    mine = x.act.filter (fun j => (Cells.get x.g.j m.toNat).getLsbD j) ∧ CompletesTo (.join h m) s x mine (fun _ => x.next) w ∧
    (∀ a, Cells.get w.mem a = Cells.get t.mem a) ∧
    GroupStep x.tid x.gix t w fun g g' => ∃ p, p = { g with lanes := p.lanes } ∧ p.lanes.length = g.lanes.length ∧
      (∀ j l, g.lanes[j]? = some l → p.lanes[j]? = some (if j ∈ mine then { l with st := .parked (.join m.toNat x.next) } else l)) ∧
      (p.joinReady m.toNat = false → g' = p) ∧
      (p.joinReady m.toNat = true → g' = { p with j := Cells.set p.j m.toNat 0, lanes := p.lanes.map (Lane.leaveJoin m.toNat) }))

/-- R177, R30: exit puts each lane of act to which no load and no fetching operator owes a register in the exited state at once and clears its bit in every rejoin
mask; a lane to which one is owed parks until it is in. Then the releases that have become due happen, and where the handler has no lane left it ends; the other lanes
of the group change only by these. The frame: only the group's lanes, masks and handler mode change; no byte does. -/
def Sys2Proof.Exit : Prop :=
  ∀ h s x t, opening (.exit h) s = some (x, t) →
    ∃ w, CompletesTo (.exit h) s x x.act (fun _ => x.next) w ∧ (∀ a, Cells.get w.mem a = Cells.get t.mem a) ∧ GroupStep x.tid x.gix t w fun g g' =>
      g' = { g with lanes := g'.lanes, j := g'.j, handler := g'.handler } ∧
      ∃ p : Group, p = { g with lanes := p.lanes, j := p.j } ∧ p.lanes.length = g.lanes.length ∧ g' = p.releaseAll.leaveIfEmpty ∧
        (∀ j l, g.lanes[j]? = some l → p.lanes[j]? = some (if j ∈ x.act then
          (if t.owes x.tid x.gix j = true then { l with st := .parked .exiting } else { l with st := .exited, held := false }) else l)) ∧
        (Cells.wf g.j = true → ∀ m, m < 8 → ∀ j, j < 64 →
          (Cells.get p.j m).getLsbD j = ((Cells.get g.j m).getLsbD j && !(decide (j ∈ x.act) && !t.owes x.tid x.gix j))) ∧
        (g.handler = false → g'.handler = false ∧ ∀ (j : Nat) (l : Lane), p.lanes[j]? = some l → (∀ m q, l.st ≠ .parked (.join m q)) → g'.lanes[j]? = some l)

/-- R179, R36: nop advances the PC of the lanes of act and has no other effect; yield does the same and records the ready groups that share a slice with this one
and go first. Neither pushes a latch, and no byte changes. -/
def Sys2Proof.NopAndYield : Prop :=
  (∀ h s x t, opening (.nop h) s = some (x, t) → Completes (.nop h) s x t fun g g' => g' = g) ∧
  (∀ h s x t, opening (.yield h) s = some (x, t) → Completes (.yield h) s x t fun g g' =>
    g' = { g with yieldTo := g'.yieldTo } ∧ (x.act = [] → g'.yieldTo = g.yieldTo) ∧
    (x.act ≠ [] → ∀ u v, (u, v) ∈ g'.yieldTo ↔ ∃ b ∈ t.candidates, b.1.tid = u ∧ b.2.gix = v ∧ shareSlice (x.team, x.g) b = true ∧ sameGroup (x.team, x.g) b = false))

/-- R177, R179: exit, nop and yield. -/
def Obligations.ExitNopAndYield : Prop := Exit ∧ NopAndYield

/-- A team but for where its ranges lie. -/
def Sys2Proof.unlaid (t : Team) : Team := { t with spadBase := 0, groups := t.groups.map fun g => { g with octets := g.octets.map fun o => { o with base := 0 } } }

/-- R178, R27 to R30: with every live lane in act and a request of 0 to 64, width gives the group new octets: as many of those asked for as can be held, each in a slice of its
own; or in a deterministic or replayed launch all of them, folded where they must be, or the group waits for room. The grant becomes 8 lanes an octet, GRCH is cleared, kD
receives the grant and the kept lanes push it and go on with their registers, and new lanes start active at the successor with registers and predicates clear and latches
invalid. Another request, or a live lane out of act, raises WIDTH; with no lane in act nothing happens. The frame: ranges of other groups may move (R51), and no byte changes. -/
def Obligations.Width : Prop :=
  ∀ h n a s x t, opening (.width h (.k n false) a) s = some (x, t) →
    (x.act = [] → CompletesTo (.width h (.k n false) a) s x [] (fun _ => x.next) t) ∧
    (x.act ≠ [] → (x.g.lanesWhere Lane.live ≠ x.act ∨ 64 < (x.u32 a).toNat) → FaultsAll (.width h (.k n false) a) s x t (Flt.mk' Code.width)) ∧
    (x.act ≠ [] → x.g.lanesWhere Lane.live = x.act → (x.u32 a).toNat ≤ 64 →
      (t.fixedWidth x.team x.c = true → t.foldedFor x.team x.g (widthReq (x.u32 a)) = none → ∃ w, CompletesTo (.width h (.k n false) a) s x x.act (fun _ => x.next) w ∧
        GroupStep x.tid x.gix t w fun g g' => g' = { g with wait := some (.width n.toNat (widthReq (x.u32 a))) }) ∧
      ∀ os, (t.fixedWidth x.team x.c = false ∧ os = t.octetsFor x.team x.g (widthReq (x.u32 a)) ∨
          t.fixedWidth x.team x.c = true ∧ t.foldedFor x.team x.g (widthReq (x.u32 a)) = some os) →
        ∃ m w, CompletesTo (.width h (.k n false) a) s x [] (fun _ => x.next) w ∧ w = { m with accs := w.accs, teams := w.teams } ∧
          w.teams.map unlaid = m.teams.map unlaid ∧ GroupStep x.tid x.gix t m fun g g' =>
            g'.grant = 8 * os.1.length ∧ g'.grch = false ∧ g'.octets = os.1 ∧ g'.k = setReg g.k n.toNat false (BitVec.ofNat 64 (8 * os.1.length)) ∧
            (∀ j l, g.lanes[j]? = some l → j < g.grant → j < 8 * os.1.length → ∃ l', g'.lanes[j]? = some l' ∧ l'.v = l.v ∧ l'.p = l.p ∧
              ((∀ m p, l.st ≠ .parked (.join m p)) → l' = l.pushVal false (BitVec.ofNat 64 (8 * os.1.length)))) ∧
            (g.lanes.length = g.grant → ∀ j, g.grant ≤ j → j < 8 * os.1.length → g'.lanes[j]? = some (newLane x.next)))

/-! ### Faults, the handler and class SYS -/

/-- TCAUSE of a fault (Table 7-4). -/
def Sys2Proof.causeWord (f : Flt) : Nat := f.num % 65536 * 65536 + (if f.alt then 4096 else 0) + (if f.remote then 512 else 0) + f.code % 256

/-- R182, R183, R185, Table 7-4: trap and brk raise TRAP and BRK with their number on the lanes of act, and the other lanes that issue go on. Where the context's handler takes
the code and its line can be entered, the group enters the handler in one step: the latches of every lane are saved, the lanes of act become the handler lanes, active at THND
with all latches invalid, TMASK names them, TCAUSE holds the number and the code, TPC the successor of trap or the brk itself, TWORD the word, TADDR 0; every other live lane
becomes trap-held where it stands. No register of the group or of a lane changes, and memory changes only where an entry that waits over the handler's line retires. -/
def Obligations.TrapsEnterTheHandler : Prop :=
  ∀ i a code s x t, ((∃ h, i = .trap h a ∧ code = Code.trap) ∨ ∃ h, i = .brk h a ∧ code = Code.brk) → opening i s = some (x, t) → x.act ≠ [] →
    t.slot.bind (·.other) = none → (t.slot.map (·.aFault)).getD false = false →
    ∃ m w : State, GroupStep x.tid x.gix t m (Moved x t.pastLanes (x.lanes.filter fun j => decide (j ∉ x.act)) [] (fun _ => x.next) ((t.slot.map (·.second)).getD false)) ∧
      w = { (m.countCycle x.core x.tid x.gix x.lanes).tick x.c.ctx with stalled := [], urgent := t.claimAfter x.tid x.gix } ∧ ∀ tm c r, w.team? x.tid = some tm → w.ctx? tm.ctx = some c →
      c.handles x.g code = true → w.handlerLine tm c x.g.ahead = (true, r) → r.blocked = false →
      ∃ u g', exec i s = .next u ∧ u.mem = r.mem ∧ (NoneOpen t → u.mem = t.mem) ∧ u.group? x.tid x.gix = some g' ∧ g'.handler = true ∧
        g'.tcause.toNat = causeWord { Flt.mk' code with num := a.immVal.toNat } ∧
        (∀ j, j < 64 → g'.tmask.getLsbD j = decide (j ∈ x.act)) ∧ g'.tpc = shownPc (if code = Code.trap then x.next else x.pc) ∧
        g'.tpend = some (if code = Code.trap then x.next else x.pc) ∧ g'.tword = x.word ∧ g'.taddr = 0 ∧
        g'.k = x.g.k ∧ g'.j = x.g.j ∧ g'.fpst = x.g.fpst ∧
        ∀ j l, x.g.lanes[j]? = some l → ∃ l', g'.lanes[j]? = some l' ∧ l'.saved = l.latches ∧ l'.v = l.v ∧ l'.p = l.p ∧
          (j ∈ x.act → l'.st = .active ∧ l'.pc = c.thnd ∧ ∀ q, q ∈ l'.latches → q.valid = false) ∧
          (j ∉ x.act → l.live = true → l'.held = true ∧ l'.st = l.st ∧ l'.pc = if j ∈ x.lanes then x.next else l.pc)

/-- R182, R290, Table 12-7: a fault that no handler takes, on lanes of a group in a die with room in its buffer, is written to the ring at the head: 32 bytes at
FBBASE plus 32 times the head's index, naming context, core, slot, lanes, PC and code; the head advances by one, the MSI-X interrupt is raised, or is owed while the link to the
host is down, and the lanes park on the entry with their registers unchanged. -/
def Obligations.FaultsReachTheBuffer : Prop :=
  ∀ (s : State) tid gix f lanes pc next word t g c die, Memory.wf s.mem = true → s.team? tid = some t → s.group? tid gix = some g → s.ctx? t.ctx = some c →
    c.handles g f.code = false → s.die? (dieOf t.core) = some die → die.heldFaults = [] → die.count < 1024 → g.gix = gix → lanes.Nodup →
    ∃ e u, u = s.takeFault tid gix f lanes pc next word ∧
      e = ⟨t.ctx, t.core, g.slotNo, f, false, g.handler, false, laneMask lanes, shownPc pc, some (tid, gix), s.nextId⟩ ∧
      (∀ a, Cells.get u.mem a = (if s.gpaOf (die.fbbase + 32 * (die.fbhead % 1024)) ≤ a ∧ a < s.gpaOf (die.fbbase + 32 * (die.fbhead % 1024)) + 32
        then (e.bytes die.fbhead).getD (a - s.gpaOf (die.fbbase + 32 * (die.fbhead % 1024))) 0 else Cells.get s.mem a)) ∧
      (∃ d', u.die? (dieOf t.core) = some d' ∧ d'.fbhead = (die.fbhead + 1) % 2 ^ 32 ∧ d'.fbtail = die.fbtail ∧
        d'.msix = (if s.linkUp = true then die.msix + 1 else die.msix) ∧ d'.msixDue = (if s.linkUp = true then die.msixDue else die.msixDue + 1)) ∧
      ∃ g', u.group? tid gix = some g' ∧ g' = { g with lanes := g'.lanes } ∧
        ∀ j l, g.lanes[j]? = some l → g'.lanes[j]? = some (if j ∈ lanes then
          { l with st := .parked (.buffer (dieOf t.core) (((die.fbhead + 1) % 2 ^ 32 + 2 ^ 32 - 1) % 2 ^ 32) e (resumePc f.code pc next) next) } else l)

/-- R184: trt in handler mode, with every handler lane that has not exited in act and a well-formed TPC, leaves the handler: each handler lane goes to TPC, or while software has not
written that to the PC at entry, with its saved latches; each trap-held lane that was not marked ready gets its latches back and stands as it did; one that was marked ready is active with its latches
invalid, or kept for a retry. Outside handler mode, or with a handler lane missing, it raises PROT; with a malformed TPC, BTGT. No register changes and no byte does. -/
def Obligations.TrapReturn : Prop :=
  ∀ h s x t, opening (.trt h) s = some (x, t) → x.act ≠ [] →
    (x.g.handler = true → (∀ j ∈ x.g.handlerLanes, j ∈ x.act) → pcOk x.g.tpc = true →
      ∃ w, CompletesTo (.trt h) s x x.lanes (fun _ => x.next) w ∧ (∀ b, Cells.get w.mem b = Cells.get t.mem b) ∧ GroupStep x.tid x.gix t w fun g g' =>
        g' = { g with handler := false, lanes := g'.lanes } ∧ ∀ j l, g.lanes[j]? = some l → ∃ l', g'.lanes[j]? = some l' ∧ l'.v = l.v ∧ l'.p = l.p ∧ l'.st = l.st ∧
          (l.live = false → l' = l) ∧
          (l.live = true → g.tmask.getLsbD j = true → l'.pc = g.tpend.getD g.tpc ∧ l'.latches = l.saved) ∧
          (l.live = true → g.tmask.getLsbD j = false → l'.pc = l.pc ∧ (l.held = false → l' = l) ∧ (l.held = true → l'.held = false ∧
            (l.woke = none → l'.latches = l.saved) ∧ (l.woke = some true → l'.latches = l.saved ∧ l'.retry = true) ∧
            (l.woke = some false → ∀ q, q ∈ l'.latches → q.valid = false)))) ∧
    ((x.privileged = false ∨ x.g.handler = false ∨ ∃ j ∈ x.g.handlerLanes, j ∉ x.act) → FaultsAll (.trt h) s x t (Flt.mk' Code.prot)) ∧
    (x.g.handler = true → (∀ j ∈ x.g.handlerLanes, j ∈ x.act) → pcOk x.g.tpc = false → FaultsAll (.trt h) s x t (Flt.mk' Code.btgt))

/-- R187: trt, sysr, sysw and hlt raise PROT on the lanes of act of a group that is not privileged, and have no other effect; a group is privileged in handler mode
and in a context created so. With no lane in act they do nothing.
The model's choice, log 65 (from R55 and R191): hlt with no lane in act does nothing. -/
def Obligations.Privilege : Prop :=
  (∀ (x : Issue), x.privileged = (x.g.handler || x.c.priv)) ∧
  ∀ i, ((∃ h, i = .trt h) ∨ (∃ h d a, i = .sysr h d a) ∨ (∃ h a b, i = .sysw h a b) ∨ ∃ h, i = .hlt h) → ∀ s x t, opening i s = some (x, t) →
    (x.act ≠ [] → x.privileged = false → FaultsAll i s x t (Flt.mk' Code.prot)) ∧ (x.act = [] → CompletesTo i s x [] (fun _ => x.next) t)

/-! ### Classes MEM and TAG -/

/-- R219, R200, R203: an access of one lane is checked in this order: PROT for an address with bits 63:56 set, ALIGN, PGF for a translation that is absent or
malformed, PROT for a permission or a size that the page refuses, ATOMIO for an operator on a page that is not of class 0, RNGC for a byte in a context's range, else
the physical address under the leaf. The check changes cached copies and counts of messages at most. -/
def Obligations.AccessChecks : Prop :=
  (∀ (s : State) core c va size al need op rg, va.toNat / 2 ^ 56 ≠ 0 → s.checkVa core c va size al need op rg = (.error (Flt.at' Code.prot va), s)) ∧
  (∀ (s : State) core c va size al need op rg, va.toNat / 2 ^ 56 = 0 → va.toNat % al ≠ 0 → s.checkVa core c va size al need op rg = (.error (Flt.at' Code.align va), s)) ∧
  (∀ (s : State) core c va size al need op rg, va.toNat / 2 ^ 56 = 0 → va.toNat % al = 0 →
    (∀ bad s', s.translate core c va.toNat = (.error bad, s') →
      s.checkVa core c va size al need op rg = (.error { Flt.at' Code.pgf va with alt := bad }, s')) ∧
    (∀ f s', s.translate core c va.toNat = (.ok f, s') → s.checkVa core c va size al need op rg =
      (if need.ok f.e = false ∨ sizeRefused f.e size = true then .error (Flt.at' Code.prot va)
       else if op = true ∧ Pte.cls f.e ≠ 0 then .error (Flt.at' Code.atomio va)
       else if rg = true ∧ rangeHit c (dieOf core) va.toNat size = true then .error (Flt.at' Code.rngc va)
       else .ok ⟨f.gpa va.toNat, f⟩, s'))) ∧
  ∀ (s : State) core c va size al need op rg, OnlyCaches s (s.checkVa core c va size al need op rg).2

/-- The loads of class MEM: size, sign extension, destination, space and address of each lane (R217). -/
def Sys2Proof.loadForm : Instr → Option (Nat × Bool × Dst × (Issue → Nat → Space) × (Issue → Nat → Dword))
  | .ld _ sz sx d a b => some (sz.bytes, sx, d, fun _ _ => .virt, fun x j => x.w64 a j + (x.w32 b j).signExtend 64)
  | .lds _ sz sx d a b => some (sz.bytes, sx, d, fun _ _ => .spad, fun x j => (x.w32 a j + x.w32 b j).zeroExtend 64)
  | .ldc _ sz sx d a b => some (sz.bytes, sx, d, fun _ _ => .pool, fun x j => (x.w32 a j + x.w32 b j).zeroExtend 64)
  | .ldx _ sz sx d a b => some (sz.bytes, sx, d, fun x j => .peer (x.w32 a j).toNat, fun x j => (x.w32 b j).zeroExtend 64)
  | _ => none

/-- The stores of class MEM: size, colour, data, space and address of each lane (R217). -/
def Sys2Proof.storeForm : Instr → Option (Nat × BitVec 3 × Src × (Issue → Nat → Space) × (Issue → Nat → Dword))
  | .st _ sz col a b c => some (sz.bytes, col, c, fun _ _ => .virt, fun x j => x.w64 a j + (x.w32 b j).signExtend 64)
  | .sts _ sz col a b c => some (sz.bytes, col, c, fun _ _ => .spad, fun x j => (x.w32 a j + x.w32 b j).zeroExtend 64)
  | .stc _ sz col a b c => some (sz.bytes, col, c, fun _ _ => .pool, fun x j => (x.w32 a j + x.w32 b j).zeroExtend 64)
  | .stx _ sz col a b c => some (sz.bytes, col, c, fun x j => .peer (x.w32 a j).toNat, fun x j => (x.w32 b j).zeroExtend 64)
  | _ => none

/-- Where a lane's checked access goes. -/
def Sys2Proof.goesTo (p : Nat × Dword × Spot) (place : Place) (alg cls : Nat) : Prop := p.2.2 = .ok place alg cls

/-- R219 to R221: where every lane of act passes its checks and meets no poison, no uncorrectable error and no other chip, ld, lds, ldc and ldx put an access in flight
for each lane, at the place its own address gives, or at the word it lies in with the lane's bytes of it, and for the instruction's destination, and complete; the value reaches
the register later. The frame: no register
of any group changes, and no byte of memory. -/
def Sys2Proof.LoadsIssue : Prop :=
  ∀ i size sx d sp addr s x t w, loadForm i = some (size, sx, d, sp, addr) → opening i s = some (x, t) → w = t.spots x x.act (sp x) (addr x) size false →
    (∀ p ∈ w.got, ∃ place alg cls, goesTo p place alg cls ∧ w.s.risky place size = false) → (∀ q ∈ t.pools, q.bad = []) → (∀ m ∈ t.teams, m.flaw = false) →
    ∃ v u, exec i s = .next u ∧ Settles x [] (fun _ => x.next) v u ∧ (∀ b, Cells.get u.mem b = Cells.get t.mem b) ∧ RegsKept t u ∧
      ∀ p ∈ w.got, ∀ place alg cls, goesTo p place alg cls → ∃ a ∈ u.accs, a.kind = .load ∧ a.tid = x.tid ∧ a.gix = x.gix ∧ p.1 ∈ a.lanes ∧
        a.d = d ∧ a.val = none ∧ a.shape = (if sx then .signed else .plain) ∧
        (cls = 2 ∨ 4 ≤ size → a.place = place ∧ (a.size = size ∨ (size = 16 ∧ a.size = 8))) ∧
        (cls ≠ 2 → size < 4 → a.place = place.inWord.1 ∧ a.size = 4 ∧ a.each = size ∧ lookupKey p.1 0 a.picks = place.inWord.2)

/-- R219 to R221, R257: where every lane of act passes its checks, st, sts, stc and stx put a store in flight for each lane, at the place that its own address gives, with the
low bytes of its datum and the instruction's colour, and complete. The frame: no register of any group changes; memory changes only by the dirty bits and the dirty-log
entries that the checks write, and no byte of the stored data reaches memory yet. -/
def Sys2Proof.StoresIssue : Prop :=
  ∀ i size col c sp addr s x t w, storeForm i = some (size, col, c, sp, addr) → opening i s = some (x, t) → w = t.spots x x.act (sp x) (addr x) size true →
    (∀ p ∈ w.got, ∃ place alg cls, goesTo p place alg cls) →
    ∃ v u, exec i s = .next u ∧ Settles x [] (fun _ => x.next) v u ∧ (∀ b, Cells.get u.mem b = Cells.get w.s.mem b) ∧ RegsKept t u ∧
      ∀ p ∈ w.got, ∀ place alg cls, goesTo p place alg cls →
        ((alg = 0 ∨ size ≠ 16) → ∃ a ∈ u.accs, a.kind = .store ∧ a.tid = x.tid ∧ a.gix = x.gix ∧ a.lane = p.1 ∧ a.place = place ∧
          a.data = x.bytesOf c size p.1 ∧ a.colour = col.toNat) ∧
        (alg ≠ 0 → size = 16 → ∀ n, (n = 0 ∨ n = 8) → ∃ a ∈ u.accs, a.kind = .store ∧ a.tid = x.tid ∧ a.gix = x.gix ∧ a.lane = p.1 ∧ a.place = place.offset n ∧
          a.data = ((x.bytesOf c size p.1).drop n).take 8 ∧ a.colour = col.toNat)

/-- R217 to R222, R257, R260: what the loads and the stores put in flight. -/
def Obligations.LoadsAndStoresIssue : Prop := LoadsIssue ∧ StoresIssue

/-- R222, R223: ldk makes one access for the group, by the address of the lowest lane of act, for the uniform destination; stk makes one store; where act is empty neither
does anything; prf never faults, sets no dirty bit and changes cached translations and what the agents' buffers hold only. The frame: no register of any group changes; memory
changes by the dirty bit of a store's page only. -/
def Obligations.UniformAccesses : Prop :=
  (∀ h sz sx d a b s x t w, opening (.ldk h sz sx d a b) s = some (x, t) → x.act ≠ [] →
    w = t.spots x [x.low] (fun _ => .virt) (fun j => x.w64 a j + (x.w32 b j).signExtend 64) sz.bytes false →
    ∀ va place alg cls rest, w.got = (x.low, va, .ok place alg cls) :: rest → w.s.risky place sz.bytes = false →
    ∃ v u, exec (.ldk h sz sx d a b) s = .next u ∧ Settles x [] (fun _ => x.next) v u ∧ (∀ m, Cells.get u.mem m = Cells.get t.mem m) ∧ RegsKept t u ∧
      (∃ r ∈ u.accs, r.kind = .load ∧ r.lanes = x.act ∧ r.place = place ∧ (r.size = sz.bytes ∨ (sz.bytes = 16 ∧ r.size = 8)) ∧ r.d = d ∧ r.val = none)) ∧
  (∀ h sz col a b c s x t w, opening (.stk h sz col a b c) s = some (x, t) → x.act ≠ [] →
    w = t.spots x [x.low] (fun _ => .virt) (fun j => x.w64 a j + (x.w32 b j).signExtend 64) sz.bytes true →
    ∀ va place alg cls rest, w.got = (x.low, va, .ok place alg cls) :: rest →
    ∃ v u, exec (.stk h sz col a b c) s = .next u ∧ Settles x [] (fun _ => x.next) v u ∧ (∀ m, Cells.get u.mem m = Cells.get w.s.mem m) ∧ RegsKept t u ∧
      ((alg = 0 ∨ sz.bytes ≠ 16) → ∃ r ∈ u.accs, r.kind = .store ∧ r.lane = x.low ∧ r.place = place ∧ r.data = x.bytesOf c sz.bytes x.low ∧ r.colour = col.toNat)) ∧
  (∀ h sz sx d a b s x t, opening (.ldk h sz sx d a b) s = some (x, t) → x.act = [] → CompletesTo (.ldk h sz sx d a b) s x [] (fun _ => x.next) t) ∧
  (∀ h sz col a b c s x t, opening (.stk h sz col a b c) s = some (x, t) → x.act = [] → CompletesTo (.stk h sz col a b c) s x [] (fun _ => x.next) t) ∧
  ∀ h a b s x t, opening (.prf h a b) s = some (x, t) → ∃ w, CompletesTo (.prf h a b) s x [] (fun _ => x.next) w ∧ OnlyCaches t w ∧
    ∀ n, (w.agent n) = { t.agent n with buffer := (w.agent n).buffer }

/-- From `t` to `w` only the team `tid` changes, by `f`. -/
def Sys2Proof.TeamStep (tid : Nat) (t w : State) (f : Team → Team) : Prop := w = { t with teams := w.teams } ∧ w.teams = t.teams.map fun m => if m.tid = tid then f m else m

/-- What a slot's tag says after it is filled, and what a look-up finds (R213, R226, R227). -/
def Sys2Proof.TagTables : Prop :=
  (∀ (m : Team) slot a lck, (m.tags.map (·.slot)).Nodup → Cells.wf m.ptrs = true →
    (m.fillTag slot a lck).tag? slot = some ⟨slot, lck, tagLine a⟩ ∧
    (∀ k, k ≠ slot → (k / 8 = slot / 8 ∧ ∃ e, m.tag? k = some e ∧ e.line = tagLine a) → (m.fillTag slot a lck).tag? k = none) ∧
    (∀ k, k ≠ slot → ¬(k / 8 = slot / 8 ∧ ∃ e, m.tag? k = some e ∧ e.line = tagLine a) → (m.fillTag slot a lck).tag? k = m.tag? k) ∧
    ∀ k, Cells.get (m.fillTag slot a lck).ptrs k = if k = slot / 8 then BitVec.ofNat 3 (slot % 8 + 1) else Cells.get m.ptrs k) ∧
  ∀ (m : Team) a base, base = 8 * m.setOf a →
    (∀ w e, w < 8 → m.tag? (base + w) = some e → e.line = tagLine a → (∀ v, v < w → ∀ f, m.tag? (base + v) = some f → f.line ≠ tagLine a) → m.lookup a = base + w) ∧
    ((∀ w, w < 8 → ∀ e, m.tag? (base + w) = some e → e.line ≠ tagLine a) →
      (∀ w, w < 8 → m.tag? (base + w) = none → (∀ v, v < w → m.tag? (base + v) ≠ none) → m.lookup a = 2 ^ 31 + base + w) ∧
      ((∀ w, w < 8 → ∃ e, m.tag? (base + w) = some e ∧ e.lock = true) → m.lookup a = 2 ^ 31 + 2 ^ 30 + 0x7FF) ∧
      ∀ i p, i < 8 → p = (Cells.get m.ptrs (m.setOf a)).toNat → (∀ w, w < 8 → m.tag? (base + w) ≠ none) → (∃ e, m.tag? (base + (p + i) % 8) = some e ∧ e.lock = false) →
        (∀ k, k < i → ∃ e, m.tag? (base + (p + k) % 8) = some e ∧ e.lock = true) → m.lookup a = 2 ^ 31 + base + (p + i) % 8)

/-- The tag instructions that change a slot: whether the slot a lane names is one of the table, and for tset of the address's set, and what becomes of the table. -/
def Sys2Proof.tagForm : Instr → Option ((Issue → Team → Nat → Bool) × (Issue → Nat → Team → Team))
  | .tset _ lck a b => some (fun x m j => decide ((x.w32 a j).toNat < 8 * m.sets ∧ (x.w32 a j).toNat / 8 = m.setOf (x.w64 b j)),
      fun x j m => m.fillTag (x.w32 a j).toNat (x.w64 b j) lck)
  | .tinv _ a => some (fun x m j => decide ((x.w32 a j).toNat < 8 * m.sets), fun x j m => { m with tags := m.tags.filter fun e => e.slot != (x.w32 a j).toNat })
  | .tlck _ a => some (fun x m j => decide ((x.w32 a j).toNat < 8 * m.sets),
      fun x j m => { m with tags := m.tags.map fun e => if e.slot = (x.w32 a j).toNat then { e with lock := true } else e })
  | .tulk _ a => some (fun x m j => decide ((x.w32 a j).toNat < 8 * m.sets),
      fun x j m => { m with tags := m.tags.map fun e => if e.slot = (x.w32 a j).toNat then { e with lock := false } else e })
  | _ => none

/-- The lanes of act that an operand does not fault, and the PROT of the others. -/
def Sys2Proof.allowed (x : Issue) (ok : Nat → Bool) : List Nat := x.act.filter ok
def Sys2Proof.refusedLanes (x : Issue) (ok : Nat → Bool) : List (Nat × Flt) := (x.act.filter fun j => !ok j).map fun j => (j, Flt.mk' Code.prot)

/-- Whether an offset lies in the lines of a team that has a tag table (R213, R228). -/
def Sys2Proof.lineIn (m : Team) (x : Issue) (a : Src) (j : Nat) : Bool := decide (m.sets ≠ 0 ∧ (x.w32 a j).toNat < 512 * m.spadLines)

/-- R213, R225 to R229: tlk gives each lane the look-up word of its address in the team's tag table, and raises PROT in a team without one; tset fills the slot a lane names with the
line of its address, where the slot is of that line's set, and moves the set's pointer past it; tinv empties it, tlck and tulk set and clear its lock, lane by lane; prsq gives the eight
presence bits of a line, and prsc sets or clears those that SB names, the lanes parked on a sector that becomes present going on. The lanes whose operand is out of range raise PROT and
have no effect, while the others complete. The frame: no register but tlk's and prsq's destination changes, and no byte of memory. -/
def Obligations.TagsAndPresence : Prop :=
  TagTables ∧
  (∀ i ok f s x t tm, tagForm i = some (ok, f) → opening i s = some (x, t) → t.team? x.tid = some tm →
    ∃ w, Ends i s x [] w (refusedLanes x (ok x tm)) ∧ TeamStep x.tid t w fun m => (allowed x (ok x tm)).foldl (fun m j => f x j m) m) ∧
  ∀ s x t tm, t.team? x.tid = some tm →
    (∀ h d a, opening (.tlk h d a) s = some (x, t) →
      (tm.sets ≠ 0 → Completes (.tlk h d a) s x t (Received x d (fun j => BitVec.ofNat 64 (tm.lookup (x.w64 a j))) 0)) ∧
      (tm.sets = 0 → FaultsAll (.tlk h d a) s x t (Flt.mk' Code.prot))) ∧
    (∀ h d a, opening (.prsq h d a) s = some (x, t) →
      ∃ val w, Ends (.prsq h d a) s x [] w (refusedLanes x (lineIn tm x a)) ∧ GroupStep x.tid x.gix t w (Received { x with act := allowed x (lineIn tm x a) } d val 0) ∧
        ∀ j ∈ x.act, ∀ i, (val j).getLsbD i = (decide (i < 8) && !(tm.absent.contains ((x.w32 a j).toNat / 512 * 8 + i)))) ∧
    ∀ h set a b (named : Nat → Prop), opening (.prsc h set a b) s = some (x, t) →
      (∀ n, named n ↔ ∃ j ∈ allowed x (lineIn tm x a), ∃ i, i < 8 ∧ (x.w32 b j).getLsbD i = true ∧ n = (x.w32 a j).toNat / 512 * 8 + i) →
      ∃ w m, Ends (.prsc h set a b) s x [] w (refusedLanes x (lineIn tm x a)) ∧ w = { t with teams := w.teams } ∧ RegsKept t w ∧ w.team? x.tid = some m ∧
        (∀ n, n ∈ m.absent ↔ if set = true then n ∈ tm.absent ∧ ¬ named n else n ∈ tm.absent ∨ named n) ∧
        m = { tm with absent := m.absent, groups := m.groups } ∧ (∀ tid, tid ≠ x.tid → ∀ u, t.team? tid = some u → ∃ u', w.team? tid = some u' ∧ u' = { u with groups := u'.groups }) ∧
        ∀ tid gix g (j : Nat) l, t.group? tid gix = some g → g.lanes[j]? = some l → ∃ g' l', w.group? tid gix = some g' ∧ g' = { g with lanes := g'.lanes } ∧ g'.lanes[j]? = some l' ∧
          ((∃ sec, l.st = .parked (.sector x.tid sec) ∧ named sec) ∧ set = true → l' = l.wake l.pc false) ∧
          (¬((∃ sec, l.st = .parked (.sector x.tid sec) ∧ named sec) ∧ set = true) → l' = l)

/-- The lanes of act park for one reason; no register and nothing else of the group changes. -/
def Sys2Proof.Parked (x : Issue) (why : Park) (g g' : Group) : Prop :=
  g' = { g with lanes := g'.lanes } ∧ g'.lanes.length = g.lanes.length ∧
  ∀ j l, g.lanes[j]? = some l → g'.lanes[j]? = some (if j ∈ x.act then { l with st := .parked why } else l)

/-- No choice of a context is logged or matched against a log. -/
def Sys2Proof.Unlogged (t : State) (ctx : Nat) : Prop := ∀ k, t.ctx? ctx = some k → k.log = false ∧ k.replay = false

/-- The choice site of a change of a team-shared object lets it happen: from `v`, `v'` has its postmark appended to the log of a logged context, or consumed in a replayed one;
they are the same otherwise (R405, R407). -/
def Sys2Proof.Marked (x : Issue) (cls obj : Nat) (v v' : State) : Prop := v.choice x.c.ctx 8 (cls * 2 ^ 10 + obj) (x.team.t % 2 ^ 31 * 2 ^ 17 + x.party) = .go v'

/-! ### Class OPQ -/

/-- The operators of class OPQ: which one, whether it returns the old value, its colour and destination, and each lane's address, operand and comparand. -/
def Sys2Proof.operatorForm : Instr → Option (Opr × Bool × BitVec 3 × Dst × (Issue → Nat → Dword) × (Issue → Nat → List Byte) × (Issue → Nat → Word))
  | .ops _ op col a b c => some (op, false, col, .none, fun x j => x.w64 a j + (x.w32 b j).signExtend 64, fun x j => x.operand op c j, fun _ _ => 0)
  | .opf _ op col d a b c => some (op, true, col, d, fun x j => x.w64 a j + (x.w32 b j).signExtend 64, fun x j => x.operand op c j, fun _ _ => 0)
  | .ocas _ col d a b c => some (.cas, true, col, d, fun x j => x.w64 a j, fun x j => x.operand .cas b j, fun x j => x.w32 c j)
  | _ => none

/-- R306, R307: ops, opf and ocas check the address of each lane of act and put one operator in flight for each lane that passes, with its place, operand, comparand, colour and
destination; a fetching one, whose word here lies on this chip unpoisoned, waits for no value and counts in OC. Lanes that fail a check stay with their faults or park for the dirty log,
while the others complete. Where OC has no room for the lanes of act a fetching operator is issued again. The frame: no register of any group changes; memory changes only by the dirty bits
and the dirty-log entries that the checks write. -/
def Sys2Proof.OperatorsIssue : Prop :=
  ∀ i op fetch col d addr data cmp s x t w, operatorForm i = some (op, fetch, col, d, addr, data, cmp) → opening i s = some (x, t) →
    w = t.postSpots x (addr x) (opSize op) (if fetch then .both else .write) →
    (fetch = true → 65535 < x.g.oc + x.act.length → ∃ sl, s.slot = some sl ∧ exec i s = .next (waitAgain t sl)) ∧
    ((fetch = true → x.g.oc + x.act.length ≤ 65535 ∧ ∀ p ∈ w.got, ∀ place alg cls, goesTo p place alg cls → w.s.risky place (opSize op) = false) →
      ∃ v, Ends i s x ((spotParks w.got).map (·.1)) v (spotFaults w.got) ∧ (∀ b, Cells.get v.mem b = Cells.get w.s.mem b) ∧ RegsKept t v ∧
        (∃ g', v.group? x.tid x.gix = some g' ∧ g'.oc = x.g.oc + (if fetch then (w.got.filter fun p => match p.2.2 with | .ok _ _ _ => true | _ => false).length else 0) ∧
          ∀ (j : Nat) l, g'.lanes[j]? = some l → ∀ why, (j, why) ∈ spotParks w.got → l.st = .parked why) ∧
        ∀ p ∈ w.got, ∀ place alg cls, goesTo p place alg cls → ∃ a ∈ v.accs, a.kind = (if fetch then .fetch op else .post op) ∧ a.tid = x.tid ∧ a.gix = x.gix ∧
          a.lane = p.1 ∧ a.place = place ∧ a.size = opSize op ∧ a.data = data x p.1 ∧ a.cmp = cmp x p.1 ∧ a.colour = col.toNat ∧ a.d = d ∧ a.arrived = false ∧ a.val = none)

/-- Why the offset of a lane's local atomic faults: PROT beyond the scratchpad, then ALIGN (R219, R230). -/
def Sys2Proof.satFault (m : Team) (n off : Nat) : Option Flt :=
  if 512 * m.spadLines < off + n then some (Flt.mk' Code.prot) else if off % n ≠ 0 then some (Flt.mk' Code.align) else none

/-- R230, R231: sat runs lane by lane in rising order, behind the lanes' earlier loads and stores and the core's stores to the scratchpad, on the lanes whose word lies aligned in a present
sector of the scratchpad: each lane's word takes the operator's result and the lane receives the old value, which for a later lane on the same word is what the earlier one left. A lane beyond the
scratchpad raises PROT, a misaligned one ALIGN, and one on an absent sector parks on it. The frame: each step changes that word and that lane's result only. -/
def Obligations.LocalAtomics : Prop :=
  (∀ h op col d a b c s x t tm (off : Nat → Nat) good late v, opening (.sat h op col d a b c) s = some (x, t) → t.team? x.tid = some tm → (∀ j, off j = (x.w32 a j).toNat) →
    good = x.act.filter (fun j => (satFault tm (opSize op) (off j)).isNone && !tm.absent.contains (off j / 64)) →
    late = x.act.filter (fun j => (satFault tm (opSize op) (off j)).isNone && tm.absent.contains (off j / 64)) →
    v = (t.await false x.tid x.gix good ⟨true, true, false⟩ true 255 .pod).force (fun y => y.core == x.core && y.kind.isStore && y.path.isSome &&
      (match y.place with | .spad u _ => u == x.tid | _ => false)) → v.blocked = false →
    ∃ w u, u = good.foldl (fun s j => s.satLane x op d (fun j => (x.val (opRd op) b j).toNat) (fun j => (c.map fun f => x.w32 f j).getD 0) j (off j)) v ∧
      Ends (.sat h op col d a b c) s x late w (x.act.filterMap fun j => (satFault tm (opSize op) (off j)).map fun f => (j, f)) ∧
      GroupStep x.tid x.gix u w fun g g' => g' = { g with lanes := g'.lanes } ∧ g'.lanes.length = g.lanes.length ∧
        ∀ j l, g.lanes[j]? = some l → g'.lanes[j]? = some (if j ∈ late then { l with st := .parked (.sector x.tid (off j / 64)) } else l)) ∧
  ∀ (s : State) x op d v cmp j off tm g, s.team? x.tid = some tm → s.group? x.tid x.gix = some g → Cells.wf tm.spad = true →
    ∃ old tm' g' m, old = leNat (Cells.bytes tm.spad off (opSize op)) ∧ (s.satLane x op d v cmp j off).team? x.tid = some tm' ∧ (s.satLane x op d v cmp j off).mem = s.mem ∧
      (∀ n, Cells.get tm'.spad n = if off ≤ n ∧ n < off + opSize op then (toLe (opSize op) (opNew op old (v j) (cmp j).toNat)).getD (n - off) 0 else Cells.get tm.spad n) ∧
      (s.satLane x op d v cmp j off).group? x.tid x.gix = some g' ∧ Received { x with act := [j] } d (fun _ => BitVec.ofNat 64 old) 0 g m ∧
      g' = { m with stale := g'.stale }

/-- R309, R310, R311: txb opens a group at the agent of its address, with its row, in a free slot, and gives every lane the handle; it raises the fault of its address, PROT for a word of another
chip, or TXOV where no slot is free or an open group holds the row.
The model's choice, log 34: txb raises TXOV also where an open group holds its row; log 60: the slot is any free one. -/
def Sys2Proof.TransactionsBegin : Prop :=
  ∀ h d a s x t, opening (.txb h d a) s = some (x, t) → x.act ≠ [] →
    (∀ f v, t.checkVa x.core x.c (x.w64 a x.low) 4 1 .write true true = (.error f, v) → FaultsAll (.txb h d a) s x v f) ∧
    ∀ k v n ag, t.checkVa x.core x.c (x.w64 a x.low) 4 1 .write true true = (.ok k, v) → n = stackOf k.gpa → ag = v.agent n →
      (v.onChip k.gpa = false → FaultsAll (.txb h d a) s x v (Flt.at' Code.prot (x.w64 a x.low))) ∧
      (v.onChip k.gpa = true → (∃ slot, slot < 64 ∧ ∀ y ∈ ag.txs, y.slot ≠ slot) → ag.holdsRow (k.gpa / 2048) = false →
        ∃ slot w, slot < 64 ∧ (∀ y ∈ ag.txs, y.slot ≠ slot) ∧ CompletesTo (.txb h d a) s x [] (fun _ => x.next) w ∧
          GroupStep x.tid x.gix (State.visit { (v.modAgent n fun _ => { ag with serial := ag.serial + 1, txs := ag.txs ++ [⟨slot, ag.serial, x.tid, false, [⟨k.gpa / 2048, []⟩]⟩] }) with
            fresh := v.fresh + 1 } x.c.ctx (.core x.core) 0 k.gpa true) w (Received x d (fun _ => BitVec.ofNat 64 (ag.serial.toNat * 65536 + n % 16 * 64 + slot)) 0)) ∧
      (v.onChip k.gpa = true → ((∀ slot, slot < 64 → ∃ y ∈ ag.txs, y.slot = slot) ∨ ag.holdsRow (k.gpa / 2048) = true) →
        FaultsAll (.txb h d a) s x (v.visit x.c.ctx (.core x.core) 0 k.gpa true) (Flt.at' Code.txov (x.w64 a x.low)))

/-- One lane of txs after another, each in the state that the one before left: the checks of its address, those of its row, the dirty bit, and the write put in flight. -/
def Sys2Proof.txSpots (x : Issue) (hd : Word) (col : BitVec 3) (instr : Nat) (va : Nat → Dword) (bs : Nat → List Byte) (s : State) : Spots :=
  x.act.foldl (fun (r : Spots) j =>
    let q := r.s.txLane x hd col instr r.seen j (va j) (bs j)
    ⟨q.2.2, q.2.1, r.got ++ [(j, va j, q.1)]⟩) ⟨s, [], []⟩

/-- R310, R311: txs checks each lane's address and row, a word of another agent or chip giving PROT and a 65th row or a row of another open group TXOV, sets the page's dirty bit, puts the
lane's write in flight and its row in the group; lanes that fail stay or park, without a trace of the checks after the one that failed, and the others complete. In an aborted group it does
nothing.
The model's choice, log 34: the order of these checks. -/
def Sys2Proof.TransactionalStores : Prop :=
  (∀ h col a b c s x t g n, opening (.txs h col a b c) s = some (x, t) → t.tx? x.tid (x.u32 a) = some g → n = (if c.isPair then 8 else 4) →
    (g.aborted = true → CompletesTo (.txs h col a b c) s x [] (fun _ => x.next) t) ∧
    (∀ sp, g.aborted = false → sp = txSpots x (x.u32 a) col t.nextId (x.w64 b) (x.bytesOf c n) { t with nextId := t.nextId + 1 } →
      ∃ w, Ends (.txs h col a b c) s x ((spotParks sp.got).map (·.1)) w (spotFaults sp.got) ∧ (∀ m, Cells.get w.mem m = Cells.get sp.s.mem m) ∧ RegsKept t w ∧
        ∀ p ∈ sp.got, ∀ gpa, goesTo p (.mem gpa) 0 0 → (∃ g' r, w.tx? x.tid (x.u32 a) = some g' ∧ r ∈ g'.rows ∧ r.row = gpa / 2048) ∧
          ∃ r ∈ w.accs, r.kind = .tx (x.u32 a) ∧ r.tid = x.tid ∧ r.gix = x.gix ∧ r.lane = p.1 ∧ r.place = .mem gpa ∧ r.data = x.bytesOf c n p.1 ∧ r.colour = col.toNat)) ∧
  ∀ (s : State) x hd col instr seen j va bs k seen' s' g, s.checkSeen seen x.core x.c va bs.length bs.length .write true true = (.ok k, seen', s') → s'.tx? x.tid hd = some g →
    ((s'.onChip k.gpa = false ∨ stackOf k.gpa ≠ txStack hd) → s.txLane x hd col instr seen j va bs = (.flt (Flt.at' Code.prot va), seen', s')) ∧
    (s'.onChip k.gpa = true → stackOf k.gpa = txStack hd → (∀ r ∈ g.rows, r.row ≠ k.gpa / 2048) → (64 ≤ g.rows.length ∨ (s'.agent (txStack hd)).holdsRow (k.gpa / 2048) = true) →
      s.txLane x hd col instr seen j va bs = (.flt (Flt.at' Code.txov va), seen', s')) ∧
    (s'.onChip k.gpa = true → stackOf k.gpa = txStack hd → ((∃ r ∈ g.rows, r.row = k.gpa / 2048) ∨ (g.rows.length < 64 ∧ (s'.agent (txStack hd)).holdsRow (k.gpa / 2048) = false)) →
      (s'.dirty x.c.ctx va k.leaf = .full → s.txLane x hd col instr seen j va bs = (.park .dirtyLog, seen', s')) ∧
      ∀ v, s'.dirty x.c.ctx va k.leaf = .done v → (s.txLane x hd col instr seen j va bs).1 = .ok (.mem k.gpa) 0 0 ∧ (s.txLane x hd col instr seen j va bs).2.2.mem = v.mem)

/-- R310, R311: txc waits until the group's writes have reached the agent; then it commits an open group and answers 0, or 1 for an aborted one, and closes it. txa closes it. A handle that names no
group of the team raises PROT; with no lane in act nothing happens. The bytes that a commit stores are those recorded, in runs within one doubleword. -/
def Sys2Proof.TransactionsEnd : Prop :=
  (∀ h d a s x t v g b, opening (.txc h d a) s = some (x, t) → x.act ≠ [] → t.tx? x.tid (x.u32 a) ≠ none → v = t.awaitTx x (x.u32 a) → v.tx? x.tid (x.u32 a) = some g →
    b = (if g.aborted then v else v.commitTx x.c.ctx x.party g).closeTx (x.u32 a) → b.blocked = false →
    b.tx? x.tid (x.u32 a) = none ∧ ∃ w, CompletesTo (.txc h d a) s x [] (fun _ => x.next) w ∧
      GroupStep x.tid x.gix (b.tellTx x (x.u32 a)) w (Received x d (fun _ => if g.aborted then 1 else 0) 0)) ∧
  (∀ (r : TxRow) o b, o < 2048 → r.bytes.find? (·.1 == o) = some (o, b) →
    ∃ p ∈ r.runs, p.1 ≤ r.row * 2048 + o ∧ p.1 / 8 = (r.row * 2048 + o) / 8 ∧ p.2[r.row * 2048 + o - p.1]? = some b) ∧
  (∀ h a s x t g, opening (.txa h a) s = some (x, t) → x.act ≠ [] → t.tx? x.tid (x.u32 a) = some g →
    CompletesTo (.txa h a) s x [] (fun _ => x.next) ((t.closeTx (x.u32 a)).tellTx x (x.u32 a)) ∧ (t.closeTx (x.u32 a)).tx? x.tid (x.u32 a) = none) ∧
  (∀ i a s x t, ((∃ h col b c, i = .txs h col a b c) ∨ (∃ h d, i = .txc h d a) ∨ ∃ h, i = .txa h a) → opening i s = some (x, t) → x.act ≠ [] →
    t.tx? x.tid (x.u32 a) = none → FaultsAll i s x t (Flt.mk' Code.prot)) ∧
  ∀ i s x t, ((∃ h d a, i = .txb h d a) ∨ (∃ h d a, i = .txc h d a) ∨ ∃ h a, i = .txa h a) → opening i s = some (x, t) → x.act = [] →
    CompletesTo i s x [] (fun _ => x.next) t

/-- R309, R310, R311: what txb, txs, txc and txa do. The frame: no register but a destination changes; a commit stores into pigeonholes, and nothing else writes a byte but the dirty bits of
txs. -/
def Obligations.TransactionalGroups : Prop := TransactionsBegin ∧ TransactionalStores ∧ TransactionsEnd

/-- The records of ewk that pass their checks: the lane, the record's address and its place. -/
def Sys2Proof.recordLanes (l : List (Nat × Dword × Spot)) : List (Nat × Dword × Nat) :=
  l.filterMap fun p => match p.2.2 with | .ok (.mem gpa) _ cls => if cls = 2 then none else some (p.1, p.2.1, gpa) | _ => none

/-- R315: ewk checks each lane's record as an access of 64 bytes, which a class-2 page refuses with PROT; where the walkers have room for those that pass, it
posts each to the walker of its address, behind the lanes' earlier accesses, and completes; else it is issued again. The lanes that fail stay with their
faults. What the walker finds there is memory as it then stands, where entries wait with or without what they do. The frame: no register of any group changes,
and where no entry waits no byte does from then on; the walker does so later. The model's choice, log 16: which of what waits has retired by then. -/
def Sys2Proof.WalkerRecords : Prop :=
  ∀ h a b s x t w good v, opening (.ewk h a b) s = some (x, t) → w = t.spots x x.act (fun _ => .virt) (fun j => x.w64 a j + (x.w32 b j).signExtend 64) 64 false →
    good = recordLanes w.got → v = w.s.await false x.tid x.gix (good.map (·.1)) ⟨true, true, true⟩ true 255 .pod →
    ((∃ n, n < 16 ∧ 256 < (w.s.agent n).walker.length + (good.filter fun p => stackOf p.2.2 == n).length) → ∃ sl, s.slot = some sl ∧ exec (.ewk h a b) s = .next (waitAgain w.s sl)) ∧
    ((∀ n, n < 16 → (w.s.agent n).walker.length + (good.filter fun p => stackOf p.2.2 == n).length ≤ 256) → v.blocked = false → v.agents.length = 16 →
      ∃ u, Ends (.ewk h a b) s x [] u (w.got.filterMap fun p => match p.2.2 with
          | .flt f => some (p.1, f) | .ok _ _ cls => if cls = 2 then some (p.1, Flt.at' Code.prot p.2.1) else none | _ => none) ∧
        (NoneOpen v → ∀ m, Cells.get u.mem m = Cells.get v.mem m) ∧ RegsKept v u ∧
        ∀ p ∈ good, ∃ snap, ⟨p.2.1, x.c.ctx, some x.tid, snap⟩ ∈ (u.agent (stackOf p.2.2)).walker ∧ (NoneOpen v → snap = v.asItStands))

/-- R306, R307, R315: what operators put in flight, and what ewk posts. -/
def Obligations.OperatorsAndRecordsIssue : Prop := OperatorsIssue ∧ WalkerRecords

/-! ### Class SYN -/

/-- R270, R271, R375, R415: fnc brings the lanes' earlier accesses that it names, and the stores that they have read, as far as its scope asks, and where it orders loads of colour 0 at dev
scope or wider the group's later fetches see memory as it then is; a store of a lane to this chip that it names is in memory afterwards. ofnc performs the core's stores to the team's
scratchpad and pool, and the engines' ports then see every store. wt lets the lanes of act go on with invalid latches where the counter is low enough, and parks them otherwise. With no lane in
act nothing happens. The frame: nothing else of the group, and from the accesses' performing on no byte, changes.
The model's choice, log 29: a wt that need not wait leaves its latches invalid; log 36: how far a fence brings an access of class 2 or of another chip. -/
def Obligations.FencesAndCounters : Prop :=
  (∀ i s x t, ((∃ h ks sc a, i = .fnc h ks sc a) ∨ ∃ h, i = .ofnc h) → opening i s = some (x, t) → x.act = [] → Completes i s x t fun g g' => g' = g) ∧
  (∀ h ks sc a s x t v, opening (.fnc h ks sc a) s = some (x, t) → x.act ≠ [] → v = t.await true x.tid x.gix x.act ks ks.ld a.immVal.toNat sc → v.blocked = false →
    ∃ w, CompletesTo (.fnc h ks sc a) s x [] (fun _ => x.next) w ∧ GroupStep x.tid x.gix v w fun g g' =>
      g' = if ks.ld = true ∧ 3 ≤ sc.code ∧ a.immVal.toNat.testBit 0 = true then { g with ahead := some v.asItStands } else g) ∧
  (∀ h ks sc a s x t, opening (.fnc h ks sc a) s = some (x, t) → x.act ≠ [] → t.accs = [] →
    Completes (.fnc h ks sc a) s x t fun g g' => g' = if ks.ld = true ∧ 3 ≤ sc.code ∧ a.immVal.toNat.testBit 0 = true then { g with ahead := some t.asItStands } else g) ∧
  (∀ h ks sc a s x t st gpa, opening (.fnc h ks sc a) s = some (x, t) → t.accs = [st] → st.kind = .store → st.tid = x.tid → st.gix = x.gix → st.lane ∈ x.act → st.arrived = false →
    st.val = none → ks.st = true → a.immVal.toNat.testBit st.colour = true → 2 ≤ sc.code → st.place = .mem gpa → t.onChip gpa = true → isDevice gpa = false → st.cls ≠ 2 → st.alg = 0 →
    (∀ k, gpa / 8 ≤ k → k < (gpa + st.data.length + 7) / 8 → t.hole? k = none) →
    ∃ u, exec (.fnc h ks sc a) s = .next u ∧ u.accs = [] ∧ u.mem = Cells.setBytes t.mem gpa st.data ∧ RegsKept t u) ∧
  (∀ h s x t v, opening (.ofnc h) s = some (x, t) → x.act ≠ [] → v = t.force (fun a => a.core == x.core && a.kind.isStore && (match a.place with
      | .spad tid _ => tid == x.tid | .pool l c _ => l == x.team.lid && c == clusterOf x.core | _ => false)) → v.blocked = false →
    ∃ w, CompletesTo (.ofnc h) s x [] (fun _ => x.next) w ∧ GroupStep x.tid x.gix v w fun g g' => g' = { g with stale := [] }) ∧
  ∀ h ctr a s x t, opening (.wt h ctr a) s = some (x, t) →
    (x.g.counter ctr ≤ (x.u32 a).toNat → Completes (.wt h ctr a) s x t fun g g' => g' = { g with lanes := g'.lanes } ∧ g'.lanes.length = g.lanes.length ∧
      ∀ j l, g.lanes[j]? = some l → g'.lanes[j]? = some (if j ∈ x.act then l.invalidate else l)) ∧
    ((x.u32 a).toNat < x.g.counter ctr → ∃ w, CompletesTo (.wt h ctr a) s x x.act (fun _ => x.next) w ∧
      GroupStep x.tid x.gix t w (Parked x (.counter ctr (x.u32 a).toNat x.next)))

/-- R376 to R381: bari sets a barrier's count, or raises BARCNT; bara and bard count one arrival, behind the lanes' earlier accesses at team scope, and give every lane the phase before it: with
the last arrival the phase grows by one, the arrivals start again at 0 and the count falls by the drops; a bad count raises BARCNT. The lanes that wait for a phase that ends go on. barw goes on
where the phase of the token has ended, or the parity differs, and gives 1 where the token is stale; else its lanes park until the phase ends. With no lane in act bari, bara and bard do nothing.
The frame: no other register and, but for the accesses that are performed first and a postmark of a log, no byte changes. -/
def Obligations.Barriers : Prop :=
  (∀ i s x t, ((∃ h a b, i = .bari h a b) ∨ (∃ h d a b, i = .bara h d a b) ∨ ∃ h d a b, i = .bard h d a b) → opening i s = some (x, t) → x.act = [] →
    CompletesTo i s x [] (fun _ => x.next) t) ∧
  (∀ h a b s x t tm n r, opening (.bari h a b) s = some (x, t) → t.team? x.tid = some tm → x.act ≠ [] → n = a.immVal.toNat % 32 → r = tm.bar n →
    (((x.u32 b).toNat = 0 ∨ 255 < (x.u32 b).toNat ∨ (r.arr ≠ 0 ∧ (x.u32 b).toNat ≠ r.count)) → FaultsAll (.bari h a b) s x t (Flt.mk' Code.barcnt)) ∧
    ((x.u32 b).toNat ≠ 0 → (x.u32 b).toNat ≤ 255 → (r.arr = 0 ∨ (x.u32 b).toNat = r.count) → ∀ t', Marked x 0 n t t' →
      ∃ w, CompletesTo (.bari h a b) s x [] (fun _ => x.next) w ∧ TeamStep x.tid t' w fun m => m.setBar n { r with count := (x.u32 b).toNat })) ∧
  (∀ i drops d a b s x t v tm n c r, ((∃ h, i = .bara h d a b ∧ drops = 0) ∨ ∃ h, i = .bard h d a b ∧ drops = 1) → opening i s = some (x, t) → x.act ≠ [] →
    v = t.await false x.tid x.gix x.act ⟨true, true, true⟩ true 255 .team → v.blocked = false → v.team? x.tid = some tm → n = a.immVal.toNat % 32 → c = (x.u32 b).toNat → r = tm.bar n →
    ((255 < c ∨ (c = 0 ∧ r.count = 0) ∨ (c ≠ 0 ∧ r.arr ≠ 0 ∧ c ≠ r.count)) → FaultsAll i s x v (Flt.mk' Code.barcnt)) ∧
    (∀ k v', c ≤ 255 → (c ≠ 0 ∨ r.count ≠ 0) → (c = 0 ∨ r.arr = 0 ∨ c = r.count) → k = (if c ≠ 0 ∧ r.arr = 0 then c else r.count) → Marked x 0 n v v' →
      ∃ u w, GroupStep x.tid x.gix v' u (Received x d (fun _ => r.phase.zeroExtend 64) 0) ∧ CompletesTo i s x [] (fun _ => x.next) w ∧
        TeamStep x.tid u w fun m => m.setBar n (if r.arr + 1 = k then ⟨0, r.phase + 1, k - (r.drop + drops), 0⟩ else ⟨r.drop + drops, r.phase, k, r.arr + 1⟩))) ∧
  (∀ h par d a b s x t tm n ph, opening (.barw h par d a b) s = some (x, t) → t.team? x.tid = some tm → n = a.immVal.toNat % 32 → ph = (tm.bar n).phase →
    (∀ val, (par = true → ph.getLsbD 0 ≠ (x.u32 b).getLsbD 0 ∧ val = 0) →
      (par = false → ph ≠ (x.u32 b).extractLsb' 0 16 ∧ val = if ph = (x.u32 b).extractLsb' 0 16 + 1 then 0 else 1) →
      Completes (.barw h par d a b) s x t (Received x d (fun _ => val) 0)) ∧
    (((par = true ∧ ph.getLsbD 0 = (x.u32 b).getLsbD 0) ∨ (par = false ∧ ph = (x.u32 b).extractLsb' 0 16)) →
      ∃ w, CompletesTo (.barw h par d a b) s x x.act (fun _ => x.next) w ∧ GroupStep x.tid x.gix t w fun g g' =>
        ∃ m, Received x d (fun _ => 0) 0 g m ∧ Parked x (.barrier n ph x.next) m g')) ∧
  (∀ (m : Team) n b, Cells.wf m.bars = true → b.drop < 256 → b.count < 256 → b.arr < 256 → (m.setBar n b).bar n = b ∧ (∀ k, k ≠ n → (m.setBar n b).bar k = m.bar k) ∧
    m.setBar n b = { m with bars := (m.setBar n b).bars, groups := m.groups.map fun g => { g with lanes := g.lanes.map (Lane.leaveBarrier n b.phase) } }) ∧
  ∀ (l : Lane) n m p ph succ, l.st = .parked (.barrier m p succ) → l.leaveBarrier n ph = if m = n ∧ p ≠ ph then l.wake succ false else l

/-- The wait that a wfl of the lanes of act stands for. -/
def Sys2Proof.waitOf (x : Issue) (cond : WflCond) (d : Dst) (a b : Src) (k : Checked) : Wfl := ⟨x.act, x.u64 a, k.gpa, Pte.alg k.leaf.e, cond, x.u32 b, d, x.next, none⟩

/-- R382: wfl checks the word of its address, PROT on a class-2 page and RNGC in a range; it tests the word by a load of the lanes, and where the condition holds of the word and SB it gives kD the word, orders
the lanes' earlier loads and the group's fetches and goes on with invalid latches; where the word is in error it raises ECCU; otherwise the lanes of act park with the wait, whose test may still be under way.
The model's choice, log 29: a wfl that completes at once leaves its latches invalid; log 38: PROT of class 2 comes before RNGC, and a poisoned word raises
ECCU. -/
def Sys2Proof.WaitsForWords : Prop :=
  ∀ h cond d a b s x t, opening (.wfl h cond d a b) s = some (x, t) →
    (x.act = [] → CompletesTo (.wfl h cond d a b) s x [] (fun _ => x.next) t) ∧
    (∀ f v, x.act ≠ [] → t.checkVa x.core x.c (x.u64 a) 4 4 .read false false = (.error f, v) → FaultsAll (.wfl h cond d a b) s x v f) ∧
    ∀ k v, x.act ≠ [] → t.checkVa x.core x.c (x.u64 a) 4 4 .read false false = (.ok k, v) →
      (Pte.cls k.leaf.e = 2 → FaultsAll (.wfl h cond d a b) s x v (Flt.at' Code.prot (x.u64 a))) ∧
      (Pte.cls k.leaf.e ≠ 2 → rangeHit x.c (dieOf x.core) (x.u64 a).toNat 4 = true → FaultsAll (.wfl h cond d a b) s x v (Flt.at' Code.rngc (x.u64 a))) ∧
      (∀ id p, Pte.cls k.leaf.e ≠ 2 → rangeHit x.c (dieOf x.core) (x.u64 a).toNat 4 = false → v.probe x.core x.tid x.gix x.c.ctx (waitOf x cond d a b k) = (id, p) →
        (∀ y e, p.tested id (waitOf x cond d a b k) = .holds y → e = (p.endProbe x.core x.c.ctx id).endWfl x.tid x.gix (waitOf x cond d a b k) y → e.blocked = false →
          ∃ w, CompletesTo (.wfl h cond d a b) s x [] (fun _ => x.next) w ∧ GroupStep x.tid x.gix e w fun g g' => g' = g.eachLane x.act Lane.invalidate) ∧
        (p.tested id (waitOf x cond d a b k) = .bad → FaultsAll (.wfl h cond d a b) s x (p.endProbe x.core x.c.ctx id) (p.eccuOf (.mem k.gpa) (x.u64 a))) ∧
        (∀ q left, (p.tested id (waitOf x cond d a b k) = .again ∧ q = p.endProbe x.core x.c.ctx id ∧ left = none) ∨
            (p.tested id (waitOf x cond d a b k) = .waiting ∧ q = p ∧ left = some id) → q.blocked = false →
          ∃ w, CompletesTo (.wfl h cond d a b) s x x.act (fun _ => x.next) w ∧ GroupStep x.tid x.gix q w fun g g' =>
            ∃ m, Parked x (.word x.next) g m ∧ g' = { m with wfls := m.wfls ++ [{ waitOf x cond d a b k with probe := left }] })) ∧
      -- with nothing else outstanding and no entry at the word, the test is of the word as memory holds it
      (Pte.cls k.leaf.e ≠ 2 → Pte.alg k.leaf.e = 0 → rangeHit x.c (dieOf x.core) (x.u64 a).toNat 4 = false → t.accs = [] → k.gpa % 4 = 0 → v.onChip k.gpa = true → isDevice k.gpa = false →
        v.hole? (k.gpa / 8) = none → v.poisoned k.gpa 4 = false →
        (wflHolds cond (BitVec.ofNat 32 (v.readNat k.gpa 4)) (x.u32 b) = true →
          ∃ w u g' m, exec (.wfl h cond d a b) s = .next u ∧ Settles x [] (fun _ => x.next) w u ∧ (∀ n, Cells.get u.mem n = Cells.get t.mem n) ∧ w.group? x.tid x.gix = some g' ∧
            Received x d (fun _ => BitVec.ofNat 64 (v.readNat k.gpa 4)) 0 { x.g with ahead := some v.asItStands } m ∧ g' = m.eachLane x.act Lane.invalidate) ∧
        (wflHolds cond (BitVec.ofNat 32 (v.readNat k.gpa 4)) (x.u32 b) = false →
          ∃ w u g' m, exec (.wfl h cond d a b) s = .next u ∧ Settles x x.act (fun _ => x.next) w u ∧ (∀ n, Cells.get u.mem n = Cells.get t.mem n) ∧ w.group? x.tid x.gix = some g' ∧
            Parked x (.word x.next) x.g m ∧ g' = { m with wfls := m.wfls ++ [waitOf x cond d a b k] }))

/-- R384: phs, behind the lanes' earlier accesses at its scope, parks the lanes of act and asks for a phase end of that scope; with no lane in act it does nothing. -/
def Sys2Proof.WaitsForPhases : Prop :=
  ∀ h idle sc s x t, opening (.phs h idle sc) s = some (x, t) →
    (x.act = [] → CompletesTo (.phs h idle sc) s x [] (fun _ => x.next) t) ∧
    ∀ v, x.act ≠ [] → v = t.await false x.tid x.gix x.act ⟨true, true, true⟩ true 255 sc → v.blocked = false →
      ∃ w, CompletesTo (.phs h idle sc) s x x.act (fun _ => x.next) w ∧
        w.ctxs = v.ctxs.map (fun k => if k.ctx = x.c.ctx then { k with phases := k.phases ++ [.lanes x.tid x.gix (sc == .pod) idle] } else k) ∧
        GroupStep x.tid x.gix { v with ctxs := w.ctxs } w (Parked x (.phase (sc == .pod) x.next))

/-- R382, R384: wfl and phs. The frame: but for kD no register changes, and no byte but by the accesses that are performed first. -/
def Obligations.WaitsForWordsAndPhases : Prop := WaitsForWords ∧ WaitsForPhases

/-! ### Class MTX -/

/-- R246, R247: aalc raises ACCH for a count outside 1 to 32 or without a free run of logical banks; where nobody waits at the engine and it has the banks, it allocates them
at the lowest free run and gives every lane the handle, its words all zero; else the group waits. afre with the handle of an allocation that no request names first performs the accesses to
its words and then frees it and its banks; while a request names it, afre waits; an address that is no handle or that is not valid raises ACCH. With no lane in act neither does anything.
The frame: no other register changes, and no byte but by the accesses that are performed first.
The model's choice, log 60: the banks are the lowest that are free. -/
def Sys2Proof.Accumulators : Prop :=
  (∀ i s x t, ((∃ h d a, i = .aalc h d a) ∨ ∃ h a, i = .afre h a) → opening i s = some (x, t) → x.act = [] → CompletesTo i s x [] (fun _ => x.next) t) ∧
  (∀ h d a s x t tm n q, opening (.aalc h d a) s = some (x, t) → x.act ≠ [] → t.team? x.tid = some tm → tm.tid = x.tid → tm.core = x.core → n = (x.u32 a).toNat → q = quadOf x.core →
    ((n = 0 ∨ 32 < n ∨ tm.freeRun n = none) → FaultsAll (.aalc h d a) s x t (Flt.mk' Code.acch)) ∧
    (∀ first, 1 ≤ n → n ≤ 32 → tm.freeRun n = some first → (t.quad q).waits = [] → n ≤ (t.quad q).freeBanks.length →
      ∃ al w, al.first = first ∧ al.words = [] ∧ al.active = none ∧ al.shadow = none ∧ al.banks = (t.quad q).freeBanks.take n ∧ al.tag < 256 ∧
        CompletesTo (.aalc h d a) s x [] (fun _ => x.next) w ∧
        GroupStep x.tid x.gix { (t.modQuad q fun y => { y with owner := y.owner ++ al.banks.map fun b => (b, x.tid) }) with
          teams := (t.modTeam x.tid fun m => { m with allocSerial := BitVec.ofNat 8 (al.tag + 1), allocs := m.allocs ++ [al] }).teams } w
          (Received x d (fun _ => BitVec.ofNat 64 (al.tag * 2 ^ 24 + 256 * first)) 0)) ∧
    (∀ first, 1 ≤ n → n ≤ 32 → tm.freeRun n = some first → ((t.quad q).waits ≠ [] ∨ (t.quad q).freeBanks.length < n) →
      ∃ w, CompletesTo (.aalc h d a) s x x.act (fun _ => x.next) w ∧ GroupStep x.tid x.gix (t.modQuad q fun y => { y with waits := y.waits ++ [⟨x.tid, x.gix⟩] }) w fun g g' =>
        g' = { g with wait := some (.banks n d x.act x.next x.hold) })) ∧
  ∀ h a s x t tm, opening (.afre h a) s = some (x, t) → x.act ≠ [] → t.team? x.tid = some tm →
    (tm.aaFor (x.u32 a) 1 = none → FaultsAll (.afre h a) s x t (Flt.mk' Code.acch)) ∧
    ∀ al, tm.aaFor (x.u32 a) 1 = some al →
      (x.u32 a ≠ al.handle → FaultsAll (.afre h a) s x t (Flt.mk' Code.acch)) ∧
      (x.u32 a = al.handle → (∃ r ∈ (t.quad (quadOf x.core)).reqs, r.names x.tid al.tag = true) → t.blocked = false →
        ∃ sl, s.slot = some sl ∧ exec (.afre h a) s = .next (waitAgain t sl)) ∧
      (x.u32 a = al.handle → (∀ r ∈ (t.quad (quadOf x.core)).reqs, r.names x.tid al.tag = false) →
        ∀ v, v = t.force (fun y => match y.place with | .acc tid tag _ => tid == x.tid && tag == al.tag | _ => false) → v.blocked = false →
          CompletesTo (.afre h a) s x [] (fun _ => x.next) ((v.modTeam x.tid fun m => { m with allocs := m.allocs.filter (·.tag != al.tag) }).modQuad (quadOf x.core) fun y =>
            { y with owner := y.owner.filter fun o => !(al.banks.contains o.1) }))

/-- From `v`, a request enters the reservation table of the issuing quad, the group's MC grows by one and the team's allocations change as `f` says; no byte and nothing else of the
group changes (R239, R374). -/
structure Sys2Proof.Posts (x : Issue) (v w : State) (kind : ReqKind) (tag : Nat) (f : Team → Team) (R : MReq → Prop) : Prop where
  req : ∃ r, (w.quad (quadOf x.core)).reqs = (v.quad (quadOf x.core)).reqs ++ [r] ∧ r.kind = kind ∧ r.tid = x.tid ∧ r.gix = x.gix ∧ r.prio = x.team.prio ∧ r.tag = tag ∧
    r.grant = none ∧ r.writes = [] ∧ R r
  team : ∃ m m', v.team? x.tid = some m ∧ w.team? x.tid = some m' ∧ m' = { f m with groups := m'.groups }
  group : ∃ g, v.group? x.tid x.gix = some g ∧ w.group? x.tid x.gix = some { g with mc := g.mc + 1 }
  mem : w.mem = v.mem

/-- The ALIGN, then the PROT of a run of operand bytes, as checks in their order (R248, R249). -/
def Sys2Proof.operandChecks (t : State) (m : Team) (pool : Bool) (off n : Nat) : List (Bool × FCode) :=
  [(off % 1024 != 0, Code.align), (decide (t.spaceBytes m pool < off + n) || (pool && t.spaceBytes m pool == 0), Code.prot)]

/-- The checks of the instructions that post a request, in their order, each with its code (R248 to R250, R252): where one holds, the lanes of act raise the code of the first. -/
def Sys2Proof.requestChecks (x : Issue) (t : State) (m : Team) : Instr → List (Bool × FCode)
  | .mlds _ pool a b c => [((m.aaFor (x.u32 b) 1).isNone, Code.acch), ((x.vote c).isNone, Code.fmtdiv)] ++
      operandChecks t m pool (x.u32 a).toNat (Binding.bytes ⟨pool, 0, (x.vote c).getD 0, []⟩)
  | .mswp _ a => [((m.aaFor (x.u32 a) 1).isNone, Code.acch)]
  | .mstr _ o ty a b c =>
      let aa := (x.words b 2 0).headD 0
      let sh := (x.words b 2 0).getD 1 0
      let bound := ((m.aaFor aa (shapeM sh)).bind (·.active)).map (·.fw)
      [((m.aaFor aa (shapeM sh)).isNone, Code.acch), (shapeBad sh, Code.shape),
        ((match x.vote c with | some fw => !(bound == some fw && pairs fw ty) | none => true), Code.fmtdiv)] ++ operandChecks t m o.pool (x.u32 a).toNat (actRegion ty (shapeK sh) (shapeM sh))
  | .mlp _ o ty a b =>
      let ws := x.words a 8 0
      let n := (ws.getD 4 0).toNat
      let fw := (x.vote b).getD 0
      let sh := ws.getD 3 0
      let steps := loopSteps ws (if 65535 < n then 1 else n)
      let ops := steps.flatMap fun p => operandChecks t m o.pool p.wt (Binding.bytes ⟨o.pool, 0, fw, []⟩) ++ operandChecks t m o.pool p.act (actRegion ty (shapeK sh) (shapeM sh))
      [(steps.any fun p => (m.aaFor p.aa (shapeM sh)).isNone, Code.acch), (n == 0 || decide (65535 < n) || shapeBad sh, Code.shape), ((x.vote b).isNone || !pairs fw ty, Code.fmtdiv),
        (ops.any fun c => c.1 && c.2 == Code.align, Code.align), (ops.any (·.1), Code.prot)]
  | .mzro _ a b => [((x.u32 b).toNat == 0 || decide (8192 < (x.u32 b).toNat) || (m.aaFor (x.u32 a) (x.u32 b).toNat).isNone, Code.acch)]
  | _ => []

/-- The instructions that post a request. -/
def Sys2Proof.postsRequest (i : Instr) : Prop :=
  (∃ h pool a b c, i = .mlds h pool a b c) ∨ (∃ h a, i = .mswp h a) ∨ (∃ h m ty a b c, i = .mstr h m ty a b c) ∨ (∃ h m ty a b, i = .mlp h m ty a b) ∨ ∃ h a b, i = .mzro h a b

/-- What each posting instruction that passes its checks posts from `v`, and what it makes of the bindings. -/
def Sys2Proof.requestPosted (x : Issue) (m : Team) (v w : State) : Instr → Prop
  | .mlds _ pool a b c => ∃ al b', m.aaFor (x.u32 b) 1 = some al ∧ b'.pool = pool ∧ b'.off = (x.u32 a).toNat ∧ x.vote c = some b'.fw ∧
      Posts x v w .bind al.tag (fun m => m.modAlloc al.tag fun y => { y with shadow := some b' }) fun r => r.passes = []
  | .mswp _ a => ∃ al, m.aaFor (x.u32 a) 1 = some al ∧
      Posts x v w .bind al.tag (fun m => m.modAlloc al.tag fun y => { y with active := y.shadow, shadow := y.active }) fun r => r.passes = []
  | .mstr _ o ty a b _ => ∀ aa sh, x.words b 2 0 = [aa, sh] → ∃ al bd, m.aaFor aa (shapeM sh) = some al ∧ al.active = some bd ∧
      Posts x v w .pass al.tag (fun m => m) fun r => r.passes = [⟨al.tag, aaRow aa, o.pool, (x.u32 a).toNat, shapeM sh, shapeK sh, ty, o.ovw, o.split, bd⟩]
  | .mlp _ o ty a b => ∀ ws n, ws = x.words a 8 0 → n = (ws.getD 4 0).toNat → ∃ tag f, (m.aaFor (ws.getD 2 0) 1).map (·.tag) = some tag ∧ (∀ y, f y = { y with allocs := (f y).allocs }) ∧
      Posts x v w .pass tag f fun r => r.passes.length = n ∧ (∀ y, f y = y.loopBind (r.passes.map fun p => (p.tag, p.weights))) ∧
        ∀ (i : Nat) (p : Pass), r.passes[i]? = some p → p.row = aaRow (ws.getD 2 0 + BitVec.ofNat 32 i * ws.getD 7 0) ∧
          (m.aaFor (ws.getD 2 0 + BitVec.ofNat 32 i * ws.getD 7 0) 1).map (·.tag) = some p.tag ∧
          p.off = (ws.getD 0 0 + BitVec.ofNat 32 i * ws.getD 5 0).toNat ∧ p.weights.off = (ws.getD 1 0 + BitVec.ofNat 32 i * ws.getD 6 0).toNat ∧ x.vote b = some p.weights.fw ∧
          p.pool = o.pool ∧ p.weights.pool = o.pool ∧ p.m = shapeM (ws.getD 3 0) ∧ p.kk = shapeK (ws.getD 3 0) ∧ p.ty = ty ∧ p.split = o.split ∧
          p.ovw = (o.ovw && (i == 0 || ws.getD 7 0 != 0))
  | .mzro _ a b => ∃ al, m.aaFor (x.u32 a) (x.u32 b).toNat = some al ∧
      Posts x v w .zero al.tag (fun m => m) fun r => r.passes = [] ∧ r.zrow = aaRow (x.u32 a) ∧ r.zcount = (x.u32 b).toNat
  | _ => True

/-- R239, R241, R248 to R250, R252, R374: mlds, mswp, mstr, mlp and mzro raise the code of the first of their checks that fails, without effect. Where all pass they wait while the quad's table of
16 or MC is full; else, behind the lanes' earlier accesses, they post one request each at the end of the table and complete: mlds makes the voted format word and the tile the shadow binding, mswp
exchanges the bindings, mstr asks for one pass against the active binding, mlp for one pass a step with its own addresses, whose weights become the active binding one by one, mzro for rows of
zeros. With no lane in act they do nothing. The frame: no register and, but by the accesses that are performed first, no byte changes. -/
def Obligations.MatrixRequests : Prop :=
  ∀ i s x t tm, postsRequest i → opening i s = some (x, t) → t.team? x.tid = some tm →
    (x.act = [] → CompletesTo i s x [] (fun _ => x.next) t) ∧
    (∀ c, x.act ≠ [] → (requestChecks x t tm i).find? (·.1) = some c → FaultsAll i s x t (Flt.mk' c.2)) ∧
    (x.act ≠ [] → (∀ c ∈ requestChecks x t tm i, c.1 = false) →
      ((16 ≤ (t.quad (quadOf x.core)).reqs.length ∨ 65535 ≤ x.g.mc) → ∃ sl, s.slot = some sl ∧ exec i s = .next (waitAgain t sl)) ∧
      ∀ v, (t.quad (quadOf x.core)).reqs.length < 16 → x.g.mc < 65535 → v = t.await false x.tid x.gix x.act ⟨true, true, true⟩ false 255 .clus → v.blocked = false →
        ∃ w, CompletesTo i s x [] (fun _ => x.next) w ∧ requestPosted x tm v w i ∧ RegsKept v w)

/-- R251: macr puts a load of its word in flight for each lane of act whose word lies in the allocation, or one for all of them where the destination is uniform, and macw a store of the
lane's datum; the lanes whose word lies outside raise ACCH while the others complete, and an address that is not valid raises ACCH on every lane. The frame: no register of any group and no byte
changes.
The model's choice, log 41: a uniform destination takes one word for all lanes. -/
def Sys2Proof.AccumulatorAccesses : Prop :=
  (∀ h ty d a b c s x t tm al (row : Nat → Nat) good, opening (.macr h ty d a b c) s = some (x, t) → t.team? x.tid = some tm → tm.aaFor (x.u32 a) 1 = some al →
    (∀ j, row j = aaRow (x.u32 a) + (x.w32 b j).toNat / 64) → good = x.act.filter (fun j => decide (row j < al.endRow)) →
    ∃ w, Ends (.macr h ty d a b c) s x [] w ((x.act.filter fun j => decide (al.endRow ≤ row j)).map fun j => (j, Flt.mk' Code.acch)) ∧ w.mem = t.mem ∧ RegsKept t w ∧
      ∀ j ∈ good, ∃ r ∈ w.accs, r.kind = .load ∧ r.tid = x.tid ∧ r.gix = x.gix ∧ j ∈ r.lanes ∧ r.d = d ∧ r.val = none ∧
        (r.lane = if (match d with | .k _ _ => true | _ => false) then good.headD 0 else j) ∧
        r.place = .acc x.tid al.tag (64 * row r.lane + (x.w32 b r.lane).toNat % 64) ∧
        r.shape = (match c with | some f => .scale ty ((x.val .f32 f r.lane).extractLsb' 0 32) | none => .plain)) ∧
  (∀ h a b c s x t tm al (row : Nat → Nat), opening (.macw h a b c) s = some (x, t) → t.team? x.tid = some tm → tm.aaFor (x.u32 a) 1 = some al →
    (∀ j, row j = aaRow (x.u32 a) + (x.w32 b j).toNat / 64) →
    ∃ w, Ends (.macw h a b c) s x [] w ((x.act.filter fun j => decide (al.endRow ≤ row j)).map fun j => (j, Flt.mk' Code.acch)) ∧ w.mem = t.mem ∧ RegsKept t w ∧
      ∀ j ∈ x.act, row j < al.endRow → ∃ r ∈ w.accs, r.kind = .store ∧ r.tid = x.tid ∧ r.gix = x.gix ∧ r.lane = j ∧ r.data = toLe 4 (x.w32 c j).toNat ∧
        r.place = .acc x.tid al.tag (64 * row j + (x.w32 b j).toNat % 64)) ∧
  ∀ i a s x t tm, ((∃ h ty d b c, i = .macr h ty d a b c) ∨ ∃ h b c, i = .macw h a b c) → opening i s = some (x, t) → t.team? x.tid = some tm →
    tm.aaFor (x.u32 a) 1 = none → FaultsAll i s x { t with nextId := t.nextId + 1 } (Flt.mk' Code.acch)

/-- R246, R247, R251: allocating and freeing accumulator banks, and reading and writing their words. -/
def Obligations.AccumulatorsAndTheirWords : Prop := Accumulators ∧ AccumulatorAccesses


/-! ### Class CPY -/

/-- R316, R335: shp writes one field of a shape slot, or the whole record from the team's scratchpad where it lies aligned, in bounds and present, as the core's store path shows it; else it raises
PROT, then ALIGN, or its lanes park on the first absent sector. A slot is a team-shared object: its change is a choice site. With no lane in act it does nothing. The frame: no register and no byte of
memory changes, and of the slots only the bytes named. -/
def Sys2Proof.ShapeSlots : Prop :=
  (∀ h n a b s x t, opening (.shp h n a b) s = some (x, t) → x.act = [] → CompletesTo (.shp h n a b) s x [] (fun _ => x.next) t) ∧
  (∀ h n a b s x t tm sel off bs at' v, opening (.shp h n a b) s = some (x, t) → x.act ≠ [] → Marked x 3 n.toNat t v → t.team? x.tid = some tm → tm.tid = x.tid → sel = b.immVal.toNat → off = (x.u32 a).toNat →
    (sel = 1 ∧ at' = 0 ∧ bs = toLe 8 (x.u64 a).toNat ∨ sel = 2 ∧ at' = 84 ∧ bs = toLe 4 off ∨ 3 ≤ sel ∧ at' = 68 ∧ bs = toLe 4 off ∨
      sel = 0 ∧ at' = 0 ∧ off + 128 ≤ tm.spadBytes ∧ off % 8 = 0 ∧ (∀ k, off / 64 ≤ k → k ≤ (off + 127) / 64 → k ∉ tm.absent) ∧
        bs = forwardAt (t.pathOf x.core) (.spad x.tid off) (t.spadBytes x.tid off 128)) →
    ∃ w, CompletesTo (.shp h n a b) s x [] (fun _ => x.next) w ∧ TeamStep x.tid v w fun m => m.setSlot n.toNat at' bs) ∧
  (∀ h n a b s x t tm off, opening (.shp h n a b) s = some (x, t) → x.act ≠ [] → t.team? x.tid = some tm → tm.tid = x.tid → b.immVal.toNat = 0 → off = (x.u32 a).toNat →
    (tm.spadBytes < off + 128 → FaultsAll (.shp h n a b) s x t (Flt.mk' Code.prot)) ∧
    (off + 128 ≤ tm.spadBytes → off % 8 ≠ 0 → FaultsAll (.shp h n a b) s x t (Flt.mk' Code.align)) ∧
    ∀ sec, off + 128 ≤ tm.spadBytes → off % 8 = 0 → off / 64 ≤ sec → sec ≤ (off + 127) / 64 → sec ∈ tm.absent → (∀ k, off / 64 ≤ k → k < sec → k ∉ tm.absent) →
      ∃ w, CompletesTo (.shp h n a b) s x x.act (fun _ => x.next) w ∧ GroupStep x.tid x.gix t w (Parked x (.sector x.tid sec))) ∧
  ∀ (m : Team) n off bs, Cells.wf m.shapes = true → off + bs.length ≤ 128 → ∀ k i, i < 128 → ((m.setSlot n off bs).slotBytes k).getD i 0 =
    if k = n ∧ off ≤ i ∧ i < off + bs.length then bs.getD (i - off) 0 else (m.slotBytes k).getD i 0

/-- What a resolve by an instruction meets: its answer, or that it must wait for its place in a log (R366, R407). -/
def Sys2Proof.resolves (x : Issue) (b : Brand) (t : State) : Met := t.resolveAt x.c.ctx x.team.lcore b (·.resolveCached x.core b)

/-- The checks of a copy begin in `t'`: for a cpx once the brand of its record, which the team has claimed, resolves to a live collective group (R336, R337). -/
def Sys2Proof.copyBegins (t t' : State) (x : Issue) (m : Team) (dst : Rec) (cpx : Bool) : Prop :=
  if cpx = true then m.claim? dst.brand ≠ none ∧ ∃ r p, resolves x dst.brand t = .got r t' ∧ r.group = .ok p else t' = t

/-- The checks of a copy in their order: its records and local boxes, the pages of its source, those of a cpy's destination, and a cpx's reduction windows (R336). Gives the fault, or the places
of the elements, with the state after the checks. -/
def Sys2Proof.copyChecks (t : State) (x : Issue) (m : Team) (src dst : Rec) (ts td : Nat) (cpx : Bool) : Except Flt (List (Nat × Nat × Leaf) × List (Nat × Nat × Leaf)) × State :=
  match t.copyFault x m src dst ts td cpx with
  | some f => (.error f, t)
  | none =>
    match (if src.space == 0 then t.boxOn x.core x.c src ts false else .ok [] t) with
    | .flt f t => (.error f, t)
    | .ok sAt t =>
      match (if !cpx && dst.space == 0 then t.boxOn x.core x.c dst td true else .ok [] t) with
      | .flt f t => (.error f, t)
      | .ok dAt t =>
        match (if cpx then t.windowClash x.c dst td else (false, t)) with
        | (true, t) => (.error (Flt.mk' Code.atomio), t)
        | (false, t) => (.ok (sAt, dAt), t)

/-- R320, R327, R336, R374: cpy and cpx raise the fault of the first check that fails, a cpx that of its brand first of all, whose resolve may have to wait for
its place in a log; where all pass they wait while the copy queue, CC, the claim's staging, a port's schedule or the range table has no room; else, behind the
lanes' earlier accesses of the colours that the record names, they put one command in flight, with the records, tiles and elements that it selects and its
targets, the destination sectors of a cpy become absent, CC grows by one and cpq's report of the slot begins anew. With no lane in act they do nothing. The
frame: no register changes, and no byte but by the accesses that are performed first and the entries of pigeonholes that have retired by then. The model's
choice, log 40: the order in which elements are translated; log 44: the resolve as a choice site; log 16: which entries have retired. -/
def Sys2Proof.CopiesIssue : Prop :=
  ∀ i cpx n a b c s x t tm sb db src dst ts td targets, ((∃ h, i = .cpy h n a b c ∧ cpx = false) ∨ ∃ h, i = .cpx h n a b c ∧ cpx = true) → opening i s = some (x, t) →
    t.team? x.tid = some tm → sb = tm.slotBytes a.immVal.toNat → db = tm.slotBytes n.toNat → src = Rec.read sb → dst = Rec.read db → ts = (x.u32 b).toNat → td = (x.u32 c).toNat →
    targets = (if cpx then (targetRanks x.c dst).getD [] else []) →
    (x.act = [] → CompletesTo i s x [] (fun _ => x.next) t) ∧
    (cpx = true → x.act ≠ [] → (tm.claim? dst.brand = none → FaultsAll i s x t (Flt.mk' Code.prot)) ∧
      (tm.claim? dst.brand ≠ none → (resolves x dst.brand t = .wait → ∃ sl, s.slot = some sl ∧ exec i s = .next (waitAgain t sl)) ∧
        ∀ r v f, resolves x dst.brand t = .got r v → r.group = .error f → FaultsAll i s x v f)) ∧
    ∀ t', x.act ≠ [] → copyBegins t t' x tm dst cpx → t'.team? x.tid = some tm →
    (∀ f v, copyChecks t' x tm src dst ts td cpx = (.error f, v) → FaultsAll i s x v f) ∧
    ∀ sAt dAt u, copyChecks t' x tm src dst ts td cpx = (.ok (sAt, dAt), u) →
      (u.copyWaits x tm src dst ts cpx targets = true → u.blocked = false → ∃ sl, s.slot = some sl ∧ exec i s = .next (waitAgain u sl)) ∧
      ∀ v, u.copyWaits x tm src dst ts cpx targets = false →
        v = u.await false x.tid x.gix x.act ⟨dst.colours.testBit 0, true, true⟩ false dst.colours (if cpx || src.space == 0 || dst.space == 0 then .pod else .clus) → v.blocked = false →
        ∃ w k g, CompletesTo i s x [] (fun _ => x.next) w ∧ (NoneOpen v → w.mem = v.mem ∧ k.snap = v.asItStands) ∧ RegsKept v w ∧ w.copies = v.copies ++ [k] ∧ k.cpx = cpx ∧ k.core = x.core ∧ k.tid = x.tid ∧ k.gix = x.gix ∧ k.srcRec = sb ∧
          k.dstRec = db ∧ k.ts = ts ∧ k.td = td ∧ k.targets = targets ∧ k.slot = n.toNat ∧ k.status = 0 ∧ k.data = none ∧ k.got = [] ∧
          k.pieces = (if cpx then cpxPieces tm src dst ts sAt else cpyPieces tm src dst ts td sAt dAt) ∧ v.group? x.tid x.gix = some g ∧
          w.group? x.tid x.gix = some { g with cc := g.cc + 1, last := ⟨n.toNat, k.id, 0, false⟩ :: g.last.filter (·.slot != n.toNat) } ∧
          ∀ p ∈ k.pieces, ∀ tid o, p.dst = .spad tid o → ∀ m, w.team? tid = some m → o / 64 ∈ m.absent

/-- R338: cpq gives the report of the group's latest copy of a slot; in a deterministic launch, and in a replay, it waits until that copy is over. The frame: nothing else changes. -/
def Sys2Proof.CopyReports : Prop :=
  ∀ h n d s x t, opening (.cpq h n d) s = some (x, t) →
    ((x.act = [] ∨ t.detOrReplay x.team = false ∨ (x.g.report n.toNat).getLsbD 31 = true) → Completes (.cpq h n d) s x t (Received x d (fun _ => x.g.report n.toNat) 0)) ∧
    (x.act ≠ [] → t.detOrReplay x.team = true → (x.g.report n.toNat).getLsbD 31 = false → ∃ sl, s.slot = some sl ∧ exec (.cpq h n d) s = .next (waitAgain t sl))

/-- R335, R336, R338: shp, cpy, cpx and cpq. -/
def Obligations.ShapesAndCopies : Prop := ShapeSlots ∧ CopiesIssue ∧ CopyReports

/-- R328, R337: cpc with op 0 raises the fault of a brand that is no live collective group, and SHAPE for a count outside 1 to 16; it counts one more claim on a
brand that the team has claimed, answers 3 where a member has no route or the resources can never suffice, takes them and answers 0 where they are free and no
lower brand that could be granted waits, answers 2 where the team holds another claim, and waits otherwise. With op 1 it counts one claim fewer and answers 0.
With no lane in act it does nothing. The frame: no other register and no byte changes. The model's choice, log 42: a claim of count 0 with a cpx in flight
counts as held. -/
def Obligations.Claims : Prop :=
  (∀ h n d a b s x t, opening (.cpc h n d a b) s = some (x, t) → x.act = [] → CompletesTo (.cpc h n d a b) s x [] (fun _ => x.next) t) ∧
  ∀ h n d a b s x t tm brand, opening (.cpc h n d a b) s = some (x, t) → x.act ≠ [] → t.team? x.tid = some tm → brand = (Rec.read (tm.slotBytes n.toNat)).brand →
    (b.immVal ≠ 0 → ∃ w, CompletesTo (.cpc h n d a b) s x [] (fun _ => x.next) w ∧
      GroupStep x.tid x.gix ((t.modTeam x.tid fun m => { m with claims := modWhere (·.brand == brand) (fun c => { c with count := c.count - 1 }) m.claims }).freeGivenUp x.tid) w
        (Received x d (fun _ => 0) 0)) ∧
    (b.immVal = 0 → resolves x brand t = .wait → ∃ sl, s.slot = some sl ∧ exec (.cpc h n d a b) s = .next (waitAgain t sl)) ∧
    (∀ r f v, b.immVal = 0 → resolves x brand t = .got r v → r.group = .error f → FaultsAll (.cpc h n d a b) s x v f) ∧
    (b.immVal = 0 → ∀ r payload v k ms held, resolves x brand t = .got r v → r.group = .ok payload → k = (x.u32 a).toNat → ms = membersOf x.c payload → v.team? x.tid = some held →
      ((k = 0 ∨ 16 < k) → FaultsAll (.cpc h n d a b) s x v (Flt.mk' Code.shape)) ∧
      (1 ≤ k → k ≤ 16 →
        ((∃ y ∈ held.claims, y.brand = brand) → ∃ w, CompletesTo (.cpc h n d a b) s x [] (fun _ => x.next) w ∧
          GroupStep x.tid x.gix (v.modTeam x.tid fun m => { m with claims := modWhere (·.brand == brand) (fun c => { c with count := c.count + 1 }) m.claims }) w
            (Received x d (fun _ => 0) 0)) ∧
        ((∀ y ∈ held.claims, y.brand ≠ brand) →
          (v.portsFor x.c ms = none → ∃ w, CompletesTo (.cpc h n d a b) s x [] (fun _ => x.next) w ∧ GroupStep x.tid x.gix v w (Received x d (fun _ => 3) 0)) ∧
          ∀ ps, v.portsFor x.c ms = some ps →
            (v.claimPossible k ps = false → ∃ w, CompletesTo (.cpc h n d a b) s x [] (fun _ => x.next) w ∧ GroupStep x.tid x.gix v w (Received x d (fun _ => 3) 0)) ∧
            (v.claimPossible k ps = true → v.claimFree k ps = true → v.claimBehind brand = false →
              ∃ w, CompletesTo (.cpc h n d a b) s x [] (fun _ => x.next) w ∧ GroupStep x.tid x.gix (v.grantClaim x.tid brand k ms ps) w (Received x d (fun _ => 0) 0)) ∧
            (v.claimPossible k ps = true → (v.claimFree k ps = false ∨ v.claimBehind brand = true) → held.claims ≠ [] →
              ∃ w, CompletesTo (.cpc h n d a b) s x [] (fun _ => x.next) w ∧ GroupStep x.tid x.gix v w (Received x d (fun _ => 2) 0)) ∧
            (v.claimPossible k ps = true → (v.claimFree k ps = false ∨ v.claimBehind brand = true) → held.claims = [] →
              ∃ w, CompletesTo (.cpc h n d a b) s x x.act (fun _ => x.next) w ∧
                GroupStep x.tid x.gix v w fun g g' => g' = { g with wait := some (.claim brand k d x.act x.next x.hold) }))))

/-! ### Class TBL -/

/-- R345, R347, R349, R350: algl and cmpl read their image behind the lanes' earlier accesses, raise the fault of that read, raise ALGV or SHAPE for an image that
does not pass, and install one that does, as a choice site of its table: algl once the entries that the old image governs have retired, cmpl once the
context's matrix requests issued before it are over; until then only its own lanes issue in its group. algq gives word SA of a table and raises PROT above 63.
With no lane in act none does anything. The frame: no register but that of algq changes. The model's choice, log 43: when a table may be replaced. -/
def Sys2Proof.TableImages : Prop :=
  (∀ i s x t, ((∃ h tb a, i = .algl h tb a) ∨ (∃ h tb d a, i = .algq h tb d a) ∨ ∃ h tb a, i = .cmpl h tb a) → opening i s = some (x, t) → x.act = [] →
    CompletesTo i s x [] (fun _ => x.next) t) ∧
  (∀ h tb a s x t, opening (.algl h tb a) s = some (x, t) → x.act ≠ [] →
    (∀ f v, t.imageAt x (x.u64 a) 256 256 = (.error f, v) → FaultsAll (.algl h tb a) s x v f) ∧
    ∀ img v, t.imageAt x (x.u64 a) 256 256 = (.ok img, v) →
      (algOk img = false → FaultsAll (.algl h tb a) s x v (Flt.mk' Code.algv)) ∧
      (∀ m w, algOk img = true → Marked x 2 tb.toNat v m → w = m.installAlg x.c.ctx tb.toNat img → w.blocked = false →
        CompletesTo (.algl h tb a) s x [] (fun _ => x.next) w ∧ ∀ k, w.ctx? x.c.ctx = some k → k.algTable tb.toNat = if tb = 0 then algFixed else img)) ∧
  (∀ h tb d a s x t k, opening (.algq h tb d a) s = some (x, t) → x.act ≠ [] → t.ctx? x.c.ctx = some k →
    ((x.u32 a).toNat ≤ 63 → Completes (.algq h tb d a) s x t (Received x d (fun _ => BitVec.ofNat 64 (pf (k.algTable tb.toNat) (4 * (x.u32 a).toNat) 4)) 0)) ∧
    (63 < (x.u32 a).toNat → FaultsAll (.algq h tb d a) s x t (Flt.mk' Code.prot))) ∧
  ∀ h tb a s x t, opening (.cmpl h tb a) s = some (x, t) → x.act ≠ [] →
    (∀ f v, t.imageAt x (x.u64 a) 136 8 = (.error f, v) → FaultsAll (.cmpl h tb a) s x (v.unbehind x) f) ∧
    ∀ img v, t.imageAt x (x.u64 a) 136 8 = (.ok img, v) →
      (cmpOk (cmpPairs img) = false → FaultsAll (.cmpl h tb a) s x (v.unbehind x) (Flt.mk' Code.shape)) ∧
      ∀ owed, cmpOk (cmpPairs img) = true → v.blocked = false →
          owed = (match x.g.behind with | none => v.matrixWork x.c.ctx | some w => w.owed.filter (v.matrixWork x.c.ctx).contains) →
        (owed ≠ [] → ∃ sl, s.slot = some sl ∧ exec (.cmpl h tb a) s = .next (waitAgain (v.waitBehind x owed) sl)) ∧
        (∀ g, (v.waitBehind x owed).group? x.tid x.gix = some g → ∀ j, g.mayIssue j = true → j ∈ x.lanes) ∧
        ∀ m, owed = [] → Marked x 2 tb.toNat (v.waitBehind x []) m →
          CompletesTo (.cmpl h tb a) s x [] (fun _ => x.next) ((m.modCtx x.c.ctx fun c => { c with cmp := setKey tb.toNat (cmpPairs img) c.cmp }).unbehind x)

/-- R351, R352: rgi enters a range at a free index of the die's table and gives the index, or all ones where none is free; SHAPE for an empty range, PROT for one that leaves the address space; rgr takes
away a range that rgi entered, and raises PROT for another. With no lane in act neither does anything. The frame: no other register and no byte changes. -/
def Sys2Proof.RangeEntries : Prop :=
  (∀ i s x t, ((∃ h d a b, i = .rgi h d a b) ∨ ∃ h a, i = .rgr h a) → opening i s = some (x, t) → x.act = [] → CompletesTo i s x [] (fun _ => x.next) t) ∧
  (∀ h d a b s x t k base len, opening (.rgi h d a b) s = some (x, t) → x.act ≠ [] → t.ctx? x.c.ctx = some k → base = (x.u64 a).toNat → len = (x.u32 b).toNat →
    (len = 0 → FaultsAll (.rgi h d a b) s x t (Flt.mk' Code.shape)) ∧
    (len ≠ 0 → 2 ^ 56 < base + len → FaultsAll (.rgi h d a b) s x t (Flt.mk' Code.prot)) ∧
    (len ≠ 0 → base + len ≤ 2 ^ 56 → (∀ i, i < 64 → ∃ r ∈ k.ranges, r.die = dieOf x.core ∧ r.index = i) →
      Completes (.rgi h d a b) s x t (Received x d (fun _ => 0xFFFFFFFF) 0)) ∧
    (len ≠ 0 → base + len ≤ 2 ^ 56 → (∃ i, i < 64 ∧ ∀ r ∈ k.ranges, r.die = dieOf x.core → r.index ≠ i) →
      ∃ i w, i < 64 ∧ (∀ r ∈ k.ranges, r.die = dieOf x.core → r.index ≠ i) ∧ CompletesTo (.rgi h d a b) s x [] (fun _ => x.next) w ∧
        GroupStep x.tid x.gix { (t.modCtx x.c.ctx fun c => { c with ranges := c.ranges ++ [⟨dieOf x.core, i, base, len, .rgi⟩] }) with fresh := t.fresh + 1 } w
          (Received x d (fun _ => BitVec.ofNat 64 i) 0))) ∧
  ∀ h a s x t k, opening (.rgr h a) s = some (x, t) → x.act ≠ [] → t.ctx? x.c.ctx = some k →
    ((∃ r ∈ k.ranges, r.die = dieOf x.core ∧ r.index = (x.u32 a).toNat ∧ r.owner = .rgi) → CompletesTo (.rgr h a) s x [] (fun _ => x.next)
      (t.modCtx x.c.ctx fun c => { c with ranges := c.ranges.filter fun r => !(r.die == dieOf x.core && r.index == (x.u32 a).toNat && r.owner == .rgi) })) ∧
    ((∀ r ∈ k.ranges, r.die = dieOf x.core → r.index = (x.u32 a).toNat → r.owner ≠ .rgi) → FaultsAll (.rgr h a) s x t (Flt.mk' Code.prot))

/-- R353: tlbi raises PROT in an unprivileged group; else it waits while a copy of the context is under way through a translation that it drops, and then, behind the lanes' earlier stores and posts, drops
the context's cached translations, all or those of one page, and completes once the accesses that went through them are done or at their home. With no lane in act it does nothing. -/
def Sys2Proof.DropsTranslations : Prop :=
  (∀ h a s x t, opening (.tlbi h a) s = some (x, t) → x.act = [] → CompletesTo (.tlbi h a) s x [] (fun _ => x.next) t) ∧
  (∀ h a s x t, opening (.tlbi h a) s = some (x, t) → x.act ≠ [] → x.privileged = false → FaultsAll (.tlbi h a) s x t (Flt.mk' Code.prot)) ∧
  (∀ h a s x t va es, opening (.tlbi h a) s = some (x, t) → x.act ≠ [] → x.privileged = true → va = a.map (fun f => (x.u64 f).toNat) → es = t.tlbVictims x.c.ctx va →
    ((∃ c ∈ t.copies, c.ctx = x.c.ctx ∧ c.through es = true) → ∃ sl, s.slot = some sl ∧ exec (.tlbi h a) s = .next (waitAgain t sl)) ∧
    ∀ w, (∀ c ∈ t.copies, c.ctx = x.c.ctx → c.through es = false) →
      w = ((t.await false x.tid x.gix x.act ⟨false, true, true⟩ false 255 .dev).dropTlb x.c.ctx va).settle (fun b =>
        if b.ctx == x.c.ctx && throughTlb es b.va.toNat && (match b.place with | .mem _ => true | _ => false) then (if b.kind.isPost then .home else .done) else .no) →
      w.blocked = false → CompletesTo (.tlbi h a) s x [] (fun _ => x.next) w ∧ (t.accs = [] → OnlyCaches t w)) ∧
  ∀ (s : State) n va, OnlyCaches s (s.dropTlb n va) ∧
    ∀ e, ((∃ c, e ∈ ((s.dropTlb n va).core c).tlb) ∨ ∃ d ∈ (s.dropTlb n va).dies, e ∈ d.tlb) → e.ctx = n → ∃ f, va = some f ∧ e.page ≠ f / 65536 * 65536 / 2 ^ e.bits

/-- R345, R347, R349 to R353: the instructions of class TBL. -/
def Obligations.TablesAndRanges : Prop := TableImages ∧ RangeEntries ∧ DropsTranslations

/-! ### Classes BRD and CNT -/

/-- R362, R422: the record of a new brand, from the chip's serial and boot numbers and the next sequence number, live with one reference; zero where no slot or no number is left. -/
def Sys2Proof.Minting : Prop :=
  (∀ (s : State) ctx kind payload k, s.brandBase ≠ none → 0 < s.brandSeq → s.brandSeq < 2 ^ 56 → freeSlot s (probeStart s.brandSeq 0) = some k →
    (s.mint ctx kind payload).1.toNat = (s.serial.toNat * 2 ^ 24 + s.boot.toNat) * 2 ^ 56 + s.brandSeq ∧ (s.mint ctx kind payload).2.brandSeq = s.brandSeq + 1 ∧
    (s.mint ctx kind payload).2.brandAt k = some ⟨s.brandSeq, kind, 1, 0, 1, 0, payload⟩) ∧
  ∀ (s : State) ctx kind payload, (s.brandBase = none ∨ s.brandSeq = 0 ∨ 2 ^ 56 ≤ s.brandSeq ∨ freeSlot s (probeStart s.brandSeq 0) = none) → s.mint ctx kind payload = (0, s)

/-- R366, R405, R407, Table 21-7: a resolve of a brand at a logical core's site. Where no change of the record is under way it looks the record up, unless the log that its context replays has one
next that met a change of it, for which it waits. Where one is under way it answers the record whole, as it stood before the change or as it stands now: which is free, with a postmark of the
answer where the context logs, and as the log says where it replays. -/
def Sys2Proof.ResolvesMeetChanges : Prop :=
  ∀ (v : State) ctx lcore b look c, v.ctx? ctx = some c → ∀ next, next = ((v.siteMarks c (postmarkOf 5 lcore 0)).head?).map (·.2 % 2 ^ 48) →
    (v.past? b = none → (c.replay = false ∨ (next ≠ some (resolveMark b true) ∧ next ≠ some (resolveMark b false))) → v.resolveAt ctx lcore b look = .got (look v).1 (look v).2) ∧
    (v.past? b = none → c.replay = true → (next = some (resolveMark b true) ∨ next = some (resolveMark b false)) → v.resolveAt ctx lcore b look = .wait) ∧
    ∀ old new u z, v.past? b = some old → (c.replay = false ∧ v.freeBool = (new, u) ∨ c.replay = true ∧ next = some (resolveMark b new) ∧ u = v) →
      u.choice ctx 5 lcore (resolveMark b new) = .go z → (c.log = false → c.replay = false → z = u) ∧
      v.resolveAt ctx lcore b look = if new = true then .got (z.resolve b).1 (z.resolve b).2 else .got (.live old) z

/-- R361 to R363, R366, R367: bnew, behind the lanes' earlier accesses and as a choice site, mints a brand and writes it to four uniform registers; kinds of 5 and above raise PROT in an
unprivileged group. bres writes the eight words of what the brand resolves to, which may be the record from before a change that is under way, and whether the kind
is the one asked for; it may have to wait for its place in a log; in fence-strengthening mode it comes behind the lanes' loads. bshd empties the core's brand cache. With no lane in act they do nothing. The frame: no other register changes.
The model's choice, log 44: which resolves meet a change and are choice sites; log 18: what a resolve at another chip gives. -/
def Sys2Proof.MintsAndResolves : Prop :=
  (∀ i s x t, ((∃ h kd d a, i = .bnew h kd d a) ∨ (∃ h kd d a c, i = .bres h kd d a c) ∨ ∃ h, i = .bshd h) → opening i s = some (x, t) → x.act = [] →
    CompletesTo i s x [] (fun _ => x.next) t) ∧
  (∀ h kd d a s x t, opening (.bnew h kd d a) s = some (x, t) → x.act ≠ [] →
    (5 ≤ kd.code → x.privileged = false → FaultsAll (.bnew h kd d a) s x t (Flt.mk' Code.prot)) ∧
    ∀ v m r, (kd.code < 5 ∨ x.privileged = true) → v = t.await false x.tid x.gix x.act ⟨true, true, false⟩ true 255 .dev → v.blocked = false → v.choice x.c.ctx 7 0 x.party = .go m →
      r = m.mint x.c.ctx kd.code (x.brand a) → CompletesTo (.bnew h kd d a) s x [] (fun _ => x.next) (r.2.putMany x d (brandWords r.1))) ∧
  (∀ (s : State) x n pair ws g, 2 ≤ ws.length → s.group? x.tid x.gix = some g → Cells.wf g.k = true →
    ∃ g', (s.putMany x (.k n pair) ws).group? x.tid x.gix = some g' ∧
      ∀ m, Cells.get g'.k m = if n.toNat ≤ m ∧ m < n.toNat + ws.length then ws.getD (m - n.toNat) 0 else Cells.get g.k m) ∧
  (∀ h kd d a c n s x t v, c = .p n → opening (.bres h kd d a c) s = some (x, t) → x.act ≠ [] →
    v = (if x.c.fence then t.await false x.tid x.gix x.act ⟨true, false, false⟩ false 255 .dev else t) → v.blocked = false →
    (resolves x (x.brand a) v = .wait → ∃ sl, s.slot = some sl ∧ exec (.bres h kd d a c) s = .next (waitAgain v sl)) ∧
    ∀ r u, resolves x (x.brand a) v = .got r u → CompletesTo (.bres h kd d a c) s x [] (fun _ => x.next)
      ((u.putMany x d (resolveWords kd r).1).modIssue x fun g => g.eachLane x.act fun l => l.setPred n (resolveWords kd r).2)) ∧
  (∀ kd (r : BRec), resolveWords kd (.live r) = ([BitVec.ofNat 32 (16 + r.kind), r.version, BitVec.ofNat 32 r.refs, 0, r.payload.extractLsb' 0 32, r.payload.extractLsb' 32 32,
      r.payload.extractLsb' 64 32, r.payload.extractLsb' 96 32], match kd with | none => true | some k => k.code == r.kind) ∧
    resolveWords kd .gone = (0xF :: List.replicate 7 0, false) ∧ resolveWords kd .unreach = (0xE :: List.replicate 7 0, false)) ∧
  ∀ h s x t, opening (.bshd h) s = some (x, t) → x.act ≠ [] → CompletesTo (.bshd h) s x [] (fun _ => x.next) (t.modCore x.core fun c => { c with brands := [] })

/-- The instructions that change a record, with the brand of each. -/
def Sys2Proof.changesBrand : Instr → Option Src
  | .bcas _ _ a _ _ => some a
  | .bkil _ a => some a
  | .bref _ a => some a
  | .bdrp _ a => some a
  | _ => none

/-- R361, R364 to R366: behind the lanes' earlier accesses bcas replaces the payload where the version is the one expected and answers 0, else 1; bkil kills the record; bref and bdrp count references, the last
one dropped killing it, and raise PROT at the count's ends; BGONE where the brand is gone, with ALT where it cannot be reached; where its home is another chip, whose table is not of this package, any of the
outcomes. A change takes the record out of every brand cache, and what the record was stays known while other groups' resolves may meet it. With no lane in act they do nothing. The frame: no register but that of bcas changes.
The model's choice, log 18: the outcomes at another chip; log 44: while a resolve may meet the change. -/
def Sys2Proof.RecordChanges : Prop :=
  (∀ i f s x t, changesBrand i = some f → opening i s = some (x, t) → x.act = [] → CompletesTo i s x [] (fun _ => x.next) t) ∧
  ∀ i f s x t v, changesBrand i = some f → opening i s = some (x, t) → x.act ≠ [] → v = t.await false x.tid x.gix x.act ⟨true, true, false⟩ true 255 .dev → v.blocked = false →
    (v.home (x.brand f) = .gone → FaultsAll i s x v (Flt.mk' Code.bgone)) ∧
    (v.home (x.brand f) = .unreach → FaultsAll i s x v { Flt.mk' Code.bgone with alt := true }) ∧
    (∀ n u, v.home (x.brand f) = .away → v.freeNat = (n, u) →
      (n % 3 = 2 → FaultsAll i s x u (Flt.mk' Code.bgone)) ∧
      (n % 3 < 2 → (∀ h d a b c, i = .bcas h d a b c → ∃ w, CompletesTo i s x [] (fun _ => x.next) w ∧ GroupStep x.tid x.gix u w (Received x d (fun _ => BitVec.ofNat 64 (n % 3)) 0)) ∧
        (∀ h a, i = .bkil h a → CompletesTo i s x [] (fun _ => x.next) u) ∧
        (∀ h a, i = .bref h a ∨ i = .bdrp h a → (n % 3 = 0 → CompletesTo i s x [] (fun _ => x.next) u) ∧ (n % 3 = 1 → FaultsAll i s x u (Flt.mk' Code.prot))))) ∧
    ∀ r, v.home (x.brand f) = .here r →
      (∀ h d a b c, i = .bcas h d a b c → (r.version = x.u32 c → ∃ w, CompletesTo i s x [] (fun _ => x.next) w ∧
          GroupStep x.tid x.gix (((v.modRec (x.brand a) fun r => { r with payload := x.brand b, version := r.version + 1 }).shootDown (x.brand a)).changing (x.brand a) r x.tid x.gix) w
            (Received x d (fun _ => 0) 0)) ∧
        (r.version ≠ x.u32 c → ∃ w, CompletesTo i s x [] (fun _ => x.next) w ∧ GroupStep x.tid x.gix v w (Received x d (fun _ => 1) 0))) ∧
      (∀ h a, i = .bkil h a → CompletesTo i s x [] (fun _ => x.next) (((v.modRec (x.brand a) fun r => { r with st := 2 }).shootDown (x.brand a)).changing (x.brand a) r x.tid x.gix)) ∧
      (∀ h a, i = .bref h a → (r.refs = 0xFFFFF → FaultsAll i s x v (Flt.mk' Code.prot)) ∧
        (r.refs ≠ 0xFFFFF → CompletesTo i s x [] (fun _ => x.next) (v.modRec (x.brand a) fun r => { r with refs := r.refs + 1 }))) ∧
      ∀ h a, i = .bdrp h a → (r.refs = 0 → FaultsAll i s x v (Flt.mk' Code.prot)) ∧
        (r.refs = 1 → CompletesTo i s x [] (fun _ => x.next) (((v.modRec (x.brand a) fun r => { r with refs := 0, st := 2 }).shootDown (x.brand a)).changing (x.brand a) r x.tid x.gix)) ∧
        (2 ≤ r.refs → CompletesTo i s x [] (fun _ => x.next) (v.modRec (x.brand a) fun r => { r with refs := r.refs - 1 }))

/-- R359, R366: a changed record keeps its slot, and no core's cache holds it once it is shot down; what it was before is known until the change is complete.
The model's choice, log 44: how long a change is under way. -/
def Sys2Proof.RecordsAndCaches : Prop :=
  (∀ (s : State) b f k r, s.findRec b = some (k, r) → (s.modRec b f).brandAt k = (s.brandAt k).map f) ∧
  (∀ (s : State) b n, ∀ e ∈ ((s.shootDown b).core n).brands, e.brand ≠ b) ∧
  ∀ (s : State) b old tid gix, (s.changing b old tid gix).past? b = some old ∧ (∀ k, k ≠ b → (s.changing b old tid gix).past? k = s.past? k) ∧
    ((∀ c ∈ s.pasts, c.brand ≠ b) → ((s.changing b old tid gix).changed fun c => c.tid == tid && c.gix == gix).past? b = none)

/-- R361 to R367: the brand instructions. -/
def Obligations.Brands : Prop := Minting ∧ ResolvesMeetChanges ∧ MintsAndResolves ∧ RecordChanges ∧ RecordsAndCaches

/-- R153 to R157: rnd gives each lane of act the word drawn from the register's key at the lane's offset, and rndu that word's upper 24 bits as a fraction below 1; a draw from a register that is not allocated
raises BGONE. rsal gives a stream register the brand and key of a live stream, as a choice site, and raises BGONE, with ALT where the brand cannot be reached, or PROT for another kind; rsfr clears its allocated
bit alone. The frame: no register but that of a draw changes, and no byte.
The model's choice, log 44: which resolves are choice sites. -/
def Sys2Proof.Draws : Prop :=
  (∀ i unit d sr a s x t k q, ((∃ h, i = .rnd h sr d a ∧ unit = false) ∨ ∃ h, i = .rndu h sr d a ∧ unit = true) → opening i s = some (x, t) → t.ctx? x.c.ctx = some k →
    (k.stream? sr.toNat = none → FaultsAll i s x t (Flt.mk' Code.bgone)) ∧
    (k.stream? sr.toNat = some q → ∃ val, Completes i s x t (Received x d val 0) ∧ ∀ j ∈ x.act, ∃ y0 y1 y2 y3 : Word,
      y0 = q.keyLo ^^^ x.w32 a j * 0x9E3779B9 ∧ y1 = (y0 ^^^ y0 >>> 16) * 0x21F0AAAD ∧ y2 = (y1 ^^^ y1 >>> 15) * (q.keyHi ||| 1) ∧ y3 = y2 ^^^ y2 >>> 15 ∧
      val j = (if unit then BitVec.ofNat 64 (roundTo .f32 .rne false false (y3 >>> 8).toNat (-24) false).bits else y3.zeroExtend 64))) ∧
  (∀ i s x t, ((∃ h sr a, i = .rsal h sr a) ∨ ∃ h sr, i = .rsfr h sr) → opening i s = some (x, t) → x.act = [] → CompletesTo i s x [] (fun _ => x.next) t) ∧
  (∀ h sr a s x t, opening (.rsal h sr a) s = some (x, t) → x.act ≠ [] →
    (resolves x (x.brand a) t = .wait → ∃ sl, s.slot = some sl ∧ exec (.rsal h sr a) s = .next (waitAgain t sl)) ∧
    (∀ v, resolves x (x.brand a) t = .got .gone v → FaultsAll (.rsal h sr a) s x v (Flt.mk' Code.bgone)) ∧
    (∀ v, resolves x (x.brand a) t = .got .unreach v → FaultsAll (.rsal h sr a) s x v { Flt.mk' Code.bgone with alt := true }) ∧
    ∀ r v, resolves x (x.brand a) t = .got (.live r) v →
      (r.kind ≠ kindStream → FaultsAll (.rsal h sr a) s x v (Flt.mk' Code.prot)) ∧
      (r.kind = kindStream → ∀ m, Marked x 1 sr.toNat v m → CompletesTo (.rsal h sr a) s x [] (fun _ => x.next)
        (m.modCtx x.c.ctx fun c => c.setStream sr.toNat (some ⟨sr.toNat, true, x.brand a, r.payload.extractLsb' 0 32, r.payload.extractLsb' 32 32⟩)))) ∧
  (∀ h sr s x t m, opening (.rsfr h sr) s = some (x, t) → x.act ≠ [] → Marked x 1 sr.toNat t m →
    CompletesTo (.rsfr h sr) s x [] (fun _ => x.next) (m.modCtx x.c.ctx fun c => c.setStream sr.toNat none)) ∧
  ∀ (c : Context) n q, q.n = n → q.on = true → (c.setStream n (some q)).stream? n = some q ∧ (c.setStream n none).stream? n = none ∧
    ∀ k, k ≠ n → (c.setStream n (some q)).stream? k = c.stream? k ∧ (c.setStream n none).stream? k = c.stream? k

/-- R387, Table 18-4: pcr gives the counter that SA numbers, one that runs on having moved by a free amount since it was last read, and raises PROT for a number without one. With no lane in act it does nothing.
The model's choice, log 17: the amounts by which the counters run on, and what the monitors read. -/
def Sys2Proof.CounterReads : Prop :=
  (∀ h d a s x t, opening (.pcr h d a) s = some (x, t) → x.act = [] → CompletesTo (.pcr h d a) s x [] (fun _ => x.next) t) ∧
  ∀ h d a s x t n, opening (.pcr h d a) s = some (x, t) → x.act ≠ [] → n = (x.u32 a).toNat →
    (n = 0x00 → Completes (.pcr h d a) s x t (Received x d (fun _ => (t.core x.core).issue) 0)) ∧
    (n = 0x01 → Completes (.pcr h d a) s x t (Received x d (fun _ => x.g.gissue) 0)) ∧
    (n = 0x03 → Completes (.pcr h d a) s x t (Received x d (fun _ => x.g.gpass) 0)) ∧
    (n = 0x62 → Completes (.pcr h d a) s x t (Received x d (fun _ => BitVec.ofNat 64 (t.islands.getD (islandOf x.core) Island.reset).current) 0)) ∧
    (n = 0x70 → Completes (.pcr h d a) s x t (Received x d (fun _ => BitVec.ofNat 64 t.brandSeq) 0)) ∧
    (∀ k, n = 0x71 → t.ctx? x.c.ctx = some k → Completes (.pcr h d a) s x t (Received x d (fun _ => BitVec.ofNat 64 k.pmpos) 0)) ∧
    (∀ p, 0x20 ≤ n → n ≤ 0x31 → t.port? (n - 0x20) = some p → Completes (.pcr h d a) s x t (Received x d (fun _ => p.late) 0)) ∧
    (∀ p, 0x40 ≤ n → n ≤ 0x51 → t.port? (n - 0x40) = some p → Completes (.pcr h d a) s x t (Received x d (fun _ => p.undeliv) 0)) ∧
    ((n = 0x02 ∨ n = 0x04) → ∃ c w, CompletesTo (.pcr h d a) s x [] (fun _ => x.next) w ∧
      c = (if n = 0x02 then x.g.gwait else x.g.gpark) + BitVec.ofNat 64 (Config.freeNat t.fresh) ∧
      GroupStep x.tid x.gix { t with fresh := t.fresh + 1 } w fun g g' => Received x d (fun _ => c) 0
        { g with gwait := if n = 0x02 then c else g.gwait, gpark := if n = 0x04 then c else g.gpark } g') ∧
    (∀ y, n = 0x10 → t.die? (dieOf x.core) = some y → ∃ c w, CompletesTo (.pcr h d a) s x [] (fun _ => x.next) w ∧ c = y.cecc + BitVec.ofNat 64 (Config.freeNat t.fresh) ∧
      GroupStep x.tid x.gix { (t.modDie (dieOf x.core) fun d => { d with cecc := c }) with fresh := t.fresh + 1 } w (Received x d (fun _ => c) 0)) ∧
    ((n = 0x60 ∨ n = 0x61 ∨ n = 0x63) → ∃ w, CompletesTo (.pcr h d a) s x [] (fun _ => x.next) w ∧ GroupStep x.tid x.gix t.freeWord.2 w
      (Received x d (fun _ => if n = 0x60 then t.freeWord.1.signExtend 64 else t.freeWord.1.zeroExtend 64) 0)) ∧
    ((0x20 ≤ n ∧ n ≤ 0x31 ∧ t.port? (n - 0x20) = none ∨ 0x40 ≤ n ∧ n ≤ 0x51 ∧ t.port? (n - 0x40) = none) → FaultsAll (.pcr h d a) s x t (Flt.mk' Code.prot)) ∧
    ((n ∉ [0x00, 0x01, 0x02, 0x03, 0x04, 0x10, 0x60, 0x61, 0x62, 0x63, 0x70, 0x71] ∧ ¬(0x20 ≤ n ∧ n ≤ 0x31) ∧ ¬(0x40 ≤ n ∧ n ≤ 0x51)) → FaultsAll (.pcr h d a) s x t (Flt.mk' Code.prot))

/-- R405 to R407: an event of a choice site happens freely without a log; with logging on its postmark is appended to the log, whose last free place stops the context; under replay it happens where its site's next
postmark is its own, waits where one of the next 64 is, and else stops the context with REPLAY.
The model's choice, log 44: the keys of the sites, and that a choice behind a full log is still written. -/
def Sys2Proof.ChoiceSites : Prop :=
  (∀ (s : State) ctx kind site payload c mark, s.ctx? ctx = some c → mark = kind % 16 * 2 ^ 60 + site % 2 ^ 12 * 2 ^ 48 + payload % 2 ^ 48 →
    (c.log = true → s.choice ctx kind site payload = .go (s.logMark c mark)) ∧
    (c.log = false → c.replay = false → s.choice ctx kind site payload = .go s) ∧
    (c.log = false → c.replay = true → ∀ ms, ms = s.siteMarks c mark →
      (∀ i, ms.head? = some (i, mark) → s.choice ctx kind site payload = .go (s.modCtx ctx fun c' =>
        { c' with replayPos := insertNat i c.replayPos, replay := decide ((insertNat i c.replayPos).length ≠ c.pmlen)
                  st := if (insertNat i c.replayPos).length = c.pmlen ∧ c'.st = .running then .replayEnded else c'.st })) ∧
      ((∀ i, ms.head? ≠ some (i, mark)) → (∃ i, (i, mark) ∈ ms.take 64) → s.choice ctx kind site payload = .hold) ∧
      ((∀ i, (i, mark) ∉ ms.take 64) → s.choice ctx kind site payload = .stop (s.replayStop ctx)))) ∧
  ∀ (s : State) c mark, (s.logMark c mark).mem = Cells.setBytes (Cells.setBytes s.mem (s.gpaOf (c.pmbase + 8 * c.pmpos)) (toLe 8 mark)) (s.gpaOf (c.record + 80)) (toLe 8 (c.pmpos + 1)) ∧
    ∀ k, s.ctx? c.ctx = some k → (s.logMark c mark).ctx? c.ctx = some { k with pmpos := k.pmpos + 1, st := if c.pmlen ≤ c.pmpos + 1 then .logFull else k.st }

/-- R388, R407: lgm is a choice site of its group with SA as its payload: it logs a postmark, or consumes its own under replay, where any other order stops the context. With no lane in act it does nothing. The
frame: no register changes.
The model's choice, log 44: what stops, waits and is issued again under replay. -/
def Sys2Proof.ProgramMarks : Prop :=
  ∀ h a s x t site, opening (.lgm h a) s = some (x, t) → site = x.team.t % 128 * 32 + x.g.gix % 32 →
    (x.act = [] → CompletesTo (.lgm h a) s x [] (fun _ => x.next) t) ∧
    (∀ z, x.act ≠ [] → t.choice x.c.ctx 14 site ((x.u64 a).toNat % 2 ^ 48) = .go z → CompletesTo (.lgm h a) s x [] (fun _ => x.next) z) ∧
    (x.act ≠ [] → t.choice x.c.ctx 14 site ((x.u64 a).toNat % 2 ^ 48) = .hold → ∃ sl, s.slot = some sl ∧ exec (.lgm h a) s = .next (waitAgain (t.replayStop x.c.ctx) sl)) ∧
    ∀ z, x.act ≠ [] → t.choice x.c.ctx 14 site ((x.u64 a).toNat % 2 ^ 48) = .stop z → ∃ sl, s.slot = some sl ∧ exec (.lgm h a) s = .next (waitAgain z sl)

/-- R153 to R157, R387, R388, R405 to R407: classes CNT's draws, counters and marks. -/
def Obligations.RandomAndCounters : Prop := Draws ∧ CounterReads ∧ ChoiceSites ∧ ProgramMarks

/-! ### Class SYS -/

/-- R188, Table 7-5: what sysr gives for each trap register and each register of the context. -/
def Sys2Proof.systemValue (g : Group) (c : Context) (num : Nat) : Option Word :=
  if num = 0x000 then some g.tcause
  else if num = 0x001 then some (g.tmask.extractLsb' 0 32)
  else if num = 0x002 then some (g.tmask.extractLsb' 32 32)
  else if num = 0x003 then some (g.tpc.extractLsb' 0 32)
  else if num = 0x004 then some (g.tpc.extractLsb' 32 32)
  else if num = 0x005 then some (g.tword.extractLsb' 0 32)
  else if num = 0x006 then some (g.tword.extractLsb' 32 32)
  else if num = 0x007 then some (g.tword.extractLsb' 64 32)
  else if num = 0x008 then some (g.taddr.extractLsb' 0 32)
  else if num = 0x009 then some (g.taddr.extractLsb' 32 32)
  else if 0x00A ≤ num ∧ num ≤ 0x00D then some (Cells.get g.tscr (num - 0x00A))
  else if num = 0x010 then some (c.thnd.extractLsb' 0 32)
  else if num = 0x011 then some (c.thnd.extractLsb' 32 32)
  else if num = 0x012 then some c.ten
  else none

/-- R188, R399: in a privileged group sysr gives the trap registers, THND, TEN and the registers of the die, and raises PROT for one that is write only; sysw writes TPC, the scratch registers, THND and
TEN, and the registers of the die by one command, raises PROT for one that is read only and for CSCTL of the group's own context, and waits for a command that must. With no lane in act neither does anything.
The frame: no other register changes.
The model's choice, log 33: numbers that the tables do not list, and reserved bits; log 17: what the monitors read. -/
def Sys2Proof.SystemRegisters : Prop :=
  (∀ i s x t, ((∃ h d a, i = .sysr h d a) ∨ ∃ h a b, i = .sysw h a b) → opening i s = some (x, t) → x.act = [] → CompletesTo i s x [] (fun _ => x.next) t) ∧
  (∀ h d a s x t num, opening (.sysr h d a) s = some (x, t) → x.act ≠ [] → x.privileged = true → num = a.immVal.toNat →
    (reachOf num = .wo → FaultsAll (.sysr h d a) s x t (Flt.mk' Code.prot)) ∧
    (∀ k v, t.ctx? x.c.ctx = some k → systemValue x.g k num = some v → Completes (.sysr h d a) s x t (Received x d (fun _ => v.zeroExtend 64) 0)) ∧
    (0x013 ≤ num → reachOf num ≠ .wo → ∃ r w, r = t.dieRead (dieOf x.core) num ∧ CompletesTo (.sysr h d a) s x [] (fun _ => x.next) w ∧
      GroupStep x.tid x.gix r.2 w (Received x d (fun _ => r.1.zeroExtend 64) 0))) ∧
  ∀ h a b s x t num v, opening (.sysw h a b) s = some (x, t) → x.act ≠ [] → x.privileged = true → num = a.immVal.toNat → v = x.w32 b x.low →
    ((reachOf num = .ro ∨ (num = 0x020 ∧ v.toNat / 2 ^ 16 % 2 ^ 15 = x.c.ctx)) → FaultsAll (.sysw h a b) s x t (Flt.mk' Code.prot)) ∧
    (num = 0x003 → Completes (.sysw h a b) s x t fun g g' => g' = { g with tpc := g.tpc.extractLsb' 32 32 ++ v, tpend := none }) ∧
    (num = 0x004 → Completes (.sysw h a b) s x t fun g g' => g' = { g with tpc := v ++ g.tpc.extractLsb' 0 32, tpend := none }) ∧
    (0x00A ≤ num → num ≤ 0x00D → Completes (.sysw h a b) s x t fun g g' => g' = { g with tscr := Cells.set g.tscr (num - 0x00A) v }) ∧
    (num = 0x010 → CompletesTo (.sysw h a b) s x [] (fun _ => x.next) (t.modCtx x.c.ctx fun c => { c with thnd := c.thnd.extractLsb' 32 32 ++ v })) ∧
    (num = 0x011 → CompletesTo (.sysw h a b) s x [] (fun _ => x.next) (t.modCtx x.c.ctx fun c => { c with thnd := v ++ c.thnd.extractLsb' 0 32 })) ∧
    (num = 0x012 → CompletesTo (.sysw h a b) s x [] (fun _ => x.next) (t.modCtx x.c.ctx fun c => { c with ten := v &&& 0x0037DFBE })) ∧
    (0x013 ≤ num → reachOf num ≠ .ro → ¬(num = 0x020 ∧ v.toNat / 2 ^ 16 % 2 ^ 15 = x.c.ctx) →
      (∀ d, t.dieWrite (dieOf x.core) num v = some d → d.blocked = false → CompletesTo (.sysw h a b) s x [] (fun _ => x.next) d) ∧
      (t.dieWrite (dieOf x.core) num v = none → ∃ sl, s.slot = some sl ∧ exec (.sysw h a b) s = .next (waitAgain t sl)))

/-- Tables 12-8, 12-9, 21-2 and 22-4: what writing a die's register does, for those that only hold a value: bits that are fixed keep theirs, and a value that a register does not admit leaves it; OVF is cleared by a
1; TEMPLIM, ISLSEL, ISLFREQ and ISLCAP as R423 and R8 say. No byte changes.
The model's choice, log 33: reserved bits; log 17: MONSTAT is set against a free temperature. -/
def Sys2Proof.DieRegisters : Prop :=
  (∀ (t : State) d (v : Word) y, t.die? d = some y →
    t.dieWrite d 0x022 v = some (t.modDie d fun y => { y with csimg := y.csimg.extractLsb' 32 32 ++ (v &&& 0xFFFFF000) }) ∧
    t.dieWrite d 0x023 v = some (t.modDie d fun y => { y with csimg := v ++ y.csimg.extractLsb' 0 32 }) ∧
    t.dieWrite d 0x025 v = some (t.modDie d fun y => { y with csrec := v }) ∧
    t.dieWrite d 0x030 v = some (t.modDie d fun y => { y with ovf := y.ovf && !v.getLsbD 31 }) ∧
    t.dieWrite d 0x031 v = some (t.modDie d fun y => { y with fbovf := v }) ∧
    t.dieWrite d 0x044 v = some (t.modDie d fun y => { y with templim := v }) ∧
    t.dieWrite d 0x040 v = some (t.modDie d fun y => { y with islsel := v.toNat % 16 }) ∧
    (16 ≤ v.toNat % 32 → v.toNat % 32 ≤ 30 → t.dieWrite d 0x037 v = some (t.modDie d fun y => { y with shwin := v.toNat % 32 })) ∧
    (∀ n, n = v.toNat % 2 ^ 11 → (400 ≤ n → n ≤ 1050 → t.dieWrite d 0x041 v = some (t.setFreq y.islsel n) ∧
        t.dieWrite d 0x043 v = some { t with islands := t.islands.modify y.islsel fun i => { i with cap := n } }) ∧
      (n < 400 ∨ 1050 < n → t.dieWrite d 0x041 v = some t ∧ t.dieWrite d 0x043 v = some t))) ∧
  (∀ (t u : State) d num v, num ∈ [0x022, 0x023, 0x025, 0x030, 0x031, 0x032, 0x033, 0x035, 0x037, 0x040, 0x041, 0x043, 0x044] → t.dieWrite d num v = some u → u.mem = t.mem) ∧
  ∀ (t : State) d y, t.die? d = some y → t.dieRead d 0x022 = (y.csimg.extractLsb' 0 32, t) ∧ t.dieRead d 0x023 = (y.csimg.extractLsb' 32 32, t) ∧ t.dieRead d 0x024 = (y.cslen, t) ∧
    t.dieRead d 0x025 = (y.csrec, t) ∧ t.dieRead d 0x031 = (y.fbovf, t) ∧ t.dieRead d 0x034 = (BitVec.ofNat 32 y.fbhead, t) ∧ t.dieRead d 0x035 = (BitVec.ofNat 32 y.fbtail, t) ∧
    t.dieRead d 0x044 = (y.templim, t) ∧ (t.dieRead d 0x045).1.getLsbD 1 = y.templim.slt (t.freeBool.2.freeWord).1

/-- R191: hlt raises PROT in an unprivileged group; else it writes an entry of code BRK with HALT, or hands it over as a fault that waits for room, parks the lanes of act on it and halts the other live lanes of
the group. With no lane in act it does nothing.
The model's choice, log 65: with no lane in act nothing happens. -/
def Sys2Proof.Halts : Prop :=
  (∀ h s x t, opening (.hlt h) s = some (x, t) → x.act = [] → CompletesTo (.hlt h) s x [] (fun _ => x.next) t) ∧
  ∀ h s x t die, opening (.hlt h) s = some (x, t) → x.act ≠ [] → x.privileged = true → t.die? (dieOf x.team.core) = some die →
    ∃ w e i, (die.fbhead < 2 ^ 32 - 1 → i = die.fbhead) ∧ CompletesTo (.hlt h) s x x.act (fun _ => x.next) w ∧ e.flt = Flt.mk' Code.brk ∧ e.halt = true ∧ e.ctx = x.team.ctx ∧ e.lanes = laneMask x.act ∧ e.pc = shownPc x.pc ∧
      (die.heldFaults = [] → die.count ≠ 1024 → w.mem = (t.write (t.gpaOf (die.fbbase + 32 * (die.fbhead % 1024))) (e.bytes die.fbhead)).mem) ∧
      ((die.heldFaults ≠ [] ∨ die.count = 1024) → w.mem = t.mem) ∧
      ∃ g', w.group? x.tid x.gix = some g' ∧ g' = { x.g with lanes := g'.lanes } ∧ ∀ j l, x.g.lanes[j]? = some l → g'.lanes[j]? = some
        (if j ∈ x.act then { l with st := .parked (if die.heldFaults = [] ∧ die.count ≠ 1024 then .buffer (dieOf x.team.core) i e x.pc x.next else .heldFault e x.pc x.next) }
         else if l.live then { l with halted := true } else l)

/-- R190: lnch raises BGONE, with ALT where the brand cannot be reached, PROT for a brand that is no queue's, and the fault of reading its packet; else it appends the packet to the queue and gives the status,
0, 1 where the queue is full or 2 where the packet or the queue is refused, which waits for the completion word's page where it must. R189: icinv drops the code lines it names from every instruction cache of the
chip. With no lane in act neither does anything. The frame: no other register changes.
The model's choice, log 48: a packet is checked before a full ring is looked at; log 49: a brand whose payload names no queue gives QPKT and 2; log 44: the
resolve as a choice site. -/
def Sys2Proof.DeviceLaunches : Prop :=
  (∀ h d a b s x t, opening (.lnch h d a b) s = some (x, t) → x.act = [] → CompletesTo (.lnch h d a b) s x [] (fun _ => x.next) t) ∧
  (∀ h d a b s x t, opening (.lnch h d a b) s = some (x, t) → x.act ≠ [] →
    (resolves x (x.brand a) t = .wait → ∃ sl, s.slot = some sl ∧ exec (.lnch h d a b) s = .next (waitAgain t sl)) ∧
    (∀ v, resolves x (x.brand a) t = .got .gone v → FaultsAll (.lnch h d a b) s x v (Flt.mk' Code.bgone)) ∧
    (∀ v, resolves x (x.brand a) t = .got .unreach v → FaultsAll (.lnch h d a b) s x v { Flt.mk' Code.bgone with alt := true }) ∧
    ∀ r v, resolves x (x.brand a) t = .got (.live r) v →
      (r.kind ≠ kindQueue → FaultsAll (.lnch h d a b) s x v (Flt.mk' Code.prot)) ∧
      (∀ f y, r.kind = kindQueue → v.imageAt x (x.w64 b x.low) 64 64 = (.error f, y) → FaultsAll (.lnch h d a b) s x y f) ∧
      ∀ bs y, r.kind = kindQueue → v.imageAt x (x.w64 b x.low) 64 64 = (.ok bs, y) →
        (∀ c z, y.submit x (x.brand a) r bs = some (c, z) → z.blocked = false →
          ∃ w, CompletesTo (.lnch h d a b) s x [] (fun _ => x.next) w ∧ GroupStep x.tid x.gix z w (Received x d (fun _ => c) 0)) ∧
        (y.submit x (x.brand a) r bs = none → y.blocked = false → ∃ sl, s.slot = some sl ∧ exec (.lnch h d a b) s = .next (waitAgain y sl))) ∧
  (∀ (y : State) x b r bs q, y.home b ≠ .away → y.queueOf r.payload = some q → q.full = true → parsePacket bs ≠ none → y.submit x b r bs = some (1, y)) ∧
  (∀ (y : State) x b r bs q, y.home b ≠ .away → y.queueOf r.payload = some q → q.full = false → parsePacket bs ≠ none →
    y.submit x b r bs = some (0, ((y.visit q.ctx .host 0 (y.gpaOf (q.base + 64 * (q.wr % 2 ^ q.m))) false).writeHome (y.gpaOf (q.base + 64 * (q.wr % 2 ^ q.m))) bs).modQueue q.q
      fun q => { q with wr := q.wr + 1 })) ∧
  (∀ (y : State) x b r bs q, y.home b ≠ .away → y.queueOf r.payload = some q → parsePacket bs = none → y.submit x b r bs = (y.writeStatus q.ctx (complOf bs) Code.qpkt).map fun z => (2, z)) ∧
  (∀ (y : State) x b r bs, y.home b ≠ .away → y.queueOf r.payload = none → y.submit x b r bs = (y.writeStatus x.c.ctx (complOf bs) Code.qpkt).map fun z => (2, z)) ∧
  ∀ h a b s x t, opening (.icinv h a b) s = some (x, t) → ∃ w, CompletesTo (.icinv h a b) s x [] (fun _ => x.next) w ∧ OnlyCaches t w ∧
    ∀ n l, l ∈ (w.core n).ilines ↔ l ∈ (t.core n).ilines ∧ (l.ctx = x.c.ctx → ∀ j ∈ x.act, ∀ i, i < b.immVal.toNat → l.va ≠ ((x.w64 a j).toNat / 128 * 128 + 128 * i) % 2 ^ 64)

/-- R188 to R191, R399: the system instructions but trt. -/
def Obligations.SystemInstructions : Prop := SystemRegisters ∧ DieRegisters ∧ Halts ∧ DeviceLaunches

/-! ### Events of the memory -/

/-- The words of an access's bytes reach the registers from `n` on of its lanes; predicates and the other lanes stand (R220). -/
def Sys2Proof.Landed (a : Acc) (n : Nat) (bs : List Byte) (g g' : Group) : Prop :=
  g'.lanes.length = g.lanes.length ∧ g'.k = g.k ∧
  ∀ (j : Nat) (l : Lane), g.lanes[j]? = some l → ∃ l' : Lane, g'.lanes[j]? = some l' ∧ l'.p = l.p ∧ l'.v = if j ∈ a.lanes then putRegs l.v n (a.wordsOf bs j) else l.v

/-- No pigeonhole is open at any doubleword of a run of bytes. -/
def Sys2Proof.NoHoles (s : State) (gpa n : Nat) : Prop := ∀ k, gpa / 8 ≤ k → k < (gpa + n + 7) / 8 → s.hole? k = none

/-- The entries of the pigeonhole of a doubleword; none where it is closed. -/
def Sys2Proof.holeList (s : State) (dw : Nat) : List Entry := ((s.hole? dw).map (·.entries)).getD []

/-- What a command of the host does: it crosses the link, or is held while every module is down (R418). -/
def Sys2Proof.OverLink (e : Instr) (s : State) (P : State → Prop) : Prop :=
  (s.linkUp = false → exec e s = .next { s with linkHeld := s.linkHeld ++ [e] }) ∧ (s.linkUp = true → ∃ u, exec e s = .next u ∧ P u)

/-- Every store of the core that a load meets is in the core's store path, or is later than the load or of other words. -/
def Sys2Proof.PathSettled (s : State) (a : Acc) : Prop :=
  ∀ b ∈ s.accs, b.kind.isStore = true → b.core = a.core → b.path ≠ none ∨ a.laneBefore b = true ∨ (b.laneBefore a = false ∧ b.sameWord a = false)

/-- R219, R220, R258: an outstanding load's data arrives in its registers, from its entry, or from memory as it stands under the bytes of the core's store path,
once what precedes it is performed; a byte of the path is that of the store to it that entered last. A load that is not outstanding, or that something
precedes, does nothing. R307, R374: a fetching operator's value arrives and OC falls. The frame: no byte changes and no other register. The model's choice,
log 62: where a load takes its place in the order of its core. -/
def Sys2Proof.ValuesArrive : Prop :=
  (∀ s id a bs n pair, s.acc? id = some a → a.d = .v n pair → a.lanes.Nodup → a.shape ≠ .probe → a.val = some bs → bs ≠ [] →
    (a.kind = .load → ∃ u, exec (.loadDataArrival id) s = .next u ∧ u.accs = s.accs.filter (·.id != id) ∧ u.mem = s.mem ∧
      ∀ g, s.group? a.tid a.gix = some g → ∃ g', u.group? a.tid a.gix = some g' ∧ Landed a n.toNat bs g g') ∧
    (∀ op, a.kind = .fetch op → ∃ u, exec (.operatorReturn id) s = .next u ∧ u.accs = s.accs.filter (·.id != id) ∧ u.mem = s.mem ∧
      ∀ g, s.group? a.tid a.gix = some g → ∃ g', u.group? a.tid a.gix = some g' ∧ g'.oc = g.oc - 1 ∧ Landed a n.toNat bs g g')) ∧
  (∀ s id a gpa n pair, s.acc? id = some a → a.kind = .load → a.shape ≠ .probe → a.d = .v n pair → a.lanes.Nodup → a.val = none → a.arrived = false → a.place = .mem gpa → 0 < a.size →
    s.onChip gpa = true → isDevice gpa = false → a.alg = 0 → s.before a = [] → PathSettled s a → NoHoles s gpa a.size → s.poisoned gpa a.size = false →
    ∃ u, exec (.loadDataArrival id) s = .next u ∧ u.acc? id = none ∧ u.mem = s.mem ∧
      ∀ g, s.group? a.tid a.gix = some g → ∃ g', u.group? a.tid a.gix = some g' ∧ Landed a n.toNat (forwardAt (s.pathStores a) a.place (s.read gpa a.size)) g g') ∧
  (∀ (stores : List Acc) (st : Acc) place bs (i : Nat) gpa a, place = .mem gpa → st.place = .mem a → st.data.length = st.size → i < bs.length →
    (a ≤ gpa + i ∧ gpa + i < a + st.size → (forwardAt (stores ++ [st]) place bs)[i]? = some (st.data.getD (gpa + i - a) 0)) ∧
    (gpa + i < a ∨ a + st.size ≤ gpa + i → (forwardAt (stores ++ [st]) place bs)[i]? = (forwardAt stores place bs)[i]?) ∧ forwardAt [] place bs = bs) ∧
  ∀ s id, (∀ a, s.acc? id = some a → a.val = none ∧ s.before a ≠ []) → exec (.loadDataArrival id) s = .next s ∧ exec (.operatorReturn id) s = .next s

/-- R260, R310: a store without a table, once what precedes it is performed, changes its bytes and no others, and a write of a transactional group changes no
byte. R295, R305, R307: a load, store or operator that enters a pigeonhole does so last, as a choice site, and changes no byte. R258: a load keeps what it
meets in the store path of its core, and has its value at once where that is all of it. The frame: no register changes. The model's choice, log 62: when a
load searches the path, and a load that the path gives whole. -/
def Sys2Proof.AccessesReachHome : Prop :=
  (∀ s id a, s.acc? id = some a → a.kind = .store → s.before a = [] →
    (∀ gpa, a.place = .mem gpa → s.onChip gpa = true → isDevice gpa = false → a.alg = 0 → NoHoles s gpa a.data.length →
      ∃ u, exec (.storePerformedAtHome id) s = .next u ∧ u.acc? id = none ∧ u.mem = Cells.setBytes s.mem gpa a.data ∧ RegsKept s u) ∧
    (∀ tid off t, a.place = .spad tid off → s.team? tid = some t → ∃ u t', exec (.storePerformedAtHome id) s = .next u ∧ u.acc? id = none ∧ u.mem = s.mem ∧
      u.team? tid = some t' ∧ t'.spad = Cells.setBytes t.spad off a.data ∧ RegsKept s u)) ∧
  (∀ s id a handle gpa, s.acc? id = some a → a.kind = .tx handle → s.before a = [] → a.place = .mem gpa → s.onChip gpa = true →
    ∃ u, exec (.storePerformedAtHome id) s = .next u ∧ u.accs = s.accs.filter (·.id != id) ∧ u.mem = s.mem ∧ RegsKept s u) ∧
  (∀ s id a, s.acc? id = some a → s.before a ≠ [] → exec (.storePerformedAtHome id) s = .next s ∧ exec (.entryArrival id) s = .next s) ∧
  ∀ s id a gpa z, s.acc? id = some a → s.enters a = true → a.place = .mem gpa → isDevice gpa = false → a.shape ≠ .probe → a.arrived = false → s.before a = [] →
    s.choice a.ctx 1 (arrivalSite (a.party / 2 ^ 11 * 64) (gpa / 8)) (arrivalPayload a.party (gpa / 8)) = .go z → s.agents.length = 16 →
    (holeList s (gpa / 8)).length < 16 → (s.hole? (gpa / 8) ≠ none ∨ (s.agent (stackOf gpa)).holes.length < 4096) →
    ∀ cover whole, cover = (if a.kind.isLoad then runsOver ((s.meet a).pathStores a) a.place a.size else a.cover) →
      whole = (a.kind.isLoad && covers cover gpa a.size && (wordsOf gpa a.size).all fun w => !s.poison.contains w || coversWord cover w) →
      ∃ u, exec (.entryArrival id) s = .next u ∧ u.mem = z.mem ∧ RegsKept s u ∧
        holeList u (gpa / 8) = holeList s (gpa / 8) ++ [{ a.entry gpa with acc := if whole then none else (a.entry gpa).acc }] ∧
        u.acc? id = (if a.kind.isLoad || a.kind.isFetch then
          some { a with arrived := true, cover := cover, val := if whole then some (overlay cover gpa (List.replicate a.size 0)) else a.val } else none)

/-- R296, R301, R407: the head of a pigeonhole retires, unless replay keeps it: it reads or writes its word as its operator says, and a lane that awaits it has
the old value, under what it met in its core's store path (R258). The frame: no other byte and no register changes. The model's choice, log 44: what replay
keeps. -/
def Sys2Proof.HeadsRetire : Prop :=
  (∀ s dw, (s.hole? dw = none ∨ s.headHeld dw = true) → exec (.entryRetire dw) s = .next s) ∧
  ∀ s dw h (e : Entry) rest, s.hole? dw = some h → h.entries = e :: rest → s.headHeld dw = false → s.agents.length = 16 → s.poisoned e.gpa e.size = false →
    ∃ u, exec (.entryRetire dw) s = .next u ∧ holeList u dw = rest ∧ RegsKept s u ∧
      u.mem = (match e.op with
        | .load => s.mem
        | .store => Cells.setBytes s.mem e.gpa e.data
        | op => Cells.setBytes s.mem e.gpa (toLe e.size (opNew op (s.readNat e.gpa e.size) (leNat e.data) e.cmp.toNat))) ∧
      ∀ id a, e.acc = some id → e.op ≠ .store → s.acc? id = some a → u.acc? id = some { a with val := some (overlay a.cover a.place.spot.2.2.2 (s.read e.gpa e.size)) }

/-- R219, R220, R258, R260, R295, R296, R301, R307, R310: how outstanding accesses arrive. -/
def Obligations.AccessesArrive : Prop := ValuesArrive ∧ AccessesReachHome ∧ HeadsRetire

/-- R297 to R300, R407: a permitted rewrite, as a choice site, replaces two adjacent entries and touches no byte of them, and each kind of rewrite is permitted
only as the rule says; under replay one that the log does not name next is not applied. The model's choice, log 44: what replay does with a rewrite that the
log does not name next. -/
def Sys2Proof.RewritesApply : Prop :=
  (∀ s dw pos h e f rw es payload, s.hole? dw = some h → h.entries[pos]? = some e → h.entries[pos + 1]? = some f → s.rewritten rw e f = some es → s.agents.length = 16 →
    payload = localOf (8 * dw) / 8 * 2 ^ 11 + pos % 16 * 2 ^ 7 + rewriteCode rw * 2 ^ 4 →
    (s.rewriteNamed f.ctx dw (postmarkOf 2 (stackOf (8 * dw)) payload) = false → exec (.entryRewrite dw pos rw) s = .next s) ∧
    ∀ z, s.choice f.ctx 2 (stackOf (8 * dw)) payload = .go z →
      ∃ u, exec (.entryRewrite dw pos rw) s = .next u ∧ holeList u dw = h.entries.take pos ++ es ++ h.entries.drop (pos + 2) ∧ u.mem = z.mem ∧ RegsKept s u ∧
        ∀ id a, rw = .forward → f.acc = some id → s.acc? id = some a → u.acc? id = some { a with val := some (overlay a.cover a.place.spot.2.2.2 e.data) }) ∧
  ∀ (s : State) e f es,
    (s.rewritten .swap e f = some es → es = [f, e] ∧ (overlap e.gpa e.size f.gpa f.size = false ∨ ∃ r, s.relation e f = some r ∧ r.1.testBit 0 = true)) ∧
    (s.rewritten .absorb e f = some es → es = [f] ∧ e.reads = false ∧ f.reads = false ∧ ∃ r, s.relation e f = some r ∧ r.1.testBit 1 = true) ∧
    (s.rewritten .forward e f = some es → es = [e] ∧ f.op = .load ∧ ∃ r, s.relation e f = some r ∧ r.1.testBit 1 = true) ∧
    (s.rewritten .compose e f = some es → e.reads = false ∧ f.reads = false ∧ ∃ r, s.relation e f = some r ∧ r.1.testBit 2 = true ∧ r.2.compose ≠ 0 ∧
      es = [{ f with data := toLe f.size (composeBy r.2.compose f.op f.size e.operand f.operand) }]) ∧
    (s.rewritten .cancel e f = some es → es = [] ∧ e.reads = false ∧ f.reads = false ∧ ∃ r, s.relation e f = some r ∧ r.1.testBit 3 = true ∧
      cancels r.2.cancel f.op f.size e.operand f.operand = true) ∧
    ∀ r, s.relation e f = some r → e.gpa = f.gpa ∧ e.size = f.size ∧ e.table = f.table

/-- R303: an entry that has waited its time retires with those ahead of it. R206: the host moves the tail of a dirty log and the lanes that wait for room retry.
R313, R314, R293: the walker takes its next record and makes, in order, the writes that serving it gives; while the context is frozen it does not. A record
with a limit of Table 13-7 broken makes SHAPE its flag, one with a field misaligned ALIGN, and writes no output. The model's choice, log 54: what waits in a
frozen partition; log 61: the order of the walker's faults. -/
def Sys2Proof.AgentsProceed : Prop :=
  (∀ s dw pos h (e : Entry), s.hole? dw = some h → h.entries[pos]? = some e → e.reads = true → s.agents.length = 16 → (∀ k ∈ s.ctxs, k.replay = false) →
    ∃ u, exec (.retirementBound dw pos) s = .next u ∧ holeList u dw = h.entries.drop (pos + 1)) ∧
  (∀ s n x k, s.ctx? n = some k → OverLink (.dirtyLogTailAdvance n x) s fun u => (∃ k', u.ctx? n = some k' ∧ k' = { k with dltail := x }) ∧
    u.mem = Cells.setBytes s.mem (s.gpaOf (k.record + 44)) (toLe 4 x.toNat) ∧
    u.teams = s.teams.map fun t => if t.ctx = n then { t with groups := t.groups.map fun g => { g with lanes := g.lanes.map Lane.leaveLog } } else t) ∧
  (∀ l : Lane, l.leaveLog = if l.st = .parked .dirtyLog then l.wake l.pc true else l) ∧
  (∀ s n l rest, (s.agent n).walker = l :: rest → (∃ k, s.ctx? l.ctx = some k ∧ k.frozen = true) → exec (.walkerRecord n) s = .next s) ∧
  (∀ s n l rest ws v, (s.agent n).walker = l :: rest → n < 16 → s.agents.length = 16 → (∀ k, s.ctx? l.ctx = some k → k.frozen = false) → s.serveLookup n l = .done ws [] v → Unlogged v l.ctx →
    (∀ w ∈ ws, v.onChip w.gpa = true ∧ isDevice w.gpa = false ∧ NoHoles v w.gpa w.bs.length) →
    ∃ u, exec (.walkerRecord n) s = .next u ∧ (u.agent n).walker = rest ∧ u.mem = ws.foldl (fun m w => Cells.setBytes m w.gpa w.bs) v.mem ∧ RegsKept s u) ∧
  ∀ (w : Walking) c n snap r, (r.bad = true → r.misaligned = false → w.serve c n snap r = w.flag c r Code.shape []) ∧ (r.bad = false → r.misaligned = true → w.serve c n snap r = w.flag c r Code.align [])

/-- R208 to R210, R256: an uncorrectable error kills the team that owns the registers, scratchpad, pool word or accumulator bank, which is placed afresh or ends its launch with ECCU; of a scratchpad that a peer is to read it
is remembered for the peer; of a free bank it has no effect; of a word of memory the word is poisoned, after the reads of it that are under way. -/
def Sys2Proof.UncorrectableErrors : Prop :=
  (∀ s w, s.onChip (4 * w) = true → isDram (4 * w) = true →
    ∃ v, v = s.force (fun a => (a.kind.isLoad || a.kind.isFetch) && (match a.place with | .mem g => shareWord g a.size (4 * w) 4 | _ => false)) ∧
      exec (.uncorrectableError (.dram w)) s = .next { v with poison := insertNat w v.poison }) ∧
  (∀ s q bank, (s.quad q).owner.find? (·.1 == bank) = none → exec (.uncorrectableError (.acc q bank)) s = .next s) ∧
  (∀ s tid t, s.team? tid = some t →
    ∃ v, v = s.force (fun a => a.kind.isLoad && a.tid != tid && (match a.place with | .spad u _ => u == tid | _ => false)) ∧
      exec (.uncorrectableError (.peer tid)) s = .next (v.modTeam tid fun t => { t with flaw := true })) ∧
  ∀ s e t, ((∃ tid, (e = .regs tid ∨ e = .spad tid) ∧ s.team? tid = some t) ∨
      (∃ tid cl w p, e = .pool tid t.lid cl w ∧ s.team? tid = some t ∧ s.pool? t.lid cl = some p ∧ 4 * w < p.bytes) ∨
      ∃ q bank o, e = .acc q bank ∧ (s.quad q).owner.find? (·.1 == bank) = some o ∧ s.team? o.2 = some t) →
    ∃ u, exec (.uncorrectableError e) s = .next u ∧ u.team? t.tid = none ∧ ∀ l, s.launch? t.lid = some l → ∃ l', u.launch? t.lid = some l' ∧
      ((l.kern.idem = true ∧ t.kills < 4) → l' = { l with again := l.again ++ [(t.t, t.kills + 1, t.core)] }) ∧
      (¬(l.kern.idem = true ∧ t.kills < 4) → l' = { l with status := if l.status = 0 then 0x0E else l.status, live := l.live - 1 })

/-- R206, R208 to R210, R297 to R300, R303, R313: rewrites, ages, dirty logs, walkers and uncorrectable errors. -/
def Obligations.AgentsAndErrors : Prop := RewritesApply ∧ AgentsProceed ∧ UncorrectableErrors

/-! ### Events of the copy units, the couriers and the engines -/

/-- The word that a piece of a copy is written in. -/
def Sys2Proof.wordAt (c : Copy) (i : Nat) : Option Place := (c.pieces[i]?).map (·.dst.inWord.1)

/-- R212, R320, R322: some of the words left of a sector arrive, each whole, and with the last of them it becomes present; what arrives is the source's bytes, or
the pad; a full dirty log keeps them, and a bad word of the pool kills the team. A copy whose team is not resident, or that a frozen partition keeps from
beginning, does nothing. The model's choice, log 21: which words arrive together. -/
def Sys2Proof.SectorsArrive : Prop :=
  (∀ s id c t unit left, s.copy? id = some c → s.team? c.tid = some t → left = c.piecesWhere (fun p => p.unit == unit && !p.done) →
    ((c.cpx = true ∨ t.st ≠ .resident ∨ left = [] ∨ (s.frozen c.ctx = true ∧ ∀ p ∈ c.pieces, p.done = false)) → exec (.copySectorArrival id unit) s = .next s) ∧
    ∀ words now v, c.cpx = false → t.st = .resident → left ≠ [] → (s.frozen c.ctx = false ∨ ∃ p ∈ c.pieces, p.done = true) →
      s.allOrSome (left.map (wordAt c)).eraseDups = (words, v) → now = left.filter (fun i => words.contains (wordAt c i)) →
      (v.landPieces t c now = .full → exec (.copySectorArrival id unit) s = .next s) ∧
      (∀ z, v.landPieces t c now = .poolBad z → exec (.copySectorArrival id unit) s = .next (z.killFor c.tid)) ∧
      ∀ z, v.landPieces t c now = .done z → ∃ u, exec (.copySectorArrival id unit) s = .next u ∧ u.mem = z.mem ∧ u.copies = z.copies ∧
        ∀ i p tid off t', left.head? = some i → c.pieces[i]? = some p → p.dst = .spad tid off → u.team? tid = some t' →
          (now.length = left.length → off / 64 ∉ t'.absent) ∧ ∀ tz, z.team? tid = some tz → t'.spad = tz.spad) ∧
  (∀ (s : State) t c is z, s.copy? c.id = some c → s.landPieces t c is = .done z →
    ∃ c', z.copy? c.id = some c' ∧ c' = { c with pieces := is.foldl (fun ps i => ps.modify i fun p => { p with done := true }) c.pieces, status := c'.status, got := c'.got, hist := c'.hist }) ∧
  ∀ (s : State) t c r p tid off m, p.dst = .spad tid off → p.page = none → r.red = 0 → s.team? tid = some m →
    (p.src = none → ∃ u m', s.landPiece t c r p = .done u ∧ u.mem = s.mem ∧ u.team? tid = some m' ∧ m'.spad = Cells.setBytes m.spad off p.pad) ∧
    ∀ g n g0 n0, p.src = some (.mem g) → n = p.pad.length → s.copy? c.id = some c → c.got = [] → isDevice g = false → Unlogged s t.ctx →
      ((4 ≤ n ∧ g0 = g ∧ n0 = n) ∨ (n < 4 ∧ g % 4 + n ≤ 4 ∧ g0 = g / 4 * 4 ∧ n0 = 4)) → s.onChip g0 = true → isDevice g0 = false → NoHoles s g0 n0 →
      c.snap.bytes s g0 n0 = s.read g0 n0 → s.poisoned g0 n0 = false → s.poisoned (g / r.size * r.size) r.size = false →
      ∃ u m', s.landPiece t c r p = .done u ∧ u.mem = s.mem ∧ u.team? tid = some m' ∧ m'.spad = Cells.setBytes m.spad off (s.read g n)

/-- R321, R325, R327, R338: a cpy completes once all has arrived, its flag after its data; a cpx once no target is left, its source's range then leaving the
table; each lowers CC by one, and cpq counts a cpy whose flag was written or that has none. A flag holds the record's value, the sender's rank and the status. -/
def Sys2Proof.CopiesComplete : Prop :=
  (∀ s id c t, s.copy? id = some c → c.cpx = false → (∀ p ∈ c.pieces, p.done = true) → s.team? c.tid = some t → t.st = .resident →
    (s.writeFlag ⟨c.ctx, 1, t.lcore, .copyUnit c.core⟩ (Rec.read c.dstRec) c.td (((s.ctx? c.ctx).map s.rankOf).getD 0) c.status = none → exec (.copyComplete id) s = .next s) ∧
    ∀ counted v g, s.writeFlag ⟨c.ctx, 1, t.lcore, .copyUnit c.core⟩ (Rec.read c.dstRec) c.td (((s.ctx? c.ctx).map s.rankOf).getD 0) c.status = some (counted, v) → v.group? c.tid c.gix = some g →
      ∃ u g', exec (.copyComplete id) s = .next u ∧ u.copies = v.copies.filter (·.id != id) ∧ u.mem = v.mem ∧ u.group? c.tid c.gix = some g' ∧ g'.cc = g.cc - 1 ∧
        g'.last = g.last.map fun l => if l.id = id then { l with done := l.done + (if counted then 1 else 0), complete := true } else l) ∧
  (∀ s id, (∀ c, s.copy? id = some c → (c.cpx = false → ∃ p ∈ c.pieces, p.done = false) ∧ (c.cpx = true → c.targets ≠ [])) →
    exec (.copyComplete id) s = .next s ∧ exec (.cpxComplete id) s = .next s) ∧
  (∀ (s : State) p r td k st, (r.flagaddr = 0 → st ≠ 0x0E → s.writeFlag p r td k st = some (decide (st = 0), s)) ∧
    (r.flagaddr = 0 → st = 0x0E → s.writeFlag p r td k st = some (true, s.reportTile p.ctx 0x0E false 0)) ∧
    (∀ v, r.flagaddr ≠ 0 → s.engineWrite p (BitVec.ofNat 64 (r.flagaddr + 8 * td)) (toLe 8 (flagWord r k st)) 8 = some (.ok v) → s.writeFlag p r td k st = some (true, v)) ∧
    (∀ f, r.flagaddr ≠ 0 → s.engineWrite p (BitVec.ofNat 64 (r.flagaddr + 8 * td)) (toLe 8 (flagWord r k st)) 8 = some (.error f) → s.writeFlag p r td k st = some (false, s.reportBare p.ctx f false)) ∧
    flagWord r k st % 2 ^ 32 = r.flagval % 2 ^ 32 ∧ flagWord r k st / 2 ^ 32 % 2 ^ 16 = k % 2 ^ 16 ∧ flagWord r k st / 2 ^ 48 = st % 2 ^ 8) ∧
  ∀ s id c g, s.copy? id = some c → c.cpx = true → c.targets = [] → s.group? c.tid c.gix = some g →
    ∃ u g', exec (.cpxComplete id) s = .next u ∧ u.copies = s.copies.filter (·.id != id) ∧ u.mem = s.mem ∧ u.group? c.tid c.gix = some g' ∧ g'.cc = g.cc - 1 ∧
      g'.last = (g.last.map fun l => if l.id = id then { l with complete := true } else l) ∧ ∀ k, u.ctx? c.ctx = some k → ∀ r ∈ k.ranges, r.owner ≠ .source id

/-- R325, R327, R330 to R332: a tile of this chip's cpx goes to a rank here, where it begins or waits, or leaves by its port, or is lost with its link; one from
another chip comes to its context, or is dropped and counted late; one for a further chip is forwarded. A tile that has not begun is dropped where its brand
is dead or its context gone, waits where it may not begin or the range table is full, and begins with its range entered. A page that faults ends it with the
fault in its flag. The model's choice, log 42: what becomes of tiles of dead brands, and the port that counts a late packet. -/
def Sys2Proof.TilesGo : Prop :=
  (∀ s id c t rank goal s1, s.copy? id = some c → c.cpx = true → rank ∈ c.targets → s.team? c.tid = some t → (s.frozen c.ctx = false ∨ c.data ≠ none) → s.cpxRead t c = (none, s1) →
    (((s.ctx? c.ctx).map (·.rankTable)).getD []).getD rank (s.chip, c.ctx) = goal →
    (∀ n s2 x k, goal.1 = s.chip → (∀ y ∈ s1.tiles, y.own ≠ some (id, rank)) → s1.newId = (n, s2) → s1.copy? id = some k →
      x = ⟨n, some (id, rank), goal.2, c.dstRec, c.td, ((s1.ctx? c.ctx).map s1.rankOf).getD 0, k.data.getD [], false, [], false⟩ →
      exec (.cpxTileArrival (.own id rank)) s = .next ((State.moveTile { s2 with tiles := s2.tiles ++ [x] } x).getD { s2 with tiles := s2.tiles ++ [x] })) ∧
    (goal.1 ≠ s.chip → s1.reachable goal.1 = false → exec (.cpxTileArrival (.own id rank)) s = .next ((s1.ackRank id rank false).reportTile c.ctx 0x0E true 0)) ∧
    (∀ p counted v, goal.1 ≠ s.chip → s1.reachable goal.1 = true → s1.port? (s1.portOf goal.1) = some p → id ∉ p.steps → s1.frozen c.ctx = false →
      (s1.leaves goal.1 (Rec.read c.dstRec).tileBytes 1).freeBool = (counted, v) → exec (.cpxTileArrival (.own id rank)) s = .next ((v.ackRank id rank counted).tick c.ctx))) ∧
  (∀ s ctx bs td sender elems c r n s2 x, s.ctx? ctx = some c → r = Rec.read bs → r.bad true true = false → td < r.tiles → elems.length = r.count → s.rankFar c sender = true → s.newId = (n, s2) →
    x = ⟨n, none, ctx, bs, td, sender, elems.map (fun e => e.map fun y => toLe r.size (y.toNat % 2 ^ (8 * r.size))), false, [], false⟩ →
    exec (.cpxTileArrival (.remote ctx bs td sender elems)) s = .next ((State.moveTile { s2 with tiles := s2.tiles ++ [x] } x).getD { s2 with tiles := s2.tiles ++ [x] })) ∧
  (∀ s ctx bs td sender elems r, s.ctx? ctx = none → r = Rec.read bs →
    ((r.bad true true = true ∨ r.tiles ≤ td) → exec (.cpxTileArrival (.remote ctx bs td sender elems)) s = .next s) ∧
    ∀ k v, r.bad true true = false → td < r.tiles → s.freeNat = (k, v) →
      exec (.cpxTileArrival (.remote ctx bs td sender elems)) s = .next (v.modPort (k % 18) fun p => { p with late := p.late + 1 })) ∧
  (∀ s id x, s.tile? id = some x → exec (.cpxTileArrival (.rest id)) s = .next ((s.moveTile x).getD s)) ∧
  (∀ s n ch chip bytes p, s.port? n = some p → p.valid = true → p.up = true → s.linkUp = true →
    exec (.cpxTileArrival (.through n ch chip bytes)) s = .next (s.modPort n fun p => { p with forwards := p.forwards ++ [⟨ch, chip, bytes⟩] })) ∧
  ∀ (s : State) x r, r = Rec.read x.shape →
    (s.ctx? x.ctx = none → s.moveTile x = some (s.dropTile x)) ∧
    ∀ c, s.ctx? x.ctx = some c →
      (∀ v, x.begun = false → s.resolve r.brand = (.gone, v) → s.moveTile x = some (v.dropTile x)) ∧
      (∀ o v, x.begun = false → o ≠ .gone → s.resolve r.brand = (o, v) →
        ((v.mayBegin c x = false ∨ ((r.bounds x.td).2 ≠ 0 ∧ ∃ d ∈ c.dies, c.freeRange d = none)) → s.moveTile x = none) ∧
        (v.mayBegin c x = true → ((r.bounds x.td).2 = 0 ∨ ∀ d ∈ c.dies, c.freeRange d ≠ none) →
          (∀ f u, v.boxOn (c.lmap.headD 0) c r x.td true = .flt f u → s.moveTile x = u.faultTile x f) ∧
          ∀ els u, v.boxOn (c.lmap.headD 0) c r x.td true = .ok els u → s.moveTile x = u.landTile x els fun y =>
            let y := if x.own.isSome then y else y.comes (y.senderChip x) r.tileBytes
            if (r.bounds x.td).2 != 0 then y.addRange c.ctx c.dies (r.bounds x.td).1 (r.bounds x.td).2 (.tile x.id) else y)) ∧
      (x.begun = true →
        (∀ f u, s.boxOn (c.lmap.headD 0) c r x.td true = .flt f u → s.moveTile x = u.faultTile x f) ∧
        ∀ els u, s.boxOn (c.lmap.headD 0) c r x.td true = .ok els u → s.moveTile x = u.landTile x els id)

/-- Of a tile some of the doublewords that are left land, in place of the old words without RED; with the last its range leaves the tables, its flag is written
and its rank is off the targets; cpq counts it where its flag, or without one the tile, was written. The model's choice, log 21: which land together. -/
def Sys2Proof.TilesLand : Prop :=
  (∀ (s : State) x els b left dws y now z r, r = Rec.read x.shape → r.red = 0 → left = (r.units x.td els x.data).filter (fun u => !x.landed.contains u.n) →
    s.allOrSome (left.foldl (fun l u => insertNat (u.gpa / 8) l) []) = (dws, y) → now = left.filter (fun u => dws.contains (u.gpa / 8)) → y.dirtyUnits x.ctx now = some (.ok z) →
    ∀ u p m, u = z.modCtx x.ctx (fun c => { c with heldEvents := c.heldEvents.filter (·.2 != .cpxTileArrival (.rest x.id)) }) → (b u).landUnits (u.tileParty x) r now = (p, m) →
      ∀ x', x' = { x with begun := true, landed := x.landed ++ now.map (·.n), bad := x.bad || !p } →
        (now.length < left.length → s.landTile x els b = some ((m.modTile x.id fun _ => x').tick x.ctx)) ∧
        (now.length = left.length → ∀ e, (State.endTile ((m.modTile x.id fun _ => x').tick x.ctx) x' (if x'.bad then 0x0E else 0)) = some e → s.landTile x els b = some e)) ∧
  (∀ (s : State) p r us, r.red = 0 → Unlogged s p.ctx → (∀ u ∈ us, u.data ≠ none ∧ s.onChip u.gpa = true ∧ isDevice u.gpa = false ∧ NoHoles s u.gpa ((u.data.getD []).length)) →
    (s.landUnits p r us).1 = true ∧ (s.landUnits p r us).2.mem = us.foldl (fun m u => Cells.setBytes m u.gpa (u.data.getD [])) s.mem) ∧
  (∀ (s : State) x st counted v, (s.dropRanges x.ctx (RangeOwner.isTile x.id)).writeFlag (s.tileParty x) (Rec.read x.shape) x.td x.sender st = some (counted, v) →
    s.endTile x st = some (v.tileOver x counted) ∧ ∀ k, (s.dropRanges x.ctx (RangeOwner.isTile x.id)).ctx? x.ctx = some k → ∀ r ∈ k.ranges, r.owner ≠ .tile x.id) ∧
  ∀ (s : State) x id rank c g counted, x.own = some (id, rank) → s.copy? id = some c → s.group? c.tid c.gix = some g →
    ∃ g', (s.tileOver x counted).tiles = s.tiles.filter (·.id != x.id) ∧ (s.tileOver x counted).mem = s.mem ∧
      (s.tileOver x counted).copies = (s.copies.map fun y => if y.id = id then { y with targets := y.targets.filter (· != rank) } else y) ∧
      (s.tileOver x counted).group? c.tid c.gix = some g' ∧ g' = { g with last := if counted then g.last.map fun l => if l.id = c.id then { l with done := l.done + 1 } else l else g.last }

/-- R328, R337: a claim that waits is granted where its resources are free and no lower one could be granted, counted where its team has claimed the brand
meanwhile, and ended with 3 where it can never be granted. R293, R332: a frozen claim waits on; a courier takes its next step, or forwards a tile, unless
frozen. The frame: no byte changes. The model's choice, log 54: what freezing stops. -/
def Sys2Proof.ClaimsAndCouriers : Prop :=
  (∀ s tid gix t g b n d lanes next hold, s.team? tid = some t → s.group? tid gix = some g → g.wait = some (.claim b n d lanes next hold) → t.st = .resident →
    (s.frozen t.ctx = true → exec (.claimGrant tid gix) s = .next s) ∧ (s.frozen t.ctx = false →
    ((∃ c ∈ t.claims, c.brand = b) → ∃ u t', exec (.claimGrant tid gix) s = .next u ∧ u.mem = s.mem ∧ u.stagingFree = s.stagingFree ∧ u.team? tid = some t' ∧
      t'.claims = (t.claims.map fun c => if c.brand = b then { c with count := c.count + 1 } else c) ∧
      u.group? tid gix = some ((g.put d (lanes.map fun j => (j, 0))).endWait lanes next hold)) ∧
    ((∀ c ∈ t.claims, c.brand ≠ b) →
      (∀ ms ps, s.claimReady t b n = some (ms, ps) → s.claimBehind b = false →
        ∃ u t', exec (.claimGrant tid gix) s = .next u ∧ u.mem = s.mem ∧ u.stagingFree = s.stagingFree - n * ps.length ∧ u.team? tid = some t' ∧
          t'.claims = t.claims ++ [⟨b, 1, n, ps, ms⟩] ∧ u.group? tid gix = some ((g.put d (lanes.map fun j => (j, 0))).endWait lanes next hold)) ∧
      (∀ ms ps, s.claimReady t b n = some (ms, ps) → s.claimBehind b = true → exec (.claimGrant tid gix) s = .next s) ∧
      ∀ c r v, s.claimReady t b n = none → s.ctx? t.ctx = some c → s.resolve b = (.live r, v) →
        ((∀ ps, s.portsFor c (membersOf c r.payload) = some ps → s.claimPossible n ps = false) →
          ∃ u, exec (.claimGrant tid gix) s = .next u ∧ u.mem = s.mem ∧ u.group? tid gix = some ((g.put d (lanes.map fun j => (j, 3))).endWait lanes next hold)) ∧
        ((∃ ps, s.portsFor c (membersOf c r.payload) = some ps ∧ s.claimPossible n ps = true) → exec (.claimGrant tid gix) s = .next s)))) ∧
  ∀ s n p, s.port? n = some p →
    ((p.valid = false ∨ p.up = false ∨ s.linkUp = false ∨ (p.steps = [] ∧ p.forwards = [])) → exec (.courierScheduleStep n) s = .next s) ∧
    (p.valid = true → p.up = true → s.linkUp = true →
      (∀ id rest, p.steps = id :: rest → (∀ c, s.copy? id = some c → s.frozen c.ctx = false) → ∃ u, exec (.courierScheduleStep n) s = .next u ∧ u.mem = s.mem ∧ u.port? n = some { p with steps := rest }) ∧
      (∀ id rest c, p.steps = id :: rest → s.copy? id = some c → s.frozen c.ctx = true → exec (.courierScheduleStep n) s = .next s) ∧
      ∀ f rest, p.steps = [] → p.forwards = f :: rest → exec (.courierScheduleStep n) s = .next ((s.modPort n fun p => { p with forwards := rest }).leaves f.chip f.bytes f.channel))

/-- How copies, tiles, claims and couriers go on. -/
def Obligations.CopiesProceed : Prop := SectorsArrive ∧ CopiesComplete ∧ TilesGo ∧ TilesLand ∧ ClaimsAndCouriers

/-- The request at a place of a table is the one that the arbiter grants next: of those of partitions that are not frozen, by priority and age, with its sectors present (R240, R241, R293). -/
def Sys2Proof.GrantedNext (s : State) (quad : Nat) (r : MReq) (t : Team) : Prop :=
  (s.nextGrant ((s.quad quad).reqs.filter fun x => !(((s.team? x.tid).bind fun t => (s.ctx? t.ctx).map (·.frozen)).getD false))).map (·.id) = some r.id ∧ r.present t = true

/-- What the choice site of a grant leaves of the state: nothing changes where the request writes no rows or its team has no other group; else the grant is its postmark's (R405, R407, R410). Which grants are
choice sites is the model's choice (log 44). -/
def Sys2Proof.GrantMarked (s : State) (quad idx : Nat) (r : MReq) (t : Team) (z : State) : Prop :=
  (r.ordered t = false → z = s) ∧
  (r.ordered t = true → ∃ y, s.choice t.ctx 6 t.lcore (s.partyOf r.tid r.gix) = .go y ∧
    z = y.modCtx t.ctx fun c => { c with heldEvents := c.heldEvents.filter (·.2 != .matrixGrant quad idx) })

/-- R240, R407: among the groups' first requests that replay does not hold the one of the highest priority is granted, and among equals the oldest.
The model's choice, log 41: of the heads none is passed over; log 44: which grants replay holds. -/
def Sys2Proof.ArbiterOrder : Prop :=
  ∀ (s : State) reqs r, (∀ y ∈ reqs, s.detReq y = false) → s.nextGrant reqs = some r → r ∈ reqs ∧ ((headOf reqs r).map (·.id)) = some r.id ∧ s.grantHeld r = false ∧
    ∀ y ∈ reqs, (headOf reqs y).map (·.id) = some y.id → s.grantHeld y = false → y.prio ≤ r.prio ∧ (y.prio = r.prio → r.id ≤ y.id)

/-- R208, R239 to R241, R252, R374: the request that is next is granted, which reads its operands, or kills its team where a word it reads in the pool is bad; a change of a binding completes when it is granted as its group's
first. Another does nothing. The frame: no byte changes but by its postmark.
The model's choice, log 44: which grants are choice sites: one that meets no request of another group on its rows may be one, and one of a team of one group
is none. -/
def Sys2Proof.RequestsAreGranted : Prop :=
  ∀ s quad idx r t c, (s.quad quad).reqs[idx]? = some r → s.team? r.tid = some t → s.ctx? t.ctx = some c →
    (¬ GrantedNext s quad r t → exec (.matrixGrant quad idx) s = .next s) ∧
    (GrantedNext s quad r t → s.readsBad t r = true → exec (.matrixGrant quad idx) s = .next (s.killFor r.tid)) ∧
    ∀ z, GrantedNext s quad r t → s.readsBad t r = false → GrantMarked s quad idx r t z →
      (r.kind ≠ .bind → (∀ y ∈ (s.quad quad).reqs, y.kind ≠ .bind) →
        ∃ u r', exec (.matrixGrant quad idx) s = .next u ∧ u.mem = z.mem ∧ (u.quad quad).reqs[idx]? = some r' ∧ r' = { r with grant := some z.nextId, writes := r'.writes } ∧
          (r.kind = .pass → r'.writes = (({ z with nextId := z.nextId + 1 } : State).runPasses t c r).1) ∧
          (r.kind = .zero → r'.writes.map (fun w => (w.tag, w.idx, w.new)) = (List.range (64 * r.zcount)).map fun i => (r.tag, 64 * r.zrow + i, 0))) ∧
      (∀ g, r.kind = .bind → (s.quad quad).reqs.find? (MReq.sameGroup r) = some r → ((s.quad quad).reqs.map (·.id)).Nodup →
          (∀ y ∈ (s.quad quad).reqs, y.id ≠ r.id → r.sameGroup y = true → y.grant = none) → s.group? r.tid r.gix = some g →
        ∃ u g', exec (.matrixGrant quad idx) s = .next u ∧ u.mem = z.mem ∧ (u.quad quad).reqs = (s.quad quad).reqs.filter (·.id != r.id) ∧ u.group? r.tid r.gix = some g' ∧ g'.mc = g.mc - 1)

/-- R239, R240, R242, R246, R374: a granted request that stands first in its group, behind earlier grants on common rows, completes, its words written and MC one lower; another does nothing. Banks that have come free
go to the group that has waited longest, and to no other, unless its partition is frozen (R293). The frame: no byte changes.
The model's choice, log 70: an aalc that waits and finds no free run waits on; log 54: none is served in a frozen partition. -/
def Sys2Proof.RequestsComplete : Prop :=
  (∀ s quad idx r, (s.quad quad).reqs[idx]? = some r → (s.quad quad).completable r = false → exec (.matrixComplete quad idx) s = .next s) ∧
  (∀ s quad idx r t, (s.quad quad).reqs[idx]? = some r → s.team? r.tid = some t → (s.quad quad).completable r = true → (∀ y ∈ (s.quad quad).reqs, y.kind ≠ .bind) →
    r.writes.Pairwise (fun a b => ¬(a.tag = b.tag ∧ a.idx = b.idx)) →
    (∀ w ∈ r.writes, ∃ al, t.allocs.find? (·.tag == w.tag) = some al ∧ Cells.wf al.words = true ∧ Cells.get al.words w.idx = w.old) →
    ∃ u, exec (.matrixComplete quad idx) s = .next u ∧ u.mem = s.mem ∧ (u.quad quad).reqs = (s.quad quad).reqs.filter (·.id != r.id) ∧
      (∀ g, s.group? r.tid r.gix = some g → ∃ g', u.group? r.tid r.gix = some g' ∧ g'.mc = g.mc - 1) ∧
      ∀ w ∈ r.writes, ∃ t' al, u.team? r.tid = some t' ∧ t'.allocs.find? (·.tag == w.tag) = some al ∧ Cells.get al.words w.idx = w.new) ∧
  (∀ s quad, ((s.quad quad).waits = [] ∨ ∀ w rest t g n d lanes next hold, (s.quad quad).waits = w :: rest → s.team? w.tid = some t → s.group? w.tid w.gix = some g →
      g.wait = some (.banks n d lanes next hold) → t.freeRun n = none ∨ (s.quad quad).freeBanks.length < n ∨ s.frozen t.ctx = true) → exec (.aalcBanksFree quad) s = .next s) ∧
  ∀ s quad w rest t g n d lanes next hold first, (s.quad quad).waits = w :: rest → s.team? w.tid = some t → s.group? w.tid w.gix = some g →
    g.wait = some (.banks n d lanes next hold) → t.freeRun n = some first → n ≤ (s.quad quad).freeBanks.length → s.frozen t.ctx = false →
    ∃ u t' al, exec (.aalcBanksFree quad) s = .next u ∧ u.mem = s.mem ∧ (u.quad quad).waits = rest ∧ u.team? w.tid = some t' ∧ t'.allocs = t.allocs ++ [al] ∧ al.first = first ∧
      al.words = [] ∧ al.tag < 256 ∧ u.group? w.tid w.gix = some ((g.put d (lanes.map fun j => (j, BitVec.ofNat 64 (al.tag * 2 ^ 24 + 256 * first)))).endWait lanes next hold)

/-- R382: the test of a waiting wfl reads its word, as memory and the core's store path hold it; where the condition holds kD takes the word, the lanes' earlier loads and the group's fetches are ordered (R415) and the lanes go on; where it does not, or the
team is not resident, nothing happens. -/
def Sys2Proof.WaitsAreTested : Prop :=
  (∀ s tid gix, (∀ t, s.team? tid = some t → t.st ≠ .resident) → exec (.wflTest tid gix) s = .next s) ∧
  (∀ s tid gix t g w, s.team? tid = some t → s.group? tid gix = some g → t.st = .resident → g.wfls = [w] → w.probe = none →
    ∀ id p, s.probe t.core tid gix t.ctx w = (id, p) →
      (∀ y e, p.tested id w = .holds y → e = (p.endProbe t.core t.ctx id).endWfl tid gix w y →
        ∃ u, exec (.wflTest tid gix) s = .next u ∧ u.mem = e.mem ∧ ∀ g', e.group? tid gix = some g' → u.group? tid gix = some (g'.wakeWfl w)) ∧
      (p.tested id w = .again → exec (.wflTest tid gix) s = .next s)) ∧
  ∀ s tid gix t g w, s.team? tid = some t → s.group? tid gix = some g → t.st = .resident → g.wfls = [w] → w.probe = none → w.alg = 0 → s.accs = [] → w.gpa % 4 = 0 → isDevice w.gpa = false →
    s.onChip w.gpa = true → s.hole? (w.gpa / 8) = none → s.poisoned w.gpa 4 = false →
    (wflHolds w.cond (BitVec.ofNat 32 (s.readNat w.gpa 4)) w.v = true → ∃ u, exec (.wflTest tid gix) s = .next u ∧ u.mem = s.mem ∧
      u.group? tid gix = some ((Group.put { g with ahead := some s.asItStands } w.d (w.lanes.map fun j => (j, BitVec.ofNat 64 (s.readNat w.gpa 4)))).wakeWfl w)) ∧
    (wflHolds w.cond (BitVec.ofNat 32 (s.readNat w.gpa 4)) w.v = false → exec (.wflTest tid gix) s = .next s)

/-- R384, R385: a phase end, by sweep or by the idle wires, comes when every message sent for the context has been received: it retires the context's entries, the requests are over and their lanes go on;
before that nothing happens. R358, R359: a resolve fills the core's cache with the live record of a brand homed here. The frame: no byte changes but by the entries. -/
def Sys2Proof.PhasesEnd : Prop :=
  (∀ s n c, s.ctx? n = some c → ((c.balanced = false ∨ c.phases = []) → exec (.phaseEndSweep n) s = .next s) ∧
    ((c.balanced = false ∨ ∀ r ∈ c.phases, r.idle = false) → exec (.idleWireWait n) s = .next s)) ∧
  (∀ s n c e v, s.ctx? n = some c → c.balanced = true → s.retireCtx n = some v →
    (∀ r ∈ c.phases, ∃ tid gix pod idle, r = .lanes tid gix pod idle) →
    ((e = .phaseEndSweep n ∧ c.phases ≠ []) ∨ (e = .idleWireWait n ∧ ∃ r ∈ c.phases, r.idle = true)) →
    ∃ u k, exec e s = .next u ∧ u.mem = v.mem ∧ u.ctx? n = some k ∧ (e = .phaseEndSweep n → k.phases = []) ∧
      ∀ tid gix pod idle, .lanes tid gix pod idle ∈ c.phases → (e = .phaseEndSweep n ∨ (pod = false ∧ idle = true)) →
        (.lanes tid gix pod idle ∉ k.phases) ∧ ∀ g, u.group? tid gix = some g → ∀ l ∈ g.lanes, ∀ succ, l.st ≠ .parked (.phase pod succ)) ∧
  (∀ (s : State) n, s.holesOf n = [] → s.retireCtx n = some s) ∧
  ∀ s n b, n < 1536 → ∃ u, exec (.brandResolve n b) s = .next u ∧ u.mem = s.mem ∧ u.teams = s.teams ∧ u.brands = s.brands ∧
    (∀ r, (s.core n).brands.find? (·.brand == b) = none → s.home b = .here r → ∃ q ∈ (u.core n).brands, q.brand = b ∧ q.got = r) ∧
    (s.homeOf b ≠ some s.chip → s.home b ≠ .away → (∀ r, s.home b ≠ .here r) → u = s)

/-- How engines, waits and phase ends go on. -/
def Obligations.EnginesAndPhases : Prop := ArbiterOrder ∧ RequestsAreGranted ∧ RequestsComplete ∧ WaitsAreTested ∧ PhasesEnd

/-! ### Events of the schedulers -/

/-- What the choice site of a placement leaves of the state: nothing changes in deterministic mode; else the placement is its postmark's (R405, R407). -/
def Sys2Proof.PlaceMarked (s : State) (l : Launch) (t lcore : Nat) (z : State) : Prop :=
  (l.pkt.det = true → z = s) ∧
  (l.pkt.det = false → ∃ y, s.choice l.ctx 4 (lcore % 2 ^ 11) (t % 2 ^ 32 * 2 ^ 16 + (l.queue.getD 0) % 256 * 2 ^ 8) = .go y ∧
    z = y.modCtx l.ctx fun c => { c with heldEvents := c.heldEvents.filter (·.2 != .teamPlace l.lid) })

/-- A team of a grid that waited for its last team starts. -/
def Sys2Proof.starts (lid : Nat) (m : Team) : Team := if m.lid = lid ∧ m.st = .waiting then { m with st := .resident } else m

/-- R22, R23, R40, R43 to R45, R288: the next team of a launch that its letterbox's or else its core's sorter serves first is placed as a launch gives it: every
lane at the entry point, every register zero but k0 and k1, which hold the argument, its octets and its scratchpad in the ranges that were found. In
deterministic mode team t goes to logical core t mod NLCORE; in normal mode to a core of least load. A co-resident grid waits for its last team, and for those
of it that are saved (R289). Where no team can be placed, or the sorter has another before it, nothing happens. The frame: no byte changes but by the
postmark, and of the other teams ranges may move (R51). The model's choice, log 64: the order of teams in deterministic mode; log 48: how a sorter serves. -/
def Sys2Proof.TeamPlaced : Prop :=
  (∀ s lid l t kills core lcore fit z, s.launch? lid = some l → l.lid = lid → s.canPlace l = true → s.placeNext l = some (t, kills, core, lcore) → s.fitOn l core = some fit →
    s.othersFirst (l.sorter core) l.prio l.lid = false → PlaceMarked s l t lcore z → z.launch? lid = some l →
    ∃ u m, exec (.teamPlace lid) s = .next u ∧ u.mem = z.mem ∧ u.launch? lid = some (l.without t) ∧
      u.teams.map unlaid = ((z.teams ++ [m]).map fun x => if (l.without t).waiting = true ∨ ∃ y ∈ z.teams, y.lid = lid ∧ y.st = TeamSt.saved then x else starts lid x).map unlaid ∧
      m.tid = z.nextId ∧ m.placed = z.nextId ∧ m.lid = lid ∧ m.t = t ∧ m.core = core ∧ m.lcore = lcore ∧ m.kills = kills ∧ m.ctx = l.ctx ∧ m.prio = l.prio ∧ m.spadBase = fit.lines ∧
      m.st = (if l.pkt.cores = true ∧ l.next < l.pkt.nx * l.pkt.ny * l.pkt.nz then .waiting else .resident) ∧ m.spadLines = spadAlloc (z.isFixed l.ctx) l.pkt.spadLines ∧
      m.spad = [] ∧ m.absent = [] ∧ m.tags = [] ∧ m.bars = [] ∧ m.shapes = [] ∧ m.allocs = [] ∧ m.claims = [] ∧
      m.groups.map (fun g => (g.gix, g.role, g.grant, g.budget)) = (plans l.pkt l.kern).map (fun p => (p.gix, p.role, p.width, p.budget)) ∧
      (∀ (i : Nat) (g : Group), m.groups[i]? = some g → g.octets = fit.octets.getD i []) ∧
      ∀ g ∈ m.groups, g.k = putRegs [] 0 [l.pkt.arg.extractLsb' 0 32, l.pkt.arg.extractLsb' 32 32] ∧ g.j = [] ∧ g.fpst = 0 ∧ g.handler = false ∧ g.lanes.length = g.grant ∧
        ∀ l' ∈ g.lanes, l'.pc = l.kern.entry ∧ l'.v = [] ∧ l'.p = 0 ∧ (l'.st = .active ∨ l'.st = .never) ∧ ∀ w ∈ l'.latches, w.valid = false) ∧
  (∀ s lid, (∀ l, s.launch? lid = some l → s.canPlace l = false) → exec (.teamPlace lid) s = .next s) ∧
  (∀ s lid l t kills core lcore, s.launch? lid = some l → s.placeNext l = some (t, kills, core, lcore) → s.othersFirst (l.sorter core) l.prio l.lid = true → exec (.teamPlace lid) s = .next s) ∧
  (∀ (l : Launch) t i, l.again.any (·.1 == t) = false → ((i < (l.without t).next ∨ i ∈ (l.without t).ahead) ↔ (i < l.next ∨ i ∈ l.ahead ∨ i = t))) ∧
  (∀ (s : State) l t kills core lcore c, s.placeNext l = some (t, kills, core, lcore) → s.ctx? l.ctx = some c →
    (l.pkt.det = true → lcore = t % max c.nlcore 1 ∧ c.lmap[lcore]? = some core) ∧
    (l.pkt.det = false → c.replay = false → (∀ a ∈ l.again, a.1 ≠ t) → core ∈ c.lmap ∧ ∀ n ∈ c.lmap, s.fitOn l n ≠ none → s.coreGroups core ≤ s.coreGroups n))

/-- R46, R255, R289: a team that has waited too long displaces the one of lowest priority below it, the most recently placed among equals, whose removal makes the room; with its grid where that is co-resident. The displaced
team is saved with its registers and its scratchpad, its banks are free and its transactional groups are aborted; the frame: no byte changes where none of its work is under way. A launch that displaces none, or whose context
does not run, does nothing; which of its waiting teams displaces one is the model's choice (log 48). -/
def Sys2Proof.TeamDisplaced : Prop :=
  (∀ s lid l, s.launch? lid = some l → (((s.ctx? l.ctx).map Context.runs).getD false = false ∨ s.displaced l = []) → exec (.starvationPreempt lid) s = .next s) ∧
  (∀ s lid l k v u, s.launch? lid = some l → s.ctx? l.ctx = some k → k.runs = true → s.displaced l = [v] → s.preemptAll (s.victims v) = some u → exec (.starvationPreempt lid) s = .next u) ∧
  (∀ s lid l k v w vs n y u, s.launch? lid = some l → s.ctx? l.ctx = some k → k.runs = true → s.displaced l = v :: w :: vs → s.freeNat = (n, y) →
    y.preemptAll (y.victims ((v :: w :: vs).getD (n % (vs.length + 2)) v)) = some u → exec (.starvationPreempt lid) s = .next u) ∧
  (∀ (s : State) l v, v ∈ s.displaced l → ∃ prio fits, s.victimFor prio fits = some v ∧ (prio = l.prio ∨ ∃ t ∈ s.teams, t.lid = l.lid ∧ t.st = .saved ∧ prio = t.prio)) ∧
  (∀ (s : State) v, s.victims v = if ((s.launch? v.lid).map (·.pkt.cores)).getD false then (s.teams.filter fun x => x.lid == v.lid && x.st != .saved).map (·.tid) else [v.tid]) ∧
  (∀ (s : State) prio fits v, s.victimFor prio fits = some v → v ∈ s.teams ∧ v.st ≠ .saved ∧ v.prio < prio ∧ fits (s.without v) v = true ∧
    ∀ w ∈ s.teams, w.st ≠ .saved → w.prio < prio → fits (s.without w) w = true → v.prio ≤ w.prio ∧ (w.prio = v.prio → w.placed ≤ v.placed)) ∧
  ∀ s lid l k v, s.launch? lid = some l → s.ctx? l.ctx = some k → k.runs = true → s.displaced l = [v] → s.team? v.tid = some v → s.ctx? v.ctx ≠ none →
    (∀ y, s.launch? v.lid = some y → y.pkt.cores = false) → s.accs = [] → s.slot = none → (∀ c ∈ s.copies, c.tid ≠ v.tid) → (∀ r ∈ (s.quad (quadOf v.core)).reqs, r.tid ≠ v.tid) →
    (∀ g ∈ v.groups, ∀ w ∈ g.wfls, w.probe = none) →
    ∃ u, exec (.starvationPreempt lid) s = .next u ∧ u.mem = s.mem ∧ u.team? v.tid = some { v with st := .saved, groups := v.groups.map Group.suspend } ∧
      RegsKept s u ∧ (∀ o ∈ (u.quad (quadOf v.core)).owner, o.2 ≠ v.tid) ∧ ∀ a ∈ u.agents, ∀ y ∈ a.txs, y.tid = v.tid → y.aborted = true

/-- R46 to R48, R215, R255, R288: a saved team that the sorter of its launch serves first resumes whole on a core that has room, in deterministic mode on its own
logical core, with its registers, its scratchpad and the words of its accumulators, in other banks; GRCH is set where a group's octets lie in other slices
than before. A team that cannot resume there does nothing. The model's choice, log 45: which map a resumed team takes. -/
def Sys2Proof.TeamResumed : Prop :=
  (∀ s tid core t die, s.team? tid = some t → die = (((s.launch? t.lid).map (·.sorter core)).getD (dieOf core)) → (s.canResume t = false ∨ s.othersFirst die t.prio t.lid = true ∨ core ∉ s.resumeCores t ∨ s.resumeOn t core = none) →
    exec (.teamResume tid core) s = .next s) ∧
  ∀ s tid core t die, s.team? tid = some t → die = (((s.launch? t.lid).map (·.sorter core)).getD (dieOf core)) → s.canResume t = true → s.othersFirst die t.prio t.lid = false → core ∈ s.resumeCores t → s.resumeOn t core ≠ none →
    (∀ l, s.launch? t.lid = some l → l.pkt.cores = false) →
    ∃ u t', exec (.teamResume tid core) s = .next u ∧ u.team? tid = some t' ∧ t'.st = .resident ∧ t'.core = core ∧ t'.spad = t.spad ∧ t'.absent = t.absent ∧ t'.t = t.t ∧ RegsKept s u ∧
      t'.allocs.map (fun a => (a.tag, a.first, a.words)) = t.allocs.map (fun a => (a.tag, a.first, a.words)) ∧
      (∀ (i : Nat) (g : Group), t.groups[i]? = some g → ∃ g' : Group, t'.groups[i]? = some g' ∧ g'.grch = (g.grch || g'.octets.map (·.slice) != g.octets.map (·.slice))) ∧
      ((∀ g ∈ t.groups, ∀ l ∈ g.lanes, ∀ e r n, l.st ≠ .parked (.heldFault e r n)) → u.mem = s.mem)

/-- R22, R23, R40, R43 to R48, R215, R255, R288, R289: how teams are placed, displaced and resumed. -/
def Obligations.TeamsArePlaced : Prop := TeamPlaced ∧ TeamDisplaced ∧ TeamResumed

/-- Two ranges have no register, or line, in common. -/
def Sys2Proof.spansApart (p q : Span) : Prop := p.base + p.size ≤ q.base ∨ q.base + q.size ≤ p.base

/-- R25, R50 to R52: the compactor moves an octet of a group, between its issues, to a slice that can hold it and where a group that is not folded has none yet;
under fixed allocation nothing moves. Ranges that lie apart, inside their 2,048 places and, under buddy allocation, on a multiple of their size, do so with
one more. The frame: no byte or register changes, of other teams only where their ranges lie. -/
def Sys2Proof.RangesMove : Prop :=
  (∀ s tid gix octet slice t g, s.team? tid = some t → s.group? tid gix = some g →
    ((t.st = .saved ∨ s.isFixed t.ctx = true ∨ g.octets.length ≤ octet ∨ 8 ≤ slice ∨ (∃ sl, s.slot = some sl ∧ sl.tid = tid ∧ sl.gix = gix) ∨
      (slice ∈ g.octets.map (·.slice) ∧ (g.octets.map (·.slice)).Nodup)) → exec (.compactorMove tid gix octet slice) s = .next s) ∧
    ∀ r, t.st ≠ .saved → s.isFixed t.ctx = false → octet < g.octets.length → slice < 8 → slice ∉ g.octets.map (·.slice) → (∀ sl, s.slot = some sl → ¬(sl.tid = tid ∧ sl.gix = gix)) →
      holdIn (s.coreSpans t.core) slice ⟨0, regAlloc false g.budget, false, .octet tid gix octet⟩ = some r →
      ∃ u, exec (.compactorMove tid gix octet slice) s = .next u ∧ u.mem = s.mem ∧ r.1.slice = slice ∧
        u.teams.map unlaid = ((s.modGroup tid gix fun g => { g with octets := g.octets.set octet r.1 }).teams).map unlaid ∧ u = { s with teams := u.teams }) ∧
  ∀ spans p b l, holdSpan spans p = some (b, l) →
    (spans.Pairwise spansApart → l.Pairwise spansApart) ∧ ((∀ q ∈ spans, q.base + q.size ≤ 2048) → ∀ q ∈ l, q.base + q.size ≤ 2048) ∧
    ((∀ q ∈ spans, q.fixed = false → q.base % q.size = 0 ∨ q.size = 0) → ∀ q ∈ l, q.fixed = false → q.base % q.size = 0 ∨ q.size = 0)

/-- R29, R30: a width that waits for room is granted what it asked for once it can be: the group has that many octets, a grant of eight lanes each, the kept lanes
keep their registers, new ones start clear at the successor, kD has the grant and GRCH is clear. Before that, or while the context does not run, nothing
happens. The model's choice, log 31: a width waits for room with GRCH set. -/
def Sys2Proof.WidthsAreGranted : Prop :=
  (∀ (s : State) t g n os, s.foldedFor t g n = some os → os.1.length = n) ∧
  ∀ s tid gix t g c kn n, s.team? tid = some t → s.group? tid gix = some g → s.ctx? t.ctx = some c → g.wait = some (.width kn n) →
    ((t.st ≠ .resident ∨ c.runs = false ∨ s.foldedFor t g n = none) → exec (.widthRoomFreed tid gix) s = .next s) ∧
    ∀ os, t.st = .resident → c.runs = true → s.foldedFor t g n = some os →
      ∃ u g', exec (.widthRoomFreed tid gix) s = .next u ∧ (NoneOpen s → u.mem = s.mem) ∧ u.group? tid gix = some g' ∧ g'.grant = 8 * os.1.length ∧ g'.wait = none ∧ g'.grch = false ∧
        g'.octets.map (·.slice) = os.1.map (·.slice) ∧ g'.k = setReg g.k (kn % 64) false (BitVec.ofNat 64 (8 * os.1.length)) ∧
        (∀ (j : Nat) (l : Lane), g.lanes[j]? = some l → j < 8 * os.1.length → ∃ l' : Lane, g'.lanes[j]? = some l' ∧ l'.v = l.v ∧ l'.p = l.p) ∧
        (g.lanes.length = g.grant → ∀ j, g.grant ≤ j → j < 8 * os.1.length → ∃ l' : Lane, g'.lanes[j]? = some l' ∧ l'.v = [] ∧ l'.p = 0 ∧ l'.st = .active ∧
          ∀ (i : Nat) (l : Lane), g'.lanes[i]? = some l → l.live = true → l.pc = l'.pc)

/-- R36, R57, R64: a group that can issue and has waited its time issues next, behind an earlier claim that stands, unless a HOLD chain keeps it back: the chain
defers it. The 64th instruction of a chain ends it: the latches of the lanes that issued it are invalid, the others keep theirs, and the groups that share a
slice go first. A shorter chain goes on. The model's choice, log 30: a claim stands until its group issues. -/
def Sys2Proof.IssueTurns : Prop :=
  (∀ s tid gix t g, s.team? tid = some t → s.group? tid gix = some g → (s.slot = none → s.canIssue t g = true → s.claimStands = false → exec (.issueAgeLimit tid gix) s = .next { s with urgent := some (tid, gix) }) ∧
    ((s.slot ≠ none ∨ s.canIssue t g = false ∨ s.claimStands = true) → exec (.issueAgeLimit tid gix) s = .next s)) ∧
  (∀ (s : State), ∀ a ∈ s.ready.1, a ∈ s.candidates ∧ s.keptBack a = false) ∧
  (∀ (s : State) v a, s.urgent = some v → a ∈ s.candidates → (a.1.tid, a.2.gix) = v → s.keptBack a = false → ∀ b ∈ s.ready.1, (b.1.tid, b.2.gix) = v) ∧
  (∀ s tid gix g, s.group? tid gix = some g → g.chain < 64 → exec (.holdChainLimit tid gix) s = .next s) ∧
  ∀ s tid gix t g, s.team? tid = some t → s.group? tid gix = some g → 64 ≤ g.chain → g.tip.Nodup →
    ∃ u g', exec (.holdChainLimit tid gix) s = .next u ∧ u.mem = s.mem ∧ u.group? tid gix = some g' ∧ g' = { g with chain := 0, tip := [], yieldTo := s.neighbours t g, lanes := g'.lanes } ∧
      ∀ (j : Nat) (l : Lane), g.lanes[j]? = some l → g'.lanes[j]? = some (if j ∈ g.tip then { l.invalidate with lastHold := false } else l)

/-- R53, R177, R215, R278, R283, R285: a lane that waits at exit exits once no result is owed to it; a team with nothing left retires, its launch counts it, and
with the last one the grid's pools go; a launch with no team left completes, with its status in the completion word of its packet, or of its letterbox's
template. What has something under way does nothing. The frame: no byte changes but of that word. -/
def Sys2Proof.TeamsEnd : Prop :=
  (∀ s tid gix lane, (∀ l, s.lane? tid gix lane = some l → l.st ≠ .parked .exiting ∨ s.owes tid gix lane = true) → exec (.laneExitComplete tid gix lane) s = .next s) ∧
  (∀ s tid gix lane g l, s.group? tid gix = some g → g.lanes[lane]? = some l → l.st = .parked .exiting → s.owes tid gix lane = false →
    ∃ u g' l', exec (.laneExitComplete tid gix lane) s = .next u ∧ u.mem = s.mem ∧ u.group? tid gix = some g' ∧ g'.lanes[lane]? = some l' ∧ l'.st = .exited ∧ l'.v = l.v ∧
      (Cells.wf g.j = true → lane < 64 → ∀ m, m < 8 → (Cells.get g'.j m).getLsbD lane = false)) ∧
  (∀ s tid t, s.team? tid = some t → s.teamDone t = false → exec (.teamRetire tid) s = .next s) ∧
  (∀ s tid t, s.team? tid = some t → s.teamDone t = true → s.slot = none → s.accs = [] → ∃ u, exec (.teamRetire tid) s = .next u ∧ u.mem = s.mem ∧ u.team? tid = none ∧
    (∀ n m, n ≠ tid → s.team? n = some m → u.team? n = some m) ∧ ∀ l, s.launch? t.lid = some l → u.launch? t.lid = some { l with live := l.live - 1 } ∧
      (l.live ≤ 1 → ∀ p ∈ u.pools, p.lid ≠ t.lid) ∧ (1 < l.live → u.pools = s.pools)) ∧
  (∀ s lid, (∀ l, s.launch? lid = some l → l.live ≠ 0) → exec (.launchComplete lid) s = .next s) ∧
  ∀ s lid l z, s.launch? lid = some l → l.live = 0 → z = ({ s with launches := s.launches.filter (·.lid != lid) } : State) → s.accs = [] →
    (∀ v, l.queue = none → z.writeStatus l.ctx l.pkt.compl l.status = some v → exec (.launchComplete lid) s = .next v) ∧
    ∀ n q f v, l.queue = some n → s.queue? n = some q → q.flights.find? (·.seq == l.seq) = some f → z.writeStatus q.ctx f.compl l.status = some v →
      exec (.launchComplete lid) s = .next (v.modQueue n fun q => { q with flights := q.flights.filter (·.seq != l.seq) })

/-- R407: the first event that waits for its place in a log and has reached it happens next, and waits no more; with none nothing happens. R55, R75: a word that encodes no instruction raises ILL on every lane that fetched it,
which stay with it; their latches are those with which their next instruction begins (R64), and before the fault is taken nothing else changes. -/
def Sys2Proof.EventsAndEncodings : Prop :=
  (∀ s n c, s.ctx? n = some c →
    ((∀ p ∈ c.heldEvents, c.replay = true ∧ ((s.siteMarks c p.1).head?.map (·.2)) ≠ some p.1) → exec (.replayHeldRelease n) s = .next s) ∧
    ∀ p rest, c.heldEvents = p :: rest → (c.replay = false ∨ ((s.siteMarks c p.1).head?.map (·.2)) = some p.1) →
      exec (.replayHeldRelease n) s = .next { (s.modCtx n fun c => { c with heldEvents := c.heldEvents.filter (· != p) }) with events := p.2 :: s.events }) ∧
  ∀ s why sl t g c w, s.issue? = some (sl, t, g, c) → sl.lanes ≠ [] → sl.aFault = false → w = s.modGroup sl.tid sl.gix (fun g => g.eachLane sl.lanes Lane.atIssue) →
    FaultsSome (.nonInstructionEncoding why) s (fetchIssue sl t g c) [] w (fun _ => sl.next) (sl.lanes.map fun j => (j, Flt.mk' 0x01))

/-- R25, R29, R30, R36, R50 to R53, R55, R57, R64, R75, R177, R215, R278, R283, R285, R407: ranges, widths, turns, ends, held events and encodings. -/
def Obligations.SchedulerMoves : Prop := RangesMove ∧ WidthsAreGranted ∧ IssueTurns ∧ TeamsEnd ∧ EventsAndEncodings

/-! ### Events of queues, letterboxes and hosts -/

/-- The arbiter chooses queue `x`, whose head is packet `p` of a kind and has a place in the sorters: `v` is the state without it (R282, R287). -/
def Sys2Proof.Dispatches (s : State) (n kind : Nat) (x : Queue) (p : Packet) (v : State) : Prop :=
  ∃ q0, s.queue? n = some q0 ∧ (s.age q0.ctx).choose q0.ctx = some x ∧ x.q = n ∧ (s.age q0.ctx).headPacket x = some p ∧ p.kind = kind ∧ (s.age q0.ctx).dispatchable x = true ∧
    v = (s.age q0.ctx).takeHead x p

/-- The packet of queue `n` at place `seq` completes with a status, from state `v` on: its completion word is written where it has one, and it is in flight no more (R278). -/
def Sys2Proof.Finishes (o : Host.Outcome State Fault Refusal) (v : State) (n seq status : Nat) : Prop :=
  ∀ q f w, v.queue? n = some q → q.flights.find? (·.seq == seq) = some f → v.writeStatus q.ctx f.compl status = some w →
    o = .next (w.modQueue n fun q => { q with flights := q.flights.filter (·.seq != seq) })

/-- R278, R282, R287: the arbiter of a partition takes the eligible head of the highest effective priority, and among equals the next in turn; an UNLOAD, a MARK, a PHASE and a LAUNCH with AFTER are eligible once every packet before
them has completed. A packet leaves its queue in order. A head that the arbiter does not choose, one of another kind, or a LAUNCH without a place in the sorters stays: nothing happens. A completion word is written where it has an aligned address
other than 0.
The model's choice, log 48: what the arbiter does with a launch that finds no place. -/
def Sys2Proof.ArbiterChooses : Prop :=
  (∀ (s : State) c q, s.choose c = some q → q ∈ s.queues ∧ q.ctx = c ∧ s.eligible q = true ∧
    ∀ y ∈ s.queues, y.ctx = c → s.eligible y = true → y.effective ≤ q.effective ∧ (y.effective = q.effective → s.turn q ≤ s.turn y)) ∧
  (∀ q : Queue, q.effective = min 15 (q.prio + q.age / 2 ^ 20)) ∧
  (∀ (s : State) q p, s.eligible q = true → s.headPacket q = some p → (p.kind = 3 ∨ p.kind = 4 ∨ p.kind = 6 ∨ (p.kind = 1 ∧ p.after = true)) → q.flights = []) ∧
  (∀ (s : State) q p, (s.takeHead q p).queue? q.q = (s.queue? q.q).map (fun x => { x with rd := x.rd + 1, age := 0, ripe := false, flights := x.flights ++ [⟨q.rd, p.compl⟩] }) ∧
    (s.takeHead q p).mem = s.mem ∧ lookupKey (16 * q.ctx + q.effective) 255 (s.takeHead q p).rr = q.q) ∧
  (∀ s e n kind, ((e = .launch n ∧ kind = 1) ∨ (e = .replace n ∧ kind = 2) ∨ (e = .unload n ∧ kind = 3) ∨ (e = .mark n ∧ kind = 4) ∨ (e = .waitm n ∧ kind = 5) ∨ (e = .phase n ∧ kind = 6)) →
    (¬ ∃ x p v, Dispatches s n kind x p v) → exec e s = .next s) ∧
  ∀ (s : State) ctx va status, ((va = 0 ∨ va.toNat % 4 ≠ 0) → s.writeStatus ctx va status = some s) ∧
    (∀ v, va ≠ 0 → va.toNat % 4 = 0 → s.engineWrite ⟨ctx, 3, 0, .host⟩ va (toLe 4 (status % 256)) 4 = some (.ok v) → s.writeStatus ctx va status = some v) ∧
    ∀ f, va ≠ 0 → va.toNat % 4 = 0 → s.engineWrite ⟨ctx, 3, 0, .host⟩ va (toLe 4 (status % 256)) 4 = some (.error f) → s.writeStatus ctx va status = some (s.reportBare ctx f false)

/-- A dispatch whose resolve waits for its place in a log does not happen yet, and one that the log does not name stops its context (R366, R407). -/
def Sys2Proof.AwaitsResolve (o : Host.Outcome State Fault Refusal) (s : State) (ctx : Nat) (m : Met) : Prop :=
  (m = .wait → o = .next s) ∧ ∀ v, m = .stop v → o = .next (s.replayStop ctx)

/-- R280 to R283, R366, R414: a LAUNCH that passes the checks enters the sorters at the effective priority, without a new reference on its code object, and one that does not ends with QPKT; a MARK is recorded; a REPLACE is a bcas, with status 0, 1 or
BGONE; an UNLOAD drops the queue's reference, or ends with QPKT where it holds none; a WAITM holds the queue until the mark is reached, or ends with BGONE or QPKT; a PHASE asks for a phase end.
The model's choice, log 49: a WAITM on another kind ends with QPKT and one that cannot be reached holds the queue, a REPLACE that cannot be reached ends with
BGONE; log 50: which references an UNLOAD gives back; log 44: the resolves as choice sites. -/
def Sys2Proof.PacketsAct : Prop :=
  (∀ s n x p v, Dispatches s n 1 x p v → AwaitsResolve (exec (.launch n) s) s x.ctx (v.resolveLaunch x.ctx p) ∧
    ∀ r w, v.resolveLaunch x.ctx p = .got r w →
    (w.checkLaunch x.ctx p r = none → Finishes (exec (.launch n) s) w n x.rd 0x16) ∧
    ∀ k, w.checkLaunch x.ctx p r = some k →
      ((p.cores = true ∧ w.fitsWhole x.ctx p k = false) → Finishes (exec (.launch n) s) w n x.rd 0x16) ∧
      ((p.cores = false ∨ w.fitsWhole x.ctx p k = true) →
        ∃ u, exec (.launch n) s = .next u ∧ u.mem = w.mem ∧ u.teams = w.teams ∧ u.brands = w.brands ∧
          u.launches = w.launches ++ [⟨w.nextId, x.ctx, some n, p, k, x.effective, 0, [], [], p.nx * p.ny * p.nz, 0, x.rd, none, none⟩])) ∧
  (∀ s n x p v, Dispatches s n 2 x p v →
    (∀ w, v.casBrand p.brand p.payload (p.arg.extractLsb' 0 32) = .done w → Finishes (exec (.replace n) s) w n x.rd 0) ∧
    (∀ w, v.casBrand p.brand p.payload (p.arg.extractLsb' 0 32) = .differs w → Finishes (exec (.replace n) s) w n x.rd 1) ∧
    ∀ w, (v.casBrand p.brand p.payload (p.arg.extractLsb' 0 32) = .gone w ∨ v.casBrand p.brand p.payload (p.arg.extractLsb' 0 32) = .prot w ∨
      v.casBrand p.brand p.payload (p.arg.extractLsb' 0 32) = .unreach w) → Finishes (exec (.replace n) s) w n x.rd 0x0A) ∧
  (∀ s n x p v, Dispatches s n 3 x p v →
    (p.brand ∉ x.refs → v.spareRef p.brand = false → Finishes (exec (.unload n) s) v n x.rd 0x16) ∧
    ((p.brand ∈ x.refs ∨ v.spareRef p.brand = true) →
      (∀ w, v.dropBrand p.brand = .done w → Finishes (exec (.unload n) s) (w.modQueue n fun y => { y with refs := y.refs.erase p.brand }) n x.rd 0) ∧
      ∀ w, (v.dropBrand p.brand = .gone w ∨ v.dropBrand p.brand = .prot w ∨ v.dropBrand p.brand = .unreach w ∨ v.dropBrand p.brand = .differs w) →
        Finishes (exec (.unload n) s) w n x.rd 0x16)) ∧
  (∀ s n x p v, Dispatches s n 4 x p v → Finishes (exec (.mark n) s) (v.modQueue n fun y => { y with mark := p.arg }) n x.rd 0) ∧
  (∀ s n x p v, Dispatches s n 5 x p v → AwaitsResolve (exec (.waitm n) s) s x.ctx (v.resolveLaunch x.ctx p) ∧
    (∀ w, v.resolveLaunch x.ctx p = .got .gone w → Finishes (exec (.waitm n) s) w n x.rd 0x0A) ∧
    (∀ w, v.resolveLaunch x.ctx p = .got .unreach w → exec (.waitm n) s = .next (w.modQueue n fun y => { y with waiting := some (p.brand, p.arg) })) ∧
    ∀ r w, v.resolveLaunch x.ctx p = .got (.live r) w → (r.kind ≠ kindQueue → Finishes (exec (.waitm n) s) w n x.rd 0x16) ∧
      (r.kind = kindQueue → exec (.waitm n) s = .next (w.modQueue n fun y => { y with waiting := some (p.brand, p.arg) }))) ∧
  (∀ s n x b m f, s.queue? n = some x → x.waiting = some (b, m) → x.flights.getLast? = some f →
    (s.home b = .gone → Finishes (exec (.waitmComplete n) s) (s.modQueue n fun y => { y with waiting := none }) n f.seq 0x0A) ∧
    (s.home b = .unreach → exec (.waitmComplete n) s = .next s) ∧
    ∀ r y, s.home b = .here r → s.queueOf r.payload = some y →
      (m.toNat ≤ y.mark.toNat → Finishes (exec (.waitmComplete n) s) (s.modQueue n fun y => { y with waiting := none }) n f.seq 0) ∧
      (y.mark.toNat < m.toNat → exec (.waitmComplete n) s = .next s)) ∧
  ∀ s n x p v, Dispatches s n 6 x p v →
    exec (.phase n) s = .next (v.modCtx x.ctx fun c => { c with phases := c.phases ++ [.packet n x.rd (p.arg.extractLsb' 0 8 == 5)] })

/-- R278, R280 to R283, R287, R414: how packets are chosen and what each does. -/
def Obligations.PacketsAreDispatched : Prop := ArbiterChooses ∧ PacketsAct

/-- R277, R278, R281: a queue is created with a brand of its own; a doorbell's packet is appended to a queue with room, one that fails the checks is dropped with QPKT at its completion address, one that cannot be read is reported, and a doorbell
of a full queue, or behind a held one, is held until a place frees.
The model's choice, log 48: packets are checked before a full ring is looked at. -/
def Sys2Proof.DoorbellsAppend : Prop :=
  (∀ s ctx base m prio, OverLink (.queueCreate ctx base m prio) s fun u =>
    (¬((s.ctx? ctx).isSome ∧ 4 ≤ m ∧ m ≤ 16 ∧ prio ≤ 15 ∧ base % 64 = 0 ∧ base + 64 * 2 ^ m ≤ 0xC000000000) → u = s.cross) ∧
    ∀ n b v, (s.ctx? ctx).isSome → 4 ≤ m → m ≤ 16 → prio ≤ 15 → base % 64 = 0 → base + 64 * 2 ^ m ≤ 0xC000000000 → (List.range 256).find? (fun n => !(s.queues.any (·.q == n))) = some n →
      s.cross.mint ctx kindQueue (queuePayload base m prio) = (b, v) → b ≠ 0 →
      ∃ q, u = { v with queues := v.queues ++ [q] } ∧ q.q = n ∧ q.brand = b ∧ q.ctx = ctx ∧ q.base = base ∧ q.m = m ∧ q.prio = prio ∧ q.rd = 0 ∧ q.wr = 0 ∧ q.mark = 0 ∧ q.flights = [] ∧
        q.held = [] ∧ q.waiting = none ∧ q.refs = []) ∧
  (∀ s n va x, s.queue? n = some x → OverLink (.doorbell n va) s fun u =>
    (2 ^ x.m ≤ x.wr - x.rd ∨ x.held ≠ []) → u = s.cross.modQueue n fun x => { x with held := x.held ++ [va] }) ∧
  (∀ s n x, s.queue? n = some x → (x.held = [] ∨ 2 ^ x.m ≤ x.wr - x.rd) → exec (.doorbellHeldTaken n) s = .next s) ∧
  ∀ s e n va x v r w, s.queue? n = some x → x.wr - x.rd < 2 ^ x.m →
    ((e = .doorbell n va ∧ s.linkUp = true ∧ x.held = [] ∧ v = s.cross) ∨
      ∃ rest, e = .doorbellHeldTaken n ∧ x.held = va :: rest ∧ v = s.modQueue n fun x => { x with held := rest }) →
    v.doorbellRead x.ctx va = (r, w) →
    (∀ f, r = .error f → exec e s = .next (w.reportBare x.ctx f false)) ∧
    ∀ bs, r = .ok bs →
      (∀ p, parsePacket bs = some p → NoHoles w (w.gpaOf (x.base + 64 * (x.wr % 2 ^ x.m))) bs.length →
        ∃ u x', exec e s = .next u ∧ u.mem = Cells.setBytes w.mem (w.gpaOf (x.base + 64 * (x.wr % 2 ^ x.m))) bs ∧ u.queue? n = some x' ∧ x'.wr = (((w.queue? n).map (·.wr)).getD 0) + 1) ∧
      ∀ y, parsePacket bs = none → w.writeStatus x.ctx (complOf bs) 0x16 = some y → exec e s = .next y

/-- R284 to R286: a store to a letterbox is taken where none is held before it: it sets the register, or launches with the template, or counts a refusal, and GRID waits for a place in the sorter of the letterbox's die; what cannot be taken is held,
in order, and taken when it can. A walker letterbox posts a record under the checks of ewk, or counts a refusal, and waits for room at its walker. TAKEN and REJECT read back.
The model's choice, log 51: what waits at a letterbox or for room at a walker, what counts in REJECT, and the sorter; log 44: the launch's resolve as a choice
site. -/
def Sys2Proof.LetterboxesTake : Prop :=
  (∀ s lb b x, s.box? lb = some b →
    (OverLink (.letterboxGrid lb x) s fun u => u = if b.walker = true then s.cross else s.cross.boxStore lb 0x018 x) ∧
    (OverLink (.walkerLetterbox lb x) s fun u => u = if b.walker = true then s.cross.boxStore lb 0x018 x else s.cross)) ∧
  (∀ (s : State) lb b off x, s.box? lb = some b →
    (∀ v, b.held = [] → s.boxTake b off x = some v → s.boxStore lb off x = v) ∧
    ((b.held ≠ [] ∨ s.boxTake b off x = none) → s.boxStore lb off x = s.modBox lb fun b => { b with held := b.held ++ [(off, x)] }) ∧
    s.boxLoad lb 0x020 = b.taken.zeroExtend 64 ∧ s.boxLoad lb 0x028 = b.reject.zeroExtend 64) ∧
  (∀ s lb b, s.box? lb = some b → (b.held = [] → exec (.letterboxGridHeld lb) s = .next s) ∧
    ∀ off x rest z, b.held = (off, x) :: rest → z = s.modBox lb (fun b => { b with held := rest }) →
      (∀ v, z.boxTake { b with held := rest } off x = some v → exec (.letterboxGridHeld lb) s = .next v) ∧
      (z.boxTake { b with held := rest } off x = none → exec (.letterboxGridHeld lb) s = .next s)) ∧
  (∀ (s : State) b x, b.walker = false → s.boxTake b 0x000 x = some (s.modBox b.lb fun b => { b with brandLo := x }) ∧
    s.boxTake b 0x008 x = some (s.modBox b.lb fun b => { b with brandHi := x }) ∧ s.boxTake b 0x010 x = some (s.modBox b.lb fun b => { b with arg := x }) ∧
    s.boxTake b 0x018 x = if s.sorterRoom b.ctx (some b.die) = true then s.openGrid b x else none) ∧
  (∀ (s : State) b x, (∀ r v, s.resolveLaunch b.ctx (boxPacket b x) = .got r v → s.openGrid b x = some (v.takeGrid b x r)) ∧
    (s.resolveLaunch b.ctx (boxPacket b x) = .wait → s.openGrid b x = none) ∧
    ∀ v, s.resolveLaunch b.ctx (boxPacket b x) = .stop v → s.openGrid b x = some (v.modBox b.lb fun y => { y with held := (0x018, x) :: y.held })) ∧
  (∀ (v : State) b x p r, p = boxPacket b x →
    (v.checkLaunch b.ctx p r = none → v.takeGrid b x r = v.modBox b.lb fun b => { b with reject := b.reject + 1 }) ∧
    (∀ k, v.checkLaunch b.ctx p r = some k →
      ((p.cores = true ∧ v.fitsWhole b.ctx p k = false) → v.takeGrid b x r = v.modBox b.lb fun b => { b with reject := b.reject + 1 }) ∧
      ((p.cores = false ∨ v.fitsWhole b.ctx p k = true) → v.takeGrid b x r = ({ v with nextId := v.nextId + 1, launches := v.launches ++
        [⟨v.nextId, b.ctx, none, p, k, b.prio, 0, [], [], p.nx * p.ny * p.nz, 0, 0, some b.die, none⟩] } : State).modBox b.lb fun b => { b with taken := b.taken + 1 })) ∧
    p.nx = (x.extractLsb' 0 32).toNat ∧ p.ny = (x.extractLsb' 32 16).toNat ∧ p.nz = (x.extractLsb' 48 16).toNat ∧ p.brand = b.brandHi ++ b.brandLo ∧ p.arg = b.arg) ∧
  ∀ (s : State) b x c k v, b.walker = true → s.ctx? b.ctx = some c → s.checkVa (c.lmap.headD 0) c x 64 64 .read false true = (k, v) →
    (∀ f, k = .error f → s.boxTake b 0x018 x = some (v.modBox b.lb fun b => { b with reject := b.reject + 1 })) ∧
    ∀ y, k = .ok y → (Pte.cls y.leaf.e = 2 → s.boxTake b 0x018 x = some (v.modBox b.lb fun b => { b with reject := b.reject + 1 })) ∧
      (Pte.cls y.leaf.e ≠ 2 →
        (256 ≤ (v.agent (stackOf y.gpa)).walker.length → s.boxTake b 0x018 x = none) ∧
        ((v.agent (stackOf y.gpa)).walker.length < 256 → s.boxTake b 0x018 x =
          some (((v.modAgent (stackOf y.gpa) fun g => { g with walker := g.walker ++ [⟨x, b.ctx, none, v.asItStands⟩] }).send b.ctx .host).modBox b.lb fun b => { b with taken := b.taken + 1 })))

/-- R277, R278, R281, R284 to R286: queues, doorbells and letterboxes. -/
def Obligations.QueuesAndLetterboxes : Prop := DoorbellsAppend ∧ LetterboxesTake

/-! ### Events of the fault buffers, the islands and the contexts -/

/-- R290 to R292: a held fault is written once a place is free, and its lanes stand at the entry; FBREL releases the lanes of the latest entry with an index, to retry or to go past, or kills their team; the tail moves within the ring only. -/
def Sys2Proof.FaultBuffers : Prop :=
  (∀ s d die, s.die? d = some die → (die.heldFaults = [] ∨ 1024 ≤ die.count) → exec (.faultHeldWritten d) s = .next s) ∧
  (∀ s d die e rest, s.die? d = some die → die.heldFaults = e :: rest → die.count < 1024 →
    ∃ u die', exec (.faultHeldWritten d) s = .next u ∧ u.die? d = some die' ∧ die'.heldFaults = rest ∧ die'.fbhead = (die.fbhead + 1) % 2 ^ 32 ∧
      u.mem = Cells.setBytes s.mem (s.gpaOf (die.fbbase + 32 * (die.fbhead % 1024))) (e.bytes die.fbhead) ∧
      u.teams = s.teams.map fun t => { t with groups := t.groups.map fun g => { g with lanes := g.lanes.map (Lane.entryWritten d die.fbhead e.serial) } }) ∧
  (∀ s d (i : BitVec 10) die, s.die? d = some die → d < 8 →
    (OverLink (.fbrelRetry d i) s fun u => u.mem = s.mem ∧ u.teams = s.teams.map fun t => { t with groups := t.groups.map (Group.freed d (die.latest i.toNat) false) }) ∧
    (OverLink (.fbrelSkip d i) s fun u => u.mem = s.mem ∧ u.teams = s.teams.map fun t => { t with groups := t.groups.map (Group.freed d (die.latest i.toNat) true) }) ∧
    (OverLink (.fbrelKill d i) s fun u => ∀ t ∈ s.teams, (∃ g ∈ t.groups, ∃ l ∈ g.lanes, ∃ e, l.entryAt d (die.latest i.toNat) = some e) → u.team? t.tid = none)) ∧
  (∀ (die : Die) i, 0 < die.fbhead → die.fbhead < 2 ^ 32 → i < 1024 → i < die.fbhead → die.latest i % 1024 = i ∧ die.latest i < die.fbhead ∧ die.fbhead ≤ die.latest i + 1024) ∧
  (∀ (l : Lane) d h e r n, l.st = .parked (.buffer d h e r n) → l.freed d h true = l.wake n false ∧ l.freed d h false = l.wake r (e.flt.code != 0x0F)) ∧
  (∀ s d e, 8 ≤ d → ((∃ i, e = .fbrelRetry d i ∨ e = .fbrelSkip d i ∨ e = .fbrelKill d i) ∨ ∃ x, e = .fbtailWrite d x ∨ e = .islfreq d x) → exec e s = .next s) ∧
  ∀ s d die x, s.die? d = some die → d < 8 → OverLink (.fbtailWrite d x) s fun u => ∃ die', u.die? d = some die' ∧ u.mem = s.mem ∧
    die' = if (die.fbhead + 2 ^ 32 - x.toNat) % 2 ^ 32 ≤ 1024 then { die with fbtail := x.toNat } else die

/-- R293: at the end of a window the shepherd freezes a partition that runs, has work and has made no progress, and its count starts again; it thaws a frozen one and destroys a context; a command for a context that is not there does nothing.
The model's choice, log 54: what the shepherd watches, and what counts as work and as progress. -/
def Sys2Proof.ShepherdActs : Prop :=
  (∀ s n, OverLink (.shctlThaw n) s fun u => u.mem = s.mem ∧ ∀ c, s.ctx? n = some c → u.ctx? n = some (if c.frozen then { c with frozen := false, progress := 0 } else c)) ∧
  (∀ s n, (s.linkUp = false → exec (.shctlDestroy n) s = .next { s with linkHeld := s.linkHeld ++ [.shctlDestroy n] }) ∧
    (s.linkUp = true → s.ctx? n = none → exec (.shctlDestroy n) s = .next s.cross) ∧
    (s.linkUp = true → s.ctx? n ≠ none → s.cross.destroyCtx n = none → exec (.shctlDestroy n) s = .next { s with hostHeld := s.hostHeld ++ [.shctlDestroy n] }) ∧
    ∀ v, s.linkUp = true → s.ctx? n ≠ none → s.cross.destroyCtx n = some v → exec (.shctlDestroy n) s = .next v ∧ v.ctx? n = none ∧ (∀ t ∈ v.teams, t.ctx ≠ n) ∧ ∀ q ∈ v.queues, q.ctx ≠ n) ∧
  (∀ s n, s.ctx? n = none → exec (.shepherdWindow n) s = .next s) ∧
  ∀ s n c, s.ctx? n = some c → ∃ u c', exec (.shepherdWindow n) s = .next u ∧ u.ctx? n = some c' ∧ c' = { c with progress := 0, frozen := c'.frozen } ∧
    c'.frozen = (c.frozen || (c.runs && c.progress == 0 && s.workRemains c)) ∧ (c'.frozen = c.frozen → u.mem = s.mem)

/-- R8, R12, R188, R284, R423: a write of a die's register that is read-only or unassigned does nothing; a letterbox takes a store of the host as any other, and a mapping that can be served replaces its page; an island takes the frequency it is given, if
that is one, and has settled later; above the package's power or a die's TEMPLIM the fastest island is lowered. The model's choice, log 17: the temperature of a die is free; log 58: the lowest-numbered of the fastest islands is lowered, within its cap; log 9: where the pages are. -/
def Sys2Proof.RegistersAndIslands : Prop :=
  (∀ s d num x, (8 ≤ d ∨ num < 0x020 ∨ reachOf num = .ro) → OverLink (.registerWrite (.die d num) x) s fun u => u = s.cross) ∧
  (∀ s d num x, d < 8 → 0x020 ≤ num → reachOf num ≠ .ro → s.linkUp = true →
    exec (.registerWrite (.die d num) x) s = .next ((s.cross.dieWrite d num (x.extractLsb' 0 32)).getD { s with hostHeld := s.hostHeld ++ [.registerWrite (.die d num) x] })) ∧
  (∀ s lb off x, OverLink (.registerWrite (.letterbox lb off) x) s fun u => u = s.cross.boxStore lb off x) ∧
  (∀ s lb ctx prio w die wd gs cs ls sl pl fl dn x b, b = boxOfMap lb ctx prio w die wd gs cs ls sl pl fl dn →
    OverLink (.registerWrite (.mapLetterbox lb ctx prio w die wd gs cs ls sl pl fl dn) x) s fun u =>
      u = if boxOk b = true ∧ (s.ctx? ctx).isSome then { s.cross with letterboxes := s.letterboxes.filter (·.lb != lb) ++ [b] } else s.cross) ∧
  (∀ s d x die k, s.die? d = some die → d < 8 → s.islands[die.islsel]? = some k → OverLink (.islfreq d x) s fun u => u.mem = s.mem ∧
    u.islands[die.islsel]? = some (if 400 ≤ x.toNat % 2 ^ 11 ∧ x.toNat % 2 ^ 11 ≤ 1050 then
      { k with freq := x.toNat % 2 ^ 11, settling := k.settling || k.current != x.toNat % 2 ^ 11 } else k)) ∧
  (∀ s n k, s.islands[n]? = some k → (k.settling = false → exec (.frequencySettled n) s = .next s) ∧
    (k.settling = true → ∃ u, exec (.frequencySettled n) s = .next u ∧ u = { s with islands := u.islands } ∧
      u.islands[n]? = some { k with current := k.freq, settling := false } ∧ ∀ m, m ≠ n → u.islands[m]? = s.islands[m]?)) ∧
  (∀ s d mhz die t z, s.die? d = some die → s.freeWord = (t, z) → die.overLimit t = false → exec (.templimExceeded d mhz) s = .next s) ∧
  ∀ s e among mhz z, ((e = .packagePowerLimit mhz ∧ among = List.range 16 ∧ z = s) ∨
      ∃ d die t, s.die? d = some die ∧ e = .templimExceeded d mhz ∧ among = [2 * d, 2 * d + 1] ∧ s.freeWord = (t, z) ∧ die.overLimit t = true) →
    ∀ n k, s.islands.length = 16 → n ∈ among → s.islands[n]? = some k → (∀ m y, m ∈ among → s.islands[m]? = some y → y.freq < k.freq ∨ (y.freq = k.freq ∧ n ≤ m)) →
      (¬(400 ≤ mhz ∧ mhz ≤ 1050 ∧ mhz < k.freq ∧ mhz ≤ k.cap) → exec e s = .next s) ∧
      (400 ≤ mhz → mhz ≤ 1050 → mhz < k.freq → mhz ≤ k.cap →
        ∃ u, exec e s = .next u ∧ u = { z with islands := u.islands } ∧ u.islands[n]? = some { k with freq := mhz, settling := k.settling || k.current != mhz } ∧
          ∀ m, m ≠ n → u.islands[m]? = s.islands[m]?)

/-- R8, R12, R188, R284, R290 to R293, R423: fault buffers, the shepherd, registers and islands. -/
def Obligations.FaultsAndIslands : Prop := FaultBuffers ∧ ShepherdActs ∧ RegistersAndIslands

/-- R398: a record that is in range makes a context, whose own fields are written back; one that is not, or whose number is taken by a context that is not saved, makes none.
The model's choice, log 55: which records make no context. -/
def Sys2Proof.ContextsAreCreated : Prop :=
  ∀ s rec', OverLink (.contextCreate rec') s fun u =>
    (s.cross.contextFrom rec' = none → u = s.cross) ∧
    ∀ c, s.cross.contextFrom rec' = some c →
      ((∃ k, s.ctx? c.ctx = some k ∧ k.st ≠ .saved) → u = s.cross) ∧
      ((∀ k, s.ctx? c.ctx = some k → k.st = .saved) → u.ctxs = s.ctxs.filter (fun k => k.ctx != c.ctx) ++ [c] ∧ u.teams = s.teams ∧
        u.mem = ((s.writeRec c 40 4 0).writeRec c 80 8 0 |>.writeRec c 108 4 0).mem)

/-- R399, R403, R406: CSCTL stops, saves, restores, resumes and destroys, with ERR 7 where the context does not stand so: a stop of one that runs puts it in STATE 1; a save and a resume are of one at rest, with its teams stopped; a resume reads the
record again; a destruction leaves nothing of it. A restore gives ERR 3 for an image without the magic number or of another version, 1 for one whose digest is not that of its bytes, 7 for another context or a record that is refused, 2 where it
does not fit.
The model's choice, log 52: ERR 7 for a context that is not at rest, and that one that stopped of itself has its teams stopped first; log 55: the refusals of
a record; log 24: the digest is SHA-256. -/
def Sys2Proof.ContextCommands : Prop :=
  (∀ s d n, d < 8 → s.linkUp = true → ∀ e r, ((e = .csctlStop d n ∧ r = s.cross.stopCtx d n) ∨ (e = .csctlSave d n ∧ r = s.cross.saveCtx d n) ∨ (e = .csctlRestore d n ∧ r = s.cross.restoreCtx d n) ∨
      (e = .csctlResume d n ∧ r = s.cross.resumeCtx d n) ∨ (e = .csctlDestroy d n ∧ r = s.cross.endCtx d n)) →
    exec e s = .next (r.getD { s with hostHeld := s.hostHeld ++ [e] })) ∧
  (∀ s e d n, (e = .csctlStop d n ∨ e = .csctlSave d n ∨ e = .csctlRestore d n ∨ e = .csctlResume d n ∨ e = .csctlDestroy d n) →
    (8 ≤ d → exec e s = .next s) ∧ (d < 8 → s.linkUp = false → exec e s = .next { s with linkHeld := s.linkHeld ++ [e] })) ∧
  (∀ (s : State) d n c,
    (s.ctx? n = some c → (c.st = .running ∨ c.st = .replayEnded) → s.stopCtx d n = some ((s.modCtx n fun c => { c with st := .stopping }).csNote d n 0)) ∧
    ((s.ctx? n = none ∨ (s.ctx? n = some c ∧ c.st ≠ .running ∧ c.st ≠ .replayEnded)) → s.stopCtx d n = some (s.csNote d n 7)) ∧
    ((s.ctx? n = none ∨ (s.ctx? n = some c ∧ c.atRest = false)) → s.saveCtx d n = some (s.csNote d n 7) ∧ s.resumeCtx d n = some (s.csNote d n 7)) ∧
    (s.ctx? n = some c → c.atRest = true → ∀ v, s.stopTeams n = some v →
      s.saveCtx d n = some ((v.modCtx n fun c => { c with saving := some d }).csNote d n 0) ∧
      s.resumeCtx d n = some ((v.modCtx n fun c => { v.readRec c with
        st := if (v.readRec c).replay = false ∧ (v.recField c.record 49 1).testBit 3 then .replayEnded else .running }).csNote d n 0)) ∧
    ((∀ t ∈ s.teams, t.ctx = n → t.st = .saved) → s.stopTeams n = some s) ∧
    (s.ctx? n = none → s.endCtx d n = some (s.csNote d n 7)) ∧
    (∀ v, s.ctx? n = some c → s.destroyCtx n = some v → s.endCtx d n = some (v.csNote d n 0) ∧ v.ctx? n = none)) ∧
  ∀ (s : State) d n die at' head bs, s.die? d = some die → at' = s.gpaOf (die.csimg.toNat % 2 ^ 50) → head = s.read at' 256 → bs = s.read at' (1024 * pf head 12 4) →
    ((∃ c, s.ctx? n = some c ∧ c.st ≠ .saved) → s.restoreCtx d n = some (s.csNote d n 7)) ∧
    ((∀ c, s.ctx? n = some c → c.st = .saved) →
      ((pf head 0 8 ≠ 0x4B580801494D4147 ∨ pf head 8 2 ≠ 1) → s.restoreCtx d n = some (s.csNote d n 3)) ∧
      (pf head 0 8 = 0x4B580801494D4147 → pf head 8 2 = 1 →
        (sha256 (bs.drop 256) ≠ (head.drop 96).take 32 → s.restoreCtx d n = some (s.csNote d n 1)) ∧
        (sha256 (bs.drop 256) = (head.drop 96).take 32 →
          (s.contextFrom (256 * die.csrec.toNat) = none → s.restoreCtx d n = some (s.csNote d n 7)) ∧
          ∀ k, s.contextFrom (256 * die.csrec.toNat) = some k →
            ((k.ctx ≠ n ∨ pf head 10 2 ≠ n) → s.restoreCtx d n = some (s.csNote d n 7)) ∧
            (k.ctx = n → pf head 10 2 = n →
              (s.rebuild k (s.imageOfBytes k bs (sha256 (bs.drop 256))) = none → s.restoreCtx d n = some (s.csNote d n 2)) ∧
              ∀ v, s.rebuild k (s.imageOfBytes k bs (sha256 (bs.drop 256))) = some v → s.restoreCtx d n = some (v.csNote d n 0)))))

/-- R400 to R403: the teams of a context that is to stop stop at instruction boundaries, then it is stopped, as is one whose restore is done; with no outgoing
work left one that is to be saved is sealed; with no tile landing its image is written at CSIMG and everything it held on the chip is given up. Before its
time each does nothing. The model's choice, log 23: the bytes of an image. -/
def Sys2Proof.ContextsGo : Prop :=
  (∀ s n c, s.ctx? n = some c →
    (c.st = .restoring → exec (.contextStopped n) s = .next (s.modCtx n fun c => { c with st := .stopped })) ∧
    (c.st = .stopping → (s.stopTeams n = none → exec (.contextStopped n) s = .next s) ∧
      ∀ v, s.stopTeams n = some v → exec (.contextStopped n) s = .next (v.modCtx n fun c => if c.st == .stopping then { c with st := .stopped } else c)) ∧
    ((c.st = .running ∨ c.st = .sealed ∨ c.st = .saved ∨ c.st = .replayEnded) → exec (.contextStopped n) s = .next s)) ∧
  (∀ s n c, s.ctx? n = some c →
    ((c.saving = none ∨ (c.st ≠ .stopped ∧ c.st ≠ .logFull) ∨ (∃ k ∈ s.copies, k.ctx = n ∧ k.cpx = true) ∨ ∃ a ∈ s.agents, ∃ l ∈ a.walker, l.ctx = n) → exec (.contextSeal n) s = .next s) ∧
    ∀ d, (c.st = .stopped ∨ c.st = .logFull) → c.saving = some d → (∀ k ∈ s.copies, k.ctx = n → k.cpx = false) →
      (∀ a ∈ s.agents, ∀ l ∈ a.walker, l.ctx ≠ n) → exec (.contextSeal n) s = .next (s.modCtx n fun c => { c with st := .sealed })) ∧
  (∀ s d n c, s.ctx? n = some c → (c.st ≠ .sealed ∨ c.saving ≠ some d ∨ s.landing n = true ∨ s.writeImage d n = none) → exec (.contextImageWrite d n) s = .next s) ∧
  ∀ s d n c v, s.ctx? n = some c → c.st = .sealed → c.saving = some d → s.landing n = false → s.writeImage d n = some v → v.blocked = false →
    exec (.contextImageWrite d n) s = .next v ∧ (∀ t ∈ v.teams, t.ctx ≠ n) ∧ (∀ q ∈ v.queues, q.ctx ≠ n) ∧ (∀ k ∈ v.copies, k.ctx ≠ n) ∧ (∀ l ∈ v.launches, l.ctx ≠ n) ∧
      (∃ k, v.ctx? n = some k ∧ k.st = .saved ∧ k.saving = none ∧ k.ranges = []) ∧
      ∀ die, s.accs = [] → s.holesOf n = [] → s.die? d = some die →
        v.mem = Cells.setBytes s.mem (s.gpaOf (die.csimg.toNat % 2 ^ 50)) (s.imageBytes (s.imageOf c)).1 ∧
        ∃ die', v.die? d = some die' ∧ die'.cslen.toNat = (s.imageBytes (s.imageOf c)).1.length / 1024 % 2 ^ 32 ∧ die'.csctx = n ∧ die'.cserr = 0

/-- R398 to R403, R406: contexts are created, stopped, saved, restored, resumed and destroyed. -/
def Obligations.ContextsAreSaved : Prop := ContextsAreCreated ∧ ContextCommands ∧ ContextsGo

/-! ### Events of the links, the host and bring-up -/

/-- R210, R331, R354, R417, R418: a flit that its end keeps and whose CRC fails is sent again; the other end takes each number once; a link or a module that goes
down keeps nothing to send, what is being read over it having come first; with a module back what the host did proceeds in order and the vectors that waited
are raised. An event of what is down, or of a flit that is not kept, does nothing. A flit takes the next number and the number last taken; what the peer has
acknowledged is not kept. The model's choice, log 57: what a flit holds, that 512 are kept, and what has come when a link goes down. -/
def Sys2Proof.LinksHold : Prop :=
  (∀ s n seq p, s.port? n = some p →
    ((p.up = false ∨ p.flits.holds seq = false) → exec (.flitCrcFail n seq) s = .next s) ∧
    (p.up = true → p.flits.holds seq = true → exec (.flitCrcFail n seq) s = .next (s.modPort n fun p => { p with flits := { p.flits with resent := p.flits.resent + 1 } }))) ∧
  (∀ s n p, s.port? n = some p → (p.up = false → exec (.fabricLinkDown n) s = .next s) ∧
    (p.up = true → exec (.fabricLinkDown n) s = .next
      ((s.force fun a => (a.kind.isLoad || a.kind.isFetch) && s.goesBy n a).modPort n fun p => { p with up := false, flits := { p.flits with replay := [] } }))) ∧
  (∀ s n seq y, s.ucies[n]? = some y →
    ((y.up = false ∨ (y.flits.holds seq = false ∧ y.far.holds seq = false)) → exec (.ucieFlitCrcFail n seq) s = .next s) ∧
    (y.up = true → y.flits.holds seq = true ∨ y.far.holds seq = true → exec (.ucieFlitCrcFail n seq) s = .next { s with ucies := s.ucies.modify n (Ucie.resend seq) })) ∧
  (∀ (y : Ucie) seq, (y.flits.holds seq = true → y.resend seq = { y with flits := { y.flits with resent := y.flits.resent + 1 }, far := y.far.accept 4096 seq }) ∧
    (y.flits.holds seq = false → y.resend seq = { y with far := { y.far with resent := y.far.resent + 1 }, flits := y.flits.accept 4096 seq })) ∧
  (∀ (l : FlitLink) n, (n ≠ l.taken → l.accept 4096 n = l) ∧ (n = l.taken → l.accept 4096 n = { l with taken := (l.taken + 1) % 4096 })) ∧
  (∀ s n y, s.ucies[n]? = some y → (y.up = false → exec (.ucieModuleDown n) s = .next s) ∧
    ∀ z, y.up = true → z = (if s.lastModule n then s.force fun a => (a.kind.isLoad || a.kind.isFetch) && s.goesOut a else s) →
      exec (.ucieModuleDown n) s = .next { z with ucies := z.ucies.modify n fun y =>
        { y with up := false, flits := { y.flits with replay := [] }, far := { y.far with replay := [] } } }) ∧
  (∀ s n y, s.ucies[n]? = some y → (y.up = true → exec (.ucieLinkReturn n) s = .next s) ∧
    (y.up = false → exec (.ucieLinkReturn n) s = .next { s with
      ucies := s.ucies.modify n (fun y => { y with up := true }), events := s.linkHeld ++ s.events, linkHeld := []
      dies := s.dies.map fun d => { d with msix := d.msix + d.msixDue, msixDue := 0 } })) ∧
  (∀ (y : Ucie) down k cls acked, (y.carry down k cls acked).up = y.up ∧
    (y.flits.seq < 4096 → y.far.taken = y.flits.seq → (y.carry true k cls acked).far.taken = (y.carry true k cls acked).flits.seq ∧ (y.carry true k cls acked).flits.seq = (y.flits.seq + k) % 4096) ∧
    (y.far.seq < 4096 → y.flits.taken = y.far.seq → (y.carry false k cls acked).flits.taken = (y.carry false k cls acked).far.seq ∧ (y.carry false k cls acked).far.seq = (y.far.seq + k) % 4096)) ∧
  (∀ bytes, bytes ≤ 240 * ucieFlits bytes ∧ (0 < bytes → 240 * (ucieFlits bytes - 1) < bytes)) ∧
  ∀ (l : FlitLink) cls acked, l.seq < 4096 → acked ≤ l.replay.length → l.replay.length ≤ 512 →
    (l.send 4096 1 cls acked).seq = (l.seq + 1) % 4096 ∧ (l.send 4096 1 cls acked).replay.length ≤ 512 ∧ (l.send 4096 1 cls acked).replay.getLast? = some ⟨l.seq, l.taken, cls⟩ ∧
    ∀ f ∈ (l.send 4096 1 cls acked).replay, f ∈ l.replay.drop acked ∨ f = ⟨l.seq, l.taken, cls⟩

/-- R11, R295, R305, R333, R354, R360, R413: a write of the host to memory of this chip arrives at its pigeonholes and changes its bytes, and no register; one to
the device registers has their units act, or is a letterbox's store; another does nothing. R203: a device-register store of the device waits for what one
before it has begun. The fabric manager's writes change their tables; a brand is minted for a context that exists. The model's choice, log 44: which writes
are choices; log 66: the addresses of the registers; log 53: the origin index of a retired chip's pair. -/
def Sys2Proof.HostWrites : Prop :=
  (∀ s gpa bs, (s.onChip gpa = false ∨ bs = [] ∨ (isDevice gpa = false ∧ 0xC000000000 < localOf gpa + bs.length)) → exec (.hostWrite gpa bs) s = .next s) ∧
  (∀ s gpa bs, s.onChip gpa = true → bs ≠ [] → isDevice gpa = true → OverLink (.hostWrite gpa bs) s fun u => ∀ c, c = s.crosses true (8 + bs.length) 0 →
    (∀ e, deviceAct gpa bs = some e → u = { c with events := e :: c.events }) ∧ (deviceAct gpa bs = none → u = c.boxWrite gpa bs)) ∧
  (∀ (s : State) gpa bs e, s.onChip gpa = true → deviceAct gpa bs = some e → (s.deviceStore gpa bs).due = s.due ++ [e] ∧
    ((s.deviceStore gpa bs).blocked = true ↔ s.blocked = true ∨ s.due ≠ [])) ∧
  (∀ s gpa bs, s.onChip gpa = true → bs ≠ [] → isDevice gpa = false → localOf gpa + bs.length ≤ 0xC000000000 → OverLink (.hostWrite gpa bs) s fun u =>
    ∀ c z, c = s.crosses true (8 + bs.length) 0 → z = c.hostArrives gpa bs.length → ((∀ k ∈ s.ctxs, k.log = false ∧ k.replay = false) → z = c) ∧
      (NoHoles z gpa bs.length → u.mem = Cells.setBytes z.mem gpa bs ∧ RegsKept z u)) ∧
  (∀ s c r, ¬(c < 1024 ∧ (c = s.chip ↔ r = .self) ∧ ∀ f, r = .port f → f < 18) → exec (.routingTableWrite (.chip c r)) s = .next s) ∧
  (∀ s c r, c < 1024 → (c = s.chip ↔ r = .self) → (∀ f, r = .port f → f < 18) → OverLink (.routingTableWrite (.chip c r)) s fun u => u.mem = s.mem ∧
    ∀ k, u.route k = if k = c then r else s.route k) ∧
  (∀ s sr bt c, c < 1024 → OverLink (.routingTableWrite (.home sr bt c)) s fun u => u.mem = s.mem ∧ u.homes = s.homes.filter (fun h => !(h.1 == sr && h.2.1 == bt)) ++ [(sr, bt, c)] ∧
    u.origins = if c = s.chip ∧ sr ≠ s.serial ∧ (sr, bt) ∉ s.origins ∧ s.origins.length < 4095 then s.origins ++ [(sr, bt)] else s.origins) ∧
  (∀ s n c, c < 1024 → c ≠ s.chip → OverLink (.routingTableWrite (.moved n c)) s fun u => u = s.cross.moveRecords n c) ∧
  (∀ (s : State) n c, (∀ k, s.ctx? n = some k → k.st ≠ .saved) → s.moveRecords n c = s) ∧
  (∀ s lo hi, ((hi ≤ lo ∨ 2 ^ 60 < hi) → exec (.reductionWindowProgram lo hi) s = .next s) ∧
    (lo < hi → hi ≤ 2 ^ 60 → OverLink (.reductionWindowProgram lo hi) s fun u => u.mem = s.mem ∧ u.windows = s.windows.filter (·.lo != lo) ++ [⟨lo, hi⟩])) ∧
  ∀ s n kd payload, OverLink (.hostBrandMint n kd payload) s fun u => (s.ctx? n = none → u = s.cross) ∧ (s.ctx? n ≠ none → u = (s.cross.mint n kd.code payload).2)

/-- R332, R356, R419 to R422: setting the base of the brand table clears it and every copy of its records; dispatch opens once the host die runs a verified
firmware and step 7 is done, and stays open. Firmware runs only where its key has the digest that the chip holds and its signature, of one or two levels and
the codes listed, verifies; else the courier runs none and the host die keeps what it has, and counts the failure. A report is signed with the identity key
and a fresh leaf; with none left the chip refuses. A cold reset verifies the firmware, keeps what is kept without power, clears the rest, and counts the boot
or mints no more. The model's choice, log 59: step 7, an exhausted boot counter, and what a cold reset keeps; log 25: the formats; log 24: the signatures. -/
def Sys2Proof.BringUp : Prop :=
  (∀ s base, (0xC000000000 < base + 2 ^ 25 → exec (.brandTableBaseSet base) s = .next s) ∧
    (base + 2 ^ 25 ≤ 0xC000000000 → OverLink (.brandTableBaseSet base) s fun u =>
      u.mem = s.mem ∧ u.brandBase = some base ∧ u.brands = [] ∧ u.origins = [] ∧ u.brandSeq = s.brandSeq ∧ (∀ p ∈ u.cores, p.2.brands = []) ∧
      u.setup = insertNat 8 s.setup ∧ u.launchOpen = (s.launchOpen || (setupOver (insertNat 8 s.setup) && !s.hostFw.isEmpty)))) ∧
  (∀ (s : State) n, (s.didSetup n).setup = insertNat n s.setup ∧ (s.didSetup n).launchOpen = (s.launchOpen || (setupOver (insertNat n s.setup) && !s.hostFw.isEmpty))) ∧
  (∀ l, setupOver l = true ↔ (∀ i, i < 10 → i ∈ l) ∧ ∃ i ∈ l, 10 ≤ i) ∧
  (∀ (s : State) q p, s.launchOpen = false → s.eligible q = true → s.headPacket q = some p → p.kind ≠ 1) ∧
  (∀ s n img, s.port? n = none → exec (.courierFirmwareLoad n img) s = .next s) ∧
  (∀ s n img p ok, s.port? n = some p → ok = ((firmwareParts img).2.2.length ≤ 2 ^ 18 && firmwareOk s.otpKey img) → OverLink (.courierFirmwareLoad n img) s fun u => u.mem = s.mem ∧
    u.port? n = some { p with firmware := if ok then some img else none, valid := ok } ∧ u.setup = if ok then insertNat (10 + n) s.setup else s.setup) ∧
  (∀ s img, (firmwareOk s.otpKey img = true → exec (.hostDieFirmwareLoad img) s = .next { s with hostFw := img, launchOpen := s.launchOpen || (setupOver s.setup && !img.isEmpty) }) ∧
    (firmwareOk s.otpKey img = false → exec (.hostDieFirmwareLoad img) s = .next { s with fwFailures := s.fwFailures + 1 })) ∧
  (∀ digest img, firmwareOk digest img = true → sha256 (firmwareParts img).1 = digest ∧ Lms.hssVerifies (firmwareParts img).1 (firmwareParts img).2.1 (firmwareParts img).2.2 = true) ∧
  (∀ key sig msg, Lms.hssVerifies key sig msg = true → key.length = 60 ∧ (Lms.beNat (Lms.field key 0 4) = 1 ∨ Lms.beNat (Lms.field key 0 4) = 2) ∧
    Lms.beNat (Lms.field sig 0 4) + 1 = Lms.beNat (Lms.field key 0 4) ∧ Lms.sigLength (sig.drop 4) ≠ none) ∧
  (∀ sig n, Lms.sigLength sig = some n → ∃ p, (Lms.beNat (Lms.field sig 4 4) = 3 ∧ p = 67 ∨ Lms.beNat (Lms.field sig 4 4) = 4 ∧ p = 34) ∧
    5 ≤ Lms.beNat (Lms.field sig (40 + 32 * p) 4) ∧ Lms.beNat (Lms.field sig (40 + 32 * p) 4) ≤ 8) ∧
  (∀ s nonce, (nonce.length ≠ 32 ∨ s.otpLeft = 0 → exec (.attestationReport nonce) s = .next s) ∧
    (nonce.length = 32 → s.otpLeft ≠ 0 → ∃ r msg c v, s.freeBytes 32 = (c, v) ∧
      exec (.attestationReport nonce) s = .next { v with otpLeaf := s.otpLeaf + 1, otpLeft := s.otpLeft - 1, reports := s.reports ++ [r] } ∧
      r = ⟨nonce, s.serial, s.boot, sha256 s.hostFw, s.ports.map fun p => sha256 (p.firmware.getD []), s.otpLeaf, s.idKey, Lms.hssSign s.idKey s.otpLeaf c msg⟩ ∧
      msg = nonce ++ toLe 6 s.serial.toNat ++ toLe 3 s.boot.toNat ++ r.hostDigest ++ r.courierDigests.flatten ++ toLe 4 s.otpLeaf)) ∧
  ∀ s, ∃ u, exec .coldReset s = .next u ∧ u = { State.reset with
      chip := s.chip, serial := s.serial, boot := u.boot, brandSeq := u.brandSeq, routes := [(s.chip, .self)], homes := [(s.serial, u.boot, s.chip)], otpKey := s.otpKey
      idKey := s.idKey, otpLeaf := s.otpLeaf, otpLeft := s.otpLeft, hostFw := u.hostFw, fwFailures := u.fwFailures, reports := s.reports, events := s.events, fresh := s.fresh
      nextId := s.nextId } ∧
    (s.boot ≠ 0xFFFFFF → u.boot = s.boot + 1 ∧ u.brandSeq = 1) ∧ (s.boot = 0xFFFFFF → u.boot = s.boot ∧ u.brandSeq = 0) ∧
    ((s.hostFw = [] ∨ firmwareOk s.otpKey s.hostFw = true) → u.hostFw = s.hostFw ∧ u.fwFailures = s.fwFailures) ∧
    (s.hostFw ≠ [] → firmwareOk s.otpKey s.hostFw = false → u.hostFw = [] ∧ u.fwFailures = s.fwFailures + 1)

/-- Links, writes of the host and of the fabric manager, and bring-up. -/
def Obligations.LinksAndBringUp : Prop := LinksHold ∧ HostWrites ∧ BringUp

/-! ### Operands, words and the machine -/

/-- The bits of a reading that are signs: of each floating-point element (R60). -/
def Sys2Proof.isSignBit (r : Rd) (b : Nat) : Bool :=
  match r with
  | .f32 => b = 31
  | .f2 _ => b = 15 || b = 31
  | .f1 _ => b = 15
  | _ => false

/-- R59 to R62, R117: the value a source gives in a lane. Registers and latches give their word, or the pair with the low word first; a predicate gives
0 or 1, and p7 gives 1. Negation of an integer is modulo 2 to the width of each element; of a floating-point operand it flips the sign bits, after the
absolute value has cleared them. Short immediates are sign-extended to the width of an integer; they are bits 31:18 of an FP32 value, rounded to the
element type with rne and placed in both halves for the 16-bit formats. -/
def Sys2Proof.SourceValues (x : Issue) (j : Nat) : Prop :=
  let l := x.g.lane j
  (∀ n, x.val .i32 (.v n false false false) j = (Cells.get l.v n.toNat).zeroExtend 64 ∧
    x.val .i64 (.v n false false true) j = Cells.get l.v (n.toNat + 1) ++ Cells.get l.v n.toNat) ∧
  (∀ n, x.val .i32 (.k n false false) j = (Cells.get x.g.k n.toNat).zeroExtend 64 ∧
    x.val .i64 (.k n false true) j = Cells.get x.g.k (n.toNat + 1) ++ Cells.get x.g.k n.toNat) ∧
  (∀ (n : BitVec 2) (a b : Latch), l.latches[n.toNat]? = some a → x.val .i32 (.latch n) j = a.val.zeroExtend 64 ∧
    (l.latches[n.toNat + 1]? = some b → x.val .i64 (.latch n) j = b.val ++ a.val)) ∧
  (∀ n, x.val .i32 (.p n) j = if n = 7 ∨ l.p.getLsbD n.toNat = true then 1 else 0) ∧
  (∀ n, (x.val .i32 (.v n true false false) j).toNat = (2 ^ 32 - (Cells.get l.v n.toNat).toNat) % 2 ^ 32 ∧
    x.val .i64 (.v n true false true) j = 0 - x.val .i64 (.v n false false true) j ∧
    ∀ e, e < 2 → IntTy.s16x2.elem (x.val .i16x2 (.v n true false false) j) e = (2 ^ 16 - IntTy.s16x2.elem (x.val .i16x2 (.v n false false false) j) e) % 2 ^ 16) ∧
  (∀ n, x.val .i32 (.k n true false) j = x.val .i32 (.k n false false) j * 0xFFFFFFFF &&& 0xFFFFFFFF ∧
    x.val .i64 (.k n true true) j = 0 - x.val .i64 (.k n false true) j) ∧
  (∀ r n neg abs b, (∃ fm, r = .f32 ∨ r = .f2 fm ∨ r = .f1 fm) → b < 32 →
    (x.val r (.v n neg abs false) j).getLsbD b =
      if isSignBit r b then ((Cells.get l.v n.toNat).getLsbD b && !abs) != neg else (Cells.get l.v n.toNat).getLsbD b) ∧
  (∀ y, x.val .i32 (.imm y) j = (BitVec.ofInt 32 y.toInt).zeroExtend 64 ∧ x.val .i64 (.imm y) j = BitVec.ofInt 64 y.toInt ∧
    (∀ e, e < 2 → IntTy.s16x2.val (x.val .i16x2 (.imm y) j) e = y.toInt) ∧ (x.val .f32 (.imm y) j).toNat = y.toNat * 2 ^ 18 ∧
    ∀ fm e, e < 2 → ∀ r, r = .f2 fm ∨ r = .f1 fm →
      IntTy.n16x2.elem (x.val r (.imm y) j) e = (convert (if fm = .f16 then .f16 else .bf16) .f32 .rne (x.val .f32 (.imm y) j)).bits)

/-- R20, R59 to R62, R64, R76, R117: the values of sources, and the faults of fields: a vector register at or above the budget of the group's role raises
PROT on every lane of act; where there is none, a lane of act with an invalid latch among the sources raises LATCH, and no other lane faults. -/
def Obligations.SourcesAndFieldFaults : Prop :=
  (∀ x j, SourceValues x j) ∧
  ∀ fm s sl tm g c x e t, openForm fm s sl tm g c = (x, e, t) →
    ((∃ n ∈ formV fm, g.budget ≤ n) → x.g.budget = g.budget → e = x.all (Flt.mk' Code.prot)) ∧
    ((∀ n ∈ formV fm, n < g.budget) → x.g.budget = g.budget → (∀ p ∈ e, p.2 = Flt.mk' Code.latch) ∧
      ∀ (j : Nat), (∃ p ∈ e, p.1 = j) ↔ j ∈ x.act ∧ ∃ n ∈ formL fm, ∀ a : Latch, (x.g.lane j).latches[n]? = some a → a.valid = false)

/-- Decoding and encoding agree (Tables 3-1 to 3-9): every well-formed instruction's word decodes to it with every operand, and a word that decodes
gives a well-formed instruction whose encoding is that word, so no word of a reserved pattern decodes. -/
def Obligations.DecodeInvertsEncode : Prop :=
  (∀ i w, i.wellFormed = true → encode i = some w → decode w = .ok i) ∧
  (∀ i w, decode w = .ok i → i.wellFormed = true ∧ encode i = some w)

/-- A word from its fields (Table 3-1): the opcode, the guard (negation and predicate), the hints, MOD, DST, SA, SB and SC. -/
def Sys2Proof.wordOf (opc : BitVec 10) (grd : BitVec 4) (hnt mod : BitVec 10) (dst : BitVec 14) (sa sb sc : BitVec 16) : Code :=
  opc ++ grd ++ hnt ++ mod ++ dst ++ sa ++ sb ++ sc

/-- Words written out from Tables 3-1 to 3-8 decode to the instructions they stand for, and the all-zero word decodes to none. -/
def Obligations.WordsDecode : Prop :=
  -- iadd.s64 with saturation, guard not p2, HOLD, STALL 3: v4:v5 from -(v6:v7) and k8:k9
  decode (wordOf 0x001 0b1010 0b0000001011 0b0000001010 0b00010000000100 0b0000010100000110 0b1100010000001000 0) =
    .ok (.iadd ⟨true, 2, false, true, 3⟩ .s64 true (.v 4 true) (.v 6 true false true) (.k 8 false true)) ∧
  -- fadd with rmi, ftz and clamp, NW: -|v1| plus a short immediate 1.0
  decode (wordOf 0x040 0b0111 0 0b0000110011 0b10000000000000 0b0000001100000001 0b1000111111100000 0) =
    .ok (.fadd ⟨false, 7, false, false, 0⟩ .rmi true true (.nw false) (.v 1 true true false) (.imm 0x0FE0)) ∧
  -- ld of 16 bits with sign: v3 from k2:k3 at offset -2
  decode (wordOf 0x180 0b0111 0 0b0000001100 0b00000000000011 0b1100010000000010 0b1011111111111110 0) =
    .ok (.ld ⟨false, 7, false, false, 0⟩ .b16 true (.v 3 false) (.k 2 false true) (.imm (-2))) ∧
  -- bra by -1 line to slot 9, with YIELD
  decode (wordOf 0x140 0b0000 0b0000010000 0 0b01100000000000 0 0b1111111111111111 0b1111111111111001) =
    .ok (.bra ⟨false, 0, true, false, 0⟩ ⟨-1, 9⟩) ∧
  -- hlt
  decode (wordOf 0x3C5 0b0111 0 0 0b01100000000000 0 0 0) = .ok (.hlt ⟨false, 7, false, false, 0⟩) ∧
  decode 0 = .error .zeroOpcode

/-- The issue slot that `step` runs: that of the group that issues next, where it must issue or the device has nothing else to do, or word B of a slot that is open. -/
def Sys2Proof.RunsSlot (s t : State) : Prop :=
  s.slot = none ∧ s.overdue = none ∧ s.events = [] ∧ s.openNext = some t ∧ (s.urgentNow.isSome = true ∨ s.moves = []) ∨ s.slot.isSome = true ∧ t = s.secondWord

/-- When a group issues word A at a well-formed PC, the line is fetched and its slot is valid, `step` is `exec` of the instruction that the word
decodes to, in the state with the slot filled and the sequential successor found; for a word that encodes no instruction it is `exec` of that event. Word B of
an open slot runs in the same way. Lanes that were to go to the lowest valid slot, from some slot on, of a line that could not be fetched before go there now, or to the next line where there is none (R67). A PC that is not well formed, a
bad header and an invalid slot raise ILL, and a fetch that faults raises its fault (R66 to R69). Where no group can issue, the event at the head of the tape happens. Each holds where no arrival that it needs waits for its place in a log.
The model's choice, log 27: an invalid slot raises ILL, and a PC whose line could not be fetched is open; logs 12 and 13: in which order groups, moves and
events come. -/
def Obligations.StepRunsTheDecodedWord : Prop :=
  (∀ s t sl tm g c lost, RunsSlot s t → t.issue? = some (sl, tm, g, c) → t.blocked = false → lost = { sl with next := afterPc (shownPc sl.pc) } →
    (pcOk (shownPc sl.pc) = false → step s = exec (.nonInstructionEncoding .header) { t with slot := some lost }) ∧
    ∀ r f, pcOk (shownPc sl.pc) = true → t.fetchLine tm.core c g.ahead (pcLine sl.pc) = (r, f) →
      (∀ e, r = .flt e → (f.fetchFault lost tm g c e).blocked = false → step s = .next (f.fetchFault lost tm g c e)) ∧
      ∀ (bits : BitVec 1024) pc v, r = .line bits → pc = (if pcOpen sl.pc then landed sl.pc bits else sl.pc) → v = (if pc = sl.pc then f else f.landOn sl pc) →
        (pcOpen pc = true → pc ≠ sl.pc → (v.endWord false).blocked = false → step s = .next (v.endWord false)) ∧
        ((pcOpen pc = false ∨ pc = sl.pc) →
          (headerOk bits = false → v.blocked = false → step s = exec (.nonInstructionEncoding .header) { v with slot := some { lost with pc := pc } }) ∧
          ∀ next u, headerOk bits = true → v.successor tm.core c g.ahead pc bits = (next, u) → u.blocked = false →
            (slotValid bits (pcSlot pc) = false → step s = exec (.nonInstructionEncoding .header) { u with slot := some { sl with pc := pc, next := next } }) ∧
            (slotValid bits (pcSlot pc) = true →
              (∀ i, decode (slotWord bits (pcSlot pc)) = .ok i → step s = exec i { u with slot := some { sl with pc := pc, word := slotWord bits (pcSlot pc), next := next } }) ∧
              ∀ why, decode (slotWord bits (pcSlot pc)) = .error why →
                step s = exec (.nonInstructionEncoding why) { u with slot := some { sl with pc := pc, word := slotWord bits (pcSlot pc), next := next } }))) ∧
  (∀ (bits : BitVec 1024) line from', line % 128 = 0 → line + 128 < 2 ^ 64 → from' < 10 → pcOpen (openPc line from') = true ∧ pcLine (openPc line from') = line ∧
    shownPc (openPc line from') = BitVec.ofNat 64 (line + from') ∧ ∀ n, validFrom bits from' = some n → landed (openPc line from') bits = BitVec.ofNat 64 (line + n)) ∧
  ∀ s e rest t, s.slot = none → s.overdue = none → s.events = e :: rest → s.openNext = none → s.hostHeld = [] →
    exec e { s with events := rest, stalled := [] } = .next t → t.blocked = false → step s = .next t

/-- After cold reset nothing is launched: there is no context, queue, team, launch, access or copy; every island runs at 400 MHz, SHWIN
is 24 and the fault buffers are empty, and a step only lets time pass. Memory lists nothing. The model's choice, log 1: an unlisted byte reads 0; log 6: FBHEAD,
for which Table 12-8 gives no reset value, is 0. -/
def Obligations.ResetState : Prop :=
  Safe State.reset ∧ (∀ a, Cells.get State.reset.mem a = 0) ∧
  State.reset.ctxs = [] ∧ State.reset.queues = [] ∧ State.reset.teams = [] ∧ State.reset.launches = [] ∧ State.reset.accs = [] ∧ State.reset.copies = [] ∧
  State.reset.brands = [] ∧ State.reset.launchOpen = false ∧
  (∀ i, i < 16 → (State.reset.islands[i]?).map (·.current) = some 400) ∧
  (∀ d, d < 8 → (State.reset.dies[d]?).map (·.shwin) = some 24 ∧ (State.reset.dies[d]?).map (·.fbhead) = some 0) ∧
  step State.reset = .next State.reset

/-- Memory keeps its canonical form: in every state in which the memory list is strictly rising and holds no byte that an unlisted address reads as,
each step, whatever it runs, leaves it so. -/
def Obligations.StepKeepsMemoryForm : Prop := ∀ s s', Safe s → step s = .next s' → Safe s'
end

