-- ==== Sys2Proof/Laws/Cells.lean ====
section
/-! SUPPORT. Laws of the canonical store: what a read after a write gives, and that every memory operation keeps the canonical form. -/

namespace Sys2Proof.Machine

namespace Cells

variable {w : Nat}

/-- Every listed key is at least a bound. -/
def above (b : Nat) (c : Cells w) : Prop := ∀ p ∈ c, b ≤ p.1

theorem get_of_above {c : Cells w} {b a : Nat} (h : above b c) (ha : a < b) : get c a = 0 := by
  induction c with
  | nil => rfl
  | cons p rest ih =>
    obtain ⟨k, x⟩ := p
    have hk : b ≤ k := h (k, x) (by simp)
    simp only [get]
    rw [if_neg (by simp; omega)]
    exact ih fun q hq => h q (by simp [hq])

theorem wfFrom_above {c : Cells w} {b : Nat} (h : wfFrom (some b) c = true) : above (b + 1) c := by
  induction c generalizing b with
  | nil => intro p hp; cases hp
  | cons p rest ih =>
    obtain ⟨k, x⟩ := p
    simp only [wfFrom, Bool.and_eq_true, decide_eq_true_eq] at h
    intro q hq
    rcases List.mem_cons.1 hq with rfl | hq
    · exact h.1.1
    · have := ih h.2 q hq; omega

theorem wfFrom_tail {c : Cells w} {k : Nat} {x : BitVec w} {lo : Option Nat} (h : wfFrom lo ((k, x) :: c) = true) : wfFrom (some k) c = true := by
  simp only [wfFrom, Bool.and_eq_true] at h
  exact h.2

theorem wfFrom_weaken {c : Cells w} {k : Nat} {lo : Option Nat} (h : wfFrom (some k) c = true) (hb : ∀ b, lo = some b → b ≤ k) :
    wfFrom lo c = true := by
  cases c with
  | nil => rfl
  | cons p rest =>
    obtain ⟨k', x⟩ := p
    simp only [wfFrom, Bool.and_eq_true, decide_eq_true_eq] at h ⊢
    refine ⟨⟨?_, h.1.2⟩, h.2⟩
    cases lo with
    | none => rfl
    | some b => have := hb b rfl; simp; omega

theorem get_cons {a b : Nat} {x : BitVec w} {rest : Cells w} (h : above (a + 1) rest) :
    get (cons a x rest) b = if b = a then x else get rest b := by
  unfold cons
  split
  next hx =>
    split
    next hb => subst hb; rw [get_of_above h (by omega), show x = 0 by simpa using hx]
    next => rfl
  next hx =>
    simp only [get]
    by_cases hb : b = a
    · subst hb; simp
    · rw [if_neg (by simpa using fun h => hb h.symm), if_neg hb]

theorem wfFrom_cons {lo : Option Nat} {a : Nat} {x : BitVec w} {rest : Cells w} (hlo : ∀ b, lo = some b → b < a)
    (h : wfFrom (some a) rest = true) : wfFrom lo (cons a x rest) = true := by
  unfold cons
  split
  next => exact wfFrom_weaken h fun b hb => Nat.le_of_lt (hlo b hb)
  next hx =>
    simp only [wfFrom, Bool.and_eq_true]
    refine ⟨⟨?_, by simpa using hx⟩, h⟩
    cases lo with
    | none => rfl
    | some b => simpa using hlo b rfl

theorem get_set_from {lo : Option Nat} {c : Cells w} (h : wfFrom lo c = true) (a b : Nat) (x : BitVec w) :
    get (set c a x) b = if b = a then x else get c b := by
  induction c generalizing lo with
  | nil => exact get_cons (by intro p hp; cases hp)
  | cons p rest ih =>
    obtain ⟨k, y⟩ := p
    have ht := wfFrom_tail h
    have hab := wfFrom_above ht
    simp only [set]
    split
    next hk =>
      refine get_cons ?_
      intro q hq
      rcases List.mem_cons.1 hq with rfl | hq
      · exact hk
      · have := hab q hq; omega
    next hk =>
      split
      next he =>
        have he : a = k := by simpa using he
        subst he
        rw [get_cons hab]
        by_cases hb : b = a
        · simp [hb]
        · simp only [hb, if_false, get]
          rw [if_neg (by simpa using fun h => hb h.symm)]
      next he =>
        have he : a ≠ k := by simpa using he
        simp only [get, ih ht]
        by_cases hb : k = b
        · subst hb; simp [Ne.symm he]
        · simp only [show (k == b) = false by simpa using hb]; rfl

theorem wfFrom_set {lo : Option Nat} {c : Cells w} (h : wfFrom lo c = true) {a : Nat} (hlo : ∀ b, lo = some b → b < a) (x : BitVec w) :
    wfFrom lo (set c a x) = true := by
  induction c generalizing lo with
  | nil => exact wfFrom_cons hlo rfl
  | cons p rest ih =>
    obtain ⟨k, y⟩ := p
    have h' := h
    simp only [wfFrom, Bool.and_eq_true] at h'
    simp only [set]
    split
    next hk =>
      refine wfFrom_cons hlo ?_
      simp only [wfFrom, Bool.and_eq_true, decide_eq_true_eq]
      exact ⟨⟨hk, h'.1.2⟩, h'.2⟩
    next hk =>
      split
      next he =>
        have he : a = k := by simpa using he
        subst he
        exact wfFrom_cons hlo h'.2
      next he =>
        have he : a ≠ k := by simpa using he
        simp only [wfFrom, Bool.and_eq_true]
        exact ⟨h'.1, ih h'.2 (by intro b hb; cases hb; omega)⟩

/-- Reading a cell after writing one. -/
theorem get_set {c : Cells w} (h : wf c = true) (a b : Nat) (x : BitVec w) : get (set c a x) b = if b = a then x else get c b :=
  get_set_from h a b x

/-- A write keeps the canonical form. -/
theorem wf_set {c : Cells w} (h : wf c = true) (a : Nat) (x : BitVec w) : wf (set c a x) = true :=
  wfFrom_set h (by intro b hb; cases hb) x

/-- A write of bytes keeps the canonical form. -/
theorem wf_setBytes {c : Cells 8} (h : wf c = true) (a : Nat) (bs : List Byte) : wf (setBytes c a bs) = true := by
  induction bs generalizing c a with
  | nil => exact h
  | cons x rest ih => exact ih (wf_set h a x) (a + 1)

/-- Reading a byte after a run of bytes is written. -/
theorem get_setBytes {c : Cells 8} (h : wf c = true) (a b : Nat) (bs : List Byte) :
    get (setBytes c a bs) b = if a ≤ b ∧ b < a + bs.length then bs.getD (b - a) 0 else get c b := by
  induction bs generalizing c a with
  | nil =>
    have h0 : ¬(a ≤ b ∧ b < a + 0) := by omega
    exact (if_neg h0).symm
  | cons x rest ih =>
    rw [setBytes, ih (wf_set h a x), get_set h]
    simp only [List.length_cons]
    by_cases h1 : b = a
    · subst h1; rw [if_neg (by omega)]; simp
    · by_cases h2 : a + 1 ≤ b ∧ b < a + 1 + rest.length
      · rw [if_pos h2, if_pos ⟨by omega, by omega⟩]
        have : b - a = (b - (a + 1)) + 1 := by omega
        rw [this, List.getD_cons_succ]
      · rw [if_neg h2, if_neg h1, if_neg (by omega)]

end Cells

namespace State

/-- Writing memory keeps its canonical form. -/
theorem write_wf {s : State} (h : Memory.wf s.mem = true) (gpa : Nat) (bs : List Byte) : Memory.wf (s.write gpa bs).mem = true :=
  Cells.wf_setBytes h gpa bs

/-- A byte of memory after a write. -/
theorem write_get {s : State} (h : Memory.wf s.mem = true) (gpa a : Nat) (bs : List Byte) :
    Cells.get (s.write gpa bs).mem a = if gpa ≤ a ∧ a < gpa + bs.length then bs.getD (a - gpa) 0 else Cells.get s.mem a :=
  Cells.get_setBytes h gpa a bs

/-- Memory after reset has its canonical form. -/
theorem reset_wf : Memory.wf State.reset.mem = true := rfl

end State

end Sys2Proof.Machine
end

