-- ==== Sys2Proof/Laws/State.lean ====
section
/-! SUPPORT. One lemma for each field of `State` and each update of it. -/

namespace Sys2Proof.Machine.State

variable (s : State)

/-! `modTeam` -/

@[simp] theorem modTeam_teams (tid : Nat) (f : Team → Team) : (s.modTeam tid f).teams = modWhere (·.tid == tid) f s.teams := rfl
@[simp] theorem modTeam_chip (tid : Nat) (f : Team → Team) : (s.modTeam tid f).chip = s.chip := rfl
@[simp] theorem modTeam_mem (tid : Nat) (f : Team → Team) : (s.modTeam tid f).mem = s.mem := rfl
@[simp] theorem modTeam_poison (tid : Nat) (f : Team → Team) : (s.modTeam tid f).poison = s.poison := rfl
@[simp] theorem modTeam_serial (tid : Nat) (f : Team → Team) : (s.modTeam tid f).serial = s.serial := rfl
@[simp] theorem modTeam_boot (tid : Nat) (f : Team → Team) : (s.modTeam tid f).boot = s.boot := rfl
@[simp] theorem modTeam_brandSeq (tid : Nat) (f : Team → Team) : (s.modTeam tid f).brandSeq = s.brandSeq := rfl
@[simp] theorem modTeam_brandBase (tid : Nat) (f : Team → Team) : (s.modTeam tid f).brandBase = s.brandBase := rfl
@[simp] theorem modTeam_brands (tid : Nat) (f : Team → Team) : (s.modTeam tid f).brands = s.brands := rfl
@[simp] theorem modTeam_origins (tid : Nat) (f : Team → Team) : (s.modTeam tid f).origins = s.origins := rfl
@[simp] theorem modTeam_routes (tid : Nat) (f : Team → Team) : (s.modTeam tid f).routes = s.routes := rfl
@[simp] theorem modTeam_homes (tid : Nat) (f : Team → Team) : (s.modTeam tid f).homes = s.homes := rfl
@[simp] theorem modTeam_launchOpen (tid : Nat) (f : Team → Team) : (s.modTeam tid f).launchOpen = s.launchOpen := rfl
@[simp] theorem modTeam_setup (tid : Nat) (f : Team → Team) : (s.modTeam tid f).setup = s.setup := rfl
@[simp] theorem modTeam_pasts (tid : Nat) (f : Team → Team) : (s.modTeam tid f).pasts = s.pasts := rfl
@[simp] theorem modTeam_ports (tid : Nat) (f : Team → Team) : (s.modTeam tid f).ports = s.ports := rfl
@[simp] theorem modTeam_stagingFree (tid : Nat) (f : Team → Team) : (s.modTeam tid f).stagingFree = s.stagingFree := rfl
@[simp] theorem modTeam_windows (tid : Nat) (f : Team → Team) : (s.modTeam tid f).windows = s.windows := rfl
@[simp] theorem modTeam_ucies (tid : Nat) (f : Team → Team) : (s.modTeam tid f).ucies = s.ucies := rfl
@[simp] theorem modTeam_linkHeld (tid : Nat) (f : Team → Team) : (s.modTeam tid f).linkHeld = s.linkHeld := rfl
@[simp] theorem modTeam_hostHeld (tid : Nat) (f : Team → Team) : (s.modTeam tid f).hostHeld = s.hostHeld := rfl
@[simp] theorem modTeam_due (tid : Nat) (f : Team → Team) : (s.modTeam tid f).due = s.due := rfl
@[simp] theorem modTeam_otpKey (tid : Nat) (f : Team → Team) : (s.modTeam tid f).otpKey = s.otpKey := rfl
@[simp] theorem modTeam_idKey (tid : Nat) (f : Team → Team) : (s.modTeam tid f).idKey = s.idKey := rfl
@[simp] theorem modTeam_otpLeaf (tid : Nat) (f : Team → Team) : (s.modTeam tid f).otpLeaf = s.otpLeaf := rfl
@[simp] theorem modTeam_otpLeft (tid : Nat) (f : Team → Team) : (s.modTeam tid f).otpLeft = s.otpLeft := rfl
@[simp] theorem modTeam_hostFw (tid : Nat) (f : Team → Team) : (s.modTeam tid f).hostFw = s.hostFw := rfl
@[simp] theorem modTeam_fwFailures (tid : Nat) (f : Team → Team) : (s.modTeam tid f).fwFailures = s.fwFailures := rfl
@[simp] theorem modTeam_reports (tid : Nat) (f : Team → Team) : (s.modTeam tid f).reports = s.reports := rfl
@[simp] theorem modTeam_islands (tid : Nat) (f : Team → Team) : (s.modTeam tid f).islands = s.islands := rfl
@[simp] theorem modTeam_dies (tid : Nat) (f : Team → Team) : (s.modTeam tid f).dies = s.dies := rfl
@[simp] theorem modTeam_cores (tid : Nat) (f : Team → Team) : (s.modTeam tid f).cores = s.cores := rfl
@[simp] theorem modTeam_quads (tid : Nat) (f : Team → Team) : (s.modTeam tid f).quads = s.quads := rfl
@[simp] theorem modTeam_agents (tid : Nat) (f : Team → Team) : (s.modTeam tid f).agents = s.agents := rfl
@[simp] theorem modTeam_ctxs (tid : Nat) (f : Team → Team) : (s.modTeam tid f).ctxs = s.ctxs := rfl
@[simp] theorem modTeam_queues (tid : Nat) (f : Team → Team) : (s.modTeam tid f).queues = s.queues := rfl
@[simp] theorem modTeam_rr (tid : Nat) (f : Team → Team) : (s.modTeam tid f).rr = s.rr := rfl
@[simp] theorem modTeam_letterboxes (tid : Nat) (f : Team → Team) : (s.modTeam tid f).letterboxes = s.letterboxes := rfl
@[simp] theorem modTeam_launches (tid : Nat) (f : Team → Team) : (s.modTeam tid f).launches = s.launches := rfl
@[simp] theorem modTeam_pools (tid : Nat) (f : Team → Team) : (s.modTeam tid f).pools = s.pools := rfl
@[simp] theorem modTeam_accs (tid : Nat) (f : Team → Team) : (s.modTeam tid f).accs = s.accs := rfl
@[simp] theorem modTeam_copies (tid : Nat) (f : Team → Team) : (s.modTeam tid f).copies = s.copies := rfl
@[simp] theorem modTeam_tiles (tid : Nat) (f : Team → Team) : (s.modTeam tid f).tiles = s.tiles := rfl
@[simp] theorem modTeam_images (tid : Nat) (f : Team → Team) : (s.modTeam tid f).images = s.images := rfl
@[simp] theorem modTeam_events (tid : Nat) (f : Team → Team) : (s.modTeam tid f).events = s.events := rfl
@[simp] theorem modTeam_slot (tid : Nat) (f : Team → Team) : (s.modTeam tid f).slot = s.slot := rfl
@[simp] theorem modTeam_cycle (tid : Nat) (f : Team → Team) : (s.modTeam tid f).cycle = s.cycle := rfl
@[simp] theorem modTeam_stalled (tid : Nat) (f : Team → Team) : (s.modTeam tid f).stalled = s.stalled := rfl
@[simp] theorem modTeam_urgent (tid : Nat) (f : Team → Team) : (s.modTeam tid f).urgent = s.urgent := rfl
@[simp] theorem modTeam_blocked (tid : Nat) (f : Team → Team) : (s.modTeam tid f).blocked = s.blocked := rfl
@[simp] theorem modTeam_unforeseen (tid : Nat) (f : Team → Team) : (s.modTeam tid f).unforeseen = s.unforeseen := rfl
@[simp] theorem modTeam_fresh (tid : Nat) (f : Team → Team) : (s.modTeam tid f).fresh = s.fresh := rfl
@[simp] theorem modTeam_nextId (tid : Nat) (f : Team → Team) : (s.modTeam tid f).nextId = s.nextId := rfl

/-! `modGroup` -/

@[simp] theorem modGroup_teams (tid gix : Nat) (f : Group → Group) : (s.modGroup tid gix f).teams = modWhere (·.tid == tid) (fun t => { t with groups := modWhere (·.gix == gix) f t.groups }) s.teams := rfl
@[simp] theorem modGroup_chip (tid gix : Nat) (f : Group → Group) : (s.modGroup tid gix f).chip = s.chip := rfl
@[simp] theorem modGroup_mem (tid gix : Nat) (f : Group → Group) : (s.modGroup tid gix f).mem = s.mem := rfl
@[simp] theorem modGroup_poison (tid gix : Nat) (f : Group → Group) : (s.modGroup tid gix f).poison = s.poison := rfl
@[simp] theorem modGroup_serial (tid gix : Nat) (f : Group → Group) : (s.modGroup tid gix f).serial = s.serial := rfl
@[simp] theorem modGroup_boot (tid gix : Nat) (f : Group → Group) : (s.modGroup tid gix f).boot = s.boot := rfl
@[simp] theorem modGroup_brandSeq (tid gix : Nat) (f : Group → Group) : (s.modGroup tid gix f).brandSeq = s.brandSeq := rfl
@[simp] theorem modGroup_brandBase (tid gix : Nat) (f : Group → Group) : (s.modGroup tid gix f).brandBase = s.brandBase := rfl
@[simp] theorem modGroup_brands (tid gix : Nat) (f : Group → Group) : (s.modGroup tid gix f).brands = s.brands := rfl
@[simp] theorem modGroup_origins (tid gix : Nat) (f : Group → Group) : (s.modGroup tid gix f).origins = s.origins := rfl
@[simp] theorem modGroup_routes (tid gix : Nat) (f : Group → Group) : (s.modGroup tid gix f).routes = s.routes := rfl
@[simp] theorem modGroup_homes (tid gix : Nat) (f : Group → Group) : (s.modGroup tid gix f).homes = s.homes := rfl
@[simp] theorem modGroup_launchOpen (tid gix : Nat) (f : Group → Group) : (s.modGroup tid gix f).launchOpen = s.launchOpen := rfl
@[simp] theorem modGroup_setup (tid gix : Nat) (f : Group → Group) : (s.modGroup tid gix f).setup = s.setup := rfl
@[simp] theorem modGroup_pasts (tid gix : Nat) (f : Group → Group) : (s.modGroup tid gix f).pasts = s.pasts := rfl
@[simp] theorem modGroup_ports (tid gix : Nat) (f : Group → Group) : (s.modGroup tid gix f).ports = s.ports := rfl
@[simp] theorem modGroup_stagingFree (tid gix : Nat) (f : Group → Group) : (s.modGroup tid gix f).stagingFree = s.stagingFree := rfl
@[simp] theorem modGroup_windows (tid gix : Nat) (f : Group → Group) : (s.modGroup tid gix f).windows = s.windows := rfl
@[simp] theorem modGroup_ucies (tid gix : Nat) (f : Group → Group) : (s.modGroup tid gix f).ucies = s.ucies := rfl
@[simp] theorem modGroup_linkHeld (tid gix : Nat) (f : Group → Group) : (s.modGroup tid gix f).linkHeld = s.linkHeld := rfl
@[simp] theorem modGroup_hostHeld (tid gix : Nat) (f : Group → Group) : (s.modGroup tid gix f).hostHeld = s.hostHeld := rfl
@[simp] theorem modGroup_due (tid gix : Nat) (f : Group → Group) : (s.modGroup tid gix f).due = s.due := rfl
@[simp] theorem modGroup_otpKey (tid gix : Nat) (f : Group → Group) : (s.modGroup tid gix f).otpKey = s.otpKey := rfl
@[simp] theorem modGroup_idKey (tid gix : Nat) (f : Group → Group) : (s.modGroup tid gix f).idKey = s.idKey := rfl
@[simp] theorem modGroup_otpLeaf (tid gix : Nat) (f : Group → Group) : (s.modGroup tid gix f).otpLeaf = s.otpLeaf := rfl
@[simp] theorem modGroup_otpLeft (tid gix : Nat) (f : Group → Group) : (s.modGroup tid gix f).otpLeft = s.otpLeft := rfl
@[simp] theorem modGroup_hostFw (tid gix : Nat) (f : Group → Group) : (s.modGroup tid gix f).hostFw = s.hostFw := rfl
@[simp] theorem modGroup_fwFailures (tid gix : Nat) (f : Group → Group) : (s.modGroup tid gix f).fwFailures = s.fwFailures := rfl
@[simp] theorem modGroup_reports (tid gix : Nat) (f : Group → Group) : (s.modGroup tid gix f).reports = s.reports := rfl
@[simp] theorem modGroup_islands (tid gix : Nat) (f : Group → Group) : (s.modGroup tid gix f).islands = s.islands := rfl
@[simp] theorem modGroup_dies (tid gix : Nat) (f : Group → Group) : (s.modGroup tid gix f).dies = s.dies := rfl
@[simp] theorem modGroup_cores (tid gix : Nat) (f : Group → Group) : (s.modGroup tid gix f).cores = s.cores := rfl
@[simp] theorem modGroup_quads (tid gix : Nat) (f : Group → Group) : (s.modGroup tid gix f).quads = s.quads := rfl
@[simp] theorem modGroup_agents (tid gix : Nat) (f : Group → Group) : (s.modGroup tid gix f).agents = s.agents := rfl
@[simp] theorem modGroup_ctxs (tid gix : Nat) (f : Group → Group) : (s.modGroup tid gix f).ctxs = s.ctxs := rfl
@[simp] theorem modGroup_queues (tid gix : Nat) (f : Group → Group) : (s.modGroup tid gix f).queues = s.queues := rfl
@[simp] theorem modGroup_rr (tid gix : Nat) (f : Group → Group) : (s.modGroup tid gix f).rr = s.rr := rfl
@[simp] theorem modGroup_letterboxes (tid gix : Nat) (f : Group → Group) : (s.modGroup tid gix f).letterboxes = s.letterboxes := rfl
@[simp] theorem modGroup_launches (tid gix : Nat) (f : Group → Group) : (s.modGroup tid gix f).launches = s.launches := rfl
@[simp] theorem modGroup_pools (tid gix : Nat) (f : Group → Group) : (s.modGroup tid gix f).pools = s.pools := rfl
@[simp] theorem modGroup_accs (tid gix : Nat) (f : Group → Group) : (s.modGroup tid gix f).accs = s.accs := rfl
@[simp] theorem modGroup_copies (tid gix : Nat) (f : Group → Group) : (s.modGroup tid gix f).copies = s.copies := rfl
@[simp] theorem modGroup_tiles (tid gix : Nat) (f : Group → Group) : (s.modGroup tid gix f).tiles = s.tiles := rfl
@[simp] theorem modGroup_images (tid gix : Nat) (f : Group → Group) : (s.modGroup tid gix f).images = s.images := rfl
@[simp] theorem modGroup_events (tid gix : Nat) (f : Group → Group) : (s.modGroup tid gix f).events = s.events := rfl
@[simp] theorem modGroup_slot (tid gix : Nat) (f : Group → Group) : (s.modGroup tid gix f).slot = s.slot := rfl
@[simp] theorem modGroup_cycle (tid gix : Nat) (f : Group → Group) : (s.modGroup tid gix f).cycle = s.cycle := rfl
@[simp] theorem modGroup_stalled (tid gix : Nat) (f : Group → Group) : (s.modGroup tid gix f).stalled = s.stalled := rfl
@[simp] theorem modGroup_urgent (tid gix : Nat) (f : Group → Group) : (s.modGroup tid gix f).urgent = s.urgent := rfl
@[simp] theorem modGroup_blocked (tid gix : Nat) (f : Group → Group) : (s.modGroup tid gix f).blocked = s.blocked := rfl
@[simp] theorem modGroup_unforeseen (tid gix : Nat) (f : Group → Group) : (s.modGroup tid gix f).unforeseen = s.unforeseen := rfl
@[simp] theorem modGroup_fresh (tid gix : Nat) (f : Group → Group) : (s.modGroup tid gix f).fresh = s.fresh := rfl
@[simp] theorem modGroup_nextId (tid gix : Nat) (f : Group → Group) : (s.modGroup tid gix f).nextId = s.nextId := rfl

/-! `modLane` -/

@[simp] theorem modLane_chip (tid gix lane : Nat) (f : Lane → Lane) : (s.modLane tid gix lane f).chip = s.chip := rfl
@[simp] theorem modLane_mem (tid gix lane : Nat) (f : Lane → Lane) : (s.modLane tid gix lane f).mem = s.mem := rfl
@[simp] theorem modLane_poison (tid gix lane : Nat) (f : Lane → Lane) : (s.modLane tid gix lane f).poison = s.poison := rfl
@[simp] theorem modLane_serial (tid gix lane : Nat) (f : Lane → Lane) : (s.modLane tid gix lane f).serial = s.serial := rfl
@[simp] theorem modLane_boot (tid gix lane : Nat) (f : Lane → Lane) : (s.modLane tid gix lane f).boot = s.boot := rfl
@[simp] theorem modLane_brandSeq (tid gix lane : Nat) (f : Lane → Lane) : (s.modLane tid gix lane f).brandSeq = s.brandSeq := rfl
@[simp] theorem modLane_brandBase (tid gix lane : Nat) (f : Lane → Lane) : (s.modLane tid gix lane f).brandBase = s.brandBase := rfl
@[simp] theorem modLane_brands (tid gix lane : Nat) (f : Lane → Lane) : (s.modLane tid gix lane f).brands = s.brands := rfl
@[simp] theorem modLane_origins (tid gix lane : Nat) (f : Lane → Lane) : (s.modLane tid gix lane f).origins = s.origins := rfl
@[simp] theorem modLane_routes (tid gix lane : Nat) (f : Lane → Lane) : (s.modLane tid gix lane f).routes = s.routes := rfl
@[simp] theorem modLane_homes (tid gix lane : Nat) (f : Lane → Lane) : (s.modLane tid gix lane f).homes = s.homes := rfl
@[simp] theorem modLane_launchOpen (tid gix lane : Nat) (f : Lane → Lane) : (s.modLane tid gix lane f).launchOpen = s.launchOpen := rfl
@[simp] theorem modLane_setup (tid gix lane : Nat) (f : Lane → Lane) : (s.modLane tid gix lane f).setup = s.setup := rfl
@[simp] theorem modLane_pasts (tid gix lane : Nat) (f : Lane → Lane) : (s.modLane tid gix lane f).pasts = s.pasts := rfl
@[simp] theorem modLane_ports (tid gix lane : Nat) (f : Lane → Lane) : (s.modLane tid gix lane f).ports = s.ports := rfl
@[simp] theorem modLane_stagingFree (tid gix lane : Nat) (f : Lane → Lane) : (s.modLane tid gix lane f).stagingFree = s.stagingFree := rfl
@[simp] theorem modLane_windows (tid gix lane : Nat) (f : Lane → Lane) : (s.modLane tid gix lane f).windows = s.windows := rfl
@[simp] theorem modLane_ucies (tid gix lane : Nat) (f : Lane → Lane) : (s.modLane tid gix lane f).ucies = s.ucies := rfl
@[simp] theorem modLane_linkHeld (tid gix lane : Nat) (f : Lane → Lane) : (s.modLane tid gix lane f).linkHeld = s.linkHeld := rfl
@[simp] theorem modLane_hostHeld (tid gix lane : Nat) (f : Lane → Lane) : (s.modLane tid gix lane f).hostHeld = s.hostHeld := rfl
@[simp] theorem modLane_due (tid gix lane : Nat) (f : Lane → Lane) : (s.modLane tid gix lane f).due = s.due := rfl
@[simp] theorem modLane_otpKey (tid gix lane : Nat) (f : Lane → Lane) : (s.modLane tid gix lane f).otpKey = s.otpKey := rfl
@[simp] theorem modLane_idKey (tid gix lane : Nat) (f : Lane → Lane) : (s.modLane tid gix lane f).idKey = s.idKey := rfl
@[simp] theorem modLane_otpLeaf (tid gix lane : Nat) (f : Lane → Lane) : (s.modLane tid gix lane f).otpLeaf = s.otpLeaf := rfl
@[simp] theorem modLane_otpLeft (tid gix lane : Nat) (f : Lane → Lane) : (s.modLane tid gix lane f).otpLeft = s.otpLeft := rfl
@[simp] theorem modLane_hostFw (tid gix lane : Nat) (f : Lane → Lane) : (s.modLane tid gix lane f).hostFw = s.hostFw := rfl
@[simp] theorem modLane_fwFailures (tid gix lane : Nat) (f : Lane → Lane) : (s.modLane tid gix lane f).fwFailures = s.fwFailures := rfl
@[simp] theorem modLane_reports (tid gix lane : Nat) (f : Lane → Lane) : (s.modLane tid gix lane f).reports = s.reports := rfl
@[simp] theorem modLane_islands (tid gix lane : Nat) (f : Lane → Lane) : (s.modLane tid gix lane f).islands = s.islands := rfl
@[simp] theorem modLane_dies (tid gix lane : Nat) (f : Lane → Lane) : (s.modLane tid gix lane f).dies = s.dies := rfl
@[simp] theorem modLane_cores (tid gix lane : Nat) (f : Lane → Lane) : (s.modLane tid gix lane f).cores = s.cores := rfl
@[simp] theorem modLane_quads (tid gix lane : Nat) (f : Lane → Lane) : (s.modLane tid gix lane f).quads = s.quads := rfl
@[simp] theorem modLane_agents (tid gix lane : Nat) (f : Lane → Lane) : (s.modLane tid gix lane f).agents = s.agents := rfl
@[simp] theorem modLane_ctxs (tid gix lane : Nat) (f : Lane → Lane) : (s.modLane tid gix lane f).ctxs = s.ctxs := rfl
@[simp] theorem modLane_queues (tid gix lane : Nat) (f : Lane → Lane) : (s.modLane tid gix lane f).queues = s.queues := rfl
@[simp] theorem modLane_rr (tid gix lane : Nat) (f : Lane → Lane) : (s.modLane tid gix lane f).rr = s.rr := rfl
@[simp] theorem modLane_letterboxes (tid gix lane : Nat) (f : Lane → Lane) : (s.modLane tid gix lane f).letterboxes = s.letterboxes := rfl
@[simp] theorem modLane_launches (tid gix lane : Nat) (f : Lane → Lane) : (s.modLane tid gix lane f).launches = s.launches := rfl
@[simp] theorem modLane_pools (tid gix lane : Nat) (f : Lane → Lane) : (s.modLane tid gix lane f).pools = s.pools := rfl
@[simp] theorem modLane_accs (tid gix lane : Nat) (f : Lane → Lane) : (s.modLane tid gix lane f).accs = s.accs := rfl
@[simp] theorem modLane_copies (tid gix lane : Nat) (f : Lane → Lane) : (s.modLane tid gix lane f).copies = s.copies := rfl
@[simp] theorem modLane_tiles (tid gix lane : Nat) (f : Lane → Lane) : (s.modLane tid gix lane f).tiles = s.tiles := rfl
@[simp] theorem modLane_images (tid gix lane : Nat) (f : Lane → Lane) : (s.modLane tid gix lane f).images = s.images := rfl
@[simp] theorem modLane_events (tid gix lane : Nat) (f : Lane → Lane) : (s.modLane tid gix lane f).events = s.events := rfl
@[simp] theorem modLane_slot (tid gix lane : Nat) (f : Lane → Lane) : (s.modLane tid gix lane f).slot = s.slot := rfl
@[simp] theorem modLane_cycle (tid gix lane : Nat) (f : Lane → Lane) : (s.modLane tid gix lane f).cycle = s.cycle := rfl
@[simp] theorem modLane_stalled (tid gix lane : Nat) (f : Lane → Lane) : (s.modLane tid gix lane f).stalled = s.stalled := rfl
@[simp] theorem modLane_urgent (tid gix lane : Nat) (f : Lane → Lane) : (s.modLane tid gix lane f).urgent = s.urgent := rfl
@[simp] theorem modLane_blocked (tid gix lane : Nat) (f : Lane → Lane) : (s.modLane tid gix lane f).blocked = s.blocked := rfl
@[simp] theorem modLane_unforeseen (tid gix lane : Nat) (f : Lane → Lane) : (s.modLane tid gix lane f).unforeseen = s.unforeseen := rfl
@[simp] theorem modLane_fresh (tid gix lane : Nat) (f : Lane → Lane) : (s.modLane tid gix lane f).fresh = s.fresh := rfl
@[simp] theorem modLane_nextId (tid gix lane : Nat) (f : Lane → Lane) : (s.modLane tid gix lane f).nextId = s.nextId := rfl

/-! `modCtx` -/

@[simp] theorem modCtx_ctxs (c : Nat) (f : Context → Context) : (s.modCtx c f).ctxs = modWhere (·.ctx == c) f s.ctxs := rfl
@[simp] theorem modCtx_chip (c : Nat) (f : Context → Context) : (s.modCtx c f).chip = s.chip := rfl
@[simp] theorem modCtx_mem (c : Nat) (f : Context → Context) : (s.modCtx c f).mem = s.mem := rfl
@[simp] theorem modCtx_poison (c : Nat) (f : Context → Context) : (s.modCtx c f).poison = s.poison := rfl
@[simp] theorem modCtx_serial (c : Nat) (f : Context → Context) : (s.modCtx c f).serial = s.serial := rfl
@[simp] theorem modCtx_boot (c : Nat) (f : Context → Context) : (s.modCtx c f).boot = s.boot := rfl
@[simp] theorem modCtx_brandSeq (c : Nat) (f : Context → Context) : (s.modCtx c f).brandSeq = s.brandSeq := rfl
@[simp] theorem modCtx_brandBase (c : Nat) (f : Context → Context) : (s.modCtx c f).brandBase = s.brandBase := rfl
@[simp] theorem modCtx_brands (c : Nat) (f : Context → Context) : (s.modCtx c f).brands = s.brands := rfl
@[simp] theorem modCtx_origins (c : Nat) (f : Context → Context) : (s.modCtx c f).origins = s.origins := rfl
@[simp] theorem modCtx_routes (c : Nat) (f : Context → Context) : (s.modCtx c f).routes = s.routes := rfl
@[simp] theorem modCtx_homes (c : Nat) (f : Context → Context) : (s.modCtx c f).homes = s.homes := rfl
@[simp] theorem modCtx_launchOpen (c : Nat) (f : Context → Context) : (s.modCtx c f).launchOpen = s.launchOpen := rfl
@[simp] theorem modCtx_setup (c : Nat) (f : Context → Context) : (s.modCtx c f).setup = s.setup := rfl
@[simp] theorem modCtx_pasts (c : Nat) (f : Context → Context) : (s.modCtx c f).pasts = s.pasts := rfl
@[simp] theorem modCtx_ports (c : Nat) (f : Context → Context) : (s.modCtx c f).ports = s.ports := rfl
@[simp] theorem modCtx_stagingFree (c : Nat) (f : Context → Context) : (s.modCtx c f).stagingFree = s.stagingFree := rfl
@[simp] theorem modCtx_windows (c : Nat) (f : Context → Context) : (s.modCtx c f).windows = s.windows := rfl
@[simp] theorem modCtx_ucies (c : Nat) (f : Context → Context) : (s.modCtx c f).ucies = s.ucies := rfl
@[simp] theorem modCtx_linkHeld (c : Nat) (f : Context → Context) : (s.modCtx c f).linkHeld = s.linkHeld := rfl
@[simp] theorem modCtx_hostHeld (c : Nat) (f : Context → Context) : (s.modCtx c f).hostHeld = s.hostHeld := rfl
@[simp] theorem modCtx_due (c : Nat) (f : Context → Context) : (s.modCtx c f).due = s.due := rfl
@[simp] theorem modCtx_otpKey (c : Nat) (f : Context → Context) : (s.modCtx c f).otpKey = s.otpKey := rfl
@[simp] theorem modCtx_idKey (c : Nat) (f : Context → Context) : (s.modCtx c f).idKey = s.idKey := rfl
@[simp] theorem modCtx_otpLeaf (c : Nat) (f : Context → Context) : (s.modCtx c f).otpLeaf = s.otpLeaf := rfl
@[simp] theorem modCtx_otpLeft (c : Nat) (f : Context → Context) : (s.modCtx c f).otpLeft = s.otpLeft := rfl
@[simp] theorem modCtx_hostFw (c : Nat) (f : Context → Context) : (s.modCtx c f).hostFw = s.hostFw := rfl
@[simp] theorem modCtx_fwFailures (c : Nat) (f : Context → Context) : (s.modCtx c f).fwFailures = s.fwFailures := rfl
@[simp] theorem modCtx_reports (c : Nat) (f : Context → Context) : (s.modCtx c f).reports = s.reports := rfl
@[simp] theorem modCtx_islands (c : Nat) (f : Context → Context) : (s.modCtx c f).islands = s.islands := rfl
@[simp] theorem modCtx_dies (c : Nat) (f : Context → Context) : (s.modCtx c f).dies = s.dies := rfl
@[simp] theorem modCtx_cores (c : Nat) (f : Context → Context) : (s.modCtx c f).cores = s.cores := rfl
@[simp] theorem modCtx_quads (c : Nat) (f : Context → Context) : (s.modCtx c f).quads = s.quads := rfl
@[simp] theorem modCtx_agents (c : Nat) (f : Context → Context) : (s.modCtx c f).agents = s.agents := rfl
@[simp] theorem modCtx_queues (c : Nat) (f : Context → Context) : (s.modCtx c f).queues = s.queues := rfl
@[simp] theorem modCtx_rr (c : Nat) (f : Context → Context) : (s.modCtx c f).rr = s.rr := rfl
@[simp] theorem modCtx_letterboxes (c : Nat) (f : Context → Context) : (s.modCtx c f).letterboxes = s.letterboxes := rfl
@[simp] theorem modCtx_launches (c : Nat) (f : Context → Context) : (s.modCtx c f).launches = s.launches := rfl
@[simp] theorem modCtx_pools (c : Nat) (f : Context → Context) : (s.modCtx c f).pools = s.pools := rfl
@[simp] theorem modCtx_teams (c : Nat) (f : Context → Context) : (s.modCtx c f).teams = s.teams := rfl
@[simp] theorem modCtx_accs (c : Nat) (f : Context → Context) : (s.modCtx c f).accs = s.accs := rfl
@[simp] theorem modCtx_copies (c : Nat) (f : Context → Context) : (s.modCtx c f).copies = s.copies := rfl
@[simp] theorem modCtx_tiles (c : Nat) (f : Context → Context) : (s.modCtx c f).tiles = s.tiles := rfl
@[simp] theorem modCtx_images (c : Nat) (f : Context → Context) : (s.modCtx c f).images = s.images := rfl
@[simp] theorem modCtx_events (c : Nat) (f : Context → Context) : (s.modCtx c f).events = s.events := rfl
@[simp] theorem modCtx_slot (c : Nat) (f : Context → Context) : (s.modCtx c f).slot = s.slot := rfl
@[simp] theorem modCtx_cycle (c : Nat) (f : Context → Context) : (s.modCtx c f).cycle = s.cycle := rfl
@[simp] theorem modCtx_stalled (c : Nat) (f : Context → Context) : (s.modCtx c f).stalled = s.stalled := rfl
@[simp] theorem modCtx_urgent (c : Nat) (f : Context → Context) : (s.modCtx c f).urgent = s.urgent := rfl
@[simp] theorem modCtx_blocked (c : Nat) (f : Context → Context) : (s.modCtx c f).blocked = s.blocked := rfl
@[simp] theorem modCtx_unforeseen (c : Nat) (f : Context → Context) : (s.modCtx c f).unforeseen = s.unforeseen := rfl
@[simp] theorem modCtx_fresh (c : Nat) (f : Context → Context) : (s.modCtx c f).fresh = s.fresh := rfl
@[simp] theorem modCtx_nextId (c : Nat) (f : Context → Context) : (s.modCtx c f).nextId = s.nextId := rfl

/-! `modDie` -/

@[simp] theorem modDie_dies (d : Nat) (f : Die → Die) : (s.modDie d f).dies = s.dies.modify d f := rfl
@[simp] theorem modDie_chip (d : Nat) (f : Die → Die) : (s.modDie d f).chip = s.chip := rfl
@[simp] theorem modDie_mem (d : Nat) (f : Die → Die) : (s.modDie d f).mem = s.mem := rfl
@[simp] theorem modDie_poison (d : Nat) (f : Die → Die) : (s.modDie d f).poison = s.poison := rfl
@[simp] theorem modDie_serial (d : Nat) (f : Die → Die) : (s.modDie d f).serial = s.serial := rfl
@[simp] theorem modDie_boot (d : Nat) (f : Die → Die) : (s.modDie d f).boot = s.boot := rfl
@[simp] theorem modDie_brandSeq (d : Nat) (f : Die → Die) : (s.modDie d f).brandSeq = s.brandSeq := rfl
@[simp] theorem modDie_brandBase (d : Nat) (f : Die → Die) : (s.modDie d f).brandBase = s.brandBase := rfl
@[simp] theorem modDie_brands (d : Nat) (f : Die → Die) : (s.modDie d f).brands = s.brands := rfl
@[simp] theorem modDie_origins (d : Nat) (f : Die → Die) : (s.modDie d f).origins = s.origins := rfl
@[simp] theorem modDie_routes (d : Nat) (f : Die → Die) : (s.modDie d f).routes = s.routes := rfl
@[simp] theorem modDie_homes (d : Nat) (f : Die → Die) : (s.modDie d f).homes = s.homes := rfl
@[simp] theorem modDie_launchOpen (d : Nat) (f : Die → Die) : (s.modDie d f).launchOpen = s.launchOpen := rfl
@[simp] theorem modDie_setup (d : Nat) (f : Die → Die) : (s.modDie d f).setup = s.setup := rfl
@[simp] theorem modDie_pasts (d : Nat) (f : Die → Die) : (s.modDie d f).pasts = s.pasts := rfl
@[simp] theorem modDie_ports (d : Nat) (f : Die → Die) : (s.modDie d f).ports = s.ports := rfl
@[simp] theorem modDie_stagingFree (d : Nat) (f : Die → Die) : (s.modDie d f).stagingFree = s.stagingFree := rfl
@[simp] theorem modDie_windows (d : Nat) (f : Die → Die) : (s.modDie d f).windows = s.windows := rfl
@[simp] theorem modDie_ucies (d : Nat) (f : Die → Die) : (s.modDie d f).ucies = s.ucies := rfl
@[simp] theorem modDie_linkHeld (d : Nat) (f : Die → Die) : (s.modDie d f).linkHeld = s.linkHeld := rfl
@[simp] theorem modDie_hostHeld (d : Nat) (f : Die → Die) : (s.modDie d f).hostHeld = s.hostHeld := rfl
@[simp] theorem modDie_due (d : Nat) (f : Die → Die) : (s.modDie d f).due = s.due := rfl
@[simp] theorem modDie_otpKey (d : Nat) (f : Die → Die) : (s.modDie d f).otpKey = s.otpKey := rfl
@[simp] theorem modDie_idKey (d : Nat) (f : Die → Die) : (s.modDie d f).idKey = s.idKey := rfl
@[simp] theorem modDie_otpLeaf (d : Nat) (f : Die → Die) : (s.modDie d f).otpLeaf = s.otpLeaf := rfl
@[simp] theorem modDie_otpLeft (d : Nat) (f : Die → Die) : (s.modDie d f).otpLeft = s.otpLeft := rfl
@[simp] theorem modDie_hostFw (d : Nat) (f : Die → Die) : (s.modDie d f).hostFw = s.hostFw := rfl
@[simp] theorem modDie_fwFailures (d : Nat) (f : Die → Die) : (s.modDie d f).fwFailures = s.fwFailures := rfl
@[simp] theorem modDie_reports (d : Nat) (f : Die → Die) : (s.modDie d f).reports = s.reports := rfl
@[simp] theorem modDie_islands (d : Nat) (f : Die → Die) : (s.modDie d f).islands = s.islands := rfl
@[simp] theorem modDie_cores (d : Nat) (f : Die → Die) : (s.modDie d f).cores = s.cores := rfl
@[simp] theorem modDie_quads (d : Nat) (f : Die → Die) : (s.modDie d f).quads = s.quads := rfl
@[simp] theorem modDie_agents (d : Nat) (f : Die → Die) : (s.modDie d f).agents = s.agents := rfl
@[simp] theorem modDie_ctxs (d : Nat) (f : Die → Die) : (s.modDie d f).ctxs = s.ctxs := rfl
@[simp] theorem modDie_queues (d : Nat) (f : Die → Die) : (s.modDie d f).queues = s.queues := rfl
@[simp] theorem modDie_rr (d : Nat) (f : Die → Die) : (s.modDie d f).rr = s.rr := rfl
@[simp] theorem modDie_letterboxes (d : Nat) (f : Die → Die) : (s.modDie d f).letterboxes = s.letterboxes := rfl
@[simp] theorem modDie_launches (d : Nat) (f : Die → Die) : (s.modDie d f).launches = s.launches := rfl
@[simp] theorem modDie_pools (d : Nat) (f : Die → Die) : (s.modDie d f).pools = s.pools := rfl
@[simp] theorem modDie_teams (d : Nat) (f : Die → Die) : (s.modDie d f).teams = s.teams := rfl
@[simp] theorem modDie_accs (d : Nat) (f : Die → Die) : (s.modDie d f).accs = s.accs := rfl
@[simp] theorem modDie_copies (d : Nat) (f : Die → Die) : (s.modDie d f).copies = s.copies := rfl
@[simp] theorem modDie_tiles (d : Nat) (f : Die → Die) : (s.modDie d f).tiles = s.tiles := rfl
@[simp] theorem modDie_images (d : Nat) (f : Die → Die) : (s.modDie d f).images = s.images := rfl
@[simp] theorem modDie_events (d : Nat) (f : Die → Die) : (s.modDie d f).events = s.events := rfl
@[simp] theorem modDie_slot (d : Nat) (f : Die → Die) : (s.modDie d f).slot = s.slot := rfl
@[simp] theorem modDie_cycle (d : Nat) (f : Die → Die) : (s.modDie d f).cycle = s.cycle := rfl
@[simp] theorem modDie_stalled (d : Nat) (f : Die → Die) : (s.modDie d f).stalled = s.stalled := rfl
@[simp] theorem modDie_urgent (d : Nat) (f : Die → Die) : (s.modDie d f).urgent = s.urgent := rfl
@[simp] theorem modDie_blocked (d : Nat) (f : Die → Die) : (s.modDie d f).blocked = s.blocked := rfl
@[simp] theorem modDie_unforeseen (d : Nat) (f : Die → Die) : (s.modDie d f).unforeseen = s.unforeseen := rfl
@[simp] theorem modDie_fresh (d : Nat) (f : Die → Die) : (s.modDie d f).fresh = s.fresh := rfl
@[simp] theorem modDie_nextId (d : Nat) (f : Die → Die) : (s.modDie d f).nextId = s.nextId := rfl

/-! `modCore` -/

@[simp] theorem modCore_cores (n : Nat) (f : CoreSt → CoreSt) : (s.modCore n f).cores = setKey n (f (s.core n)) s.cores := rfl
@[simp] theorem modCore_chip (n : Nat) (f : CoreSt → CoreSt) : (s.modCore n f).chip = s.chip := rfl
@[simp] theorem modCore_mem (n : Nat) (f : CoreSt → CoreSt) : (s.modCore n f).mem = s.mem := rfl
@[simp] theorem modCore_poison (n : Nat) (f : CoreSt → CoreSt) : (s.modCore n f).poison = s.poison := rfl
@[simp] theorem modCore_serial (n : Nat) (f : CoreSt → CoreSt) : (s.modCore n f).serial = s.serial := rfl
@[simp] theorem modCore_boot (n : Nat) (f : CoreSt → CoreSt) : (s.modCore n f).boot = s.boot := rfl
@[simp] theorem modCore_brandSeq (n : Nat) (f : CoreSt → CoreSt) : (s.modCore n f).brandSeq = s.brandSeq := rfl
@[simp] theorem modCore_brandBase (n : Nat) (f : CoreSt → CoreSt) : (s.modCore n f).brandBase = s.brandBase := rfl
@[simp] theorem modCore_brands (n : Nat) (f : CoreSt → CoreSt) : (s.modCore n f).brands = s.brands := rfl
@[simp] theorem modCore_origins (n : Nat) (f : CoreSt → CoreSt) : (s.modCore n f).origins = s.origins := rfl
@[simp] theorem modCore_routes (n : Nat) (f : CoreSt → CoreSt) : (s.modCore n f).routes = s.routes := rfl
@[simp] theorem modCore_homes (n : Nat) (f : CoreSt → CoreSt) : (s.modCore n f).homes = s.homes := rfl
@[simp] theorem modCore_launchOpen (n : Nat) (f : CoreSt → CoreSt) : (s.modCore n f).launchOpen = s.launchOpen := rfl
@[simp] theorem modCore_setup (n : Nat) (f : CoreSt → CoreSt) : (s.modCore n f).setup = s.setup := rfl
@[simp] theorem modCore_pasts (n : Nat) (f : CoreSt → CoreSt) : (s.modCore n f).pasts = s.pasts := rfl
@[simp] theorem modCore_ports (n : Nat) (f : CoreSt → CoreSt) : (s.modCore n f).ports = s.ports := rfl
@[simp] theorem modCore_stagingFree (n : Nat) (f : CoreSt → CoreSt) : (s.modCore n f).stagingFree = s.stagingFree := rfl
@[simp] theorem modCore_windows (n : Nat) (f : CoreSt → CoreSt) : (s.modCore n f).windows = s.windows := rfl
@[simp] theorem modCore_ucies (n : Nat) (f : CoreSt → CoreSt) : (s.modCore n f).ucies = s.ucies := rfl
@[simp] theorem modCore_linkHeld (n : Nat) (f : CoreSt → CoreSt) : (s.modCore n f).linkHeld = s.linkHeld := rfl
@[simp] theorem modCore_hostHeld (n : Nat) (f : CoreSt → CoreSt) : (s.modCore n f).hostHeld = s.hostHeld := rfl
@[simp] theorem modCore_due (n : Nat) (f : CoreSt → CoreSt) : (s.modCore n f).due = s.due := rfl
@[simp] theorem modCore_otpKey (n : Nat) (f : CoreSt → CoreSt) : (s.modCore n f).otpKey = s.otpKey := rfl
@[simp] theorem modCore_idKey (n : Nat) (f : CoreSt → CoreSt) : (s.modCore n f).idKey = s.idKey := rfl
@[simp] theorem modCore_otpLeaf (n : Nat) (f : CoreSt → CoreSt) : (s.modCore n f).otpLeaf = s.otpLeaf := rfl
@[simp] theorem modCore_otpLeft (n : Nat) (f : CoreSt → CoreSt) : (s.modCore n f).otpLeft = s.otpLeft := rfl
@[simp] theorem modCore_hostFw (n : Nat) (f : CoreSt → CoreSt) : (s.modCore n f).hostFw = s.hostFw := rfl
@[simp] theorem modCore_fwFailures (n : Nat) (f : CoreSt → CoreSt) : (s.modCore n f).fwFailures = s.fwFailures := rfl
@[simp] theorem modCore_reports (n : Nat) (f : CoreSt → CoreSt) : (s.modCore n f).reports = s.reports := rfl
@[simp] theorem modCore_islands (n : Nat) (f : CoreSt → CoreSt) : (s.modCore n f).islands = s.islands := rfl
@[simp] theorem modCore_dies (n : Nat) (f : CoreSt → CoreSt) : (s.modCore n f).dies = s.dies := rfl
@[simp] theorem modCore_quads (n : Nat) (f : CoreSt → CoreSt) : (s.modCore n f).quads = s.quads := rfl
@[simp] theorem modCore_agents (n : Nat) (f : CoreSt → CoreSt) : (s.modCore n f).agents = s.agents := rfl
@[simp] theorem modCore_ctxs (n : Nat) (f : CoreSt → CoreSt) : (s.modCore n f).ctxs = s.ctxs := rfl
@[simp] theorem modCore_queues (n : Nat) (f : CoreSt → CoreSt) : (s.modCore n f).queues = s.queues := rfl
@[simp] theorem modCore_rr (n : Nat) (f : CoreSt → CoreSt) : (s.modCore n f).rr = s.rr := rfl
@[simp] theorem modCore_letterboxes (n : Nat) (f : CoreSt → CoreSt) : (s.modCore n f).letterboxes = s.letterboxes := rfl
@[simp] theorem modCore_launches (n : Nat) (f : CoreSt → CoreSt) : (s.modCore n f).launches = s.launches := rfl
@[simp] theorem modCore_pools (n : Nat) (f : CoreSt → CoreSt) : (s.modCore n f).pools = s.pools := rfl
@[simp] theorem modCore_teams (n : Nat) (f : CoreSt → CoreSt) : (s.modCore n f).teams = s.teams := rfl
@[simp] theorem modCore_accs (n : Nat) (f : CoreSt → CoreSt) : (s.modCore n f).accs = s.accs := rfl
@[simp] theorem modCore_copies (n : Nat) (f : CoreSt → CoreSt) : (s.modCore n f).copies = s.copies := rfl
@[simp] theorem modCore_tiles (n : Nat) (f : CoreSt → CoreSt) : (s.modCore n f).tiles = s.tiles := rfl
@[simp] theorem modCore_images (n : Nat) (f : CoreSt → CoreSt) : (s.modCore n f).images = s.images := rfl
@[simp] theorem modCore_events (n : Nat) (f : CoreSt → CoreSt) : (s.modCore n f).events = s.events := rfl
@[simp] theorem modCore_slot (n : Nat) (f : CoreSt → CoreSt) : (s.modCore n f).slot = s.slot := rfl
@[simp] theorem modCore_cycle (n : Nat) (f : CoreSt → CoreSt) : (s.modCore n f).cycle = s.cycle := rfl
@[simp] theorem modCore_stalled (n : Nat) (f : CoreSt → CoreSt) : (s.modCore n f).stalled = s.stalled := rfl
@[simp] theorem modCore_urgent (n : Nat) (f : CoreSt → CoreSt) : (s.modCore n f).urgent = s.urgent := rfl
@[simp] theorem modCore_blocked (n : Nat) (f : CoreSt → CoreSt) : (s.modCore n f).blocked = s.blocked := rfl
@[simp] theorem modCore_unforeseen (n : Nat) (f : CoreSt → CoreSt) : (s.modCore n f).unforeseen = s.unforeseen := rfl
@[simp] theorem modCore_fresh (n : Nat) (f : CoreSt → CoreSt) : (s.modCore n f).fresh = s.fresh := rfl
@[simp] theorem modCore_nextId (n : Nat) (f : CoreSt → CoreSt) : (s.modCore n f).nextId = s.nextId := rfl

/-! `modQuad` -/

@[simp] theorem modQuad_quads (n : Nat) (f : Quad → Quad) : (s.modQuad n f).quads = setKey n (f (s.quad n)) s.quads := rfl
@[simp] theorem modQuad_chip (n : Nat) (f : Quad → Quad) : (s.modQuad n f).chip = s.chip := rfl
@[simp] theorem modQuad_mem (n : Nat) (f : Quad → Quad) : (s.modQuad n f).mem = s.mem := rfl
@[simp] theorem modQuad_poison (n : Nat) (f : Quad → Quad) : (s.modQuad n f).poison = s.poison := rfl
@[simp] theorem modQuad_serial (n : Nat) (f : Quad → Quad) : (s.modQuad n f).serial = s.serial := rfl
@[simp] theorem modQuad_boot (n : Nat) (f : Quad → Quad) : (s.modQuad n f).boot = s.boot := rfl
@[simp] theorem modQuad_brandSeq (n : Nat) (f : Quad → Quad) : (s.modQuad n f).brandSeq = s.brandSeq := rfl
@[simp] theorem modQuad_brandBase (n : Nat) (f : Quad → Quad) : (s.modQuad n f).brandBase = s.brandBase := rfl
@[simp] theorem modQuad_brands (n : Nat) (f : Quad → Quad) : (s.modQuad n f).brands = s.brands := rfl
@[simp] theorem modQuad_origins (n : Nat) (f : Quad → Quad) : (s.modQuad n f).origins = s.origins := rfl
@[simp] theorem modQuad_routes (n : Nat) (f : Quad → Quad) : (s.modQuad n f).routes = s.routes := rfl
@[simp] theorem modQuad_homes (n : Nat) (f : Quad → Quad) : (s.modQuad n f).homes = s.homes := rfl
@[simp] theorem modQuad_launchOpen (n : Nat) (f : Quad → Quad) : (s.modQuad n f).launchOpen = s.launchOpen := rfl
@[simp] theorem modQuad_setup (n : Nat) (f : Quad → Quad) : (s.modQuad n f).setup = s.setup := rfl
@[simp] theorem modQuad_pasts (n : Nat) (f : Quad → Quad) : (s.modQuad n f).pasts = s.pasts := rfl
@[simp] theorem modQuad_ports (n : Nat) (f : Quad → Quad) : (s.modQuad n f).ports = s.ports := rfl
@[simp] theorem modQuad_stagingFree (n : Nat) (f : Quad → Quad) : (s.modQuad n f).stagingFree = s.stagingFree := rfl
@[simp] theorem modQuad_windows (n : Nat) (f : Quad → Quad) : (s.modQuad n f).windows = s.windows := rfl
@[simp] theorem modQuad_ucies (n : Nat) (f : Quad → Quad) : (s.modQuad n f).ucies = s.ucies := rfl
@[simp] theorem modQuad_linkHeld (n : Nat) (f : Quad → Quad) : (s.modQuad n f).linkHeld = s.linkHeld := rfl
@[simp] theorem modQuad_hostHeld (n : Nat) (f : Quad → Quad) : (s.modQuad n f).hostHeld = s.hostHeld := rfl
@[simp] theorem modQuad_due (n : Nat) (f : Quad → Quad) : (s.modQuad n f).due = s.due := rfl
@[simp] theorem modQuad_otpKey (n : Nat) (f : Quad → Quad) : (s.modQuad n f).otpKey = s.otpKey := rfl
@[simp] theorem modQuad_idKey (n : Nat) (f : Quad → Quad) : (s.modQuad n f).idKey = s.idKey := rfl
@[simp] theorem modQuad_otpLeaf (n : Nat) (f : Quad → Quad) : (s.modQuad n f).otpLeaf = s.otpLeaf := rfl
@[simp] theorem modQuad_otpLeft (n : Nat) (f : Quad → Quad) : (s.modQuad n f).otpLeft = s.otpLeft := rfl
@[simp] theorem modQuad_hostFw (n : Nat) (f : Quad → Quad) : (s.modQuad n f).hostFw = s.hostFw := rfl
@[simp] theorem modQuad_fwFailures (n : Nat) (f : Quad → Quad) : (s.modQuad n f).fwFailures = s.fwFailures := rfl
@[simp] theorem modQuad_reports (n : Nat) (f : Quad → Quad) : (s.modQuad n f).reports = s.reports := rfl
@[simp] theorem modQuad_islands (n : Nat) (f : Quad → Quad) : (s.modQuad n f).islands = s.islands := rfl
@[simp] theorem modQuad_dies (n : Nat) (f : Quad → Quad) : (s.modQuad n f).dies = s.dies := rfl
@[simp] theorem modQuad_cores (n : Nat) (f : Quad → Quad) : (s.modQuad n f).cores = s.cores := rfl
@[simp] theorem modQuad_agents (n : Nat) (f : Quad → Quad) : (s.modQuad n f).agents = s.agents := rfl
@[simp] theorem modQuad_ctxs (n : Nat) (f : Quad → Quad) : (s.modQuad n f).ctxs = s.ctxs := rfl
@[simp] theorem modQuad_queues (n : Nat) (f : Quad → Quad) : (s.modQuad n f).queues = s.queues := rfl
@[simp] theorem modQuad_rr (n : Nat) (f : Quad → Quad) : (s.modQuad n f).rr = s.rr := rfl
@[simp] theorem modQuad_letterboxes (n : Nat) (f : Quad → Quad) : (s.modQuad n f).letterboxes = s.letterboxes := rfl
@[simp] theorem modQuad_launches (n : Nat) (f : Quad → Quad) : (s.modQuad n f).launches = s.launches := rfl
@[simp] theorem modQuad_pools (n : Nat) (f : Quad → Quad) : (s.modQuad n f).pools = s.pools := rfl
@[simp] theorem modQuad_teams (n : Nat) (f : Quad → Quad) : (s.modQuad n f).teams = s.teams := rfl
@[simp] theorem modQuad_accs (n : Nat) (f : Quad → Quad) : (s.modQuad n f).accs = s.accs := rfl
@[simp] theorem modQuad_copies (n : Nat) (f : Quad → Quad) : (s.modQuad n f).copies = s.copies := rfl
@[simp] theorem modQuad_tiles (n : Nat) (f : Quad → Quad) : (s.modQuad n f).tiles = s.tiles := rfl
@[simp] theorem modQuad_images (n : Nat) (f : Quad → Quad) : (s.modQuad n f).images = s.images := rfl
@[simp] theorem modQuad_events (n : Nat) (f : Quad → Quad) : (s.modQuad n f).events = s.events := rfl
@[simp] theorem modQuad_slot (n : Nat) (f : Quad → Quad) : (s.modQuad n f).slot = s.slot := rfl
@[simp] theorem modQuad_cycle (n : Nat) (f : Quad → Quad) : (s.modQuad n f).cycle = s.cycle := rfl
@[simp] theorem modQuad_stalled (n : Nat) (f : Quad → Quad) : (s.modQuad n f).stalled = s.stalled := rfl
@[simp] theorem modQuad_urgent (n : Nat) (f : Quad → Quad) : (s.modQuad n f).urgent = s.urgent := rfl
@[simp] theorem modQuad_blocked (n : Nat) (f : Quad → Quad) : (s.modQuad n f).blocked = s.blocked := rfl
@[simp] theorem modQuad_unforeseen (n : Nat) (f : Quad → Quad) : (s.modQuad n f).unforeseen = s.unforeseen := rfl
@[simp] theorem modQuad_fresh (n : Nat) (f : Quad → Quad) : (s.modQuad n f).fresh = s.fresh := rfl
@[simp] theorem modQuad_nextId (n : Nat) (f : Quad → Quad) : (s.modQuad n f).nextId = s.nextId := rfl

/-! `modAgent` -/

@[simp] theorem modAgent_agents (n : Nat) (f : Agent → Agent) : (s.modAgent n f).agents = s.agents.modify n f := rfl
@[simp] theorem modAgent_chip (n : Nat) (f : Agent → Agent) : (s.modAgent n f).chip = s.chip := rfl
@[simp] theorem modAgent_mem (n : Nat) (f : Agent → Agent) : (s.modAgent n f).mem = s.mem := rfl
@[simp] theorem modAgent_poison (n : Nat) (f : Agent → Agent) : (s.modAgent n f).poison = s.poison := rfl
@[simp] theorem modAgent_serial (n : Nat) (f : Agent → Agent) : (s.modAgent n f).serial = s.serial := rfl
@[simp] theorem modAgent_boot (n : Nat) (f : Agent → Agent) : (s.modAgent n f).boot = s.boot := rfl
@[simp] theorem modAgent_brandSeq (n : Nat) (f : Agent → Agent) : (s.modAgent n f).brandSeq = s.brandSeq := rfl
@[simp] theorem modAgent_brandBase (n : Nat) (f : Agent → Agent) : (s.modAgent n f).brandBase = s.brandBase := rfl
@[simp] theorem modAgent_brands (n : Nat) (f : Agent → Agent) : (s.modAgent n f).brands = s.brands := rfl
@[simp] theorem modAgent_origins (n : Nat) (f : Agent → Agent) : (s.modAgent n f).origins = s.origins := rfl
@[simp] theorem modAgent_routes (n : Nat) (f : Agent → Agent) : (s.modAgent n f).routes = s.routes := rfl
@[simp] theorem modAgent_homes (n : Nat) (f : Agent → Agent) : (s.modAgent n f).homes = s.homes := rfl
@[simp] theorem modAgent_launchOpen (n : Nat) (f : Agent → Agent) : (s.modAgent n f).launchOpen = s.launchOpen := rfl
@[simp] theorem modAgent_setup (n : Nat) (f : Agent → Agent) : (s.modAgent n f).setup = s.setup := rfl
@[simp] theorem modAgent_pasts (n : Nat) (f : Agent → Agent) : (s.modAgent n f).pasts = s.pasts := rfl
@[simp] theorem modAgent_ports (n : Nat) (f : Agent → Agent) : (s.modAgent n f).ports = s.ports := rfl
@[simp] theorem modAgent_stagingFree (n : Nat) (f : Agent → Agent) : (s.modAgent n f).stagingFree = s.stagingFree := rfl
@[simp] theorem modAgent_windows (n : Nat) (f : Agent → Agent) : (s.modAgent n f).windows = s.windows := rfl
@[simp] theorem modAgent_ucies (n : Nat) (f : Agent → Agent) : (s.modAgent n f).ucies = s.ucies := rfl
@[simp] theorem modAgent_linkHeld (n : Nat) (f : Agent → Agent) : (s.modAgent n f).linkHeld = s.linkHeld := rfl
@[simp] theorem modAgent_hostHeld (n : Nat) (f : Agent → Agent) : (s.modAgent n f).hostHeld = s.hostHeld := rfl
@[simp] theorem modAgent_due (n : Nat) (f : Agent → Agent) : (s.modAgent n f).due = s.due := rfl
@[simp] theorem modAgent_otpKey (n : Nat) (f : Agent → Agent) : (s.modAgent n f).otpKey = s.otpKey := rfl
@[simp] theorem modAgent_idKey (n : Nat) (f : Agent → Agent) : (s.modAgent n f).idKey = s.idKey := rfl
@[simp] theorem modAgent_otpLeaf (n : Nat) (f : Agent → Agent) : (s.modAgent n f).otpLeaf = s.otpLeaf := rfl
@[simp] theorem modAgent_otpLeft (n : Nat) (f : Agent → Agent) : (s.modAgent n f).otpLeft = s.otpLeft := rfl
@[simp] theorem modAgent_hostFw (n : Nat) (f : Agent → Agent) : (s.modAgent n f).hostFw = s.hostFw := rfl
@[simp] theorem modAgent_fwFailures (n : Nat) (f : Agent → Agent) : (s.modAgent n f).fwFailures = s.fwFailures := rfl
@[simp] theorem modAgent_reports (n : Nat) (f : Agent → Agent) : (s.modAgent n f).reports = s.reports := rfl
@[simp] theorem modAgent_islands (n : Nat) (f : Agent → Agent) : (s.modAgent n f).islands = s.islands := rfl
@[simp] theorem modAgent_dies (n : Nat) (f : Agent → Agent) : (s.modAgent n f).dies = s.dies := rfl
@[simp] theorem modAgent_cores (n : Nat) (f : Agent → Agent) : (s.modAgent n f).cores = s.cores := rfl
@[simp] theorem modAgent_quads (n : Nat) (f : Agent → Agent) : (s.modAgent n f).quads = s.quads := rfl
@[simp] theorem modAgent_ctxs (n : Nat) (f : Agent → Agent) : (s.modAgent n f).ctxs = s.ctxs := rfl
@[simp] theorem modAgent_queues (n : Nat) (f : Agent → Agent) : (s.modAgent n f).queues = s.queues := rfl
@[simp] theorem modAgent_rr (n : Nat) (f : Agent → Agent) : (s.modAgent n f).rr = s.rr := rfl
@[simp] theorem modAgent_letterboxes (n : Nat) (f : Agent → Agent) : (s.modAgent n f).letterboxes = s.letterboxes := rfl
@[simp] theorem modAgent_launches (n : Nat) (f : Agent → Agent) : (s.modAgent n f).launches = s.launches := rfl
@[simp] theorem modAgent_pools (n : Nat) (f : Agent → Agent) : (s.modAgent n f).pools = s.pools := rfl
@[simp] theorem modAgent_teams (n : Nat) (f : Agent → Agent) : (s.modAgent n f).teams = s.teams := rfl
@[simp] theorem modAgent_accs (n : Nat) (f : Agent → Agent) : (s.modAgent n f).accs = s.accs := rfl
@[simp] theorem modAgent_copies (n : Nat) (f : Agent → Agent) : (s.modAgent n f).copies = s.copies := rfl
@[simp] theorem modAgent_tiles (n : Nat) (f : Agent → Agent) : (s.modAgent n f).tiles = s.tiles := rfl
@[simp] theorem modAgent_images (n : Nat) (f : Agent → Agent) : (s.modAgent n f).images = s.images := rfl
@[simp] theorem modAgent_events (n : Nat) (f : Agent → Agent) : (s.modAgent n f).events = s.events := rfl
@[simp] theorem modAgent_slot (n : Nat) (f : Agent → Agent) : (s.modAgent n f).slot = s.slot := rfl
@[simp] theorem modAgent_cycle (n : Nat) (f : Agent → Agent) : (s.modAgent n f).cycle = s.cycle := rfl
@[simp] theorem modAgent_stalled (n : Nat) (f : Agent → Agent) : (s.modAgent n f).stalled = s.stalled := rfl
@[simp] theorem modAgent_urgent (n : Nat) (f : Agent → Agent) : (s.modAgent n f).urgent = s.urgent := rfl
@[simp] theorem modAgent_blocked (n : Nat) (f : Agent → Agent) : (s.modAgent n f).blocked = s.blocked := rfl
@[simp] theorem modAgent_unforeseen (n : Nat) (f : Agent → Agent) : (s.modAgent n f).unforeseen = s.unforeseen := rfl
@[simp] theorem modAgent_fresh (n : Nat) (f : Agent → Agent) : (s.modAgent n f).fresh = s.fresh := rfl
@[simp] theorem modAgent_nextId (n : Nat) (f : Agent → Agent) : (s.modAgent n f).nextId = s.nextId := rfl

/-! `modPort` -/

@[simp] theorem modPort_ports (n : Nat) (f : Port → Port) : (s.modPort n f).ports = s.ports.modify n f := rfl
@[simp] theorem modPort_chip (n : Nat) (f : Port → Port) : (s.modPort n f).chip = s.chip := rfl
@[simp] theorem modPort_mem (n : Nat) (f : Port → Port) : (s.modPort n f).mem = s.mem := rfl
@[simp] theorem modPort_poison (n : Nat) (f : Port → Port) : (s.modPort n f).poison = s.poison := rfl
@[simp] theorem modPort_serial (n : Nat) (f : Port → Port) : (s.modPort n f).serial = s.serial := rfl
@[simp] theorem modPort_boot (n : Nat) (f : Port → Port) : (s.modPort n f).boot = s.boot := rfl
@[simp] theorem modPort_brandSeq (n : Nat) (f : Port → Port) : (s.modPort n f).brandSeq = s.brandSeq := rfl
@[simp] theorem modPort_brandBase (n : Nat) (f : Port → Port) : (s.modPort n f).brandBase = s.brandBase := rfl
@[simp] theorem modPort_brands (n : Nat) (f : Port → Port) : (s.modPort n f).brands = s.brands := rfl
@[simp] theorem modPort_origins (n : Nat) (f : Port → Port) : (s.modPort n f).origins = s.origins := rfl
@[simp] theorem modPort_routes (n : Nat) (f : Port → Port) : (s.modPort n f).routes = s.routes := rfl
@[simp] theorem modPort_homes (n : Nat) (f : Port → Port) : (s.modPort n f).homes = s.homes := rfl
@[simp] theorem modPort_launchOpen (n : Nat) (f : Port → Port) : (s.modPort n f).launchOpen = s.launchOpen := rfl
@[simp] theorem modPort_setup (n : Nat) (f : Port → Port) : (s.modPort n f).setup = s.setup := rfl
@[simp] theorem modPort_pasts (n : Nat) (f : Port → Port) : (s.modPort n f).pasts = s.pasts := rfl
@[simp] theorem modPort_stagingFree (n : Nat) (f : Port → Port) : (s.modPort n f).stagingFree = s.stagingFree := rfl
@[simp] theorem modPort_windows (n : Nat) (f : Port → Port) : (s.modPort n f).windows = s.windows := rfl
@[simp] theorem modPort_ucies (n : Nat) (f : Port → Port) : (s.modPort n f).ucies = s.ucies := rfl
@[simp] theorem modPort_linkHeld (n : Nat) (f : Port → Port) : (s.modPort n f).linkHeld = s.linkHeld := rfl
@[simp] theorem modPort_hostHeld (n : Nat) (f : Port → Port) : (s.modPort n f).hostHeld = s.hostHeld := rfl
@[simp] theorem modPort_due (n : Nat) (f : Port → Port) : (s.modPort n f).due = s.due := rfl
@[simp] theorem modPort_otpKey (n : Nat) (f : Port → Port) : (s.modPort n f).otpKey = s.otpKey := rfl
@[simp] theorem modPort_idKey (n : Nat) (f : Port → Port) : (s.modPort n f).idKey = s.idKey := rfl
@[simp] theorem modPort_otpLeaf (n : Nat) (f : Port → Port) : (s.modPort n f).otpLeaf = s.otpLeaf := rfl
@[simp] theorem modPort_otpLeft (n : Nat) (f : Port → Port) : (s.modPort n f).otpLeft = s.otpLeft := rfl
@[simp] theorem modPort_hostFw (n : Nat) (f : Port → Port) : (s.modPort n f).hostFw = s.hostFw := rfl
@[simp] theorem modPort_fwFailures (n : Nat) (f : Port → Port) : (s.modPort n f).fwFailures = s.fwFailures := rfl
@[simp] theorem modPort_reports (n : Nat) (f : Port → Port) : (s.modPort n f).reports = s.reports := rfl
@[simp] theorem modPort_islands (n : Nat) (f : Port → Port) : (s.modPort n f).islands = s.islands := rfl
@[simp] theorem modPort_dies (n : Nat) (f : Port → Port) : (s.modPort n f).dies = s.dies := rfl
@[simp] theorem modPort_cores (n : Nat) (f : Port → Port) : (s.modPort n f).cores = s.cores := rfl
@[simp] theorem modPort_quads (n : Nat) (f : Port → Port) : (s.modPort n f).quads = s.quads := rfl
@[simp] theorem modPort_agents (n : Nat) (f : Port → Port) : (s.modPort n f).agents = s.agents := rfl
@[simp] theorem modPort_ctxs (n : Nat) (f : Port → Port) : (s.modPort n f).ctxs = s.ctxs := rfl
@[simp] theorem modPort_queues (n : Nat) (f : Port → Port) : (s.modPort n f).queues = s.queues := rfl
@[simp] theorem modPort_rr (n : Nat) (f : Port → Port) : (s.modPort n f).rr = s.rr := rfl
@[simp] theorem modPort_letterboxes (n : Nat) (f : Port → Port) : (s.modPort n f).letterboxes = s.letterboxes := rfl
@[simp] theorem modPort_launches (n : Nat) (f : Port → Port) : (s.modPort n f).launches = s.launches := rfl
@[simp] theorem modPort_pools (n : Nat) (f : Port → Port) : (s.modPort n f).pools = s.pools := rfl
@[simp] theorem modPort_teams (n : Nat) (f : Port → Port) : (s.modPort n f).teams = s.teams := rfl
@[simp] theorem modPort_accs (n : Nat) (f : Port → Port) : (s.modPort n f).accs = s.accs := rfl
@[simp] theorem modPort_copies (n : Nat) (f : Port → Port) : (s.modPort n f).copies = s.copies := rfl
@[simp] theorem modPort_tiles (n : Nat) (f : Port → Port) : (s.modPort n f).tiles = s.tiles := rfl
@[simp] theorem modPort_images (n : Nat) (f : Port → Port) : (s.modPort n f).images = s.images := rfl
@[simp] theorem modPort_events (n : Nat) (f : Port → Port) : (s.modPort n f).events = s.events := rfl
@[simp] theorem modPort_slot (n : Nat) (f : Port → Port) : (s.modPort n f).slot = s.slot := rfl
@[simp] theorem modPort_cycle (n : Nat) (f : Port → Port) : (s.modPort n f).cycle = s.cycle := rfl
@[simp] theorem modPort_stalled (n : Nat) (f : Port → Port) : (s.modPort n f).stalled = s.stalled := rfl
@[simp] theorem modPort_urgent (n : Nat) (f : Port → Port) : (s.modPort n f).urgent = s.urgent := rfl
@[simp] theorem modPort_blocked (n : Nat) (f : Port → Port) : (s.modPort n f).blocked = s.blocked := rfl
@[simp] theorem modPort_unforeseen (n : Nat) (f : Port → Port) : (s.modPort n f).unforeseen = s.unforeseen := rfl
@[simp] theorem modPort_fresh (n : Nat) (f : Port → Port) : (s.modPort n f).fresh = s.fresh := rfl
@[simp] theorem modPort_nextId (n : Nat) (f : Port → Port) : (s.modPort n f).nextId = s.nextId := rfl

/-! `modQueue` -/

@[simp] theorem modQueue_queues (q : Nat) (f : Queue → Queue) : (s.modQueue q f).queues = modWhere (·.q == q) f s.queues := rfl
@[simp] theorem modQueue_chip (q : Nat) (f : Queue → Queue) : (s.modQueue q f).chip = s.chip := rfl
@[simp] theorem modQueue_mem (q : Nat) (f : Queue → Queue) : (s.modQueue q f).mem = s.mem := rfl
@[simp] theorem modQueue_poison (q : Nat) (f : Queue → Queue) : (s.modQueue q f).poison = s.poison := rfl
@[simp] theorem modQueue_serial (q : Nat) (f : Queue → Queue) : (s.modQueue q f).serial = s.serial := rfl
@[simp] theorem modQueue_boot (q : Nat) (f : Queue → Queue) : (s.modQueue q f).boot = s.boot := rfl
@[simp] theorem modQueue_brandSeq (q : Nat) (f : Queue → Queue) : (s.modQueue q f).brandSeq = s.brandSeq := rfl
@[simp] theorem modQueue_brandBase (q : Nat) (f : Queue → Queue) : (s.modQueue q f).brandBase = s.brandBase := rfl
@[simp] theorem modQueue_brands (q : Nat) (f : Queue → Queue) : (s.modQueue q f).brands = s.brands := rfl
@[simp] theorem modQueue_origins (q : Nat) (f : Queue → Queue) : (s.modQueue q f).origins = s.origins := rfl
@[simp] theorem modQueue_routes (q : Nat) (f : Queue → Queue) : (s.modQueue q f).routes = s.routes := rfl
@[simp] theorem modQueue_homes (q : Nat) (f : Queue → Queue) : (s.modQueue q f).homes = s.homes := rfl
@[simp] theorem modQueue_launchOpen (q : Nat) (f : Queue → Queue) : (s.modQueue q f).launchOpen = s.launchOpen := rfl
@[simp] theorem modQueue_setup (q : Nat) (f : Queue → Queue) : (s.modQueue q f).setup = s.setup := rfl
@[simp] theorem modQueue_pasts (q : Nat) (f : Queue → Queue) : (s.modQueue q f).pasts = s.pasts := rfl
@[simp] theorem modQueue_ports (q : Nat) (f : Queue → Queue) : (s.modQueue q f).ports = s.ports := rfl
@[simp] theorem modQueue_stagingFree (q : Nat) (f : Queue → Queue) : (s.modQueue q f).stagingFree = s.stagingFree := rfl
@[simp] theorem modQueue_windows (q : Nat) (f : Queue → Queue) : (s.modQueue q f).windows = s.windows := rfl
@[simp] theorem modQueue_ucies (q : Nat) (f : Queue → Queue) : (s.modQueue q f).ucies = s.ucies := rfl
@[simp] theorem modQueue_linkHeld (q : Nat) (f : Queue → Queue) : (s.modQueue q f).linkHeld = s.linkHeld := rfl
@[simp] theorem modQueue_hostHeld (q : Nat) (f : Queue → Queue) : (s.modQueue q f).hostHeld = s.hostHeld := rfl
@[simp] theorem modQueue_due (q : Nat) (f : Queue → Queue) : (s.modQueue q f).due = s.due := rfl
@[simp] theorem modQueue_otpKey (q : Nat) (f : Queue → Queue) : (s.modQueue q f).otpKey = s.otpKey := rfl
@[simp] theorem modQueue_idKey (q : Nat) (f : Queue → Queue) : (s.modQueue q f).idKey = s.idKey := rfl
@[simp] theorem modQueue_otpLeaf (q : Nat) (f : Queue → Queue) : (s.modQueue q f).otpLeaf = s.otpLeaf := rfl
@[simp] theorem modQueue_otpLeft (q : Nat) (f : Queue → Queue) : (s.modQueue q f).otpLeft = s.otpLeft := rfl
@[simp] theorem modQueue_hostFw (q : Nat) (f : Queue → Queue) : (s.modQueue q f).hostFw = s.hostFw := rfl
@[simp] theorem modQueue_fwFailures (q : Nat) (f : Queue → Queue) : (s.modQueue q f).fwFailures = s.fwFailures := rfl
@[simp] theorem modQueue_reports (q : Nat) (f : Queue → Queue) : (s.modQueue q f).reports = s.reports := rfl
@[simp] theorem modQueue_islands (q : Nat) (f : Queue → Queue) : (s.modQueue q f).islands = s.islands := rfl
@[simp] theorem modQueue_dies (q : Nat) (f : Queue → Queue) : (s.modQueue q f).dies = s.dies := rfl
@[simp] theorem modQueue_cores (q : Nat) (f : Queue → Queue) : (s.modQueue q f).cores = s.cores := rfl
@[simp] theorem modQueue_quads (q : Nat) (f : Queue → Queue) : (s.modQueue q f).quads = s.quads := rfl
@[simp] theorem modQueue_agents (q : Nat) (f : Queue → Queue) : (s.modQueue q f).agents = s.agents := rfl
@[simp] theorem modQueue_ctxs (q : Nat) (f : Queue → Queue) : (s.modQueue q f).ctxs = s.ctxs := rfl
@[simp] theorem modQueue_rr (q : Nat) (f : Queue → Queue) : (s.modQueue q f).rr = s.rr := rfl
@[simp] theorem modQueue_letterboxes (q : Nat) (f : Queue → Queue) : (s.modQueue q f).letterboxes = s.letterboxes := rfl
@[simp] theorem modQueue_launches (q : Nat) (f : Queue → Queue) : (s.modQueue q f).launches = s.launches := rfl
@[simp] theorem modQueue_pools (q : Nat) (f : Queue → Queue) : (s.modQueue q f).pools = s.pools := rfl
@[simp] theorem modQueue_teams (q : Nat) (f : Queue → Queue) : (s.modQueue q f).teams = s.teams := rfl
@[simp] theorem modQueue_accs (q : Nat) (f : Queue → Queue) : (s.modQueue q f).accs = s.accs := rfl
@[simp] theorem modQueue_copies (q : Nat) (f : Queue → Queue) : (s.modQueue q f).copies = s.copies := rfl
@[simp] theorem modQueue_tiles (q : Nat) (f : Queue → Queue) : (s.modQueue q f).tiles = s.tiles := rfl
@[simp] theorem modQueue_images (q : Nat) (f : Queue → Queue) : (s.modQueue q f).images = s.images := rfl
@[simp] theorem modQueue_events (q : Nat) (f : Queue → Queue) : (s.modQueue q f).events = s.events := rfl
@[simp] theorem modQueue_slot (q : Nat) (f : Queue → Queue) : (s.modQueue q f).slot = s.slot := rfl
@[simp] theorem modQueue_cycle (q : Nat) (f : Queue → Queue) : (s.modQueue q f).cycle = s.cycle := rfl
@[simp] theorem modQueue_stalled (q : Nat) (f : Queue → Queue) : (s.modQueue q f).stalled = s.stalled := rfl
@[simp] theorem modQueue_urgent (q : Nat) (f : Queue → Queue) : (s.modQueue q f).urgent = s.urgent := rfl
@[simp] theorem modQueue_blocked (q : Nat) (f : Queue → Queue) : (s.modQueue q f).blocked = s.blocked := rfl
@[simp] theorem modQueue_unforeseen (q : Nat) (f : Queue → Queue) : (s.modQueue q f).unforeseen = s.unforeseen := rfl
@[simp] theorem modQueue_fresh (q : Nat) (f : Queue → Queue) : (s.modQueue q f).fresh = s.fresh := rfl
@[simp] theorem modQueue_nextId (q : Nat) (f : Queue → Queue) : (s.modQueue q f).nextId = s.nextId := rfl

/-! `modLaunch` -/

@[simp] theorem modLaunch_launches (l : Nat) (f : Launch → Launch) : (s.modLaunch l f).launches = modWhere (·.lid == l) f s.launches := rfl
@[simp] theorem modLaunch_chip (l : Nat) (f : Launch → Launch) : (s.modLaunch l f).chip = s.chip := rfl
@[simp] theorem modLaunch_mem (l : Nat) (f : Launch → Launch) : (s.modLaunch l f).mem = s.mem := rfl
@[simp] theorem modLaunch_poison (l : Nat) (f : Launch → Launch) : (s.modLaunch l f).poison = s.poison := rfl
@[simp] theorem modLaunch_serial (l : Nat) (f : Launch → Launch) : (s.modLaunch l f).serial = s.serial := rfl
@[simp] theorem modLaunch_boot (l : Nat) (f : Launch → Launch) : (s.modLaunch l f).boot = s.boot := rfl
@[simp] theorem modLaunch_brandSeq (l : Nat) (f : Launch → Launch) : (s.modLaunch l f).brandSeq = s.brandSeq := rfl
@[simp] theorem modLaunch_brandBase (l : Nat) (f : Launch → Launch) : (s.modLaunch l f).brandBase = s.brandBase := rfl
@[simp] theorem modLaunch_brands (l : Nat) (f : Launch → Launch) : (s.modLaunch l f).brands = s.brands := rfl
@[simp] theorem modLaunch_origins (l : Nat) (f : Launch → Launch) : (s.modLaunch l f).origins = s.origins := rfl
@[simp] theorem modLaunch_routes (l : Nat) (f : Launch → Launch) : (s.modLaunch l f).routes = s.routes := rfl
@[simp] theorem modLaunch_homes (l : Nat) (f : Launch → Launch) : (s.modLaunch l f).homes = s.homes := rfl
@[simp] theorem modLaunch_launchOpen (l : Nat) (f : Launch → Launch) : (s.modLaunch l f).launchOpen = s.launchOpen := rfl
@[simp] theorem modLaunch_setup (l : Nat) (f : Launch → Launch) : (s.modLaunch l f).setup = s.setup := rfl
@[simp] theorem modLaunch_pasts (l : Nat) (f : Launch → Launch) : (s.modLaunch l f).pasts = s.pasts := rfl
@[simp] theorem modLaunch_ports (l : Nat) (f : Launch → Launch) : (s.modLaunch l f).ports = s.ports := rfl
@[simp] theorem modLaunch_stagingFree (l : Nat) (f : Launch → Launch) : (s.modLaunch l f).stagingFree = s.stagingFree := rfl
@[simp] theorem modLaunch_windows (l : Nat) (f : Launch → Launch) : (s.modLaunch l f).windows = s.windows := rfl
@[simp] theorem modLaunch_ucies (l : Nat) (f : Launch → Launch) : (s.modLaunch l f).ucies = s.ucies := rfl
@[simp] theorem modLaunch_linkHeld (l : Nat) (f : Launch → Launch) : (s.modLaunch l f).linkHeld = s.linkHeld := rfl
@[simp] theorem modLaunch_hostHeld (l : Nat) (f : Launch → Launch) : (s.modLaunch l f).hostHeld = s.hostHeld := rfl
@[simp] theorem modLaunch_due (l : Nat) (f : Launch → Launch) : (s.modLaunch l f).due = s.due := rfl
@[simp] theorem modLaunch_otpKey (l : Nat) (f : Launch → Launch) : (s.modLaunch l f).otpKey = s.otpKey := rfl
@[simp] theorem modLaunch_idKey (l : Nat) (f : Launch → Launch) : (s.modLaunch l f).idKey = s.idKey := rfl
@[simp] theorem modLaunch_otpLeaf (l : Nat) (f : Launch → Launch) : (s.modLaunch l f).otpLeaf = s.otpLeaf := rfl
@[simp] theorem modLaunch_otpLeft (l : Nat) (f : Launch → Launch) : (s.modLaunch l f).otpLeft = s.otpLeft := rfl
@[simp] theorem modLaunch_hostFw (l : Nat) (f : Launch → Launch) : (s.modLaunch l f).hostFw = s.hostFw := rfl
@[simp] theorem modLaunch_fwFailures (l : Nat) (f : Launch → Launch) : (s.modLaunch l f).fwFailures = s.fwFailures := rfl
@[simp] theorem modLaunch_reports (l : Nat) (f : Launch → Launch) : (s.modLaunch l f).reports = s.reports := rfl
@[simp] theorem modLaunch_islands (l : Nat) (f : Launch → Launch) : (s.modLaunch l f).islands = s.islands := rfl
@[simp] theorem modLaunch_dies (l : Nat) (f : Launch → Launch) : (s.modLaunch l f).dies = s.dies := rfl
@[simp] theorem modLaunch_cores (l : Nat) (f : Launch → Launch) : (s.modLaunch l f).cores = s.cores := rfl
@[simp] theorem modLaunch_quads (l : Nat) (f : Launch → Launch) : (s.modLaunch l f).quads = s.quads := rfl
@[simp] theorem modLaunch_agents (l : Nat) (f : Launch → Launch) : (s.modLaunch l f).agents = s.agents := rfl
@[simp] theorem modLaunch_ctxs (l : Nat) (f : Launch → Launch) : (s.modLaunch l f).ctxs = s.ctxs := rfl
@[simp] theorem modLaunch_queues (l : Nat) (f : Launch → Launch) : (s.modLaunch l f).queues = s.queues := rfl
@[simp] theorem modLaunch_rr (l : Nat) (f : Launch → Launch) : (s.modLaunch l f).rr = s.rr := rfl
@[simp] theorem modLaunch_letterboxes (l : Nat) (f : Launch → Launch) : (s.modLaunch l f).letterboxes = s.letterboxes := rfl
@[simp] theorem modLaunch_pools (l : Nat) (f : Launch → Launch) : (s.modLaunch l f).pools = s.pools := rfl
@[simp] theorem modLaunch_teams (l : Nat) (f : Launch → Launch) : (s.modLaunch l f).teams = s.teams := rfl
@[simp] theorem modLaunch_accs (l : Nat) (f : Launch → Launch) : (s.modLaunch l f).accs = s.accs := rfl
@[simp] theorem modLaunch_copies (l : Nat) (f : Launch → Launch) : (s.modLaunch l f).copies = s.copies := rfl
@[simp] theorem modLaunch_tiles (l : Nat) (f : Launch → Launch) : (s.modLaunch l f).tiles = s.tiles := rfl
@[simp] theorem modLaunch_images (l : Nat) (f : Launch → Launch) : (s.modLaunch l f).images = s.images := rfl
@[simp] theorem modLaunch_events (l : Nat) (f : Launch → Launch) : (s.modLaunch l f).events = s.events := rfl
@[simp] theorem modLaunch_slot (l : Nat) (f : Launch → Launch) : (s.modLaunch l f).slot = s.slot := rfl
@[simp] theorem modLaunch_cycle (l : Nat) (f : Launch → Launch) : (s.modLaunch l f).cycle = s.cycle := rfl
@[simp] theorem modLaunch_stalled (l : Nat) (f : Launch → Launch) : (s.modLaunch l f).stalled = s.stalled := rfl
@[simp] theorem modLaunch_urgent (l : Nat) (f : Launch → Launch) : (s.modLaunch l f).urgent = s.urgent := rfl
@[simp] theorem modLaunch_blocked (l : Nat) (f : Launch → Launch) : (s.modLaunch l f).blocked = s.blocked := rfl
@[simp] theorem modLaunch_unforeseen (l : Nat) (f : Launch → Launch) : (s.modLaunch l f).unforeseen = s.unforeseen := rfl
@[simp] theorem modLaunch_fresh (l : Nat) (f : Launch → Launch) : (s.modLaunch l f).fresh = s.fresh := rfl
@[simp] theorem modLaunch_nextId (l : Nat) (f : Launch → Launch) : (s.modLaunch l f).nextId = s.nextId := rfl

/-! `modCopy` -/

@[simp] theorem modCopy_copies (id : Nat) (f : Copy → Copy) : (s.modCopy id f).copies = modWhere (·.id == id) f s.copies := rfl
@[simp] theorem modCopy_chip (id : Nat) (f : Copy → Copy) : (s.modCopy id f).chip = s.chip := rfl
@[simp] theorem modCopy_mem (id : Nat) (f : Copy → Copy) : (s.modCopy id f).mem = s.mem := rfl
@[simp] theorem modCopy_poison (id : Nat) (f : Copy → Copy) : (s.modCopy id f).poison = s.poison := rfl
@[simp] theorem modCopy_serial (id : Nat) (f : Copy → Copy) : (s.modCopy id f).serial = s.serial := rfl
@[simp] theorem modCopy_boot (id : Nat) (f : Copy → Copy) : (s.modCopy id f).boot = s.boot := rfl
@[simp] theorem modCopy_brandSeq (id : Nat) (f : Copy → Copy) : (s.modCopy id f).brandSeq = s.brandSeq := rfl
@[simp] theorem modCopy_brandBase (id : Nat) (f : Copy → Copy) : (s.modCopy id f).brandBase = s.brandBase := rfl
@[simp] theorem modCopy_brands (id : Nat) (f : Copy → Copy) : (s.modCopy id f).brands = s.brands := rfl
@[simp] theorem modCopy_origins (id : Nat) (f : Copy → Copy) : (s.modCopy id f).origins = s.origins := rfl
@[simp] theorem modCopy_routes (id : Nat) (f : Copy → Copy) : (s.modCopy id f).routes = s.routes := rfl
@[simp] theorem modCopy_homes (id : Nat) (f : Copy → Copy) : (s.modCopy id f).homes = s.homes := rfl
@[simp] theorem modCopy_launchOpen (id : Nat) (f : Copy → Copy) : (s.modCopy id f).launchOpen = s.launchOpen := rfl
@[simp] theorem modCopy_setup (id : Nat) (f : Copy → Copy) : (s.modCopy id f).setup = s.setup := rfl
@[simp] theorem modCopy_pasts (id : Nat) (f : Copy → Copy) : (s.modCopy id f).pasts = s.pasts := rfl
@[simp] theorem modCopy_ports (id : Nat) (f : Copy → Copy) : (s.modCopy id f).ports = s.ports := rfl
@[simp] theorem modCopy_stagingFree (id : Nat) (f : Copy → Copy) : (s.modCopy id f).stagingFree = s.stagingFree := rfl
@[simp] theorem modCopy_windows (id : Nat) (f : Copy → Copy) : (s.modCopy id f).windows = s.windows := rfl
@[simp] theorem modCopy_ucies (id : Nat) (f : Copy → Copy) : (s.modCopy id f).ucies = s.ucies := rfl
@[simp] theorem modCopy_linkHeld (id : Nat) (f : Copy → Copy) : (s.modCopy id f).linkHeld = s.linkHeld := rfl
@[simp] theorem modCopy_hostHeld (id : Nat) (f : Copy → Copy) : (s.modCopy id f).hostHeld = s.hostHeld := rfl
@[simp] theorem modCopy_due (id : Nat) (f : Copy → Copy) : (s.modCopy id f).due = s.due := rfl
@[simp] theorem modCopy_otpKey (id : Nat) (f : Copy → Copy) : (s.modCopy id f).otpKey = s.otpKey := rfl
@[simp] theorem modCopy_idKey (id : Nat) (f : Copy → Copy) : (s.modCopy id f).idKey = s.idKey := rfl
@[simp] theorem modCopy_otpLeaf (id : Nat) (f : Copy → Copy) : (s.modCopy id f).otpLeaf = s.otpLeaf := rfl
@[simp] theorem modCopy_otpLeft (id : Nat) (f : Copy → Copy) : (s.modCopy id f).otpLeft = s.otpLeft := rfl
@[simp] theorem modCopy_hostFw (id : Nat) (f : Copy → Copy) : (s.modCopy id f).hostFw = s.hostFw := rfl
@[simp] theorem modCopy_fwFailures (id : Nat) (f : Copy → Copy) : (s.modCopy id f).fwFailures = s.fwFailures := rfl
@[simp] theorem modCopy_reports (id : Nat) (f : Copy → Copy) : (s.modCopy id f).reports = s.reports := rfl
@[simp] theorem modCopy_islands (id : Nat) (f : Copy → Copy) : (s.modCopy id f).islands = s.islands := rfl
@[simp] theorem modCopy_dies (id : Nat) (f : Copy → Copy) : (s.modCopy id f).dies = s.dies := rfl
@[simp] theorem modCopy_cores (id : Nat) (f : Copy → Copy) : (s.modCopy id f).cores = s.cores := rfl
@[simp] theorem modCopy_quads (id : Nat) (f : Copy → Copy) : (s.modCopy id f).quads = s.quads := rfl
@[simp] theorem modCopy_agents (id : Nat) (f : Copy → Copy) : (s.modCopy id f).agents = s.agents := rfl
@[simp] theorem modCopy_ctxs (id : Nat) (f : Copy → Copy) : (s.modCopy id f).ctxs = s.ctxs := rfl
@[simp] theorem modCopy_queues (id : Nat) (f : Copy → Copy) : (s.modCopy id f).queues = s.queues := rfl
@[simp] theorem modCopy_rr (id : Nat) (f : Copy → Copy) : (s.modCopy id f).rr = s.rr := rfl
@[simp] theorem modCopy_letterboxes (id : Nat) (f : Copy → Copy) : (s.modCopy id f).letterboxes = s.letterboxes := rfl
@[simp] theorem modCopy_launches (id : Nat) (f : Copy → Copy) : (s.modCopy id f).launches = s.launches := rfl
@[simp] theorem modCopy_pools (id : Nat) (f : Copy → Copy) : (s.modCopy id f).pools = s.pools := rfl
@[simp] theorem modCopy_teams (id : Nat) (f : Copy → Copy) : (s.modCopy id f).teams = s.teams := rfl
@[simp] theorem modCopy_accs (id : Nat) (f : Copy → Copy) : (s.modCopy id f).accs = s.accs := rfl
@[simp] theorem modCopy_tiles (id : Nat) (f : Copy → Copy) : (s.modCopy id f).tiles = s.tiles := rfl
@[simp] theorem modCopy_images (id : Nat) (f : Copy → Copy) : (s.modCopy id f).images = s.images := rfl
@[simp] theorem modCopy_events (id : Nat) (f : Copy → Copy) : (s.modCopy id f).events = s.events := rfl
@[simp] theorem modCopy_slot (id : Nat) (f : Copy → Copy) : (s.modCopy id f).slot = s.slot := rfl
@[simp] theorem modCopy_cycle (id : Nat) (f : Copy → Copy) : (s.modCopy id f).cycle = s.cycle := rfl
@[simp] theorem modCopy_stalled (id : Nat) (f : Copy → Copy) : (s.modCopy id f).stalled = s.stalled := rfl
@[simp] theorem modCopy_urgent (id : Nat) (f : Copy → Copy) : (s.modCopy id f).urgent = s.urgent := rfl
@[simp] theorem modCopy_blocked (id : Nat) (f : Copy → Copy) : (s.modCopy id f).blocked = s.blocked := rfl
@[simp] theorem modCopy_unforeseen (id : Nat) (f : Copy → Copy) : (s.modCopy id f).unforeseen = s.unforeseen := rfl
@[simp] theorem modCopy_fresh (id : Nat) (f : Copy → Copy) : (s.modCopy id f).fresh = s.fresh := rfl
@[simp] theorem modCopy_nextId (id : Nat) (f : Copy → Copy) : (s.modCopy id f).nextId = s.nextId := rfl

/-! `modAcc` -/

@[simp] theorem modAcc_accs (id : Nat) (f : Acc → Acc) : (s.modAcc id f).accs = modWhere (·.id == id) f s.accs := rfl
@[simp] theorem modAcc_chip (id : Nat) (f : Acc → Acc) : (s.modAcc id f).chip = s.chip := rfl
@[simp] theorem modAcc_mem (id : Nat) (f : Acc → Acc) : (s.modAcc id f).mem = s.mem := rfl
@[simp] theorem modAcc_poison (id : Nat) (f : Acc → Acc) : (s.modAcc id f).poison = s.poison := rfl
@[simp] theorem modAcc_serial (id : Nat) (f : Acc → Acc) : (s.modAcc id f).serial = s.serial := rfl
@[simp] theorem modAcc_boot (id : Nat) (f : Acc → Acc) : (s.modAcc id f).boot = s.boot := rfl
@[simp] theorem modAcc_brandSeq (id : Nat) (f : Acc → Acc) : (s.modAcc id f).brandSeq = s.brandSeq := rfl
@[simp] theorem modAcc_brandBase (id : Nat) (f : Acc → Acc) : (s.modAcc id f).brandBase = s.brandBase := rfl
@[simp] theorem modAcc_brands (id : Nat) (f : Acc → Acc) : (s.modAcc id f).brands = s.brands := rfl
@[simp] theorem modAcc_origins (id : Nat) (f : Acc → Acc) : (s.modAcc id f).origins = s.origins := rfl
@[simp] theorem modAcc_routes (id : Nat) (f : Acc → Acc) : (s.modAcc id f).routes = s.routes := rfl
@[simp] theorem modAcc_homes (id : Nat) (f : Acc → Acc) : (s.modAcc id f).homes = s.homes := rfl
@[simp] theorem modAcc_launchOpen (id : Nat) (f : Acc → Acc) : (s.modAcc id f).launchOpen = s.launchOpen := rfl
@[simp] theorem modAcc_setup (id : Nat) (f : Acc → Acc) : (s.modAcc id f).setup = s.setup := rfl
@[simp] theorem modAcc_pasts (id : Nat) (f : Acc → Acc) : (s.modAcc id f).pasts = s.pasts := rfl
@[simp] theorem modAcc_ports (id : Nat) (f : Acc → Acc) : (s.modAcc id f).ports = s.ports := rfl
@[simp] theorem modAcc_stagingFree (id : Nat) (f : Acc → Acc) : (s.modAcc id f).stagingFree = s.stagingFree := rfl
@[simp] theorem modAcc_windows (id : Nat) (f : Acc → Acc) : (s.modAcc id f).windows = s.windows := rfl
@[simp] theorem modAcc_ucies (id : Nat) (f : Acc → Acc) : (s.modAcc id f).ucies = s.ucies := rfl
@[simp] theorem modAcc_linkHeld (id : Nat) (f : Acc → Acc) : (s.modAcc id f).linkHeld = s.linkHeld := rfl
@[simp] theorem modAcc_hostHeld (id : Nat) (f : Acc → Acc) : (s.modAcc id f).hostHeld = s.hostHeld := rfl
@[simp] theorem modAcc_due (id : Nat) (f : Acc → Acc) : (s.modAcc id f).due = s.due := rfl
@[simp] theorem modAcc_otpKey (id : Nat) (f : Acc → Acc) : (s.modAcc id f).otpKey = s.otpKey := rfl
@[simp] theorem modAcc_idKey (id : Nat) (f : Acc → Acc) : (s.modAcc id f).idKey = s.idKey := rfl
@[simp] theorem modAcc_otpLeaf (id : Nat) (f : Acc → Acc) : (s.modAcc id f).otpLeaf = s.otpLeaf := rfl
@[simp] theorem modAcc_otpLeft (id : Nat) (f : Acc → Acc) : (s.modAcc id f).otpLeft = s.otpLeft := rfl
@[simp] theorem modAcc_hostFw (id : Nat) (f : Acc → Acc) : (s.modAcc id f).hostFw = s.hostFw := rfl
@[simp] theorem modAcc_fwFailures (id : Nat) (f : Acc → Acc) : (s.modAcc id f).fwFailures = s.fwFailures := rfl
@[simp] theorem modAcc_reports (id : Nat) (f : Acc → Acc) : (s.modAcc id f).reports = s.reports := rfl
@[simp] theorem modAcc_islands (id : Nat) (f : Acc → Acc) : (s.modAcc id f).islands = s.islands := rfl
@[simp] theorem modAcc_dies (id : Nat) (f : Acc → Acc) : (s.modAcc id f).dies = s.dies := rfl
@[simp] theorem modAcc_cores (id : Nat) (f : Acc → Acc) : (s.modAcc id f).cores = s.cores := rfl
@[simp] theorem modAcc_quads (id : Nat) (f : Acc → Acc) : (s.modAcc id f).quads = s.quads := rfl
@[simp] theorem modAcc_agents (id : Nat) (f : Acc → Acc) : (s.modAcc id f).agents = s.agents := rfl
@[simp] theorem modAcc_ctxs (id : Nat) (f : Acc → Acc) : (s.modAcc id f).ctxs = s.ctxs := rfl
@[simp] theorem modAcc_queues (id : Nat) (f : Acc → Acc) : (s.modAcc id f).queues = s.queues := rfl
@[simp] theorem modAcc_rr (id : Nat) (f : Acc → Acc) : (s.modAcc id f).rr = s.rr := rfl
@[simp] theorem modAcc_letterboxes (id : Nat) (f : Acc → Acc) : (s.modAcc id f).letterboxes = s.letterboxes := rfl
@[simp] theorem modAcc_launches (id : Nat) (f : Acc → Acc) : (s.modAcc id f).launches = s.launches := rfl
@[simp] theorem modAcc_pools (id : Nat) (f : Acc → Acc) : (s.modAcc id f).pools = s.pools := rfl
@[simp] theorem modAcc_teams (id : Nat) (f : Acc → Acc) : (s.modAcc id f).teams = s.teams := rfl
@[simp] theorem modAcc_copies (id : Nat) (f : Acc → Acc) : (s.modAcc id f).copies = s.copies := rfl
@[simp] theorem modAcc_tiles (id : Nat) (f : Acc → Acc) : (s.modAcc id f).tiles = s.tiles := rfl
@[simp] theorem modAcc_images (id : Nat) (f : Acc → Acc) : (s.modAcc id f).images = s.images := rfl
@[simp] theorem modAcc_events (id : Nat) (f : Acc → Acc) : (s.modAcc id f).events = s.events := rfl
@[simp] theorem modAcc_slot (id : Nat) (f : Acc → Acc) : (s.modAcc id f).slot = s.slot := rfl
@[simp] theorem modAcc_cycle (id : Nat) (f : Acc → Acc) : (s.modAcc id f).cycle = s.cycle := rfl
@[simp] theorem modAcc_stalled (id : Nat) (f : Acc → Acc) : (s.modAcc id f).stalled = s.stalled := rfl
@[simp] theorem modAcc_urgent (id : Nat) (f : Acc → Acc) : (s.modAcc id f).urgent = s.urgent := rfl
@[simp] theorem modAcc_blocked (id : Nat) (f : Acc → Acc) : (s.modAcc id f).blocked = s.blocked := rfl
@[simp] theorem modAcc_unforeseen (id : Nat) (f : Acc → Acc) : (s.modAcc id f).unforeseen = s.unforeseen := rfl
@[simp] theorem modAcc_fresh (id : Nat) (f : Acc → Acc) : (s.modAcc id f).fresh = s.fresh := rfl
@[simp] theorem modAcc_nextId (id : Nat) (f : Acc → Acc) : (s.modAcc id f).nextId = s.nextId := rfl

/-! `modBox` -/

@[simp] theorem modBox_letterboxes (lb : Nat) (f : Letterbox → Letterbox) : (s.modBox lb f).letterboxes = modWhere (·.lb == lb) f s.letterboxes := rfl
@[simp] theorem modBox_chip (lb : Nat) (f : Letterbox → Letterbox) : (s.modBox lb f).chip = s.chip := rfl
@[simp] theorem modBox_mem (lb : Nat) (f : Letterbox → Letterbox) : (s.modBox lb f).mem = s.mem := rfl
@[simp] theorem modBox_poison (lb : Nat) (f : Letterbox → Letterbox) : (s.modBox lb f).poison = s.poison := rfl
@[simp] theorem modBox_serial (lb : Nat) (f : Letterbox → Letterbox) : (s.modBox lb f).serial = s.serial := rfl
@[simp] theorem modBox_boot (lb : Nat) (f : Letterbox → Letterbox) : (s.modBox lb f).boot = s.boot := rfl
@[simp] theorem modBox_brandSeq (lb : Nat) (f : Letterbox → Letterbox) : (s.modBox lb f).brandSeq = s.brandSeq := rfl
@[simp] theorem modBox_brandBase (lb : Nat) (f : Letterbox → Letterbox) : (s.modBox lb f).brandBase = s.brandBase := rfl
@[simp] theorem modBox_brands (lb : Nat) (f : Letterbox → Letterbox) : (s.modBox lb f).brands = s.brands := rfl
@[simp] theorem modBox_origins (lb : Nat) (f : Letterbox → Letterbox) : (s.modBox lb f).origins = s.origins := rfl
@[simp] theorem modBox_routes (lb : Nat) (f : Letterbox → Letterbox) : (s.modBox lb f).routes = s.routes := rfl
@[simp] theorem modBox_homes (lb : Nat) (f : Letterbox → Letterbox) : (s.modBox lb f).homes = s.homes := rfl
@[simp] theorem modBox_launchOpen (lb : Nat) (f : Letterbox → Letterbox) : (s.modBox lb f).launchOpen = s.launchOpen := rfl
@[simp] theorem modBox_setup (lb : Nat) (f : Letterbox → Letterbox) : (s.modBox lb f).setup = s.setup := rfl
@[simp] theorem modBox_pasts (lb : Nat) (f : Letterbox → Letterbox) : (s.modBox lb f).pasts = s.pasts := rfl
@[simp] theorem modBox_ports (lb : Nat) (f : Letterbox → Letterbox) : (s.modBox lb f).ports = s.ports := rfl
@[simp] theorem modBox_stagingFree (lb : Nat) (f : Letterbox → Letterbox) : (s.modBox lb f).stagingFree = s.stagingFree := rfl
@[simp] theorem modBox_windows (lb : Nat) (f : Letterbox → Letterbox) : (s.modBox lb f).windows = s.windows := rfl
@[simp] theorem modBox_ucies (lb : Nat) (f : Letterbox → Letterbox) : (s.modBox lb f).ucies = s.ucies := rfl
@[simp] theorem modBox_linkHeld (lb : Nat) (f : Letterbox → Letterbox) : (s.modBox lb f).linkHeld = s.linkHeld := rfl
@[simp] theorem modBox_hostHeld (lb : Nat) (f : Letterbox → Letterbox) : (s.modBox lb f).hostHeld = s.hostHeld := rfl
@[simp] theorem modBox_due (lb : Nat) (f : Letterbox → Letterbox) : (s.modBox lb f).due = s.due := rfl
@[simp] theorem modBox_otpKey (lb : Nat) (f : Letterbox → Letterbox) : (s.modBox lb f).otpKey = s.otpKey := rfl
@[simp] theorem modBox_idKey (lb : Nat) (f : Letterbox → Letterbox) : (s.modBox lb f).idKey = s.idKey := rfl
@[simp] theorem modBox_otpLeaf (lb : Nat) (f : Letterbox → Letterbox) : (s.modBox lb f).otpLeaf = s.otpLeaf := rfl
@[simp] theorem modBox_otpLeft (lb : Nat) (f : Letterbox → Letterbox) : (s.modBox lb f).otpLeft = s.otpLeft := rfl
@[simp] theorem modBox_hostFw (lb : Nat) (f : Letterbox → Letterbox) : (s.modBox lb f).hostFw = s.hostFw := rfl
@[simp] theorem modBox_fwFailures (lb : Nat) (f : Letterbox → Letterbox) : (s.modBox lb f).fwFailures = s.fwFailures := rfl
@[simp] theorem modBox_reports (lb : Nat) (f : Letterbox → Letterbox) : (s.modBox lb f).reports = s.reports := rfl
@[simp] theorem modBox_islands (lb : Nat) (f : Letterbox → Letterbox) : (s.modBox lb f).islands = s.islands := rfl
@[simp] theorem modBox_dies (lb : Nat) (f : Letterbox → Letterbox) : (s.modBox lb f).dies = s.dies := rfl
@[simp] theorem modBox_cores (lb : Nat) (f : Letterbox → Letterbox) : (s.modBox lb f).cores = s.cores := rfl
@[simp] theorem modBox_quads (lb : Nat) (f : Letterbox → Letterbox) : (s.modBox lb f).quads = s.quads := rfl
@[simp] theorem modBox_agents (lb : Nat) (f : Letterbox → Letterbox) : (s.modBox lb f).agents = s.agents := rfl
@[simp] theorem modBox_ctxs (lb : Nat) (f : Letterbox → Letterbox) : (s.modBox lb f).ctxs = s.ctxs := rfl
@[simp] theorem modBox_queues (lb : Nat) (f : Letterbox → Letterbox) : (s.modBox lb f).queues = s.queues := rfl
@[simp] theorem modBox_rr (lb : Nat) (f : Letterbox → Letterbox) : (s.modBox lb f).rr = s.rr := rfl
@[simp] theorem modBox_launches (lb : Nat) (f : Letterbox → Letterbox) : (s.modBox lb f).launches = s.launches := rfl
@[simp] theorem modBox_pools (lb : Nat) (f : Letterbox → Letterbox) : (s.modBox lb f).pools = s.pools := rfl
@[simp] theorem modBox_teams (lb : Nat) (f : Letterbox → Letterbox) : (s.modBox lb f).teams = s.teams := rfl
@[simp] theorem modBox_accs (lb : Nat) (f : Letterbox → Letterbox) : (s.modBox lb f).accs = s.accs := rfl
@[simp] theorem modBox_copies (lb : Nat) (f : Letterbox → Letterbox) : (s.modBox lb f).copies = s.copies := rfl
@[simp] theorem modBox_tiles (lb : Nat) (f : Letterbox → Letterbox) : (s.modBox lb f).tiles = s.tiles := rfl
@[simp] theorem modBox_images (lb : Nat) (f : Letterbox → Letterbox) : (s.modBox lb f).images = s.images := rfl
@[simp] theorem modBox_events (lb : Nat) (f : Letterbox → Letterbox) : (s.modBox lb f).events = s.events := rfl
@[simp] theorem modBox_slot (lb : Nat) (f : Letterbox → Letterbox) : (s.modBox lb f).slot = s.slot := rfl
@[simp] theorem modBox_cycle (lb : Nat) (f : Letterbox → Letterbox) : (s.modBox lb f).cycle = s.cycle := rfl
@[simp] theorem modBox_stalled (lb : Nat) (f : Letterbox → Letterbox) : (s.modBox lb f).stalled = s.stalled := rfl
@[simp] theorem modBox_urgent (lb : Nat) (f : Letterbox → Letterbox) : (s.modBox lb f).urgent = s.urgent := rfl
@[simp] theorem modBox_blocked (lb : Nat) (f : Letterbox → Letterbox) : (s.modBox lb f).blocked = s.blocked := rfl
@[simp] theorem modBox_unforeseen (lb : Nat) (f : Letterbox → Letterbox) : (s.modBox lb f).unforeseen = s.unforeseen := rfl
@[simp] theorem modBox_fresh (lb : Nat) (f : Letterbox → Letterbox) : (s.modBox lb f).fresh = s.fresh := rfl
@[simp] theorem modBox_nextId (lb : Nat) (f : Letterbox → Letterbox) : (s.modBox lb f).nextId = s.nextId := rfl

/-! `modPool` -/

@[simp] theorem modPool_pools (lid cl : Nat) (f : Pool → Pool) : (s.modPool lid cl f).pools = modWhere (fun p => p.lid == lid && p.cluster == cl) f s.pools := rfl
@[simp] theorem modPool_chip (lid cl : Nat) (f : Pool → Pool) : (s.modPool lid cl f).chip = s.chip := rfl
@[simp] theorem modPool_mem (lid cl : Nat) (f : Pool → Pool) : (s.modPool lid cl f).mem = s.mem := rfl
@[simp] theorem modPool_poison (lid cl : Nat) (f : Pool → Pool) : (s.modPool lid cl f).poison = s.poison := rfl
@[simp] theorem modPool_serial (lid cl : Nat) (f : Pool → Pool) : (s.modPool lid cl f).serial = s.serial := rfl
@[simp] theorem modPool_boot (lid cl : Nat) (f : Pool → Pool) : (s.modPool lid cl f).boot = s.boot := rfl
@[simp] theorem modPool_brandSeq (lid cl : Nat) (f : Pool → Pool) : (s.modPool lid cl f).brandSeq = s.brandSeq := rfl
@[simp] theorem modPool_brandBase (lid cl : Nat) (f : Pool → Pool) : (s.modPool lid cl f).brandBase = s.brandBase := rfl
@[simp] theorem modPool_brands (lid cl : Nat) (f : Pool → Pool) : (s.modPool lid cl f).brands = s.brands := rfl
@[simp] theorem modPool_origins (lid cl : Nat) (f : Pool → Pool) : (s.modPool lid cl f).origins = s.origins := rfl
@[simp] theorem modPool_routes (lid cl : Nat) (f : Pool → Pool) : (s.modPool lid cl f).routes = s.routes := rfl
@[simp] theorem modPool_homes (lid cl : Nat) (f : Pool → Pool) : (s.modPool lid cl f).homes = s.homes := rfl
@[simp] theorem modPool_launchOpen (lid cl : Nat) (f : Pool → Pool) : (s.modPool lid cl f).launchOpen = s.launchOpen := rfl
@[simp] theorem modPool_setup (lid cl : Nat) (f : Pool → Pool) : (s.modPool lid cl f).setup = s.setup := rfl
@[simp] theorem modPool_pasts (lid cl : Nat) (f : Pool → Pool) : (s.modPool lid cl f).pasts = s.pasts := rfl
@[simp] theorem modPool_ports (lid cl : Nat) (f : Pool → Pool) : (s.modPool lid cl f).ports = s.ports := rfl
@[simp] theorem modPool_stagingFree (lid cl : Nat) (f : Pool → Pool) : (s.modPool lid cl f).stagingFree = s.stagingFree := rfl
@[simp] theorem modPool_windows (lid cl : Nat) (f : Pool → Pool) : (s.modPool lid cl f).windows = s.windows := rfl
@[simp] theorem modPool_ucies (lid cl : Nat) (f : Pool → Pool) : (s.modPool lid cl f).ucies = s.ucies := rfl
@[simp] theorem modPool_linkHeld (lid cl : Nat) (f : Pool → Pool) : (s.modPool lid cl f).linkHeld = s.linkHeld := rfl
@[simp] theorem modPool_hostHeld (lid cl : Nat) (f : Pool → Pool) : (s.modPool lid cl f).hostHeld = s.hostHeld := rfl
@[simp] theorem modPool_due (lid cl : Nat) (f : Pool → Pool) : (s.modPool lid cl f).due = s.due := rfl
@[simp] theorem modPool_otpKey (lid cl : Nat) (f : Pool → Pool) : (s.modPool lid cl f).otpKey = s.otpKey := rfl
@[simp] theorem modPool_idKey (lid cl : Nat) (f : Pool → Pool) : (s.modPool lid cl f).idKey = s.idKey := rfl
@[simp] theorem modPool_otpLeaf (lid cl : Nat) (f : Pool → Pool) : (s.modPool lid cl f).otpLeaf = s.otpLeaf := rfl
@[simp] theorem modPool_otpLeft (lid cl : Nat) (f : Pool → Pool) : (s.modPool lid cl f).otpLeft = s.otpLeft := rfl
@[simp] theorem modPool_hostFw (lid cl : Nat) (f : Pool → Pool) : (s.modPool lid cl f).hostFw = s.hostFw := rfl
@[simp] theorem modPool_fwFailures (lid cl : Nat) (f : Pool → Pool) : (s.modPool lid cl f).fwFailures = s.fwFailures := rfl
@[simp] theorem modPool_reports (lid cl : Nat) (f : Pool → Pool) : (s.modPool lid cl f).reports = s.reports := rfl
@[simp] theorem modPool_islands (lid cl : Nat) (f : Pool → Pool) : (s.modPool lid cl f).islands = s.islands := rfl
@[simp] theorem modPool_dies (lid cl : Nat) (f : Pool → Pool) : (s.modPool lid cl f).dies = s.dies := rfl
@[simp] theorem modPool_cores (lid cl : Nat) (f : Pool → Pool) : (s.modPool lid cl f).cores = s.cores := rfl
@[simp] theorem modPool_quads (lid cl : Nat) (f : Pool → Pool) : (s.modPool lid cl f).quads = s.quads := rfl
@[simp] theorem modPool_agents (lid cl : Nat) (f : Pool → Pool) : (s.modPool lid cl f).agents = s.agents := rfl
@[simp] theorem modPool_ctxs (lid cl : Nat) (f : Pool → Pool) : (s.modPool lid cl f).ctxs = s.ctxs := rfl
@[simp] theorem modPool_queues (lid cl : Nat) (f : Pool → Pool) : (s.modPool lid cl f).queues = s.queues := rfl
@[simp] theorem modPool_rr (lid cl : Nat) (f : Pool → Pool) : (s.modPool lid cl f).rr = s.rr := rfl
@[simp] theorem modPool_letterboxes (lid cl : Nat) (f : Pool → Pool) : (s.modPool lid cl f).letterboxes = s.letterboxes := rfl
@[simp] theorem modPool_launches (lid cl : Nat) (f : Pool → Pool) : (s.modPool lid cl f).launches = s.launches := rfl
@[simp] theorem modPool_teams (lid cl : Nat) (f : Pool → Pool) : (s.modPool lid cl f).teams = s.teams := rfl
@[simp] theorem modPool_accs (lid cl : Nat) (f : Pool → Pool) : (s.modPool lid cl f).accs = s.accs := rfl
@[simp] theorem modPool_copies (lid cl : Nat) (f : Pool → Pool) : (s.modPool lid cl f).copies = s.copies := rfl
@[simp] theorem modPool_tiles (lid cl : Nat) (f : Pool → Pool) : (s.modPool lid cl f).tiles = s.tiles := rfl
@[simp] theorem modPool_images (lid cl : Nat) (f : Pool → Pool) : (s.modPool lid cl f).images = s.images := rfl
@[simp] theorem modPool_events (lid cl : Nat) (f : Pool → Pool) : (s.modPool lid cl f).events = s.events := rfl
@[simp] theorem modPool_slot (lid cl : Nat) (f : Pool → Pool) : (s.modPool lid cl f).slot = s.slot := rfl
@[simp] theorem modPool_cycle (lid cl : Nat) (f : Pool → Pool) : (s.modPool lid cl f).cycle = s.cycle := rfl
@[simp] theorem modPool_stalled (lid cl : Nat) (f : Pool → Pool) : (s.modPool lid cl f).stalled = s.stalled := rfl
@[simp] theorem modPool_urgent (lid cl : Nat) (f : Pool → Pool) : (s.modPool lid cl f).urgent = s.urgent := rfl
@[simp] theorem modPool_blocked (lid cl : Nat) (f : Pool → Pool) : (s.modPool lid cl f).blocked = s.blocked := rfl
@[simp] theorem modPool_unforeseen (lid cl : Nat) (f : Pool → Pool) : (s.modPool lid cl f).unforeseen = s.unforeseen := rfl
@[simp] theorem modPool_fresh (lid cl : Nat) (f : Pool → Pool) : (s.modPool lid cl f).fresh = s.fresh := rfl
@[simp] theorem modPool_nextId (lid cl : Nat) (f : Pool → Pool) : (s.modPool lid cl f).nextId = s.nextId := rfl

/-! `write` -/

@[simp] theorem write_mem (gpa : Nat) (bs : List Byte) : (s.write gpa bs).mem = Cells.setBytes s.mem gpa bs := rfl
@[simp] theorem write_chip (gpa : Nat) (bs : List Byte) : (s.write gpa bs).chip = s.chip := rfl
@[simp] theorem write_serial (gpa : Nat) (bs : List Byte) : (s.write gpa bs).serial = s.serial := rfl
@[simp] theorem write_boot (gpa : Nat) (bs : List Byte) : (s.write gpa bs).boot = s.boot := rfl
@[simp] theorem write_brandSeq (gpa : Nat) (bs : List Byte) : (s.write gpa bs).brandSeq = s.brandSeq := rfl
@[simp] theorem write_brandBase (gpa : Nat) (bs : List Byte) : (s.write gpa bs).brandBase = s.brandBase := rfl
@[simp] theorem write_brands (gpa : Nat) (bs : List Byte) : (s.write gpa bs).brands = s.brands := rfl
@[simp] theorem write_origins (gpa : Nat) (bs : List Byte) : (s.write gpa bs).origins = s.origins := rfl
@[simp] theorem write_routes (gpa : Nat) (bs : List Byte) : (s.write gpa bs).routes = s.routes := rfl
@[simp] theorem write_homes (gpa : Nat) (bs : List Byte) : (s.write gpa bs).homes = s.homes := rfl
@[simp] theorem write_launchOpen (gpa : Nat) (bs : List Byte) : (s.write gpa bs).launchOpen = s.launchOpen := rfl
@[simp] theorem write_setup (gpa : Nat) (bs : List Byte) : (s.write gpa bs).setup = s.setup := rfl
@[simp] theorem write_pasts (gpa : Nat) (bs : List Byte) : (s.write gpa bs).pasts = s.pasts := rfl
@[simp] theorem write_ports (gpa : Nat) (bs : List Byte) : (s.write gpa bs).ports = s.ports := rfl
@[simp] theorem write_stagingFree (gpa : Nat) (bs : List Byte) : (s.write gpa bs).stagingFree = s.stagingFree := rfl
@[simp] theorem write_windows (gpa : Nat) (bs : List Byte) : (s.write gpa bs).windows = s.windows := rfl
@[simp] theorem write_ucies (gpa : Nat) (bs : List Byte) : (s.write gpa bs).ucies = s.ucies := rfl
@[simp] theorem write_linkHeld (gpa : Nat) (bs : List Byte) : (s.write gpa bs).linkHeld = s.linkHeld := rfl
@[simp] theorem write_hostHeld (gpa : Nat) (bs : List Byte) : (s.write gpa bs).hostHeld = s.hostHeld := rfl
@[simp] theorem write_due (gpa : Nat) (bs : List Byte) : (s.write gpa bs).due = s.due := rfl
@[simp] theorem write_otpKey (gpa : Nat) (bs : List Byte) : (s.write gpa bs).otpKey = s.otpKey := rfl
@[simp] theorem write_idKey (gpa : Nat) (bs : List Byte) : (s.write gpa bs).idKey = s.idKey := rfl
@[simp] theorem write_otpLeaf (gpa : Nat) (bs : List Byte) : (s.write gpa bs).otpLeaf = s.otpLeaf := rfl
@[simp] theorem write_otpLeft (gpa : Nat) (bs : List Byte) : (s.write gpa bs).otpLeft = s.otpLeft := rfl
@[simp] theorem write_hostFw (gpa : Nat) (bs : List Byte) : (s.write gpa bs).hostFw = s.hostFw := rfl
@[simp] theorem write_fwFailures (gpa : Nat) (bs : List Byte) : (s.write gpa bs).fwFailures = s.fwFailures := rfl
@[simp] theorem write_reports (gpa : Nat) (bs : List Byte) : (s.write gpa bs).reports = s.reports := rfl
@[simp] theorem write_islands (gpa : Nat) (bs : List Byte) : (s.write gpa bs).islands = s.islands := rfl
@[simp] theorem write_dies (gpa : Nat) (bs : List Byte) : (s.write gpa bs).dies = s.dies := rfl
@[simp] theorem write_cores (gpa : Nat) (bs : List Byte) : (s.write gpa bs).cores = s.cores := rfl
@[simp] theorem write_quads (gpa : Nat) (bs : List Byte) : (s.write gpa bs).quads = s.quads := rfl
@[simp] theorem write_agents (gpa : Nat) (bs : List Byte) : (s.write gpa bs).agents = s.agents := rfl
@[simp] theorem write_ctxs (gpa : Nat) (bs : List Byte) : (s.write gpa bs).ctxs = s.ctxs := rfl
@[simp] theorem write_queues (gpa : Nat) (bs : List Byte) : (s.write gpa bs).queues = s.queues := rfl
@[simp] theorem write_rr (gpa : Nat) (bs : List Byte) : (s.write gpa bs).rr = s.rr := rfl
@[simp] theorem write_letterboxes (gpa : Nat) (bs : List Byte) : (s.write gpa bs).letterboxes = s.letterboxes := rfl
@[simp] theorem write_launches (gpa : Nat) (bs : List Byte) : (s.write gpa bs).launches = s.launches := rfl
@[simp] theorem write_pools (gpa : Nat) (bs : List Byte) : (s.write gpa bs).pools = s.pools := rfl
@[simp] theorem write_teams (gpa : Nat) (bs : List Byte) : (s.write gpa bs).teams = s.teams := rfl
@[simp] theorem write_accs (gpa : Nat) (bs : List Byte) : (s.write gpa bs).accs = s.accs := rfl
@[simp] theorem write_copies (gpa : Nat) (bs : List Byte) : (s.write gpa bs).copies = s.copies := rfl
@[simp] theorem write_tiles (gpa : Nat) (bs : List Byte) : (s.write gpa bs).tiles = s.tiles := rfl
@[simp] theorem write_images (gpa : Nat) (bs : List Byte) : (s.write gpa bs).images = s.images := rfl
@[simp] theorem write_events (gpa : Nat) (bs : List Byte) : (s.write gpa bs).events = s.events := rfl
@[simp] theorem write_slot (gpa : Nat) (bs : List Byte) : (s.write gpa bs).slot = s.slot := rfl
@[simp] theorem write_cycle (gpa : Nat) (bs : List Byte) : (s.write gpa bs).cycle = s.cycle := rfl
@[simp] theorem write_stalled (gpa : Nat) (bs : List Byte) : (s.write gpa bs).stalled = s.stalled := rfl
@[simp] theorem write_urgent (gpa : Nat) (bs : List Byte) : (s.write gpa bs).urgent = s.urgent := rfl
@[simp] theorem write_blocked (gpa : Nat) (bs : List Byte) : (s.write gpa bs).blocked = s.blocked := rfl
@[simp] theorem write_unforeseen (gpa : Nat) (bs : List Byte) : (s.write gpa bs).unforeseen = s.unforeseen := rfl
@[simp] theorem write_fresh (gpa : Nat) (bs : List Byte) : (s.write gpa bs).fresh = s.fresh := rfl
@[simp] theorem write_nextId (gpa : Nat) (bs : List Byte) : (s.write gpa bs).nextId = s.nextId := rfl

/-! `send` -/

@[simp] theorem send_chip (ctx : Nat) (n : Node) : (s.send ctx n).chip = s.chip := rfl
@[simp] theorem send_mem (ctx : Nat) (n : Node) : (s.send ctx n).mem = s.mem := rfl
@[simp] theorem send_poison (ctx : Nat) (n : Node) : (s.send ctx n).poison = s.poison := rfl
@[simp] theorem send_serial (ctx : Nat) (n : Node) : (s.send ctx n).serial = s.serial := rfl
@[simp] theorem send_boot (ctx : Nat) (n : Node) : (s.send ctx n).boot = s.boot := rfl
@[simp] theorem send_brandSeq (ctx : Nat) (n : Node) : (s.send ctx n).brandSeq = s.brandSeq := rfl
@[simp] theorem send_brandBase (ctx : Nat) (n : Node) : (s.send ctx n).brandBase = s.brandBase := rfl
@[simp] theorem send_brands (ctx : Nat) (n : Node) : (s.send ctx n).brands = s.brands := rfl
@[simp] theorem send_origins (ctx : Nat) (n : Node) : (s.send ctx n).origins = s.origins := rfl
@[simp] theorem send_routes (ctx : Nat) (n : Node) : (s.send ctx n).routes = s.routes := rfl
@[simp] theorem send_homes (ctx : Nat) (n : Node) : (s.send ctx n).homes = s.homes := rfl
@[simp] theorem send_launchOpen (ctx : Nat) (n : Node) : (s.send ctx n).launchOpen = s.launchOpen := rfl
@[simp] theorem send_setup (ctx : Nat) (n : Node) : (s.send ctx n).setup = s.setup := rfl
@[simp] theorem send_pasts (ctx : Nat) (n : Node) : (s.send ctx n).pasts = s.pasts := rfl
@[simp] theorem send_ports (ctx : Nat) (n : Node) : (s.send ctx n).ports = s.ports := rfl
@[simp] theorem send_stagingFree (ctx : Nat) (n : Node) : (s.send ctx n).stagingFree = s.stagingFree := rfl
@[simp] theorem send_windows (ctx : Nat) (n : Node) : (s.send ctx n).windows = s.windows := rfl
@[simp] theorem send_ucies (ctx : Nat) (n : Node) : (s.send ctx n).ucies = s.ucies := rfl
@[simp] theorem send_linkHeld (ctx : Nat) (n : Node) : (s.send ctx n).linkHeld = s.linkHeld := rfl
@[simp] theorem send_hostHeld (ctx : Nat) (n : Node) : (s.send ctx n).hostHeld = s.hostHeld := rfl
@[simp] theorem send_due (ctx : Nat) (n : Node) : (s.send ctx n).due = s.due := rfl
@[simp] theorem send_otpKey (ctx : Nat) (n : Node) : (s.send ctx n).otpKey = s.otpKey := rfl
@[simp] theorem send_idKey (ctx : Nat) (n : Node) : (s.send ctx n).idKey = s.idKey := rfl
@[simp] theorem send_otpLeaf (ctx : Nat) (n : Node) : (s.send ctx n).otpLeaf = s.otpLeaf := rfl
@[simp] theorem send_otpLeft (ctx : Nat) (n : Node) : (s.send ctx n).otpLeft = s.otpLeft := rfl
@[simp] theorem send_hostFw (ctx : Nat) (n : Node) : (s.send ctx n).hostFw = s.hostFw := rfl
@[simp] theorem send_fwFailures (ctx : Nat) (n : Node) : (s.send ctx n).fwFailures = s.fwFailures := rfl
@[simp] theorem send_reports (ctx : Nat) (n : Node) : (s.send ctx n).reports = s.reports := rfl
@[simp] theorem send_islands (ctx : Nat) (n : Node) : (s.send ctx n).islands = s.islands := rfl
@[simp] theorem send_dies (ctx : Nat) (n : Node) : (s.send ctx n).dies = s.dies := rfl
@[simp] theorem send_cores (ctx : Nat) (n : Node) : (s.send ctx n).cores = s.cores := rfl
@[simp] theorem send_quads (ctx : Nat) (n : Node) : (s.send ctx n).quads = s.quads := rfl
@[simp] theorem send_agents (ctx : Nat) (n : Node) : (s.send ctx n).agents = s.agents := rfl
@[simp] theorem send_queues (ctx : Nat) (n : Node) : (s.send ctx n).queues = s.queues := rfl
@[simp] theorem send_rr (ctx : Nat) (n : Node) : (s.send ctx n).rr = s.rr := rfl
@[simp] theorem send_letterboxes (ctx : Nat) (n : Node) : (s.send ctx n).letterboxes = s.letterboxes := rfl
@[simp] theorem send_launches (ctx : Nat) (n : Node) : (s.send ctx n).launches = s.launches := rfl
@[simp] theorem send_pools (ctx : Nat) (n : Node) : (s.send ctx n).pools = s.pools := rfl
@[simp] theorem send_teams (ctx : Nat) (n : Node) : (s.send ctx n).teams = s.teams := rfl
@[simp] theorem send_accs (ctx : Nat) (n : Node) : (s.send ctx n).accs = s.accs := rfl
@[simp] theorem send_copies (ctx : Nat) (n : Node) : (s.send ctx n).copies = s.copies := rfl
@[simp] theorem send_tiles (ctx : Nat) (n : Node) : (s.send ctx n).tiles = s.tiles := rfl
@[simp] theorem send_images (ctx : Nat) (n : Node) : (s.send ctx n).images = s.images := rfl
@[simp] theorem send_events (ctx : Nat) (n : Node) : (s.send ctx n).events = s.events := rfl
@[simp] theorem send_slot (ctx : Nat) (n : Node) : (s.send ctx n).slot = s.slot := rfl
@[simp] theorem send_cycle (ctx : Nat) (n : Node) : (s.send ctx n).cycle = s.cycle := rfl
@[simp] theorem send_stalled (ctx : Nat) (n : Node) : (s.send ctx n).stalled = s.stalled := rfl
@[simp] theorem send_urgent (ctx : Nat) (n : Node) : (s.send ctx n).urgent = s.urgent := rfl
@[simp] theorem send_blocked (ctx : Nat) (n : Node) : (s.send ctx n).blocked = s.blocked := rfl
@[simp] theorem send_unforeseen (ctx : Nat) (n : Node) : (s.send ctx n).unforeseen = s.unforeseen := rfl
@[simp] theorem send_fresh (ctx : Nat) (n : Node) : (s.send ctx n).fresh = s.fresh := rfl
@[simp] theorem send_nextId (ctx : Nat) (n : Node) : (s.send ctx n).nextId = s.nextId := rfl

/-! `recv` -/

@[simp] theorem recv_chip (ctx : Nat) (n : Node) : (s.recv ctx n).chip = s.chip := rfl
@[simp] theorem recv_mem (ctx : Nat) (n : Node) : (s.recv ctx n).mem = s.mem := rfl
@[simp] theorem recv_poison (ctx : Nat) (n : Node) : (s.recv ctx n).poison = s.poison := rfl
@[simp] theorem recv_serial (ctx : Nat) (n : Node) : (s.recv ctx n).serial = s.serial := rfl
@[simp] theorem recv_boot (ctx : Nat) (n : Node) : (s.recv ctx n).boot = s.boot := rfl
@[simp] theorem recv_brandSeq (ctx : Nat) (n : Node) : (s.recv ctx n).brandSeq = s.brandSeq := rfl
@[simp] theorem recv_brandBase (ctx : Nat) (n : Node) : (s.recv ctx n).brandBase = s.brandBase := rfl
@[simp] theorem recv_brands (ctx : Nat) (n : Node) : (s.recv ctx n).brands = s.brands := rfl
@[simp] theorem recv_origins (ctx : Nat) (n : Node) : (s.recv ctx n).origins = s.origins := rfl
@[simp] theorem recv_routes (ctx : Nat) (n : Node) : (s.recv ctx n).routes = s.routes := rfl
@[simp] theorem recv_homes (ctx : Nat) (n : Node) : (s.recv ctx n).homes = s.homes := rfl
@[simp] theorem recv_launchOpen (ctx : Nat) (n : Node) : (s.recv ctx n).launchOpen = s.launchOpen := rfl
@[simp] theorem recv_setup (ctx : Nat) (n : Node) : (s.recv ctx n).setup = s.setup := rfl
@[simp] theorem recv_pasts (ctx : Nat) (n : Node) : (s.recv ctx n).pasts = s.pasts := rfl
@[simp] theorem recv_ports (ctx : Nat) (n : Node) : (s.recv ctx n).ports = s.ports := rfl
@[simp] theorem recv_stagingFree (ctx : Nat) (n : Node) : (s.recv ctx n).stagingFree = s.stagingFree := rfl
@[simp] theorem recv_windows (ctx : Nat) (n : Node) : (s.recv ctx n).windows = s.windows := rfl
@[simp] theorem recv_ucies (ctx : Nat) (n : Node) : (s.recv ctx n).ucies = s.ucies := rfl
@[simp] theorem recv_linkHeld (ctx : Nat) (n : Node) : (s.recv ctx n).linkHeld = s.linkHeld := rfl
@[simp] theorem recv_hostHeld (ctx : Nat) (n : Node) : (s.recv ctx n).hostHeld = s.hostHeld := rfl
@[simp] theorem recv_due (ctx : Nat) (n : Node) : (s.recv ctx n).due = s.due := rfl
@[simp] theorem recv_otpKey (ctx : Nat) (n : Node) : (s.recv ctx n).otpKey = s.otpKey := rfl
@[simp] theorem recv_idKey (ctx : Nat) (n : Node) : (s.recv ctx n).idKey = s.idKey := rfl
@[simp] theorem recv_otpLeaf (ctx : Nat) (n : Node) : (s.recv ctx n).otpLeaf = s.otpLeaf := rfl
@[simp] theorem recv_otpLeft (ctx : Nat) (n : Node) : (s.recv ctx n).otpLeft = s.otpLeft := rfl
@[simp] theorem recv_hostFw (ctx : Nat) (n : Node) : (s.recv ctx n).hostFw = s.hostFw := rfl
@[simp] theorem recv_fwFailures (ctx : Nat) (n : Node) : (s.recv ctx n).fwFailures = s.fwFailures := rfl
@[simp] theorem recv_reports (ctx : Nat) (n : Node) : (s.recv ctx n).reports = s.reports := rfl
@[simp] theorem recv_islands (ctx : Nat) (n : Node) : (s.recv ctx n).islands = s.islands := rfl
@[simp] theorem recv_dies (ctx : Nat) (n : Node) : (s.recv ctx n).dies = s.dies := rfl
@[simp] theorem recv_cores (ctx : Nat) (n : Node) : (s.recv ctx n).cores = s.cores := rfl
@[simp] theorem recv_quads (ctx : Nat) (n : Node) : (s.recv ctx n).quads = s.quads := rfl
@[simp] theorem recv_agents (ctx : Nat) (n : Node) : (s.recv ctx n).agents = s.agents := rfl
@[simp] theorem recv_queues (ctx : Nat) (n : Node) : (s.recv ctx n).queues = s.queues := rfl
@[simp] theorem recv_rr (ctx : Nat) (n : Node) : (s.recv ctx n).rr = s.rr := rfl
@[simp] theorem recv_letterboxes (ctx : Nat) (n : Node) : (s.recv ctx n).letterboxes = s.letterboxes := rfl
@[simp] theorem recv_launches (ctx : Nat) (n : Node) : (s.recv ctx n).launches = s.launches := rfl
@[simp] theorem recv_pools (ctx : Nat) (n : Node) : (s.recv ctx n).pools = s.pools := rfl
@[simp] theorem recv_teams (ctx : Nat) (n : Node) : (s.recv ctx n).teams = s.teams := rfl
@[simp] theorem recv_accs (ctx : Nat) (n : Node) : (s.recv ctx n).accs = s.accs := rfl
@[simp] theorem recv_copies (ctx : Nat) (n : Node) : (s.recv ctx n).copies = s.copies := rfl
@[simp] theorem recv_tiles (ctx : Nat) (n : Node) : (s.recv ctx n).tiles = s.tiles := rfl
@[simp] theorem recv_images (ctx : Nat) (n : Node) : (s.recv ctx n).images = s.images := rfl
@[simp] theorem recv_events (ctx : Nat) (n : Node) : (s.recv ctx n).events = s.events := rfl
@[simp] theorem recv_slot (ctx : Nat) (n : Node) : (s.recv ctx n).slot = s.slot := rfl
@[simp] theorem recv_cycle (ctx : Nat) (n : Node) : (s.recv ctx n).cycle = s.cycle := rfl
@[simp] theorem recv_stalled (ctx : Nat) (n : Node) : (s.recv ctx n).stalled = s.stalled := rfl
@[simp] theorem recv_urgent (ctx : Nat) (n : Node) : (s.recv ctx n).urgent = s.urgent := rfl
@[simp] theorem recv_blocked (ctx : Nat) (n : Node) : (s.recv ctx n).blocked = s.blocked := rfl
@[simp] theorem recv_unforeseen (ctx : Nat) (n : Node) : (s.recv ctx n).unforeseen = s.unforeseen := rfl
@[simp] theorem recv_fresh (ctx : Nat) (n : Node) : (s.recv ctx n).fresh = s.fresh := rfl
@[simp] theorem recv_nextId (ctx : Nat) (n : Node) : (s.recv ctx n).nextId = s.nextId := rfl

/-! `tick` -/

@[simp] theorem tick_chip (ctx : Nat) : (s.tick ctx).chip = s.chip := rfl
@[simp] theorem tick_mem (ctx : Nat) : (s.tick ctx).mem = s.mem := rfl
@[simp] theorem tick_poison (ctx : Nat) : (s.tick ctx).poison = s.poison := rfl
@[simp] theorem tick_serial (ctx : Nat) : (s.tick ctx).serial = s.serial := rfl
@[simp] theorem tick_boot (ctx : Nat) : (s.tick ctx).boot = s.boot := rfl
@[simp] theorem tick_brandSeq (ctx : Nat) : (s.tick ctx).brandSeq = s.brandSeq := rfl
@[simp] theorem tick_brandBase (ctx : Nat) : (s.tick ctx).brandBase = s.brandBase := rfl
@[simp] theorem tick_brands (ctx : Nat) : (s.tick ctx).brands = s.brands := rfl
@[simp] theorem tick_origins (ctx : Nat) : (s.tick ctx).origins = s.origins := rfl
@[simp] theorem tick_routes (ctx : Nat) : (s.tick ctx).routes = s.routes := rfl
@[simp] theorem tick_homes (ctx : Nat) : (s.tick ctx).homes = s.homes := rfl
@[simp] theorem tick_launchOpen (ctx : Nat) : (s.tick ctx).launchOpen = s.launchOpen := rfl
@[simp] theorem tick_setup (ctx : Nat) : (s.tick ctx).setup = s.setup := rfl
@[simp] theorem tick_pasts (ctx : Nat) : (s.tick ctx).pasts = s.pasts := rfl
@[simp] theorem tick_ports (ctx : Nat) : (s.tick ctx).ports = s.ports := rfl
@[simp] theorem tick_stagingFree (ctx : Nat) : (s.tick ctx).stagingFree = s.stagingFree := rfl
@[simp] theorem tick_windows (ctx : Nat) : (s.tick ctx).windows = s.windows := rfl
@[simp] theorem tick_ucies (ctx : Nat) : (s.tick ctx).ucies = s.ucies := rfl
@[simp] theorem tick_linkHeld (ctx : Nat) : (s.tick ctx).linkHeld = s.linkHeld := rfl
@[simp] theorem tick_hostHeld (ctx : Nat) : (s.tick ctx).hostHeld = s.hostHeld := rfl
@[simp] theorem tick_due (ctx : Nat) : (s.tick ctx).due = s.due := rfl
@[simp] theorem tick_otpKey (ctx : Nat) : (s.tick ctx).otpKey = s.otpKey := rfl
@[simp] theorem tick_idKey (ctx : Nat) : (s.tick ctx).idKey = s.idKey := rfl
@[simp] theorem tick_otpLeaf (ctx : Nat) : (s.tick ctx).otpLeaf = s.otpLeaf := rfl
@[simp] theorem tick_otpLeft (ctx : Nat) : (s.tick ctx).otpLeft = s.otpLeft := rfl
@[simp] theorem tick_hostFw (ctx : Nat) : (s.tick ctx).hostFw = s.hostFw := rfl
@[simp] theorem tick_fwFailures (ctx : Nat) : (s.tick ctx).fwFailures = s.fwFailures := rfl
@[simp] theorem tick_reports (ctx : Nat) : (s.tick ctx).reports = s.reports := rfl
@[simp] theorem tick_islands (ctx : Nat) : (s.tick ctx).islands = s.islands := rfl
@[simp] theorem tick_dies (ctx : Nat) : (s.tick ctx).dies = s.dies := rfl
@[simp] theorem tick_cores (ctx : Nat) : (s.tick ctx).cores = s.cores := rfl
@[simp] theorem tick_quads (ctx : Nat) : (s.tick ctx).quads = s.quads := rfl
@[simp] theorem tick_agents (ctx : Nat) : (s.tick ctx).agents = s.agents := rfl
@[simp] theorem tick_queues (ctx : Nat) : (s.tick ctx).queues = s.queues := rfl
@[simp] theorem tick_rr (ctx : Nat) : (s.tick ctx).rr = s.rr := rfl
@[simp] theorem tick_letterboxes (ctx : Nat) : (s.tick ctx).letterboxes = s.letterboxes := rfl
@[simp] theorem tick_launches (ctx : Nat) : (s.tick ctx).launches = s.launches := rfl
@[simp] theorem tick_pools (ctx : Nat) : (s.tick ctx).pools = s.pools := rfl
@[simp] theorem tick_teams (ctx : Nat) : (s.tick ctx).teams = s.teams := rfl
@[simp] theorem tick_accs (ctx : Nat) : (s.tick ctx).accs = s.accs := rfl
@[simp] theorem tick_copies (ctx : Nat) : (s.tick ctx).copies = s.copies := rfl
@[simp] theorem tick_tiles (ctx : Nat) : (s.tick ctx).tiles = s.tiles := rfl
@[simp] theorem tick_images (ctx : Nat) : (s.tick ctx).images = s.images := rfl
@[simp] theorem tick_events (ctx : Nat) : (s.tick ctx).events = s.events := rfl
@[simp] theorem tick_slot (ctx : Nat) : (s.tick ctx).slot = s.slot := rfl
@[simp] theorem tick_cycle (ctx : Nat) : (s.tick ctx).cycle = s.cycle := rfl
@[simp] theorem tick_stalled (ctx : Nat) : (s.tick ctx).stalled = s.stalled := rfl
@[simp] theorem tick_urgent (ctx : Nat) : (s.tick ctx).urgent = s.urgent := rfl
@[simp] theorem tick_blocked (ctx : Nat) : (s.tick ctx).blocked = s.blocked := rfl
@[simp] theorem tick_unforeseen (ctx : Nat) : (s.tick ctx).unforeseen = s.unforeseen := rfl
@[simp] theorem tick_fresh (ctx : Nat) : (s.tick ctx).fresh = s.fresh := rfl
@[simp] theorem tick_nextId (ctx : Nat) : (s.tick ctx).nextId = s.nextId := rfl

/-! `freeNat` -/

@[simp] theorem freeNat_fresh : (s.freeNat).2.fresh = s.fresh + 1 := rfl
@[simp] theorem freeNat_chip : (s.freeNat).2.chip = s.chip := rfl
@[simp] theorem freeNat_mem : (s.freeNat).2.mem = s.mem := rfl
@[simp] theorem freeNat_poison : (s.freeNat).2.poison = s.poison := rfl
@[simp] theorem freeNat_serial : (s.freeNat).2.serial = s.serial := rfl
@[simp] theorem freeNat_boot : (s.freeNat).2.boot = s.boot := rfl
@[simp] theorem freeNat_brandSeq : (s.freeNat).2.brandSeq = s.brandSeq := rfl
@[simp] theorem freeNat_brandBase : (s.freeNat).2.brandBase = s.brandBase := rfl
@[simp] theorem freeNat_brands : (s.freeNat).2.brands = s.brands := rfl
@[simp] theorem freeNat_origins : (s.freeNat).2.origins = s.origins := rfl
@[simp] theorem freeNat_routes : (s.freeNat).2.routes = s.routes := rfl
@[simp] theorem freeNat_homes : (s.freeNat).2.homes = s.homes := rfl
@[simp] theorem freeNat_launchOpen : (s.freeNat).2.launchOpen = s.launchOpen := rfl
@[simp] theorem freeNat_setup : (s.freeNat).2.setup = s.setup := rfl
@[simp] theorem freeNat_pasts : (s.freeNat).2.pasts = s.pasts := rfl
@[simp] theorem freeNat_ports : (s.freeNat).2.ports = s.ports := rfl
@[simp] theorem freeNat_stagingFree : (s.freeNat).2.stagingFree = s.stagingFree := rfl
@[simp] theorem freeNat_windows : (s.freeNat).2.windows = s.windows := rfl
@[simp] theorem freeNat_ucies : (s.freeNat).2.ucies = s.ucies := rfl
@[simp] theorem freeNat_linkHeld : (s.freeNat).2.linkHeld = s.linkHeld := rfl
@[simp] theorem freeNat_hostHeld : (s.freeNat).2.hostHeld = s.hostHeld := rfl
@[simp] theorem freeNat_due : (s.freeNat).2.due = s.due := rfl
@[simp] theorem freeNat_otpKey : (s.freeNat).2.otpKey = s.otpKey := rfl
@[simp] theorem freeNat_idKey : (s.freeNat).2.idKey = s.idKey := rfl
@[simp] theorem freeNat_otpLeaf : (s.freeNat).2.otpLeaf = s.otpLeaf := rfl
@[simp] theorem freeNat_otpLeft : (s.freeNat).2.otpLeft = s.otpLeft := rfl
@[simp] theorem freeNat_hostFw : (s.freeNat).2.hostFw = s.hostFw := rfl
@[simp] theorem freeNat_fwFailures : (s.freeNat).2.fwFailures = s.fwFailures := rfl
@[simp] theorem freeNat_reports : (s.freeNat).2.reports = s.reports := rfl
@[simp] theorem freeNat_islands : (s.freeNat).2.islands = s.islands := rfl
@[simp] theorem freeNat_dies : (s.freeNat).2.dies = s.dies := rfl
@[simp] theorem freeNat_cores : (s.freeNat).2.cores = s.cores := rfl
@[simp] theorem freeNat_quads : (s.freeNat).2.quads = s.quads := rfl
@[simp] theorem freeNat_agents : (s.freeNat).2.agents = s.agents := rfl
@[simp] theorem freeNat_ctxs : (s.freeNat).2.ctxs = s.ctxs := rfl
@[simp] theorem freeNat_queues : (s.freeNat).2.queues = s.queues := rfl
@[simp] theorem freeNat_rr : (s.freeNat).2.rr = s.rr := rfl
@[simp] theorem freeNat_letterboxes : (s.freeNat).2.letterboxes = s.letterboxes := rfl
@[simp] theorem freeNat_launches : (s.freeNat).2.launches = s.launches := rfl
@[simp] theorem freeNat_pools : (s.freeNat).2.pools = s.pools := rfl
@[simp] theorem freeNat_teams : (s.freeNat).2.teams = s.teams := rfl
@[simp] theorem freeNat_accs : (s.freeNat).2.accs = s.accs := rfl
@[simp] theorem freeNat_copies : (s.freeNat).2.copies = s.copies := rfl
@[simp] theorem freeNat_tiles : (s.freeNat).2.tiles = s.tiles := rfl
@[simp] theorem freeNat_images : (s.freeNat).2.images = s.images := rfl
@[simp] theorem freeNat_events : (s.freeNat).2.events = s.events := rfl
@[simp] theorem freeNat_slot : (s.freeNat).2.slot = s.slot := rfl
@[simp] theorem freeNat_cycle : (s.freeNat).2.cycle = s.cycle := rfl
@[simp] theorem freeNat_stalled : (s.freeNat).2.stalled = s.stalled := rfl
@[simp] theorem freeNat_urgent : (s.freeNat).2.urgent = s.urgent := rfl
@[simp] theorem freeNat_blocked : (s.freeNat).2.blocked = s.blocked := rfl
@[simp] theorem freeNat_unforeseen : (s.freeNat).2.unforeseen = s.unforeseen := rfl
@[simp] theorem freeNat_nextId : (s.freeNat).2.nextId = s.nextId := rfl

/-! `freeBool` -/

@[simp] theorem freeBool_fresh : (s.freeBool).2.fresh = s.fresh + 1 := rfl
@[simp] theorem freeBool_chip : (s.freeBool).2.chip = s.chip := rfl
@[simp] theorem freeBool_mem : (s.freeBool).2.mem = s.mem := rfl
@[simp] theorem freeBool_poison : (s.freeBool).2.poison = s.poison := rfl
@[simp] theorem freeBool_serial : (s.freeBool).2.serial = s.serial := rfl
@[simp] theorem freeBool_boot : (s.freeBool).2.boot = s.boot := rfl
@[simp] theorem freeBool_brandSeq : (s.freeBool).2.brandSeq = s.brandSeq := rfl
@[simp] theorem freeBool_brandBase : (s.freeBool).2.brandBase = s.brandBase := rfl
@[simp] theorem freeBool_brands : (s.freeBool).2.brands = s.brands := rfl
@[simp] theorem freeBool_origins : (s.freeBool).2.origins = s.origins := rfl
@[simp] theorem freeBool_routes : (s.freeBool).2.routes = s.routes := rfl
@[simp] theorem freeBool_homes : (s.freeBool).2.homes = s.homes := rfl
@[simp] theorem freeBool_launchOpen : (s.freeBool).2.launchOpen = s.launchOpen := rfl
@[simp] theorem freeBool_setup : (s.freeBool).2.setup = s.setup := rfl
@[simp] theorem freeBool_pasts : (s.freeBool).2.pasts = s.pasts := rfl
@[simp] theorem freeBool_ports : (s.freeBool).2.ports = s.ports := rfl
@[simp] theorem freeBool_stagingFree : (s.freeBool).2.stagingFree = s.stagingFree := rfl
@[simp] theorem freeBool_windows : (s.freeBool).2.windows = s.windows := rfl
@[simp] theorem freeBool_ucies : (s.freeBool).2.ucies = s.ucies := rfl
@[simp] theorem freeBool_linkHeld : (s.freeBool).2.linkHeld = s.linkHeld := rfl
@[simp] theorem freeBool_hostHeld : (s.freeBool).2.hostHeld = s.hostHeld := rfl
@[simp] theorem freeBool_due : (s.freeBool).2.due = s.due := rfl
@[simp] theorem freeBool_otpKey : (s.freeBool).2.otpKey = s.otpKey := rfl
@[simp] theorem freeBool_idKey : (s.freeBool).2.idKey = s.idKey := rfl
@[simp] theorem freeBool_otpLeaf : (s.freeBool).2.otpLeaf = s.otpLeaf := rfl
@[simp] theorem freeBool_otpLeft : (s.freeBool).2.otpLeft = s.otpLeft := rfl
@[simp] theorem freeBool_hostFw : (s.freeBool).2.hostFw = s.hostFw := rfl
@[simp] theorem freeBool_fwFailures : (s.freeBool).2.fwFailures = s.fwFailures := rfl
@[simp] theorem freeBool_reports : (s.freeBool).2.reports = s.reports := rfl
@[simp] theorem freeBool_islands : (s.freeBool).2.islands = s.islands := rfl
@[simp] theorem freeBool_dies : (s.freeBool).2.dies = s.dies := rfl
@[simp] theorem freeBool_cores : (s.freeBool).2.cores = s.cores := rfl
@[simp] theorem freeBool_quads : (s.freeBool).2.quads = s.quads := rfl
@[simp] theorem freeBool_agents : (s.freeBool).2.agents = s.agents := rfl
@[simp] theorem freeBool_ctxs : (s.freeBool).2.ctxs = s.ctxs := rfl
@[simp] theorem freeBool_queues : (s.freeBool).2.queues = s.queues := rfl
@[simp] theorem freeBool_rr : (s.freeBool).2.rr = s.rr := rfl
@[simp] theorem freeBool_letterboxes : (s.freeBool).2.letterboxes = s.letterboxes := rfl
@[simp] theorem freeBool_launches : (s.freeBool).2.launches = s.launches := rfl
@[simp] theorem freeBool_pools : (s.freeBool).2.pools = s.pools := rfl
@[simp] theorem freeBool_teams : (s.freeBool).2.teams = s.teams := rfl
@[simp] theorem freeBool_accs : (s.freeBool).2.accs = s.accs := rfl
@[simp] theorem freeBool_copies : (s.freeBool).2.copies = s.copies := rfl
@[simp] theorem freeBool_tiles : (s.freeBool).2.tiles = s.tiles := rfl
@[simp] theorem freeBool_images : (s.freeBool).2.images = s.images := rfl
@[simp] theorem freeBool_events : (s.freeBool).2.events = s.events := rfl
@[simp] theorem freeBool_slot : (s.freeBool).2.slot = s.slot := rfl
@[simp] theorem freeBool_cycle : (s.freeBool).2.cycle = s.cycle := rfl
@[simp] theorem freeBool_stalled : (s.freeBool).2.stalled = s.stalled := rfl
@[simp] theorem freeBool_urgent : (s.freeBool).2.urgent = s.urgent := rfl
@[simp] theorem freeBool_blocked : (s.freeBool).2.blocked = s.blocked := rfl
@[simp] theorem freeBool_unforeseen : (s.freeBool).2.unforeseen = s.unforeseen := rfl
@[simp] theorem freeBool_nextId : (s.freeBool).2.nextId = s.nextId := rfl

/-! `freeWord` -/

@[simp] theorem freeWord_fresh : (s.freeWord).2.fresh = s.fresh + 1 := rfl
@[simp] theorem freeWord_chip : (s.freeWord).2.chip = s.chip := rfl
@[simp] theorem freeWord_mem : (s.freeWord).2.mem = s.mem := rfl
@[simp] theorem freeWord_poison : (s.freeWord).2.poison = s.poison := rfl
@[simp] theorem freeWord_serial : (s.freeWord).2.serial = s.serial := rfl
@[simp] theorem freeWord_boot : (s.freeWord).2.boot = s.boot := rfl
@[simp] theorem freeWord_brandSeq : (s.freeWord).2.brandSeq = s.brandSeq := rfl
@[simp] theorem freeWord_brandBase : (s.freeWord).2.brandBase = s.brandBase := rfl
@[simp] theorem freeWord_brands : (s.freeWord).2.brands = s.brands := rfl
@[simp] theorem freeWord_origins : (s.freeWord).2.origins = s.origins := rfl
@[simp] theorem freeWord_routes : (s.freeWord).2.routes = s.routes := rfl
@[simp] theorem freeWord_homes : (s.freeWord).2.homes = s.homes := rfl
@[simp] theorem freeWord_launchOpen : (s.freeWord).2.launchOpen = s.launchOpen := rfl
@[simp] theorem freeWord_setup : (s.freeWord).2.setup = s.setup := rfl
@[simp] theorem freeWord_pasts : (s.freeWord).2.pasts = s.pasts := rfl
@[simp] theorem freeWord_ports : (s.freeWord).2.ports = s.ports := rfl
@[simp] theorem freeWord_stagingFree : (s.freeWord).2.stagingFree = s.stagingFree := rfl
@[simp] theorem freeWord_windows : (s.freeWord).2.windows = s.windows := rfl
@[simp] theorem freeWord_ucies : (s.freeWord).2.ucies = s.ucies := rfl
@[simp] theorem freeWord_linkHeld : (s.freeWord).2.linkHeld = s.linkHeld := rfl
@[simp] theorem freeWord_hostHeld : (s.freeWord).2.hostHeld = s.hostHeld := rfl
@[simp] theorem freeWord_due : (s.freeWord).2.due = s.due := rfl
@[simp] theorem freeWord_otpKey : (s.freeWord).2.otpKey = s.otpKey := rfl
@[simp] theorem freeWord_idKey : (s.freeWord).2.idKey = s.idKey := rfl
@[simp] theorem freeWord_otpLeaf : (s.freeWord).2.otpLeaf = s.otpLeaf := rfl
@[simp] theorem freeWord_otpLeft : (s.freeWord).2.otpLeft = s.otpLeft := rfl
@[simp] theorem freeWord_hostFw : (s.freeWord).2.hostFw = s.hostFw := rfl
@[simp] theorem freeWord_fwFailures : (s.freeWord).2.fwFailures = s.fwFailures := rfl
@[simp] theorem freeWord_reports : (s.freeWord).2.reports = s.reports := rfl
@[simp] theorem freeWord_islands : (s.freeWord).2.islands = s.islands := rfl
@[simp] theorem freeWord_dies : (s.freeWord).2.dies = s.dies := rfl
@[simp] theorem freeWord_cores : (s.freeWord).2.cores = s.cores := rfl
@[simp] theorem freeWord_quads : (s.freeWord).2.quads = s.quads := rfl
@[simp] theorem freeWord_agents : (s.freeWord).2.agents = s.agents := rfl
@[simp] theorem freeWord_ctxs : (s.freeWord).2.ctxs = s.ctxs := rfl
@[simp] theorem freeWord_queues : (s.freeWord).2.queues = s.queues := rfl
@[simp] theorem freeWord_rr : (s.freeWord).2.rr = s.rr := rfl
@[simp] theorem freeWord_letterboxes : (s.freeWord).2.letterboxes = s.letterboxes := rfl
@[simp] theorem freeWord_launches : (s.freeWord).2.launches = s.launches := rfl
@[simp] theorem freeWord_pools : (s.freeWord).2.pools = s.pools := rfl
@[simp] theorem freeWord_teams : (s.freeWord).2.teams = s.teams := rfl
@[simp] theorem freeWord_accs : (s.freeWord).2.accs = s.accs := rfl
@[simp] theorem freeWord_copies : (s.freeWord).2.copies = s.copies := rfl
@[simp] theorem freeWord_tiles : (s.freeWord).2.tiles = s.tiles := rfl
@[simp] theorem freeWord_images : (s.freeWord).2.images = s.images := rfl
@[simp] theorem freeWord_events : (s.freeWord).2.events = s.events := rfl
@[simp] theorem freeWord_slot : (s.freeWord).2.slot = s.slot := rfl
@[simp] theorem freeWord_cycle : (s.freeWord).2.cycle = s.cycle := rfl
@[simp] theorem freeWord_stalled : (s.freeWord).2.stalled = s.stalled := rfl
@[simp] theorem freeWord_urgent : (s.freeWord).2.urgent = s.urgent := rfl
@[simp] theorem freeWord_blocked : (s.freeWord).2.blocked = s.blocked := rfl
@[simp] theorem freeWord_unforeseen : (s.freeWord).2.unforeseen = s.unforeseen := rfl
@[simp] theorem freeWord_nextId : (s.freeWord).2.nextId = s.nextId := rfl

/-! `freeDword` -/

@[simp] theorem freeDword_fresh : (s.freeDword).2.fresh = s.fresh + 1 := rfl
@[simp] theorem freeDword_chip : (s.freeDword).2.chip = s.chip := rfl
@[simp] theorem freeDword_mem : (s.freeDword).2.mem = s.mem := rfl
@[simp] theorem freeDword_poison : (s.freeDword).2.poison = s.poison := rfl
@[simp] theorem freeDword_serial : (s.freeDword).2.serial = s.serial := rfl
@[simp] theorem freeDword_boot : (s.freeDword).2.boot = s.boot := rfl
@[simp] theorem freeDword_brandSeq : (s.freeDword).2.brandSeq = s.brandSeq := rfl
@[simp] theorem freeDword_brandBase : (s.freeDword).2.brandBase = s.brandBase := rfl
@[simp] theorem freeDword_brands : (s.freeDword).2.brands = s.brands := rfl
@[simp] theorem freeDword_origins : (s.freeDword).2.origins = s.origins := rfl
@[simp] theorem freeDword_routes : (s.freeDword).2.routes = s.routes := rfl
@[simp] theorem freeDword_homes : (s.freeDword).2.homes = s.homes := rfl
@[simp] theorem freeDword_launchOpen : (s.freeDword).2.launchOpen = s.launchOpen := rfl
@[simp] theorem freeDword_setup : (s.freeDword).2.setup = s.setup := rfl
@[simp] theorem freeDword_pasts : (s.freeDword).2.pasts = s.pasts := rfl
@[simp] theorem freeDword_ports : (s.freeDword).2.ports = s.ports := rfl
@[simp] theorem freeDword_stagingFree : (s.freeDword).2.stagingFree = s.stagingFree := rfl
@[simp] theorem freeDword_windows : (s.freeDword).2.windows = s.windows := rfl
@[simp] theorem freeDword_ucies : (s.freeDword).2.ucies = s.ucies := rfl
@[simp] theorem freeDword_linkHeld : (s.freeDword).2.linkHeld = s.linkHeld := rfl
@[simp] theorem freeDword_hostHeld : (s.freeDword).2.hostHeld = s.hostHeld := rfl
@[simp] theorem freeDword_due : (s.freeDword).2.due = s.due := rfl
@[simp] theorem freeDword_otpKey : (s.freeDword).2.otpKey = s.otpKey := rfl
@[simp] theorem freeDword_idKey : (s.freeDword).2.idKey = s.idKey := rfl
@[simp] theorem freeDword_otpLeaf : (s.freeDword).2.otpLeaf = s.otpLeaf := rfl
@[simp] theorem freeDword_otpLeft : (s.freeDword).2.otpLeft = s.otpLeft := rfl
@[simp] theorem freeDword_hostFw : (s.freeDword).2.hostFw = s.hostFw := rfl
@[simp] theorem freeDword_fwFailures : (s.freeDword).2.fwFailures = s.fwFailures := rfl
@[simp] theorem freeDword_reports : (s.freeDword).2.reports = s.reports := rfl
@[simp] theorem freeDword_islands : (s.freeDword).2.islands = s.islands := rfl
@[simp] theorem freeDword_dies : (s.freeDword).2.dies = s.dies := rfl
@[simp] theorem freeDword_cores : (s.freeDword).2.cores = s.cores := rfl
@[simp] theorem freeDword_quads : (s.freeDword).2.quads = s.quads := rfl
@[simp] theorem freeDword_agents : (s.freeDword).2.agents = s.agents := rfl
@[simp] theorem freeDword_ctxs : (s.freeDword).2.ctxs = s.ctxs := rfl
@[simp] theorem freeDword_queues : (s.freeDword).2.queues = s.queues := rfl
@[simp] theorem freeDword_rr : (s.freeDword).2.rr = s.rr := rfl
@[simp] theorem freeDword_letterboxes : (s.freeDword).2.letterboxes = s.letterboxes := rfl
@[simp] theorem freeDword_launches : (s.freeDword).2.launches = s.launches := rfl
@[simp] theorem freeDword_pools : (s.freeDword).2.pools = s.pools := rfl
@[simp] theorem freeDword_teams : (s.freeDword).2.teams = s.teams := rfl
@[simp] theorem freeDword_accs : (s.freeDword).2.accs = s.accs := rfl
@[simp] theorem freeDword_copies : (s.freeDword).2.copies = s.copies := rfl
@[simp] theorem freeDword_tiles : (s.freeDword).2.tiles = s.tiles := rfl
@[simp] theorem freeDword_images : (s.freeDword).2.images = s.images := rfl
@[simp] theorem freeDword_events : (s.freeDword).2.events = s.events := rfl
@[simp] theorem freeDword_slot : (s.freeDword).2.slot = s.slot := rfl
@[simp] theorem freeDword_cycle : (s.freeDword).2.cycle = s.cycle := rfl
@[simp] theorem freeDword_stalled : (s.freeDword).2.stalled = s.stalled := rfl
@[simp] theorem freeDword_urgent : (s.freeDword).2.urgent = s.urgent := rfl
@[simp] theorem freeDword_blocked : (s.freeDword).2.blocked = s.blocked := rfl
@[simp] theorem freeDword_unforeseen : (s.freeDword).2.unforeseen = s.unforeseen := rfl
@[simp] theorem freeDword_nextId : (s.freeDword).2.nextId = s.nextId := rfl

/-! `newId` -/

@[simp] theorem newId_nextId : s.newId.2.nextId = s.nextId + 1 := rfl
@[simp] theorem newId_chip : s.newId.2.chip = s.chip := rfl
@[simp] theorem newId_mem : s.newId.2.mem = s.mem := rfl
@[simp] theorem newId_poison : s.newId.2.poison = s.poison := rfl
@[simp] theorem newId_serial : s.newId.2.serial = s.serial := rfl
@[simp] theorem newId_boot : s.newId.2.boot = s.boot := rfl
@[simp] theorem newId_brandSeq : s.newId.2.brandSeq = s.brandSeq := rfl
@[simp] theorem newId_brandBase : s.newId.2.brandBase = s.brandBase := rfl
@[simp] theorem newId_brands : s.newId.2.brands = s.brands := rfl
@[simp] theorem newId_origins : s.newId.2.origins = s.origins := rfl
@[simp] theorem newId_routes : s.newId.2.routes = s.routes := rfl
@[simp] theorem newId_homes : s.newId.2.homes = s.homes := rfl
@[simp] theorem newId_launchOpen : s.newId.2.launchOpen = s.launchOpen := rfl
@[simp] theorem newId_setup : s.newId.2.setup = s.setup := rfl
@[simp] theorem newId_pasts : s.newId.2.pasts = s.pasts := rfl
@[simp] theorem newId_ports : s.newId.2.ports = s.ports := rfl
@[simp] theorem newId_stagingFree : s.newId.2.stagingFree = s.stagingFree := rfl
@[simp] theorem newId_windows : s.newId.2.windows = s.windows := rfl
@[simp] theorem newId_ucies : s.newId.2.ucies = s.ucies := rfl
@[simp] theorem newId_linkHeld : s.newId.2.linkHeld = s.linkHeld := rfl
@[simp] theorem newId_hostHeld : s.newId.2.hostHeld = s.hostHeld := rfl
@[simp] theorem newId_due : s.newId.2.due = s.due := rfl
@[simp] theorem newId_otpKey : s.newId.2.otpKey = s.otpKey := rfl
@[simp] theorem newId_idKey : s.newId.2.idKey = s.idKey := rfl
@[simp] theorem newId_otpLeaf : s.newId.2.otpLeaf = s.otpLeaf := rfl
@[simp] theorem newId_otpLeft : s.newId.2.otpLeft = s.otpLeft := rfl
@[simp] theorem newId_hostFw : s.newId.2.hostFw = s.hostFw := rfl
@[simp] theorem newId_fwFailures : s.newId.2.fwFailures = s.fwFailures := rfl
@[simp] theorem newId_reports : s.newId.2.reports = s.reports := rfl
@[simp] theorem newId_islands : s.newId.2.islands = s.islands := rfl
@[simp] theorem newId_dies : s.newId.2.dies = s.dies := rfl
@[simp] theorem newId_cores : s.newId.2.cores = s.cores := rfl
@[simp] theorem newId_quads : s.newId.2.quads = s.quads := rfl
@[simp] theorem newId_agents : s.newId.2.agents = s.agents := rfl
@[simp] theorem newId_ctxs : s.newId.2.ctxs = s.ctxs := rfl
@[simp] theorem newId_queues : s.newId.2.queues = s.queues := rfl
@[simp] theorem newId_rr : s.newId.2.rr = s.rr := rfl
@[simp] theorem newId_letterboxes : s.newId.2.letterboxes = s.letterboxes := rfl
@[simp] theorem newId_launches : s.newId.2.launches = s.launches := rfl
@[simp] theorem newId_pools : s.newId.2.pools = s.pools := rfl
@[simp] theorem newId_teams : s.newId.2.teams = s.teams := rfl
@[simp] theorem newId_accs : s.newId.2.accs = s.accs := rfl
@[simp] theorem newId_copies : s.newId.2.copies = s.copies := rfl
@[simp] theorem newId_tiles : s.newId.2.tiles = s.tiles := rfl
@[simp] theorem newId_images : s.newId.2.images = s.images := rfl
@[simp] theorem newId_events : s.newId.2.events = s.events := rfl
@[simp] theorem newId_slot : s.newId.2.slot = s.slot := rfl
@[simp] theorem newId_cycle : s.newId.2.cycle = s.cycle := rfl
@[simp] theorem newId_stalled : s.newId.2.stalled = s.stalled := rfl
@[simp] theorem newId_urgent : s.newId.2.urgent = s.urgent := rfl
@[simp] theorem newId_blocked : s.newId.2.blocked = s.blocked := rfl
@[simp] theorem newId_unforeseen : s.newId.2.unforeseen = s.unforeseen := rfl
@[simp] theorem newId_fresh : s.newId.2.fresh = s.fresh := rfl

end Sys2Proof.Machine.State
end

