-- ==== Sys2Proof/Laws/Groups.lean ====
section
/-! SUPPORT. What a change of one group, and of some of its lanes, leaves and gives. -/

namespace Sys2Proof.Machine

/-! ### Changing the items a test picks -/

theorem find?_modWhere {α : Type} {p : α → Bool} {f : α → α} (hp : ∀ x, p (f x) = p x) (l : List α) :
    (modWhere p f l).find? p = (l.find? p).map f := by
  induction l with
  | nil => rfl
  | cons x rest ih =>
    simp only [modWhere, List.map_cons] at ih ⊢
    cases h : p x with
    | true => simp [List.find?, h, hp]
    | false => simpa [List.find?, h] using ih

theorem find?_modWhere_other {α : Type} {p q : α → Bool} {f : α → α} (hq : ∀ x, q (f x) = q x) (h : ∀ x, q x = true → p x = false)
    (l : List α) : (modWhere p f l).find? q = l.find? q := by
  induction l with
  | nil => rfl
  | cons x rest ih =>
    simp only [modWhere, List.map_cons] at ih ⊢
    cases hx : q x with
    | true => simp [List.find?, hx, h x hx]
    | false =>
      have : q (if p x = true then f x else x) = false := by split <;> simp [hx, hq]
      simpa [List.find?, hx, this] using ih

theorem map_modWhere {α β : Type} {p : α → Bool} {f : α → α} {k : α → β} (h : ∀ x, k (f x) = k x) (l : List α) :
    (modWhere p f l).map k = l.map k := by
  induction l with
  | nil => rfl
  | cons x rest ih =>
    simp only [modWhere, List.map_cons] at ih ⊢
    rw [ih]
    split <;> simp [h]

/-! ### A group of the state -/

namespace State

theorem team?_modTeam {s : State} {tid : Nat} {f : Team → Team} (hf : ∀ t, (f t).tid = t.tid) :
    (s.modTeam tid f).team? tid = (s.team? tid).map f := by
  unfold team? modTeam
  exact find?_modWhere (by intro t; simp [hf]) s.teams

theorem team?_modTeam_other {s : State} {tid tid' : Nat} {f : Team → Team} (hf : ∀ t, (f t).tid = t.tid) (h : tid' ≠ tid) :
    (s.modTeam tid f).team? tid' = s.team? tid' := by
  unfold team? modTeam
  refine find?_modWhere_other (by intro t; simp [hf]) ?_ s.teams
  intro t ht
  have : t.tid = tid' := by simpa using ht
  simp [this, h]

/-- The group that was changed. -/
theorem group?_modGroup {s : State} {tid gix : Nat} {f : Group → Group} (hf : ∀ g, (f g).gix = g.gix) :
    (s.modGroup tid gix f).group? tid gix = (s.group? tid gix).map f := by
  unfold group? modGroup
  rw [team?_modTeam (by intro t; rfl)]
  cases s.team? tid with
  | none => rfl
  | some t => exact find?_modWhere (by intro g; simp [hf]) t.groups

/-- Every other group is as it was. -/
theorem group?_modGroup_other {s : State} {tid gix tid' gix' : Nat} {f : Group → Group} (hf : ∀ g, (f g).gix = g.gix)
    (h : tid' = tid → gix' ≠ gix) : (s.modGroup tid gix f).group? tid' gix' = s.group? tid' gix' := by
  unfold group? modGroup
  by_cases ht : tid' = tid
  · subst ht
    rw [team?_modTeam (by intro t; rfl)]
    cases s.team? tid' with
    | none => rfl
    | some t =>
      refine find?_modWhere_other (by intro g; simp [hf]) ?_ t.groups
      intro g hg
      have : g.gix = gix' := by simpa using hg
      simp [this, h rfl]
  · rw [team?_modTeam_other (by intro t; rfl) ht]

end State

/-- A change of one group. -/
theorem groupStep_modGroup {t : State} {tid gix : Nat} {f : Group → Group} {R : Group → Group → Prop} (hf : ∀ g, (f g).gix = g.gix)
    (hR : ∀ g, t.group? tid gix = some g → R g (f g)) : GroupStep tid gix t (t.modGroup tid gix f) R where
  rest := rfl
  teams := map_modWhere (by intro m; rfl) t.teams
  others := fun _ _ h => State.group?_modGroup_other hf h
  mine := fun g hg => ⟨f g, by rw [State.group?_modGroup hf, hg]; rfl, hR g hg⟩

/-- No change. -/
theorem groupStep_refl {t : State} {tid gix : Nat} {R : Group → Group → Prop} (hR : ∀ g, t.group? tid gix = some g → R g g) : GroupStep tid gix t t R where
  rest := rfl
  teams := rfl
  others := fun _ _ _ => rfl
  mine := fun g hg => ⟨g, hg, hR g hg⟩

/-- One change after another. -/
theorem GroupStep.trans {tid gix : Nat} {a b c : State} {R S Q : Group → Group → Prop} (h : GroupStep tid gix a b R) (k : GroupStep tid gix b c S)
    (hQ : ∀ x y z, R x y → S y z → Q x z) : GroupStep tid gix a c Q where
  rest := by rw [k.rest, h.rest]
  teams := k.teams.trans h.teams
  others := fun t g hg => (k.others t g hg).trans (h.others t g hg)
  mine := fun g hg => by
    obtain ⟨g1, h1, r1⟩ := h.mine g hg
    obtain ⟨g2, h2, r2⟩ := k.mine g1 h1
    exact ⟨g2, h2, hQ _ _ _ r1 r2⟩

theorem GroupStep.mono {tid gix : Nat} {a b : State} {R S : Group → Group → Prop} (h : GroupStep tid gix a b R) (hS : ∀ x y, R x y → S x y) :
    GroupStep tid gix a b S where
  rest := h.rest
  teams := h.teams
  others := h.others
  mine := fun g hg => by
    obtain ⟨g1, h1, r1⟩ := h.mine g hg
    exact ⟨g1, h1, hS _ _ r1⟩

/-- Every byte of memory is as it was. -/
theorem GroupStep.mem {tid gix : Nat} {a b : State} {R : Group → Group → Prop} (h : GroupStep tid gix a b R) : b.mem = a.mem := by rw [h.rest]

/-! ### Some lanes of a group -/

namespace Group

theorem onLanes_lanes {α : Type} (g : Group) (xs : List (Nat × α)) (f : α → Lane → Lane) :
    (g.onLanes xs f).lanes = xs.foldl (fun ls p => ls.modify p.1 (f p.2)) g.lanes := rfl

theorem foldl_modify_length {α : Type} (xs : List (Nat × α)) (f : α → Lane → Lane) (ls : List Lane) :
    (xs.foldl (fun ls p => ls.modify p.1 (f p.2)) ls).length = ls.length := by
  induction xs generalizing ls with
  | nil => rfl
  | cons x rest ih => simp [ih]

theorem foldl_modify_get {α : Type} (xs : List (Nat × α)) (f : α → Lane → Lane) (ls : List Lane) (hn : (xs.map (·.1)).Nodup) (j : Nat) :
    (xs.foldl (fun ls p => ls.modify p.1 (f p.2)) ls)[j]? = ls[j]?.map fun l => match xs.find? (·.1 == j) with | some p => f p.2 l | none => l := by
  induction xs generalizing ls with
  | nil => simp
  | cons x rest ih =>
    simp only [List.map_cons, List.nodup_cons] at hn
    rw [List.foldl_cons, ih _ hn.2]
    by_cases hx : x.1 = j
    · have hr : rest.find? (·.1 == j) = none := by
        rw [List.find?_eq_none]
        intro y hy he
        have : y.1 = j := by simpa using he
        exact hn.1 (by rw [hx, ← this]; exact List.mem_map_of_mem hy)
      cases h : ls[j]? <;> simp [hx, hr, h]
    · have : (x.1 == j) = false := by simpa using hx
      simp [List.find?, this, hx]

/-- The lanes after some of them have changed, each once. -/
theorem onLanes_get {α : Type} (g : Group) (xs : List (Nat × α)) (f : α → Lane → Lane) (hn : (xs.map (·.1)).Nodup) (j : Nat) :
    (g.onLanes xs f).lanes[j]? = g.lanes[j]?.map fun l => match xs.find? (·.1 == j) with | some p => f p.2 l | none => l :=
  foldl_modify_get xs f g.lanes hn j

@[simp] theorem onLanes_length {α : Type} (g : Group) (xs : List (Nat × α)) (f : α → Lane → Lane) : (g.onLanes xs f).lanes.length = g.lanes.length :=
  foldl_modify_length xs f g.lanes

@[simp] theorem onLanes_gix {α : Type} (g : Group) (xs : List (Nat × α)) (f : α → Lane → Lane) : (g.onLanes xs f).gix = g.gix := rfl

theorem find?_pairs {α : Type} (js : List Nat) (v : Nat → α) (j : Nat) :
    (js.map fun i => (i, v i)).find? (·.1 == j) = if j ∈ js then some (j, v j) else none := by
  induction js with
  | nil => rfl
  | cons i rest ih =>
    by_cases h : i = j
    · subst h; simp
    · have : (i == j) = false := by simpa using h
      simp [this, ih, Ne.symm h]

/-- The lanes of a list, each with its own datum. -/
theorem onLanes_pairs {α : Type} (g : Group) (js : List Nat) (v : Nat → α) (f : α → Lane → Lane) (hn : js.Nodup) (j : Nat) :
    (g.onLanes (js.map fun i => (i, v i)) f).lanes[j]? = g.lanes[j]?.map fun l => if j ∈ js then f (v j) l else l := by
  rw [onLanes_get _ _ _ (by simpa [List.map_map, Function.comp_def] using hn), find?_pairs]
  congr 1
  funext l
  by_cases h : j ∈ js <;> simp [h]

@[simp] theorem eachLane_length (g : Group) (js : List Nat) (f : Lane → Lane) : (g.eachLane js f).lanes.length = g.lanes.length := by
  have := onLanes_length g (js.map fun j => (j, ())) fun _ => f
  simpa [onLanes, eachLane, List.foldl_map] using this

@[simp] theorem eachLane_gix (g : Group) (js : List Nat) (f : Lane → Lane) : (g.eachLane js f).gix = g.gix := rfl

theorem eachLane_get (g : Group) (js : List Nat) (f : Lane → Lane) (hn : js.Nodup) (j : Nat) :
    (g.eachLane js f).lanes[j]? = g.lanes[j]?.map fun l => if j ∈ js then f l else l := by
  have := onLanes_pairs g js (fun _ => ()) (fun _ => f) hn j
  simpa [onLanes, eachLane, List.foldl_map] using this

/-- Only the lanes of a group that changes its lanes. -/
theorem onLanes_eq {α : Type} (g : Group) (xs : List (Nat × α)) (f : α → Lane → Lane) : g.onLanes xs f = { g with lanes := (g.onLanes xs f).lanes } := rfl

end Group

end Sys2Proof.Machine
end

