-- ==== Sys2Proof/Laws/Integer.lean ====
section
/-! SUPPORT. The integer operations element by element: what an operation on elements gives each element of the result. -/

namespace Sys2Proof

namespace IntTy

theorem elem_lt (ty : IntTy) (x : Dword) (e : Nat) : ty.elem x e < 2 ^ ty.width := Nat.mod_lt _ (Nat.two_pow_pos _)

/-- The elements of an operand, in order. -/
theorem elems_eq (ty : IntTy) (x : Dword) : ty.elems x = (List.range ty.count).map (ty.elem x) := by
  have h : x.toNat % 2 ^ 64 = x.toNat := Nat.mod_eq_of_lt x.isLt
  cases ty <;> simp [elems, elem, count, width, List.range, List.range.loop] <;> omega

/-- Element `e` of joined elements. -/
theorem elem_join (ty : IntTy) (f : Nat → Nat) (e : Nat) (he : e < ty.count) (hf : ∀ i, f i < 2 ^ ty.width) :
    ty.elem (ty.join ((List.range ty.count).map f)) e = f e := by
  have h0 := hf 0
  have h1 := hf 1
  cases ty <;> simp only [count, width, elem] at * <;> simp only [Nat.reduceEqDiff, if_true, if_false] at *
  case s16x2 =>
    obtain rfl | rfl : e = 0 ∨ e = 1 := by omega
    all_goals simp [join, width, List.range, List.range.loop]; omega
  case n16x2 =>
    obtain rfl | rfl : e = 0 ∨ e = 1 := by omega
    all_goals simp [join, width, List.range, List.range.loop]; omega
  all_goals
    obtain rfl : e = 0 := by omega
    simp [join, List.range, List.range.loop]
    omega

theorem zipWith_range (n : Nat) (f : Nat → Nat → Nat) (g h : Nat → Nat) :
    ((List.range n).map g).zipWith f ((List.range n).map h) = (List.range n).map fun i => f (g i) (h i) := by
  simp [List.zipWith_map, List.zipWith_self]

/-- Element `e` of an operation on two operands. -/
theorem elem_map2 (ty : IntTy) (f : Nat → Nat → Nat) (a b : Dword) (e : Nat) (he : e < ty.count) (hf : ∀ i, f (ty.elem a i) (ty.elem b i) < 2 ^ ty.width) :
    ty.elem (ty.map2 f a b) e = f (ty.elem a e) (ty.elem b e) := by
  rw [map2, elems_eq, elems_eq, zipWith_range, elem_join ty _ e he hf]

theorem elem_map1 (ty : IntTy) (f : Nat → Nat) (a : Dword) (e : Nat) (he : e < ty.count) (hf : ∀ i, f (ty.elem a i) < 2 ^ ty.width) :
    ty.elem (ty.map1 f a) e = f (ty.elem a e) := by
  have h : ty.map1 f a = ty.map2 (fun x _ => f x) a a := by cases ty <;> rfl
  rw [h, elem_map2 ty _ a a e he hf]

theorem fit_lt (ty : IntTy) (sat : Bool) (x : Int) : ty.fit sat x < 2 ^ ty.width := by
  unfold fit
  have h : (0 : Int) < 2 ^ ty.width := by cases ty <;> decide
  have h1 := Int.emod_lt_of_pos (if sat then max ty.lo (min ty.hi x) else x) h
  have h2 := Int.emod_nonneg (if sat then max ty.lo (min ty.hi x) else x) (Int.ne_of_gt h)
  have h3 : ((2 ^ ty.width : Nat) : Int) = (2 : Int) ^ ty.width := by cases ty <;> rfl
  omega

theorem fit_wraps (ty : IntTy) (x : Int) : ((ty.fit false x : Nat) : Int) = x % 2 ^ ty.width := by
  unfold fit
  have h : (0 : Int) < 2 ^ ty.width := by cases ty <;> decide
  exact Int.toNat_of_nonneg (Int.emod_nonneg _ (Int.ne_of_gt h))

theorem fit_clamps (ty : IntTy) (x : Int) : ty.toInt (ty.fit true x) = max ty.lo (min ty.hi x) := by
  cases ty <;> simp only [fit, toInt, lo, hi, signed, width] <;> simp <;> omega

/-- What `fit` makes of the exact result (R92). -/
theorem result_of_fit (ty : IntTy) (sat : Bool) (exact : Nat → Int) (r : Dword) (h : ∀ e, e < ty.count → ty.elem r e = ty.fit sat (exact e)) :
    ty.Result sat exact r := by
  intro e he
  cases sat with
  | true => rw [if_pos rfl, val, h e he, fit_clamps]
  | false => rw [if_neg (by decide), h e he, fit_wraps]

theorem count_pos (ty : IntTy) : 0 < ty.count := by cases ty <;> decide

/-- The same for elements that are below `2 ^ w` as they stand. -/
theorem result_of_elem (ty : IntTy) (exact : Nat → Nat) (r : Dword) (h : ∀ e, e < ty.count → ty.elem r e = exact e) :
    ty.Result false (fun e => (exact e : Int)) r := by
  intro e he
  rw [if_neg (by decide)]
  have h1 := h e he
  have h2 := ty.elem_lt r e
  have h3 : ((2 ^ ty.width : Nat) : Int) = (2 : Int) ^ ty.width := by cases ty <;> rfl
  rw [h1] at h2 ⊢
  rw [← h3]
  exact (Int.emod_eq_of_lt (by omega) (by omega)).symm

/-- Two lists over one range, side by side. -/
theorem zip_range (n : Nat) (g h : Nat → Nat) : ((List.range n).map g).zip ((List.range n).map h) = (List.range n).map fun i => (g i, h i) := by
  simp [List.zip, List.zipWith_map, List.zipWith_self]

/-- An element of a multiply-add. -/
theorem elem_mad (ty : IntTy) (sat : Bool) (a b c : Dword) (e : Nat) (he : e < ty.count) :
    ty.elem (IntOp.mad ty sat a b c) e = ty.fit sat (ty.val a e * ty.val b e + ty.val c e) := by
  rw [IntOp.mad, ty.elems_eq, ty.elems_eq, ty.elems_eq, zip_range]
  simp only [List.zipWith_map, List.zipWith_self]
  rw [ty.elem_join (fun i => ty.fit sat (ty.toInt (ty.elem a i) * ty.toInt (ty.elem b i) + ty.toInt (ty.elem c i))) e he fun i => ty.fit_lt _ _]
  rfl

/-- A wrapped element read back. -/
theorem toInt_fit (ty : IntTy) (x : Nat) (h : x < 2 ^ ty.width) : ty.fit false (ty.toInt x) = x := by
  cases ty <;> simp [IntTy.fit, IntTy.toInt, IntTy.width, IntTy.signed] at * <;> omega

/-- An element of a bitwise conjunction. -/
theorem elem_and (ty : IntTy) (a b : Dword) (e : Nat) : ty.elem (a &&& b) e = ty.elem a e &&& ty.elem b e := by
  simp only [IntTy.elem, BitVec.toNat_and]
  apply Nat.eq_of_testBit_eq; intro i
  simp only [Nat.testBit_mod_two_pow, Nat.testBit_and, Nat.testBit_div_two_pow]
  cases decide (i < ty.width) <;> simp

/-- An element of a bitwise disjunction. -/
theorem elem_or (ty : IntTy) (a b : Dword) (e : Nat) : ty.elem (a ||| b) e = ty.elem a e ||| ty.elem b e := by
  simp only [IntTy.elem, BitVec.toNat_or]
  apply Nat.eq_of_testBit_eq; intro i
  simp only [Nat.testBit_mod_two_pow, Nat.testBit_or, Nat.testBit_div_two_pow]
  cases decide (i < ty.width) <;> simp

/-- An element of a bitwise exclusive or. -/
theorem elem_xor (ty : IntTy) (a b : Dword) (e : Nat) : ty.elem (a ^^^ b) e = ty.elem a e ^^^ ty.elem b e := by
  simp only [IntTy.elem, BitVec.toNat_xor]
  apply Nat.eq_of_testBit_eq; intro i
  simp only [Nat.testBit_mod_two_pow, Nat.testBit_xor, Nat.testBit_div_two_pow]
  cases decide (i < ty.width) <;> simp

/-- An element of a conjunction with a complement. -/
theorem elem_andn (ty : IntTy) (a b : Dword) (e : Nat) (he : e < ty.count) : ty.elem (a &&& ~~~b) e = ty.elem a e &&& (2 ^ ty.width - 1 - ty.elem b e) := by
  rw [elem_and]
  congr 1
  apply Nat.eq_of_testBit_eq; intro i
  have h1 : 2 ^ ty.width - 1 - ty.elem b e = 2 ^ ty.width - (ty.elem b e + 1) := by omega
  rw [h1, Nat.testBit_two_pow_sub_succ (ty.elem_lt b e)]
  simp only [IntTy.elem, BitVec.toNat_not, Nat.testBit_mod_two_pow, Nat.testBit_div_two_pow]
  have h2 : 2 ^ 64 - 1 - b.toNat = 2 ^ 64 - (b.toNat + 1) := by omega
  rw [h2, Nat.testBit_two_pow_sub_succ b.isLt]
  by_cases hi : i < ty.width
  · have : ty.width * e + i < 64 := by
      cases ty <;> simp [IntTy.count, IntTy.width] at * <;> omega
    simp [hi]; omega
  · simp [hi]

end IntTy

end Sys2Proof
end

