-- ==== Sys2Proof/Laws/Issue.lean ====
section
/-! SUPPORT. What an instruction in the issue slot does, once its own effect is known: one lemma per shared operation. -/

namespace Sys2Proof.Machine

open Sys2Proof

/-! ### An instruction that is ready -/

/-- What `opening` says. -/
theorem opening_spec {i : Instr} {s : State} {x : Issue} {t : State} (h : opening i s = some (x, t)) :
    ∃ fm sl tm g c, formOf i = some fm ∧ s.issue? = some (sl, tm, g, c) ∧ openForm fm s sl tm g c = (x, [], t) ∧ t.blocked = false ∧
      t.group? x.tid x.gix = some x.g ∧ t.slot.bind (·.trap) = none := by
  unfold opening at h
  split at h
  next fm sl tm g c hf hi =>
    simp only at h
    split at h
    next hc =>
      simp only [Bool.and_eq_true, Bool.not_eq_true', List.isEmpty_iff, Option.isNone_iff_eq_none, beq_iff_eq] at hc
      obtain ⟨⟨⟨⟨-, h1⟩, h2⟩, h3⟩, h4⟩ := hc
      simp only [Option.some.injEq, Prod.mk.injEq] at h
      obtain ⟨rfl, rfl⟩ := h
      refine ⟨fm, sl, tm, g, c, hf, hi, ?_, h2, h3, h4⟩
      rw [← h1]
    next => cases h
  next => cases h

/-- An instruction that is ready is well formed. -/
theorem opening_wellFormed {i : Instr} {s : State} {o : Issue × State} (h : opening i s = some o) : i.wellFormed = true := by
  unfold opening at h
  split at h
  · simp only at h
    split at h
    next hc => simp only [Bool.and_eq_true] at hc; exact hc.1.1.1.1
    next => cases h
  · cases h

/-- The lanes of an issue are rising, and those whose guard holds are among them. -/
theorem openForm_lanes {fm : Form} {s : State} {sl : Slot} {tm : Team} {g : Group} {c : Context} {x : Issue} {e : List (Nat × Flt)} {t : State}
    (h : openForm fm s sl tm g c = (x, e, t)) :
    x.lanes = (List.range g.lanes.length).filter sl.lanes.contains ∧ x.act = x.lanes.filter (fun j => (g.lane j).guard fm.hdr) ∧ x.next = sl.next ∧
      x.pc = sl.pc ∧ x.hold = fm.hdr.hold ∧ x.tid = sl.tid ∧ x.gix = sl.gix ∧ x.c = c ∧ x.team = tm ∧ x.core = tm.core := by
  unfold openForm at h
  simp only [Prod.mk.injEq] at h
  obtain ⟨rfl, -, -⟩ := h
  exact ⟨rfl, rfl, rfl, rfl, rfl, rfl, rfl, rfl, rfl, rfl⟩

theorem opening_lanes {i : Instr} {s : State} {x : Issue} {t : State} (h : opening i s = some (x, t)) : x.lanes.Nodup ∧ x.act.Nodup ∧ x.act ⊆ x.lanes := by
  obtain ⟨fm, sl, tm, g, c, -, -, ho, -⟩ := opening_spec h
  obtain ⟨hl, ha, -⟩ := openForm_lanes ho
  have hn : x.lanes.Nodup := by rw [hl]; exact List.nodup_range.filter _
  exact ⟨hn, by rw [ha]; exact hn.filter _, by rw [ha]; intro j hj; exact (List.mem_filter.1 hj).1⟩

theorem Issue.without_nil (x : Issue) : x.without [] = x := by
  unfold Issue.without
  have : x.act.filter (fun j => !(([] : List (Nat × Flt)).any (·.1 == j))) = x.act := List.filter_eq_self.2 (by intro j _; rfl)
  rw [this]

theorem takeFaults_nil (s : State) (x : Issue) : s.takeFaults x [] = s := rfl

/-- What running an instruction that is ready gives, from its own effect. -/
theorem run_opening {i : Instr} {s : State} {x : Issue} {t : State} (h : opening i s = some (x, t)) (body : Issue → State → Res) :
    ∃ sl, run i body s = .next (if (body x t).retry && !(body x t).s.blocked then waitAgain (body x t).s sl
      else ifBlocked s (finish x { body x t with faults := sortBy (·.1) (body x t).faults }) sl) := by
  obtain ⟨fm, sl, tm, g, c, hf, hi, ho, -⟩ := opening_spec h
  refine ⟨sl, ?_⟩
  unfold run
  rw [hf, hi]
  simp only [runForm, ho, Issue.without_nil, List.nil_append]

/-! ### The end of a word -/

theorem Settles_mem {x : Issue} {stay : List Nat} {go : Nat → Dword} {w u : State} (h : Settles x stay go w u) : u.mem = w.mem :=
  (congrArg State.mem h.group.rest :)

theorem endWord_clean {s : State} (h : s.slot.bind (·.trap) = none) : s.endWord false = { s with slot := slotAfter s.slot } := by
  unfold State.endWord slotAfter
  cases hs : s.slot with
  | none => simp; cases s; simp_all
  | some sl =>
    rw [hs] at h
    simp only [Option.bind_some] at h
    simp only [Option.bind_some, Bool.or_false]
    split
    · rfl
    · simp [h]

theorem lookupKey_setKey {α : Type} (n m : Nat) (d x : α) (l : List (Nat × α)) : lookupKey m d (setKey n x l) = if n = m then x else lookupKey m d l := by
  induction l with
  | nil => by_cases h : n = m <;> simp [setKey, lookupKey, h]
  | cons p rest ih =>
    obtain ⟨k, y⟩ := p
    simp only [setKey, beq_iff_eq]
    split
    next h1 => by_cases h : n = m <;> simp [lookupKey, h]
    next h1 =>
      split
      next h2 => subst h2; by_cases h : n = m <;> simp [lookupKey, h]
      next h2 =>
        by_cases h3 : k = m
        · have h4 : n ≠ m := h3 ▸ h2
          simp [lookupKey, h3, h4]
        · simp [lookupKey, h3, ih]

/-- What counting the passes of a word changes. -/
theorem countCycle_spec (s : State) (core tid gix : Nat) (lanes : List Nat) :
    (s.countCycle core tid gix lanes = { s with cores := (s.countCycle core tid gix lanes).cores, cycle := (s.countCycle core tid gix lanes).cycle }) ∧
    (∀ n, (s.countCycle core tid gix lanes).core n = { s.core n with issue := ((s.countCycle core tid gix lanes).core n).issue }) ∧
    ∀ cy g, s.cycle = some cy → s.group? tid gix = some g → (s.countCycle core tid gix lanes).cycle = some (cy.issues g lanes) ∧
      ∀ n, ((s.countCycle core tid gix lanes).core n).issue =
        (s.core n).issue + if core = n then BitVec.ofNat 64 ((cy.issues g lanes).passes - cy.passes) else 0 := by
  unfold State.countCycle
  cases hc : s.cycle with
  | none => exact ⟨by cases s; simp_all, fun _ => rfl, fun _ _ h => by cases h⟩
  | some cy =>
    cases hg : s.group? tid gix with
    | none => exact ⟨by cases s; simp_all, fun _ => rfl, fun _ _ _ h => by cases h⟩
    | some g =>
      refine ⟨rfl, ?_, ?_⟩
      · intro n
        simp only [State.core, State.modCore, lookupKey_setKey]
        split
        next h => subst h; rfl
        next => rfl
      · rintro _ _ ⟨⟩ ⟨⟩
        refine ⟨rfl, fun n => ?_⟩
        simp only [State.core, State.modCore, lookupKey_setKey]
        split
        next h => subst h; rfl
        next => simp

/-- Lanes that completed. -/
theorem moved_advance (x : Issue) (past done : List Nat) (hn : done.Nodup) (r : Res) (second : Bool) (g : Group) :
    Moved x past done r.stay (fun j => ((r.jumps.find? (·.1 == j)).map (·.2)).getD x.next) second g
      (Group.issued x.hold second past x.lanes done (g.advance x done r)) := by
  refine ⟨?_, ?_, ?_⟩
  · unfold Group.issued Group.advance Group.onLanes
    rfl
  · simp [Group.issued, Group.advance]
  · intro j l hl
    have := Group.onLanes_pairs g (done.filter fun j => !r.stay.contains j) (fun j => ((r.jumps.find? (·.1 == j)).map (·.2)).getD x.next)
      (fun pc l => { (l.issued x.hold) with pc := pc }) (hn.filter _) j
    simp only [Group.issued, Group.advance]
    rw [this, hl]
    simp [Lane.issued]

/-- An instruction without faults settles (R67, R74). -/
theorem finish_settles (x : Issue) (hn' : x.lanes.Nodup) (r : Res) (hf : r.faults = []) (hs : r.s.slot.bind (·.trap) = none) :
    Settles x r.stay (fun j => ((r.jumps.find? (·.1 == j)).map (·.2)).getD x.next) r.s (finish x r) := by
  have hd : (x.lanes.filter fun j => !(([] : List (Nat × Flt)).any (·.1 == j))) = x.lanes := by simp
  let f : Group → Group := fun g =>
    Group.issued x.hold ((r.s.slot.map Slot.second).getD false) r.s.pastLanes x.lanes x.lanes (g.advance x x.lanes r)
  let m := r.s.modGroup x.tid x.gix f
  let n := m.countCycle x.core x.tid x.gix x.lanes
  obtain ⟨hn, hcore, hiss⟩ := countCycle_spec m x.core x.tid x.gix x.lanes
  have hns : n.slot = r.s.slot := (congrArg State.slot hn).trans rfl
  have hfin : finish x r = { n.tick x.c.ctx with stalled := [], urgent := r.s.claimAfter x.tid x.gix, slot := slotAfter r.s.slot } := by
    have h : finish x r = ({ n.tick x.c.ctx with stalled := [], urgent := r.s.claimAfter x.tid x.gix } : State).endWord false := by
      unfold finish
      simp only [hf, hd, takeFaults_nil, ite_self, List.isEmpty_nil, Bool.not_true]
      rfl
    rw [h, endWord_clean (by show n.slot.bind (·.trap) = none; rw [hns]; exact hs)]
    show ({ n.tick x.c.ctx with stalled := [], urgent := r.s.claimAfter x.tid x.gix, slot := slotAfter n.slot } : State) = _
    rw [hns]
  have hg : GroupStep x.tid x.gix r.s m (Moved x r.s.pastLanes x.lanes r.stay (fun j => ((r.jumps.find? (·.1 == j)).map (·.2)).getD x.next)
      ((r.s.slot.map (·.second)).getD false)) := groupStep_modGroup (by intro g; rfl) fun g _ => moved_advance x _ x.lanes hn' r _ g
  have hctx : n.ctxs = r.s.ctxs := (congrArg State.ctxs hn).trans rfl
  rw [hfin]
  refine ⟨rfl, ?_, rfl, rfl, hcore, ?_, ?_⟩
  · show (n.tick x.c.ctx).ctxs = _
    simp only [State.tick, State.modCtx, modWhere, hctx]
    congr 1
    funext k
    by_cases hk : k.ctx = x.c.ctx <;> simp [hk]
  · intro cy g hc hgr
    have hgm : m.group? x.tid x.gix = some (f g) := by
      show (r.s.modGroup x.tid x.gix f).group? x.tid x.gix = _
      rw [State.group?_modGroup (by intro g; rfl), hgr]; rfl
    exact hiss cy (f g) hc hgm
  · have he : ({ n.tick x.c.ctx with
        stalled := r.s.stalled, urgent := r.s.urgent, slot := r.s.slot, ctxs := r.s.ctxs, cores := r.s.cores, cycle := r.s.cycle } : State) = m := by
      simp only [State.tick, State.modCtx]
      show ({ n with ctxs := r.s.ctxs, stalled := r.s.stalled, urgent := r.s.urgent, slot := r.s.slot, cores := r.s.cores, cycle := r.s.cycle } : State) = m
      have : n = { m with cores := n.cores, cycle := n.cycle } := hn
      rw [this]
      rfl
    exact he ▸ hg

/-- An instruction whose own effect neither faults nor waits completes. -/
theorem run_settles {i : Instr} {s : State} {x : Issue} {t : State} (h : opening i s = some (x, t)) {body : Issue → State → Res} {r : Res} (hr : body x t = r)
    (hf : r.faults = []) (hb : r.s.blocked = t.blocked) (hs : r.s.slot = t.slot) (hw : r.retry = false) :
    ∃ u, run i body s = .next u ∧ Settles x r.stay (fun j => ((r.jumps.find? (·.1 == j)).map (·.2)).getD x.next) r.s u := by
  obtain ⟨sl, hrun⟩ := run_opening h body
  obtain ⟨fm, sl', tm, g, c, -, -, -, hbt, -, htr⟩ := opening_spec h
  rw [hr, hw, hf] at hrun
  simp only [Bool.false_and, Bool.false_eq_true, if_false] at hrun
  have := finish_settles x (opening_lanes h).1 { r with faults := sortBy (·.1) ([] : List (Nat × Flt)) } rfl (by simpa [hs] using htr)
  have hbu : (finish x { r with faults := sortBy (·.1) ([] : List (Nat × Flt)) }).blocked = false :=
    (congrArg State.blocked this.group.rest :).trans (hb.trans hbt)
  unfold ifBlocked at hrun
  rw [hbu] at hrun
  exact ⟨_, hrun, this⟩

end Sys2Proof.Machine
end

