-- ==== Sys2Proof/Laws/Results.lean ====
section
/-! SUPPORT. What an instruction that gives each lane a value does: `put`, `runValue`, `runFlags`. -/

namespace Sys2Proof.Machine

/-- Writing a result (R58, R63, R115, R116), with flags. -/
theorem received_put (x : Issue) (hn : x.act.Nodup) (d : Dst) (val : Nat → Dword) (fl : FpFlags) (g : Group) :
    Received x d val fl g ((g.put d (x.act.map fun j => (j, val j))).orFlags fl) := by
  cases d with
  | none => exact ⟨rfl, rfl, fun j l hl => by simpa [Group.put, Group.orFlags, received] using hl⟩
  | v n pair =>
    refine ⟨rfl, by simp [Group.put, Group.orFlags], fun j l hl => ?_⟩
    simp only [Group.put, Group.orFlags, delivered, received]
    rw [Group.onLanes_pairs g x.act val _ hn j, hl]; rfl
  | nw pair =>
    refine ⟨rfl, by simp [Group.put, Group.orFlags], fun j l hl => ?_⟩
    simp only [Group.put, Group.orFlags, delivered, received]
    rw [Group.onLanes_pairs g x.act val _ hn j, hl]; rfl
  | p n =>
    refine ⟨rfl, by simp [Group.put, Group.orFlags], fun j l hl => ?_⟩
    simp only [Group.put, Group.orFlags, delivered, received]
    rw [Group.onLanes_pairs g x.act val _ hn j, hl]; rfl
  | k n pair =>
    cases ha : x.act with
    | nil => exact ⟨by simp [Group.put, Group.orFlags, uniformAfter, ha], rfl, fun j l hl => by simpa [Group.put, Group.orFlags, ha] using hl⟩
    | cons a as =>
      have hlow : x.low = a := by simp [Issue.low, ha]
      refine ⟨by simp [Group.put, Group.orFlags, uniformAfter, ha, hlow, Group.onLanes], by simp [Group.put, Group.orFlags], fun j l hl => ?_⟩
      simp only [Group.put, Group.orFlags, delivered, received, hlow, List.map_cons]
      have hp := Group.onLanes_pairs g (a :: as) val (fun _ l => l.pushVal pair (val a)) (by rw [← ha]; exact hn) j
      simp only [List.map_cons] at hp
      rw [hp, hl, ha]; rfl

theorem put_gix (d : Dst) (vals : List (Nat × Dword)) (g : Group) : (g.put d vals).gix = g.gix := by
  unfold Group.put; cases d <;> try rfl
  cases vals <;> rfl

theorem orFlags_zero (g : Group) : g.orFlags 0 = g := by simp [Group.orFlags]

/-- An instruction whose own effect is a change of its group completes. -/
theorem completes_of_group {i : Instr} {s : State} {x : Issue} {t : State} {R : Group → Group → Prop} (h : opening i s = some (x, t))
    {body : Issue → State → Res} (he : exec i s = run i body s) {f : Group → Group} (hb : body x t = { s := t.modIssue x f }) (hg : ∀ g, (f g).gix = g.gix)
    (hR : ∀ g, t.group? x.tid x.gix = some g → R g (f g)) : Completes i s x t R := by
  obtain ⟨u, hu, hs⟩ := run_settles h hb rfl rfl rfl rfl
  refine ⟨_, u, he.trans hu, groupStep_modGroup hg hR, hs, fun a => ?_⟩
  rw [Settles_mem hs]; rfl

/-- An instruction whose own effect is nothing completes. -/
theorem completes_of_none {i : Instr} {s : State} {x : Issue} {t : State} {R : Group → Group → Prop} (h : opening i s = some (x, t))
    {body : Issue → State → Res} (he : exec i s = run i body s) (hb : body x t = { s := t }) (hR : ∀ g, t.group? x.tid x.gix = some g → R g g) :
    Completes i s x t R := by
  obtain ⟨u, hu, hs⟩ := run_settles h hb rfl rfl rfl rfl
  refine ⟨_, u, he.trans hu, groupStep_refl hR, hs, fun a => ?_⟩
  rw [Settles_mem hs]

/-- An instruction whose only effect is a value in each lane. -/
theorem runValue_completes {i : Instr} {s : State} {x : Issue} {t : State} (h : opening i s = some (x, t)) {d : Dst} {f : Issue → Nat → Dword}
    (he : exec i s = runValue i d f s) : Completes i s x t (Received x d (f x) 0) := by
  refine completes_of_group h he rfl (put_gix d _) fun g _ => ?_
  have := received_put x (opening_lanes h).2.1 d (f x) 0 g
  rwa [orFlags_zero] at this

/-- An instruction whose only effect is a value in each lane and flags. -/
theorem runFlags_completes {i : Instr} {s : State} {x : Issue} {t : State} (h : opening i s = some (x, t)) {d : Dst} {f : Issue → Nat → FRes}
    (he : exec i s = runFlags i d f s) :
    Completes i s x t (Received x d (fun j => BitVec.ofNat 64 (f x j).bits) (x.act.foldl (fun fl j => fl ||| (f x j).flags) 0)) := by
  refine completes_of_group h he rfl (fun g => put_gix d _ g) fun g _ => ?_
  simp only [List.map_map, List.foldl_map, Function.comp_def]
  exact received_put x (opening_lanes h).2.1 d (fun j => BitVec.ofNat 64 (f x j).bits) _ g

end Sys2Proof.Machine
end

