-- ==== Sys2Proof/Laws/Shared.lean ====
section
/-! SUPPORT. What shared operations of the memory path and of resolves can do: one lemma each. -/

namespace Sys2Proof.Machine

open Sys2Proof

/-- An agent that takes a granule changes agents alone. -/
theorem hold_spec (s : State) (cls gpa : Nat) : s.hold cls gpa = { s with agents := (s.hold cls gpa).agents } := by
  unfold State.hold
  split
  · cases s; rfl
  · rfl

/-- A visit to the home of a word changes buffers and counts of messages alone. -/
theorem visit_spec (s : State) (ctx : Nat) (n : Node) (cls gpa : Nat) (reads : Bool) :
    s.visit ctx n cls gpa reads = { s with agents := (s.hold cls gpa).agents, ctxs := (s.visit ctx n cls gpa reads).ctxs } := by
  simp only [State.visit]
  rw [hold_spec s cls gpa]
  cases reads <;> rfl

/-- What a resolve answers at its site where no change of the record is under way and no log gives it one: what the look-up gives. -/
theorem resolveAt_unchanged {s : State} {ctx lcore : Nat} {b : Brand} (look : State → Resolved × State) (h : s.past? b = none)
    (hn : ((s.ctx? ctx).bind fun c => s.nextMeets c lcore b) = none) : s.resolveAt ctx lcore b look = .got (look s).1 (look s).2 := by
  simp [State.resolveAt, h, hn]

/-- A byte of a run of memory. -/
theorem bytes_getElem (c : Cells 8) (a n i : Nat) (h : i < (Cells.bytes c a n).length) : (Cells.bytes c a n)[i] = Cells.get c (a + i) := by
  induction n generalizing a i with
  | zero => simp [Cells.bytes] at h
  | succ n ih =>
    cases i with
    | zero => rfl
    | succ i => simp only [Cells.bytes, List.getElem_cons_succ, ih]; congr 1; omega

/-- A snapshot reads as memory does while nothing has been written since. -/
theorem asItStands_bytes (s : State) (gpa n : Nat) : s.asItStands.bytes s gpa n = Cells.bytes s.mem gpa n := by
  apply List.ext_getElem <;> simp [Snap.bytes, State.asItStands, bytes_getElem]

end Sys2Proof.Machine
end

