-- ==== Sys2Proof/Tests/Slice0.lean ====
section
/-! SUPPORT. Tests: words that the manual writes out, words that encode no instruction, the manual's worked results, and for every statement states that
meet its hypotheses. -/

namespace Sys2Proof.Tests

set_option Elab.async false

open Sys2Proof Sys2Proof.Machine

/-- A word as the manual prints it: bits 95:64, 63:32 and 31:0. -/
def word (hi mid lo : Nat) : Nat := (hi * 2 ^ 32 + mid) * 2 ^ 32 + lo

/-- What a printed word decodes to. -/
def reads (hi mid lo : Nat) (i : Instr) : Bool := decodeTableWord 96 (word hi mid lo) == some i

/-- No guard and no hint; a short hint with STALL. -/
def h0 : Hdr := ⟨false, 7, false, false, 0⟩
def h4 : Hdr := ⟨false, 7, false, false, 4⟩
def vr (n : BitVec 8) : Src := .v n false false false
def vp (n : BitVec 8) : Src := .v n false false true
def kr (n : BitVec 6) : Src := .k n false false
def kp (n : BitVec 6) : Src := .k n false true

/-! ### Words that the manual writes out, bit by bit -/

/-- 03, "The line": fmul v4, v1, v2 <s2,hold>, fadd v5, l0, v3 <s4>, and the guarded iadd v7, v7, -3. -/
theorem test_words_of_the_notation :
    (reads 0x109C0A00 0x00040001 0x00020000 (.fmul ⟨false, 7, false, true, 2⟩ .rne false false (.v 4 false) (vr 1) (vr 2))
      && reads 0x101C0400 0x00054000 0x00030000 (.fadd h4 .rne false false (.v 5 false) (.latch 0) (vr 3))
      && reads 0x00680000 0x00070007 0xBFFD0000 (.iadd ⟨true, 2, false, false, 0⟩ .s32 false (.v 7 false) (vr 7) (.imm (-3)))) = true := by decide +kernel

/-- 05 and 11: icmp.lt p2, v1, 100; shr.n32 v10, v9, 23 ?p2 <s4>; ffma v8, v1, v1, -v3. -/
theorem test_words_of_arithmetic :
    (reads 0x051C0008 0x10020001 0x80640000 (.icmp h0 .lt .s32 (.p 2) (vr 1) (.imm 100))
      && reads 0x03480400 0x400A0009 0x80170000 (.shr ⟨false, 2, false, false, 4⟩ .n32 (.v 10 false) (vr 9) (.imm 23))
      && reads 0x10DC0000 0x00080001 0x00010103 (.ffma h0 .rne false false (.v 8 false) (vr 1) (vr 1) (.v 3 true false false))) = true := by decide +kernel

/-- 06 and 20: cvt.bf16.f32.rtz v2, v1; rsqs v3, v2 <s5,hold>; rndu v6, s3, 0; red.add.w8.s32 v5, v4; srt.desckv v2:v3; rndu k19, s0, k11. -/
theorem test_words_of_conversions_and_lanes :
    (reads 0x201C0040 0x80020001 0 (.cvt h0 .bf16 .f32 .rtz (.v 2 false) (vr 1))
      && reads 0x305C0D00 0x00030002 0 (.rsqs ⟨false, 7, false, true, 5⟩ .f32 false (.v 3 false) (vr 2))
      && reads 0xE05C0000 0xC0068000 0 (.rndu h0 3 (.v 6 false) (.imm 0))
      && reads 0x411C0020 0xC0050004 0 (.red h0 .add .w8 .s32 (.v 5 false) (vr 4))
      && reads 0x424C040C 0x04020402 0 (.srt ⟨false, 3, false, false, 4⟩ .desckv .wg .f32 (.v 2 true) (vp 2))
      && reads 0xE05C0400 0x0813C00B 0 (.rndu h4 0 (.k 19 false) (kr 11))) = true := by decide +kernel

/-- 07: bra to slot 4 two lines back; width k4, 64 <s4>. -/
theorem test_words_of_control :
    (reads 0x501C0000 0x18000000 0xFFFFFFE4 (.bra h0 ⟨-2, 4⟩) && reads 0x51DC0400 0x08048040 0 (.width h4 (.k 4 false) (.imm 64))) = true := by decide +kernel

/-- 08: ld v3, [k8:k9+0]; st.b64.c3 [v4:v5+0x40], v6:v7; tlk v10, v2:v3. -/
theorem test_words_of_memory :
    (reads 0x601C0000 0x0003C408 0x80000000 (.ld h0 .b32 false (.v 3 false) (kp 8) (.imm 0))
      && reads 0x605C000C 0x58000404 0x80400406 (.st h0 .b64 3 (vp 4) (.imm 0x40) (vp 6))
      && reads 0x701C0000 0x000A0402 0 (.tlk h0 (.v 10 false) (vp 2))) = true := by decide +kernel

/-- 13, 16, 17: opf v3, MAX.S32, [k8:k9+4], v2; ops with operators ADD.F32, SUBF.F32, MAX.S32 and STORE. -/
theorem test_words_of_operators :
    (reads 0x805C0001 0xC003C408 0x80040002 (.opf h0 .maxS32 0 (.v 3 false) (kp 8) (.imm 4) (vr 2))
      && reads 0x80040001 0x1800C406 0x80008FE0 (.ops ⟨false, 1, false, false, 0⟩ .addF32 0 (kp 6) (.imm 0) (.imm 0x0FE0))
      && reads 0x80040001 0x5800C406 0x80009300 (.ops ⟨false, 1, false, false, 0⟩ .subfF32 0 (kp 6) (.imm 0) (.imm 0x1300))
      && reads 0x801C0001 0xD8000402 0x80000006 (.ops h0 .maxS32 0 (vp 2) (.imm 0) (vr 6))
      && reads 0x80080000 0x58000402 0x80000007 (.ops ⟨false, 2, false, false, 0⟩ .store 0 (vp 2) (.imm 0) (vr 7))) = true := by decide +kernel

/-- 09, 10, 14, 15, 18, 19: mstr, fnc.st.dev 0xFF, ofnc, cpx, algl.t2, bres.any, bara, wt.mc 0, cpy, wfl.ne. -/
theorem test_words_of_engines_and_tables :
    (reads 0xA11C0000 0x9800C014 0xC4160009 (.mstr h0 ⟨false, false, false⟩ .bf16 (kr 20) (kp 22) (vr 9))
      && reads 0x901C0004 0xD80080FF 0 (.fnc h0 ⟨false, true, false⟩ .dev (.imm 0xFF))
      && reads 0x905C0000 0x18000000 0 (.ofnc h0)
      && reads 0xB09C0001 0x18008002 0x8006C00C (.cpx h0 4 (.imm 2) (.imm 6) (kr 12))
      && reads 0xC01C0000 0x9800C406 0 (.algl h0 2 (kp 6))
      && reads 0xD05C0000 0x0818C004 0x0000D003 (.bres h0 none (.k 24 false) (kr 4) (.p 3))
      && reads 0x911C0000 0x08148003 0x80000000 (.bara h0 (.k 20 false) (.imm 3) (.imm 0))
      && reads 0x909C0010 0x18008000 0 (.wt h0 .mc (.imm 0))
      && reads 0xB05C0001 0x58008004 0xC017C017 (.cpy h0 5 (.imm 4) (kr 23) (kr 23))
      && reads 0x91DC0010 0x081DC41A 0x80000000 (.wfl h0 .ne (.k 29 false) (kp 26) (.imm 0))) = true := by decide +kernel

/-- Class 15 from Tables 3-1 to 3-5: hlt, trt, and sysw of register 0x012 from k5. -/
theorem test_words_of_the_system_class :
    (reads 0xF15C0000 0x18000000 0 (.hlt h0) && reads 0xF01C0000 0x18000000 0 (.trt h0)
      && reads 0xF0DC0000 0x18008012 0xC0050000 (.sysw h0 (.imm 0x12) (kr 5))) = true := by decide +kernel

/-! ### Words that encode no instruction (Table 3-9), and terms that are not well formed -/

def refuses (hi mid lo : Nat) (why : NotInstr) : Bool :=
  match decode (BitVec.ofNat 96 (word hi mid lo)) with
  | .ok _ => false
  | .error r => r == why

/-- Of the word of icmp.lt p2, v1, 100: the zero word, an unassigned operation, the guard that never holds, reserved hints, HOLD with YIELD, p8, a reserved
source bit, and the variant 6 that Table 5-3 does not list. -/
theorem test_words_refused :
    (refuses 0 0 0 .zeroOpcode && refuses 0x06DC0008 0x10020001 0x80640000 .unassigned && refuses 0x053C0008 0x10020001 0x80640000 .guardNever
      && refuses 0x051C2008 0x10020001 0x80640000 .hints && refuses 0x051C1808 0x10020001 0x80640000 .hints && refuses 0x051C0008 0x10080001 0x80640000 .dest
      && refuses 0x051C0008 0x10020801 0x80640000 .source && refuses 0x051C0018 0x10020001 0x80640000 .modField) = true := by decide +kernel

/-- The branch of 07 with slot 10, and a 64-bit latch source l3. -/
theorem test_words_refused_by_range :
    (refuses 0x501C0000 0x18000000 0xFFFFFFEA .slotRange && refuses 0x601C0000 0x00034003 0x80000000 .latch3) = true := by decide +kernel

/-- One ill-formed term for each check. -/
theorem test_ill_formed_terms :
    ([.nop ⟨true, 7, false, false, 0⟩, .nop ⟨false, 7, true, true, 0⟩, .iadd h0 .s32 false (.v 3 true) (vr 1) (vr 2), .iadd h0 .s64 false (.v 3 true) (vp 2) (vp 4),
      .iadd h0 .s32 false (.p 1) (vr 1) (vr 2), .ld h0 .b32 false (.v 2 false) (.latch 3) (.imm 0), .fadd h0 .rne false false (.v 2 false) (.p 1) (vr 1), .iadd h0 .s64 false (.v 2 true) (vp 3) (vp 4),
      .iadd h0 .s32 false (.v 2 false) (.v 1 false true false) (vr 2), .bra h0 ⟨0, 10⟩, .imul h0 .s32 true true (.v 2 false) (vr 1) (vr 2), .trap h0 (.imm (-1)),
      .yield ⟨false, 7, false, true, 0⟩, .bnew h0 .stream (.k 5 false) (kr 4)] : List Instr).all (fun i => !i.wellFormed) = true := by decide +kernel

/-! ### States to run on -/

/-- A group of eight active lanes on core 0, each with its own vector registers. -/
def group8 (v : Nat → Cells 32) (k : Cells 32) : Group := { placedGroup with lanes := (List.range 8).map fun j => { placedLane with v := v j }, k := k }

/-- The state in which the group has a word in the issue slot: all eight lanes issue it, at PC 0 with successor 1. -/
def inSlot (s : State) (t : Team) (c : Context) : State :=
  { s with ctxs := [c], teams := [t], launches := [placedLaunch]
           slot := some { tid := 0, gix := 0, pc := 0, word := 0, lanes := List.range 8, next := 1, pre := (t.groups.map (·.lanes)).headD [], other := none, second := false
                          trap := none, aFault := false, born := 0 } }

/-- No memory: registers alone. -/
def bare (v : Nat → Cells 32) (k : Cells 32) : State := inSlot State.reset { placedTeam with groups := [group8 v k] } placedContext

/-- The same registers in every lane. -/
def same (v : Cells 32) : State := bare (fun _ => v) []

/-- What the instruction leaves. -/
def after (i : Instr) (s : State) : Option Group :=
  match exec i s with
  | .next t => t.group? 0 0
  | _ => none

/-- Register `n` of lane `j`, and FPST, after the instruction. -/
def reg (i : Instr) (s : State) (j n : Nat) : Option Word := (after i s).map fun g => Cells.get (g.lane j).v n
def flags (i : Instr) (s : State) : Option FpFlags := (after i s).map (·.fpst)
/-- The result v2 of lane 0 and the flags. -/
def gives (i : Instr) (v0 v1 r : Word) (fl : FpFlags) : Bool := reg i (same [(0, v0), (1, v1)]) 0 2 == some r && flags i (same [(0, v0), (1, v1)]) == some fl

/-! ### The manual's worked results -/

/-- Table 5-5. -/
theorem test_integer_corners :
    (gives (.iadd h0 .s32 true (.v 2 false) (vr 0) (vr 1)) 0x7FFFFFF0 0x20 0x7FFFFFFF 0 && gives (.iadd h0 .s32 false (.v 2 false) (vr 0) (vr 1)) 0x7FFFFFF0 0x20 0x80000010 0
      && gives (.isub h0 .n32 true (.v 2 false) (vr 0) (vr 1)) 5 7 0 0 && gives (.isub h0 .n32 false (.v 2 false) (vr 0) (vr 1)) 5 7 0xFFFFFFFE 0
      && gives (.imul h0 .s32 false true (.v 2 false) (vr 0) (.imm 2)) 0x80000000 0 0xFFFFFFFF 0 && gives (.imul h0 .s32 false false (.v 2 false) (vr 0) (.imm 2)) 0x80000000 0 0 0
      && gives (.iabs h0 .s32 false (.v 2 false) (vr 0)) 0x80000000 0 0x80000000 0 && gives (.iabs h0 .s32 true (.v 2 false) (vr 0)) 0x80000000 0 0x7FFFFFFF 0) = true := by decide +kernel

theorem test_shift_corners :
    (gives (.shr h0 .s32 (.v 2 false) (vr 0) (.imm 40)) 0x80000000 0 0xFFFFFFFF 0 && gives (.shr h0 .n32 (.v 2 false) (vr 0) (.imm 40)) 0x80000000 0 0 0
      && gives (.shl h0 .s32 true (.v 2 false) (vr 0) (.imm 30)) 3 0 0x7FFFFFFF 0 && gives (.rot h0 .n32 (.v 2 false) (vr 0) (.imm 1)) 0x80000001 0 3 0
      && gives (.bfe h0 .s32 (.v 2 false) (vr 0) (.imm 0x408)) 0xF0A0 0 0xFFFFFFF0 0 && gives (.clz h0 .n32 (.v 2 false) (vr 0)) 0 0 32 0
      && gives (.popc h0 .n64 (.v 2 false) (vp 0)) 0xFFFFFFFF 0xFFFFFFFF 64 0
      && gives (.iadd h0 .s16x2 true (.v 2 false) (vr 0) (vr 1)) 0x7FF00005 0x0020FFF0 0x7FFFFFF5 0) = true := by decide +kernel

/-- Table 5-10. -/
theorem test_float_corners :
    (gives (.fadd h0 .rne false false (.v 2 false) (vr 0) (vr 1)) 0x3F800000 0xBF800000 0 0 && gives (.fadd h0 .rmi false false (.v 2 false) (vr 0) (vr 1)) 0x3F800000 0xBF800000 0x80000000 0
      && gives (.fadd h0 .rne false false (.v 2 false) (vr 0) (vr 1)) 0x7F800000 0xFF800000 0x7FC00000 16 && gives (.fmul h0 .rne false true (.v 2 false) (vr 0) (vr 1)) 0x40000000 0x3F400000 0x3F800000 0
      && gives (.fmax h0 false false (.v 2 false) (vr 0) (vr 1)) 0x7FC00000 0x40400000 0x40400000 0 && gives (.fcmp h0 .lt false (.v 2 false) (vr 0) (vr 1)) 0x7FC00000 0x40400000 0 16
      && gives (.frnd h0 .rne false false (.v 2 false) (vr 0)) 0x40200000 0 0x40000000 0 && gives (.frnd h0 .rmi false false (.v 2 false) (vr 0)) 0xBF000000 0 0xBF800000 0
      && gives (.frnd h0 .rne false false (.v 2 false) (vr 0)) 0xBECCCCCD 0 0x80000000 0) = true := by decide +kernel

theorem test_scale_and_packed_corners :
    (gives (.fscale h0 .rne false false (.v 2 false) (vr 0) (.imm 130)) 0x3FC00000 0 0x7F800000 5 && gives (.fscale h0 .rne false false (.v 2 false) (vr 0) (.imm (-149))) 0x3F800000 0 1 0
      && gives (.fscale h0 .rne true false (.v 2 false) (vr 0) (.imm (-149))) 0x3F800000 0 0 3
      && gives (.fadd2 h0 .f16x2 .rne false false (.v 2 false) (vr 0) (vr 1)) 0x3C007BFF 0x3C007BFF 0x40007C00 5) = true := by decide +kernel

/-- "One rounding against two". -/
theorem test_one_rounding_against_two :
    (gives (.fmul h0 .rne false false (.v 2 false) (vr 1) (vr 1)) 0 0x3F800800 0x3F801000 1
      && gives (.ffma h0 .rne false false (.v 2 false) (vr 1) (vr 1) (.v 0 true false false)) 0x3F800000 0x3F800800 0x3A000400 0) = true := by decide +kernel

/-- 06, the examples of cvti and cvt, and 04, rsqs(3.0). -/
theorem test_conversions_of_the_manual :
    (gives (.cvti h0 .s32 .f32 .rne (.v 2 false) (vr 1) (.imm 8)) 0 0x3FA66666 333 1 && gives (.cvt h0 .bf16 .f32 .rtz (.v 2 false) (vr 1)) 0 0x3F808001 0x3F80 1
      && gives (.cvt h0 .bf16 .f32 .rne (.v 2 false) (vr 1)) 0 0x3F808001 0x3F81 1 && gives (.rsqs h0 .f32 false (.v 2 false) (vr 0)) 0x40400000 0 0x3F137000 0) = true := by decide +kernel

/-- Table 6-3: the eight values, with the format word (KIND 3, table 0, eight planes), scale 1.0 and threshold 1.0 in k2:k3. -/
def quantised : State :=
  bare (fun j => [(0, [0x3F000000, 0xBE99999A, 0x3FA00000, 0, 0xBE800000, 0xC0400000, 0x3F800000, 0x3E000000].getD j 0), (1, 0x73),
    (4, [0x40, 0xDA, 0x100, 0, 0xE0, 0x100, 0x7F, 0x10].getD j 0)]) [(2, 0x3F800000), (3, 0x3F800000)]

theorem test_quantisation_of_the_manual :
    ((List.range 8).map fun j => reg (.qnt h0 (.v 2 false) (vr 0) (vr 1) (kp 2)) quantised j 2) = [some 0x40, some 0xDA, some 0x100, some 0, some 0xE0, some 0x100, some 0x7F, some 0x10] := by
  decide +kernel

theorem test_planes_of_the_manual :
    (((List.range 8).all fun j => reg (.bpt h0 (.v 2 false) (vr 4) (.imm 0)) quantised j 2 == some 0x12 && reg (.bpt h0 (.v 2 false) (vr 4) (.imm 1)) quantised j 2 == some 0x53)
      && reg (.olst h0 (.v 2 false) (vr 0) (vr 4) (kr 5)) quantised 0 2 == some 0xC0403FA0 && reg (.olst h0 (.v 2 false) (vr 0) (vr 4) (kr 5)) quantised 1 2 == some 0
      && ((after (.olst h0 (.v 2 false) (vr 0) (vr 4) (kr 5)) quantised).map fun g => Cells.get g.k 5) == some 2) = true := by decide +kernel

/-- "Decoding lane 0's code": 0x3F01 at eight planes, 0x3F11 at four with MID. -/
theorem test_decoding_of_the_manual :
    (gives (.dqnt h0 .bf16 (.v 2 false) (.imm 0x40) (vr 1) (.v 0 false false false)) 0x3F800000 0x73 0x3F01 1
      && gives (.dqnt h0 .bf16 (.v 2 false) (.imm 0x40) (vr 1) (.v 0 false false false)) 0x3F800000 0xB3 0x3F11 1) = true := by decide +kernel

/-- The draw of 06: key_hi 2, key_lo 1, offset 0 (R157). -/
def streaming : State := inSlot State.reset { placedTeam with groups := [group8 (fun _ => []) []] } (placedContext.setStream 3 (some ⟨3, true, 0, 1, 2⟩))
theorem test_draw_of_the_manual :
    (reg (.rnd h0 3 (.v 2 false) (.imm 0)) streaming 0 2 == some 0x65D27041 && reg (.rndu h0 3 (.v 2 false) (.imm 0)) streaming 0 2 == some 0x3ECBA4E0) = true := by decide +kernel

/-- R230: lanes 0 to 3 all run `sat v5, ADD.I32, [v4], 1` on one word holding 10. -/
def counting : State :=
  inSlot State.reset { placedTeam with spadLines := 1, spad := [(0, 10)], groups := [{ group8 (fun _ => []) [] with lanes := ((List.range 8).map fun j =>
    { placedLane with st := if j < 4 then .active else .exited }) }] } placedContext
theorem test_local_atomics_of_the_manual :
    (match exec (.sat h0 .addI32 0 (.v 5 false) (vr 4) (.imm 1) none) { counting with slot := counting.slot.map fun sl => { sl with lanes := [0, 1, 2, 3] } } with
      | .next t => ((t.group? 0 0).map fun g => [0, 1, 2, 3].map fun j => Cells.get (g.lane j).v 5) == some [10, 11, 12, 13] && t.spadBytes 0 0 4 == [14, 0, 0, 0]
      | _ => false) = true := by decide +kernel

/-! ### States that meet the hypotheses of each statement -/

/-- The instruction is ready in a state and the rest holds of what issues. -/
def meets (i : Instr) (s : State) (p : Issue → State → Bool) : Bool :=
  match opening i s with
  | some (x, t) => p x t
  | none => false

/-- The instruction is ready, on some lane. -/
def ready (s : State) (i : Instr) : Bool := meets i s fun x _ => !x.act.isEmpty

/-- A page table at 256 MiB with 32 MiB pages: 0 for code and data; 1 of algebra table 1; 2 of class 2; 3 without W; 4 not dirty; 5 of another chip. Line 1 of page 0 is a code line
whose slot 0 may be entered. -/
def mapped : State :=
  let s := State.reset.withFetchWord 96 0
  let s := s.write 0x10040008 (toLe 8 (0x14000000 + 0x3F + 0x80))
  let s := s.write 0x10040010 (toLe 8 (0x16000000 + 0x3F + 0x800))
  let s := s.write 0x10040018 (toLe 8 (0x1A000000 + 0x27))
  let s := s.write 0x10040020 (toLe 8 (0x1C000000 + 0x1F))
  let s := s.write 0x10040028 (toLe 8 (2 ^ 50 + 0x12000000 + 0x3F))
  s.write 0x12000080 (toLe 8 0x401)

/-- Eight lanes with those registers on that memory. -/
def onPages (v : Nat → Cells 32) (k : Cells 32) : State := inSlot mapped { placedTeam with groups := [group8 v k] } placedContext

/-- Some registers: different values, an amount, a divisor and pairs. -/
def regs : State := bare (fun j => [(0, BitVec.ofNat 32 (3 * j)), (1, 40), (2, 0x3F800000), (3, 0xFFFFFFFF), (4, 0x7FC00000), (5, 0x73)]) [(0, 5), (2, 0x3F800000), (3, 0x3F800000)]

theorem witness_IntegerArithmetic :
    ([.iadd h0 .s32 true (.v 8 false) (vr 0) (vr 1), .isub h0 .n64 false (.k 8 true) (vp 0) (kp 2), .imul h0 .s16x2 true false (.v 8 false) (vr 0) (.imm (-1)),
      .imul h0 .n64 false true (.nw true) (vp 0) (vp 2), .imad h0 .s32 false (.v 0 false) (vr 0) (vr 1) (vr 0), .imin h0 .s64 (.v 8 true) (vp 0) (vp 2), .imax h0 .n16x2 (.v 8 false) (vr 0) (vr 1),
      .iabs h0 .s16x2 true (.v 8 false) (vr 3), .and h0 .s32 (.p 7) (vr 0) (vr 1), .or h0 .n64 (.v 8 true) (vp 0) (vp 2), .xor h0 .n32 (.p 1) (vr 0) (.p 7), .andn h0 .s32 (.v 255 false) (vr 0) (vr 3)]
      : List Instr).all (fun i => (exactArith i).isSome && ready regs i) = true := by decide +kernel

theorem witness_IntegerShifts :
    ([.shl h0 .s32 true (.v 8 false) (vr 3) (vr 1), .shl h0 .s16x2 false (.v 8 false) (vr 3) (.imm (-1)), .shr h0 .s64 (.v 8 true) (vp 2) (vr 0), .shr h0 .n32 (.v 8 false) (vr 3) (.imm 0),
      .rot h0 .n64 (.v 8 true) (vp 2) (vr 1), .rot h0 .s32 (.v 8 false) (vr 3) (.imm 0)] : List Instr).all (ready regs) = true := by decide +kernel

theorem witness_IntegerFieldsAndCounts :
    ([.bfe h0 .s64 (.v 8 true) (vp 2) (vr 3), .bfe h0 .n32 (.v 8 false) (vr 3) (.imm 0), .bfi h0 .s32 (.v 8 false) (vr 0) (vr 3) (.imm 0x408), .popc h0 .n64 (.v 8 false) (vp 2), .clz h0 .s32 (.v 8 false) (vr 0),
      .brev h0 .n64 (.v 8 true) (vp 2)] : List Instr).all (ready regs) = true := by decide +kernel

theorem witness_ComparesMovesAndCarries :
    ([.icmp h0 .lt .s32 (.p 2) (vr 0) (vr 1), .icmp h0 .ge .n64 (.v 8 false) (vp 0) (vp 2), .sel h0 .s64 (.v 8 true) (vp 0) (vp 2) (.p 7), .mov h0 .s32 (.p 0) (vr 3), .movi h0 (.k 63 false) 0xFFFFFFFF,
      .lea h0 7 .s32 (.v 8 true) (vp 2) (vr 3), .iaddc h0 7 (.nw false) (vr 3) (vr 3) (.p 7)] : List Instr).all (ready regs) = true
    ∧ meets (.iaddc h0 0 (.v 8 false) (vr 3) (vr 1) (.imm 1)) regs (fun x _ => x.act.any fun j => 2 ^ 32 ≤ carrySum x (vr 3) (vr 1) (.imm 1) j) = true
    ∧ meets (.icmp h0 .lt .s32 (.p 2) (vr 0) (.imm 9)) regs (fun x _ => (x.act.any fun j => decide ((x.w32 (vr 0) j).toInt < 9)) && x.act.any fun j => decide (9 ≤ (x.w32 (vr 0) j).toInt)) = true := by
  decide +kernel

theorem witness_RegisterFileWrites :
    Cells.wf ([(3, 7), (4, 1)] : Cells 32) = true ∧ Cells.get (setReg ([(3, 7), (4, 1)] : Cells 32) 4 true 0x500000000) 4 = 0 ∧ Cells.get (setReg ([(3, 7), (4, 1)] : Cells 32) 4 true 0x500000000) 3 = 7
      ∧ (placedLane.setPred 7 false).pred 7 = true ∧ (placedLane.setPred 6 true).pred 6 = true ∧ (placedLane.setPred 6 true).pred 5 = false := by decide +kernel

theorem witness_SpecialRegisters :
    ([0, 0x0D, 0x0E, 0x0F, 0x10, 0x16, 0x17, 0x18] : List (BitVec 14)).all (fun n => ready regs (.sreg h0 (.v 8 false) (.imm n))) = true ∧ ready regs (.sreg h0 (.k 8 true) (.imm 0x19)) = true
      ∧ meets (.sreg ⟨true, 0, false, false, 0⟩ (.v 8 false) (.imm 0x18)) regs (fun x _ => !x.act.isEmpty) = true := by decide +kernel

theorem witness_FloatResults :
    ([.fadd h0 .rne false false (.v 8 false) (vr 2) (vr 4), .fsub h0 .rpi true true (.nw false) (vr 2) (.v 2 true true false), .fmul h0 .rmi false false (.k 8 false) (vr 2) (.imm 0xFE0),
      .ffma h0 .rtz false false (.v 8 false) (vr 2) (vr 2) (vr 4), .fmin h0 false false (.v 8 false) (vr 2) (vr 4), .fmax h0 true true (.v 8 false) (vr 2) (vr 4), .fcmp h0 .un false (.p 7) (vr 2) (vr 4),
      .fclass h0 true (.v 8 false) (vr 4), .frnd h0 .rne false false (.v 8 false) (vr 2), .fscale h0 .rne false false (.v 8 false) (vr 2) (vr 3), .fadd2 h0 .f16x2 .rne false false (.v 8 false) (vr 2) (vr 4),
      .fmul2 h0 .bf16x2 .rne true false (.v 8 false) (vr 2) (vr 4), .ffma2 h0 .f16x2 .rne false true (.v 8 false) (vr 2) (vr 4) (vr 2)] : List Instr).all
      (fun i => (floatElement i).isSome && ready regs i) = true := by decide +kernel

/-- A finite and an overflowed rounding, sums that are zero and not, NaNs, and an ordered pair. -/
theorem witness_FloatArithmetic :
    Fp.read .f32 false (roundTo .f32 .rne false true 0x1FFFFFF 0 false).bits = .fin true 0x800000 2 ∧ Fp.read .f16 false (roundTo .f16 .rpi false false 1 16 false).bits = .inf false
      ∧ Fp.signedAt true 4 0 0 + Fp.signedAt false 1 2 0 = 0 ∧ Fp.signedAt true 4 0 0 + Fp.signedAt false 1 3 0 ≠ 0 ∧ (Fp.nan true).isNan = true ∧ (Fp.inf true).isNan = false
      ∧ Fp.less (.fin true 0 5) (.fin false 0 3) = true := by decide +kernel

theorem witness_ConversionAndFunctionResults :
    ([.cvt h0 .f16 .f32 .rpi (.v 8 false) (vr 2), .cvt h0 .s64 .f32 .rne (.v 8 true) (vr 4), .cvti h0 .s32 .f32 .rne (.v 8 false) (vr 2) (vr 0), .pk16 h0 .bf16 .f32 .rne (.v 8 false) (vr 2) (vr 4),
      .upk16 h0 .f32 .f16 (.v 8 false) (vr 2) (.imm 1), .rcps h0 .f32 false (.v 8 false) (vr 2), .rsqs h0 .f16x2 true (.v 8 false) (vr 2), .ex2 h0 .bf16x2 false (.v 8 false) (vr 0),
      .lg2 h0 .f16x2 false (.v 8 false) (vr 2), .sinp h0 .bf16x2 false (.v 8 false) (vr 2), .cosp h0 .f32 false (.k 8 false) (vr 0), .tnh h0 .f32 false (.v 8 false) (vr 4)] : List Instr).all
      (fun i => (conversionRule i).isSome && ready regs i) = true := by decide +kernel

/-- Every integer type, a bound, a value beyond it and one that is rounded. -/
theorem witness_ConversionToIntegers :
    ([.s8, .n8, .s16, .n16, .s32, .n32, .s64, .n64] : List Ty).all Ty.isInt = true ∧ Ty.s8.lo ≤ -128 ∧ (127 : Int) ≤ Ty.s8.hi ∧ (convertTo .s8 .rne (.fin false 255 (-1))).flags = FpFlags.nv
      ∧ convertTo .s8 .rne (.fin false 5 (-1)) = ⟨2, FpFlags.nx⟩ := by decide +kernel

theorem witness_SpecialInputs : Sfu.rcps .f32 false (.fin true 0 0) = ⟨0xFF800000, FpFlags.dz⟩ ∧ (Sfu.lg2 .f32 false (.fin true 1 0)) = ⟨0x7FC00000, FpFlags.nv⟩ := by decide +kernel

theorem witness_Quantisation :
    meets (.qnt h0 (.v 8 false) (vr 0) (vr 1) (kp 2)) quantised (fun x _ => (formatFaults false x (vr 1)).isEmpty) = true
      ∧ meets (.dqnt h0 .f32 (.v 8 false) (vr 4) (vr 1) (kr 2)) quantised (fun x _ => (formatFaults true x (vr 1)).isEmpty) = true
      ∧ meets (.qnt h0 (.v 8 false) (vr 0) (vr 4) (kp 2)) quantised (fun x _ => !(formatFaults false x (vr 4)).isEmpty) = true
      ∧ meets (.dqnt h0 .bf16 (.v 8 false) (vr 4) (vr 4) (kr 2)) quantised (fun x _ => !(formatFaults true x (vr 4)).isEmpty) = true
      ∧ (0x100 : Word).getLsbD 8 = true ∧ scaleOk (Fp.read .f32 false 0) = false := by decide +kernel

theorem witness_PlanesAndOutliers :
    ([.bpt h0 (.v 8 false) (vr 4) (.imm 7), .bpr h0 (.v 8 false) (vr 4) (vr 0) (.imm 0), .olst h0 (.v 8 false) (vr 0) (vr 4) (kr 63)] : List Instr).all (ready quantised) = true := by decide +kernel

theorem witness_CrossLaneMoves :
    ([.perm h0 .s32 (.v 8 false) (vr 0) (vr 1), .l2k h0 .n64 (.k 8 true) (vp 0) (.imm (-1)), .bcst h0 .w8 .f32 (.v 8 false) (vr 2) (.imm 9), .shfl h0 .up .wg .s32 (.v 8 false) (vr 0) (.imm 1),
      .shfl h0 .down .w8 .s64 (.v 8 true) (vp 0) (vr 1), .shfl h0 .xor .w16 .s32 (.v 8 false) (vr 0) (.imm 7), .shfl h0 .rot .w64 .f32 (.v 8 false) (vr 0) (.imm (-1))] : List Instr).all
      (ready regs) = true := by decide +kernel

theorem witness_PollCountCompact :
    ([.poll h0 .every .wg (.p 2) (vr 0), .poll h0 .anyOf .w8 (.v 8 false) (vr 0), .poll h0 .same .w16 (.k 8 false) (vr 1), .poll h0 .mask .wg (.v 8 true) (vr 0), .mcnt h0 true .wg .s32 (.v 8 false) (vr 0),
      .mcnt h0 false .w8 .s64 (.v 8 false) (vp 0)] : List Instr).all (ready regs) = true
    ∧ meets (.cmpt h0 .wg .s32 (.v 8 false) (vr 0) (.p 7)) regs (fun x _ => (inRun x .wg 0)[0]? == some 0 && (inRun x .wg 7)[7]? == some 7) = true := by decide +kernel

theorem witness_ReduceScanSort :
    ([.red h0 .add .wg .f32 (.v 8 false) (vr 2), .red h0 .xor .w8 .n64 (.k 8 true) (vp 0), .scan h0 .max .wg .s32 (.v 8 false) (vr 0), .srt h0 .desc .wg .s32 (.v 8 false) (vr 0),
      .srt h0 .asckv .w8 .f32 (.v 8 true) (vp 0)] : List Instr).all (ready regs) = true := by decide +kernel

/-- Registers that hold addresses: v0:v1 and k0:k1 line 1 of page 0, v2:v3 page 1 (an algebra table), v4:v5 page 3 (no W), v6:v7 page 4 (not dirty), v8:v9 no page, v10:v11 bits
63:56 set, v12:v13 page 2 (class 2), v22:v23 page 5 (another chip); the lanes stand 64 bytes apart in v14:v15; v18:v19 a good target in the lanes below 4 and no page in the others; v20 offsets, one misaligned and one far away; k2 is 2, k3 is 1. -/
def addrs (j : Nat) : Cells 32 :=
  [(0, 0x80), (2, 0x2000000), (4, 0x6000000), (6, 0x8000000), (8, 0x20000000), (11, 0x1000000), (12, 0x4000000), (22, 0xA000000), (14, BitVec.ofNat 32 (0x1000 + 64 * j)), (16, BitVec.ofNat 32 (4 * j)),
    (18, if j < 4 then 0x80 else 0x20000000), (20, [0, 64, 2, 100000].getD j 4)]
def pages : State := onPages addrs [(0, 0x80), (2, 2), (3, 1)]

/-- Change every group of a state. -/
def grouped (s : State) (f : Group → Group) : State := { s with teams := s.teams.map fun t => { t with groups := t.groups.map f } }
/-- No entry waits, no word has failed. -/
def quiet (s : State) : Bool := s.agents.all (·.holes.isEmpty) && (s.slot.map (·.aFault)) == some false && !s.blocked

/-- An access of lanes 1 and 2 of the group of `pages`, to a place, and the state in which it alone is outstanding. -/
def access (kind : AccKind) (place : Place) (alg : Nat) (d : Dst) (val : Option (List Byte)) : Acc :=
  { id := 5, instr := 5, core := 0, tid := 0, gix := 0, lane := 1, also := [2], ctx := 0, kind := kind, place := place, va := 0x1000, size := 4, data := [1, 2, 3, 4], cmp := 0, alg := alg, cls := 0
    colour := 0, d := d, shape := .plain, party := 0, arrived := false, val := val, path := none, left := false, fixedAt := none, picks := [], each := 0, cover := [] }
def outstanding (a : Acc) : State := { pages with accs := [a], nextId := 6 }
/-- The same with two entries in the pigeonhole of 0x12001000, under table 0. -/
def entryOf (op : Opr) : Entry := ⟨op, 0x12001000, 4, [1, 2, 3, 4], 0, some (0, 0), [(0, 0, 1)], none, false, 0x1000, 0⟩
def holed (s : State) : State := s.modAgent (stackOf 0x12001000) fun a => { a with holes := [⟨0x12001000 / 8, [entryOf .store, entryOf .addI32]⟩] }

/-- What holds of the issuing team. -/
def teamAt (t : State) (x : Issue) (p : Team → Bool) : Bool := match t.team? x.tid with | some tm => p tm | none => false

/-- A target of every kind: good, not a TARGET slot, another slot, no page, a malformed PC. -/
theorem witness_TransferTargets :
    (match pages.issue? with
      | some (sl, t, g, c) =>
        let x := fetchIssue sl t g c
        let is (pc : Dword) (computed call : Bool) (f : Option FCode) := ((pages.checkTarget x pc computed call).1.map (·.code)) == f
        is 0x80 false false none && is 0x80 true true none && is 0 true false (some Code.btgt) && is 0x81 false true (some Code.btgt) && is 0x100 false false (some Code.ill)
          && is 0x20000000 false false (some Code.pgf) && is 0x8A true false (some Code.btgt)
      | none => false) = true ∧ pcOk 0x80 = true ∧ pcOk 0x89 = true ∧ pcOk 0x8A = false ∧ pcOk 0x90 = false ∧ pcOk 0x100000000000000 = false ∧ quiet pages = true ∧ targetPc 0x105 ⟨-1, 9⟩ = 0x89 := by decide +kernel

/-- The check of a branch target passes, or fails. -/
def enters (g : Target) (call good : Bool) (x : Issue) (t : State) : Bool := !x.act.isEmpty && (t.checkTarget x (targetPc x.pc g) false call).1.isNone == good

theorem witness_Transfers :
    ([(.brx h0 (vp 0), vp 0, 0), (.ret h0 (kp 0), kp 0, 0), (.brx h0 (vp 18), vp 18, 4), (.ret h0 (vp 18), vp 18, 4)] : List (Instr × Src × Nat)).all (fun p => meets p.1 pages fun x t =>
        let r := targetChecks x (x.w64 p.2.1) x.act t
        quiet t && x.act.length == 8 && r.1.length == p.2.2 && quiet r.2) = true
      ∧ ([⟨1, 0⟩, ⟨2, 0⟩] : List Target).all (fun g => callOver h0 (.v 200 true) g (grouped pages fun k => { k with budget := 8 }) && meets (.bra h0 g) (grouped pages fun k => { k with budget := 8 }) fun x _ => !x.act.isEmpty) = true
      ∧ ([.bra ⟨false, 0, false, false, 0⟩ ⟨1, 0⟩, .call ⟨false, 0, false, false, 0⟩ (.v 8 true) ⟨1, 0⟩] : List Instr).all (fun i => meets i pages fun x _ => x.act.isEmpty) = true ∧ callOver h0 (.v 8 true) ⟨1, 0⟩ pages = false
      ∧ meets (.bra h0 ⟨1, 0⟩) pages (enters ⟨1, 0⟩ false true) = true ∧ meets (.bra h0 ⟨2, 0⟩) pages (enters ⟨2, 0⟩ false false) = true
      ∧ meets (.call h0 (.v 8 true) ⟨1, 0⟩) pages (enters ⟨1, 0⟩ true true) = true ∧ meets (.call h0 (.k 8 true) ⟨0, 0⟩) pages (enters ⟨0, 0⟩ true false) = true
      ∧ meets (.lp h0 (.k 9 false) ⟨1, 0⟩) pages (fun x _ => Cells.get x.g.k 9 == 0) = true ∧ meets (.lp h0 (.k 3 false) ⟨1, 0⟩) pages (fun x _ => !x.act.isEmpty && Cells.get x.g.k 3 == 1) = true
      ∧ meets (.lp h0 (.k 2 false) ⟨1, 0⟩) pages (fun x t => enters ⟨1, 0⟩ false true x t && Cells.get x.g.k 2 == 2) = true
      ∧ meets (.lp h0 (.k 2 false) ⟨2, 0⟩) pages (fun x t => enters ⟨2, 0⟩ false false x t && Cells.get x.g.k 2 == 2) = true
      ∧ meets (.lp ⟨true, 0, false, false, 0⟩ (.k 2 false) ⟨1, 0⟩) pages (fun x _ => !x.act.isEmpty) = true ∧ meets (.lp ⟨false, 0, false, false, 0⟩ (.k 2 false) ⟨1, 0⟩) pages (fun x _ => x.act.isEmpty) = true := by
  decide +kernel

/-- All lanes enrolled and all at the join; one enrolled lane elsewhere; none enrolled. -/
def joining (mask : Dword) (elsewhere : Bool) : State :=
  inSlot State.reset { placedTeam with groups := [{ group8 (fun _ => []) [] with j := [(2, mask)], lanes := (List.range 8).map fun j =>
    if j == 7 && elsewhere then { placedLane with st := .parked .exiting } else placedLane }] } placedContext

theorem witness_EnrolAndJoin :
    ready (joining 0xF0 false) (.enrol h0 2) = true ∧ ready (joining 0xFF false) (.join h0 2) = true ∧ ready (joining 0xFF true) (.join h0 2) = true ∧ ready (joining 0 false) (.join h0 2) = true
      ∧ Cells.wf ([(2, 0xF0)] : Cells 64) = true := by decide +kernel

theorem witness_ExitNopAndYield :
    meets (.exit h0) (joining 0xF0 false) (fun x t => x.act.all (fun j => !(t.owes x.tid x.gix j)) && !x.g.handler && !x.act.isEmpty) = true ∧ ready regs (.nop h0) = true ∧ ready regs (.yield h0) = true
      ∧ meets (.yield ⟨false, 0, false, false, 0⟩) regs (fun x _ => x.act.isEmpty) = true := by decide +kernel

/-- A context whose handler stands at line 1 and takes every code, lane 7 of its group parked at a join. -/
def handled : State :=
  inSlot mapped { placedTeam with groups := [{ group8 (fun _ => []) [] with lanes := (List.range 8).map fun j => if j == 7 then { placedLane with st := .parked (.join 0 1) } else placedLane }] }
    { placedContext with thnd := 0x80, ten := 0x37DFBE }
def handled7 : State := { handled with slot := handled.slot.map fun sl => { sl with lanes := List.range 7 } }

/-- A launch that is deterministic, with room for two octets in every slice or with no room. -/
def rigid (room : Bool) : State :=
  { regs with launches := [{ placedLaunch with pkt := { placedLaunch.pkt with det := true } }]
              teams := regs.teams ++ if room then [] else [{ placedTeam with tid := 1, groups := [{ group8 (fun _ => []) [] with slotNo := 1, octets := (List.range 63).map fun k => ⟨(k + 1) % 8, 256 * ((k + 1) / 8)⟩ }] }] }

theorem witness_Width :
    ([true, false] : List Bool).all (fun b => meets (.width h0 (.k 4 false) (.imm 64)) (rigid b) fun x t =>
        x.g.lanesWhere Lane.live == x.act && t.fixedWidth x.team x.c && (t.foldedFor x.team x.g (widthReq 64)).isSome == b) = true
      ∧ meets (.width ⟨false, 0, false, false, 0⟩ (.k 4 false) (.imm 64)) regs (fun x _ => x.act.isEmpty) = true ∧
    meets (.width h0 (.k 4 false) (.imm 64)) regs (fun x t => x.g.lanesWhere Lane.live == x.act && (x.u32 (.imm 64)).toNat == 64 && !(t.fixedWidth x.team x.c) && x.g.lanes.length == x.g.grant) = true
      ∧ meets (.width h0 (.k 4 false) (.imm 0)) regs (fun x _ => x.g.lanesWhere Lane.live == x.act && (x.u32 (.imm 0)).toNat == 0) = true
      ∧ meets (.width h0 (.k 4 false) (.imm 65)) regs (fun x _ => !x.act.isEmpty && decide (64 < (x.u32 (.imm 65)).toNat)) = true
      ∧ meets (.width h0 (.k 4 false) (.imm 8)) handled7 (fun x _ => !x.act.isEmpty && x.g.lanesWhere Lane.live != x.act) = true := by decide +kernel

theorem witness_TrapsEnterTheHandler :
    ([(.trap h0 (.imm 8191), Code.trap), (.brk h0 (.imm 0), Code.brk)] : List (Instr × FCode)).all (fun p => meets p.1 handled7 fun x t =>
      !x.act.isEmpty && (t.slot.bind (·.other)).isNone && (match t.team? x.tid, t.ctx? x.team.ctx with | some tm, some c => c.handles x.g p.2 && (t.handlerLine tm c x.g.ahead).1 | _, _ => false)) = true := by
  decide +kernel

theorem witness_FaultsReachTheBuffer :
    (match regs.team? 0, regs.group? 0 0, regs.ctx? 0 with
      | some t, some g, some c => !(c.handles g Code.prot) && ((regs.die? (dieOf t.core)).map fun d => d.heldFaults.isEmpty && decide (d.count < 1024)) == some true
      | _, _, _ => false) = true ∧ Memory.wf regs.mem = true
      ∧ ((regs.takeFault 0 0 (Flt.mk' Code.prot) [1, 3] 0 1 0).die? 0).map (·.fbhead) = some 1 := by decide +kernel

/-- A group in its handler: lanes 0 to 5 handle, 6 was active and 7 parked and marked ready. -/
def handling (tpc tmask : Dword) : State :=
  inSlot mapped { placedTeam with groups := [{ group8 (fun _ => []) [] with handler := true, tmask := tmask, tpc := tpc, lanes := (List.range 8).map fun j =>
    if j < 6 then placedLane else if j == 6 then { placedLane with held := true } else { placedLane with held := true, woke := some false } }] } { placedContext with priv := false }
def handling6 (tpc tmask : Dword) : State := { handling tpc tmask with slot := (handling tpc tmask).slot.map fun sl => { sl with lanes := List.range 6 } }

theorem witness_TrapReturn :
    meets (.trt h0) (handling6 0x80 0x3F) (fun x _ => x.g.handler && x.g.handlerLanes.all x.act.contains && pcOk x.g.tpc && x.privileged) = true
      ∧ meets (.trt h0) (handling6 0x8A 0x3F) (fun x _ => x.g.handler && x.g.handlerLanes.all x.act.contains && !(pcOk x.g.tpc)) = true
      ∧ meets (.trt h0) (handling6 0x80 0x7F) (fun x _ => x.g.handler && !(x.g.handlerLanes.all x.act.contains)) = true
      ∧ meets (.trt h0) regs (fun x _ => !x.g.handler && !x.act.isEmpty) = true := by decide +kernel

/-- A group that is not privileged. -/
def plebeian : State := inSlot State.reset { placedTeam with groups := [group8 (fun _ => []) []] } { placedContext with priv := false }
theorem witness_Privilege :
    ([.trt h0, .sysr h0 (.v 8 false) (.imm 0), .sysw h0 (.imm 0x12) (kr 0), .hlt h0] : List Instr).all (fun i => meets i plebeian fun x _ => !x.act.isEmpty && !x.privileged) = true
      ∧ ([.trt ⟨false, 0, false, false, 0⟩, .sysr ⟨false, 0, false, false, 0⟩ (.v 8 false) (.imm 0), .sysw ⟨false, 0, false, false, 0⟩ (.imm 0x12) (kr 0), .hlt ⟨false, 0, false, false, 0⟩] : List Instr).all
        (fun i => meets i plebeian fun x _ => x.act.isEmpty) = true := by decide +kernel

/-- The code of the fault an access meets, or none. -/
def checked (c : Context) (va : Dword) (size al : Nat) (need : Need) (op rg : Bool) : Option FCode :=
  match (pages.checkVa 0 c va size al need op rg).1 with
  | .ok _ => none
  | .error f => some f.code

theorem witness_AccessChecks :
    checked placedContext 0x100000000000000 4 4 .read false true = some Code.prot ∧ checked placedContext 0x82 4 4 .read false true = some Code.align
      ∧ checked placedContext 0x20000000 4 4 .read false true = some Code.pgf ∧ checked placedContext 0x6000000 4 4 .write false true = some Code.prot
      ∧ checked placedContext 0x2000000 2 2 .read false true = some Code.prot ∧ checked placedContext 0x4000000 4 4 .both true true = some Code.atomio
      ∧ checked { placedContext with ranges := [⟨0, 0, 0x84, 4, .rgi⟩] } 0x80 8 8 .read false true = some Code.rngc ∧ checked { placedContext with ranges := [⟨0, 0, 0x84, 4, .rgi⟩] } 0x80 4 4 .read false true = none
      ∧ checked placedContext 0x80 16 16 .read false true = none := by decide +kernel

/-- Every access of the instruction is good, in a state with scratchpad, pool and peers. -/
def local8 : State := { pages with pools := [⟨0, 0, 0x1000, [], []⟩], teams := [{ placedTeam with spadLines := 8, groups := [group8 addrs [(0, 0x80), (2, 2), (3, 1)]] }] }
def allGood (i : Instr) (writes : Bool) (s : State) : Bool :=
  meets i s fun x t =>
    let r : Option (Nat × (Issue → Nat → Space) × (Issue → Nat → Dword)) :=
      if writes then (storeForm i).map fun f => (f.1, f.2.2.2.1, f.2.2.2.2) else (loadForm i).map fun f => (f.1, f.2.2.2.1, f.2.2.2.2)
    match r with
    | some (size, sp, addr) => !x.act.isEmpty && (t.spots x x.act (sp x) (addr x) size writes).got.all fun p => match p.2.2 with | .ok _ _ _ => true | _ => false
    | none => false

theorem witness_LoadsAndStoresIssue :
    ([.ld h0 .b32 false (.v 20 false) (vp 0) (vr 16), .ld h0 .b128 false (.v 20 true) (vp 2) (.imm 0), .ld h0 .b8 true (.nw false) (vp 14) (.imm 3), .lds h0 .b64 false (.v 20 true) (vr 0) (.imm 0),
      .ldc h0 .b16 true (.v 20 false) (vr 0) (.imm 2), .ldx h0 .b32 false (.v 20 false) (.imm 0) (vr 16)] : List Instr).all (fun i => allGood i false local8) = true
    ∧ ([.st h0 .b64 3 (vp 14) (.imm 8) (vp 0), .st h0 .b128 0 (vp 2) (.imm 0) (.v 0 false false true), .st h0 .b32 7 (vp 6) (vr 16) (.imm (-1)), .sts h0 .b8 0 (vr 16) (.imm 1) (vr 0), .stc h0 .b32 0 (vr 16) (.imm 0) (vr 0),
      .stx h0 .b64 1 (.imm 0) (.imm 64) (vp 0)] : List Instr).all (fun i => allGood i true local8) = true := by decide +kernel

theorem witness_UniformAccesses :
    meets (.ldk h0 .b128 false (.k 20 true) (kp 0) (.imm 0)) pages (fun x t => !x.act.isEmpty && (match (t.spots x [x.low] (fun _ => .virt) (fun j => x.w64 (kp 0) j + (x.w32 (.imm 0) j).signExtend 64) 16 false).got with
        | [(_, _, .ok _ _ _)] => true | _ => false)) = true
      ∧ meets (.stk h0 .b32 2 (kp 0) (.imm 4) (.imm 7)) pages (fun x t => !x.act.isEmpty && (match (t.spots x [x.low] (fun _ => .virt) (fun j => x.w64 (kp 0) j + (x.w32 (.imm 4) j).signExtend 64) 4 true).got with
        | [(_, _, .ok _ _ _)] => true | _ => false)) = true
      ∧ meets (.ldk ⟨false, 0, false, false, 0⟩ .b32 false (.k 20 false) (kp 0) (.imm 0)) pages (fun x _ => x.act.isEmpty) = true
      ∧ meets (.stk ⟨false, 0, false, false, 0⟩ .b32 0 (kp 0) (.imm 0) (kr 0)) pages (fun x _ => x.act.isEmpty) = true ∧ ready pages (.prf h0 (vp 8) (.imm 0)) = true := by decide +kernel

/-- One set of tags, all lanes on distinct slots of the address's set. -/
def tagged : State := { pages with teams := [{ placedTeam with spadLines := 8, absent := [0], groups := [group8 (fun j => [(5, BitVec.ofNat 32 j), (6, BitVec.ofNat 32 (j + 4)), (7, BitVec.ofNat 32 (1024 * j))]) []] }] }
theorem witness_TagsAndPresence :
    meets (.tlk h0 (.v 20 false) (vp 0)) tagged (fun x t => ((t.team? x.tid).map (·.sets)) == some 1) = true ∧ meets (.tlk h0 (.v 20 false) (vp 0)) pages (fun x t => ((t.team? x.tid).map (·.sets)) == some 0) = true
      ∧ meets (.tset h0 true (vr 5) (vp 0)) tagged (fun x t => x.act.all fun j => decide ((x.w32 (vr 5) j).toNat < 8) && ((t.team? x.tid).map fun m => m.setOf (x.w64 (vp 0) j)) == some 0) = true
      ∧ quiet tagged = true ∧ ([.tset h0 true (vr 6) (vp 0), .tinv h0 (vr 6), .tlck h0 (vr 6), .tulk h0 (vr 6)] : List Instr).all (fun i => meets i tagged fun x t => teamAt t x fun tm => match tagForm i with
        | some (ok, _) => (allowed x (ok x tm)) == [0, 1, 2, 3] && (refusedLanes x (ok x tm)).length == 4
        | none => false) = true
      ∧ ([.prsq h0 (.v 20 false) (vr 7), .prsc h0 true (vr 7) (.imm 1)] : List Instr).all (fun i => meets i tagged fun x t => teamAt t x fun tm => (allowed x (lineIn tm x (vr 7))) == [0, 1, 2, 3] && tm.absent == [0]) = true
      ∧ ([.tinv h0 (vr 5), .tlck h0 (vr 5), .tulk h0 (vr 5)] : List Instr).all (fun i => meets i tagged fun x _ => x.act.all fun j => decide ((x.w32 (vr 5) j).toNat < 8)) = true
      ∧ ([.prsq h0 (.v 20 false) (vr 5), .prsc h0 false (vr 5) (.imm 0xFF), .prsc h0 true (vr 5) (.imm (-1))] : List Instr).all (fun i => meets i tagged fun x _ => x.act.all fun j => decide ((x.w32 (vr 5) j).toNat < 4096)) = true := by
  decide +kernel

/-- The same with the registers of `v` in every lane beside those addresses. -/
def withRegs (k : Cells 32) (t : Team) : State := { pages with teams := [{ t with groups := [group8 addrs k] }] }

/-- Every operator passes its checks, with a plain and with an algebra page. -/
def posted (i : Instr) : Bool :=
  meets i pages fun x t =>
    match operatorForm i with
    | some (op, fetch, _, _, addr, _, _) =>
      let w := t.postSpots x (addr x) (opSize op) (if fetch then .both else .write)
      !x.act.isEmpty && x.g.oc + x.act.length ≤ 65535 && w.got.all fun p => match p.2.2 with | .ok place _ _ => !fetch || !(w.s.risky place (opSize op)) | _ => false
    | none => false

/-- Lanes 4 to 7 of an address fail their check; no place is left in OC, at the walkers or in the dirty log. -/
def tight : State :=
  { (grouped pages fun g => { g with oc := 65530 }) with agents := pages.agents.map fun a => { a with walker := List.replicate 256 ⟨0, 0, none, ⟨[], []⟩⟩ }
                                                         ctxs := [{ placedContext with dln := 1, dltail := 1, dlhead := 0 }] }
def faulty (i : Instr) (addr : Issue → Nat → Dword) (need : Need) (faults parks : Nat) (s : State) : Bool :=
  meets i s fun x t => let w := t.postSpots x (addr x) 4 need; quiet t && x.act.length == 8 && (spotFaults w.got).length == faults && (spotParks w.got).length == parks

theorem witness_OperatorsAndRecordsIssue :
    faulty (.ops h0 .addI32 0 (vp 18) (.imm 0) (vr 0)) (fun x => x.w64 (vp 18)) .write 4 0 pages = true ∧ faulty (.opf h0 .addI32 0 (.v 22 false) (vp 4) (.imm 0) (vr 0)) (fun x => x.w64 (vp 4)) .both 8 0 pages = true
    ∧ faulty (.ops h0 .addI32 0 (vp 6) (.imm 0) (vr 0)) (fun x => x.w64 (vp 6)) .write 0 8 { tight with mem := pages.mem } = true
    ∧ meets (.opf h0 .addI32 0 (.v 22 false) (vp 14) (.imm 0) (vr 0)) tight (fun x _ => decide (65535 < x.g.oc + x.act.length)) = true
    ∧ meets (.ewk h0 (vp 14) (.imm 0)) tight (fun x t => (List.range 16).any fun n => decide (256 < (t.agent n).walker.length + ((recordLanes (t.spots x x.act (fun _ => .virt) (fun j => x.w64 (vp 14) j) 64 false).got).filter fun p => stackOf p.2.2 == n).length)) = true
    ∧ meets (.ewk h0 (vp 12) (.imm 0)) pages (fun x t => let w := t.spots x x.act (fun _ => .virt) (fun j => x.w64 (vp 12) j) 64 false; quiet t && w.got.length == 8 && (recordLanes w.got).isEmpty) = true
    ∧ ([.ops h0 .addI32 0 (vp 14) (.imm 0) (vr 0), .ops h0 .store 5 (vp 2) (vr 16) (.imm (-1)), .opf h0 .xchg 7 (.v 20 false) (vp 14) (.imm 4) (vr 0), .opf h0 .addI64 0 (.v 20 true) (vp 14) (.imm 8) (vp 0),
      .ocas h0 1 (.v 20 false) (vp 14) (vr 0) (vr 1)] : List Instr).all posted = true
    ∧ meets (.ewk h0 (vp 14) (.imm 0)) pages (fun x t => !x.act.isEmpty && t.accs.isEmpty && (let w := t.spots x x.act (fun _ => .virt) (fun j => x.w64 (vp 14) j + (x.w32 (.imm 0) j).signExtend 64) 64 false
        (recordLanes w.got).length == 8 && !((w.s.await false x.tid x.gix x.act ⟨true, true, true⟩ true 255 .pod).blocked))) = true ∧ pages.agents.length = 16 := by decide +kernel

theorem witness_LocalAtomics :
    ([(vr 16, 8, 0), (vr 20, 1, 1)] : List (Src × Nat × Nat)).all (fun p => meets (.sat h0 .cas 0 (.v 5 false) p.1 (vr 0) (some (vr 1))) (withRegs [] { placedTeam with absent := [1] }) fun x t => teamAt t x fun tm =>
      let ok := x.act.filter fun j => (satFault tm 4 (x.w32 p.1 j).toNat).isNone
      quiet t && t.accs.isEmpty && (ok.filter fun j => !(tm.absent.contains ((x.w32 p.1 j).toNat / 64))).length ≥ p.2.1 && (ok.filter fun j => tm.absent.contains ((x.w32 p.1 j).toNat / 64)).length == p.2.2
        && !(((t.await false x.tid x.gix ok ⟨true, true, false⟩ true 255 .pod)).blocked)) = true
      ∧ satFault placedTeam 4 2 = some (Flt.mk' Code.align) ∧ satFault placedTeam 4 509 = some (Flt.mk' Code.prot) ∧ Cells.wf placedTeam.spad = true := by decide +kernel

/-- A transactional group of the team, open or aborted, and one of another team, at agent 0 or wherever the address lies. -/
def inGroup (aborted : Bool) (row : Nat) : State := pages.modAgent (stackOf 0x12000080) fun a => { a with txs := [⟨3, 9, 0, aborted, [⟨row, []⟩]⟩] }
def handleOf : Word := BitVec.ofNat 32 (9 * 65536 + stackOf 0x12000080 % 16 * 64 + 3)
/-- k10 holds the handle. -/
def holding (s : State) : State := { s with teams := [{ placedTeam with groups := [group8 addrs [(0, 0x80), (10, handleOf)]] }] }
/-- Whether txb may open at the address of k0:k1, and whether its group may be opened there. -/
def opens (s : State) (room : Bool) : Bool :=
  meets (.txb h0 (.k 60 false) (kp 0)) s fun x t =>
    match t.checkVa x.core x.c (x.w64 (kp 0) x.low) 4 1 .write true true with
    | (.ok k, v) => !x.act.isEmpty && v.onChip k.gpa && (((List.range 64).any fun n => !((v.agent (stackOf k.gpa)).txs.any (·.slot == n))) && !((v.agent (stackOf k.gpa)).holdsRow (k.gpa / 2048))) == room
    | _ => false
def fullAgents : State := { pages with agents := List.replicate 16 { Agent.reset with txs := (List.range 64).map fun n => ⟨n, 0, 7, false, []⟩ } }

/-- What a lane of txs meets, at an address, in a group with some rows and a context. -/
def txMeets (s : State) (c : Context) (va : Dword) (p : Spot → State → Bool) : Bool :=
  meets (.txs h0 2 (kr 10) (kp 0) (vr 0)) (holding { s with ctxs := [c] }) fun x t =>
    let r := t.txLane x handleOf 2 9 [] 0 va [1, 2, 3, 4]
    match t.checkSeen [] x.core x.c va 4 4 .write true true with
    | (.ok k, _, v) => (v.tx? x.tid handleOf).isSome && p r.1 r.2.2 && (match v.dirty x.c.ctx va k.leaf with | .flt _ => false | _ => true)
    | _ => false
def fullRows : State := pages.modAgent (stackOf 0x12000080) fun a => { a with txs := [⟨3, 9, 0, false, (List.range 64).map fun n => ⟨n, []⟩⟩] }
def fullLog : Context := { placedContext with dln := 1, dltail := 1 }

theorem witness_TransactionalGroups :
    ([vp 8, vp 22] : List Src).all (fun a => meets (.txb h0 (.k 60 false) a) pages fun x t => !x.act.isEmpty && match t.checkVa x.core x.c (x.w64 a x.low) 4 1 .write true true with
      | (.error f, _) => f.code == Code.pgf
      | (.ok k, v) => !(v.onChip k.gpa)) = true
    ∧ ([(vp 22, 0xA000080, Code.prot), (vp 14, 0x1000, Code.prot)] : List (Src × Dword × FCode)).all (fun p => txMeets (inGroup false 5) placedContext p.2.1 fun r _ => match r with | .flt f => f.code == p.2.2 | _ => false) = true
    ∧ txMeets fullRows placedContext 0x80 (fun r _ => match r with | .flt f => f.code == Code.txov | _ => false) = true
    ∧ txMeets (inGroup false 5) fullLog 0x8000000 (fun r _ => r == .park .dirtyLog) = true ∧ txMeets (inGroup false 5) placedContext 0x80 (fun r _ => match r with | .ok _ _ _ => true | _ => false) = true
    ∧ ([.txb ⟨false, 0, false, false, 0⟩ (.k 60 false) (kp 0), .txc ⟨false, 0, false, false, 0⟩ (.k 60 false) (kr 10), .txa ⟨false, 0, false, false, 0⟩ (kr 10)] : List Instr).all (fun i => meets i pages fun x _ => x.act.isEmpty) = true
    ∧ (let r : TxRow := ⟨9, [(4, 1), (5, 2)]⟩; r.bytes.find? (·.1 == 5) == some (5, 2)) = true
    ∧ opens pages true = true ∧ opens fullAgents false = true ∧ opens (inGroup false (0x12000080 / 2048)) false = true ∧ opens (inGroup true (0x12000080 / 2048)) true = true
      ∧ meets (.txs h0 2 (kr 10) (kp 0) (vr 0)) (holding (inGroup false (0x12000080 / 2048))) (fun x t => (match t.tx? x.tid (x.u32 (kr 10)) with
        | some g => !g.aborted && !x.act.isEmpty && (txSpots x (x.u32 (kr 10)) 2 t.nextId (x.w64 (kp 0)) (x.bytesOf (vr 0) 4) { t with nextId := t.nextId + 1 }).got.all fun p => match p.2.2 with
          | .ok (.mem gpa) 0 0 => t.onChip gpa && stackOf gpa == txStack (x.u32 (kr 10)) && (g.rows.any (·.row == gpa / 2048))
          | _ => false
        | none => false)) = true
      ∧ ([.txs h0 2 (kr 10) (kp 0) (vr 0), .txc h0 (.k 60 false) (kr 10), .txa h0 (kr 10)] : List Instr).all (fun i => meets i (holding (inGroup true 5)) fun x t =>
        !x.act.isEmpty && t.accs.isEmpty && ((t.tx? x.tid (x.u32 (kr 10))).map (·.aborted)) == some true && !(t.closeTx (x.u32 (kr 10))).blocked) = true
      ∧ meets (.txc h0 (.k 60 false) (kr 10)) (holding (inGroup false 5)) (fun x t => !x.act.isEmpty && t.accs.isEmpty && (match t.tx? x.tid (x.u32 (kr 10)) with
        | some g => !g.aborted && !((t.commitTx x.c.ctx x.party g).closeTx (x.u32 (kr 10))).blocked
        | none => false)) = true
      ∧ ([.txs h0 2 (kr 10) (kp 0) (vr 0), .txc h0 (.k 60 false) (kr 10), .txa h0 (kr 10)] : List Instr).all (fun i => meets i (holding pages) fun x t =>
        !x.act.isEmpty && (t.tx? x.tid (x.u32 (kr 10))).isNone) = true := by decide +kernel

/-- A counter of 3. -/
def counted : State := { regs with teams := regs.teams.map fun t => { t with groups := t.groups.map fun g => { g with cc := 3, oc := 3, mc := 3 } } }
theorem witness_FencesAndCounters :
    meets (.fnc h0 ⟨true, true, true⟩ .dev (.imm 255)) regs (fun x t => !x.act.isEmpty && t.accs.isEmpty && !(t.await true x.tid x.gix x.act ⟨true, true, true⟩ true 255 .dev).blocked) = true
      ∧ meets (.fnc h0 ⟨false, true, false⟩ .dev (.imm 255)) (outstanding (access .store (.mem 0x12001000) 0 .none none)) (fun x t => match t.accs with
        | [st] => st.tid == x.tid && st.gix == x.gix && x.act.contains st.lane && !st.arrived && st.val.isNone && t.onChip 0x12001000 && !(isDevice 0x12001000) && (t.hole? (0x12001000 / 8)).isNone | _ => false) = true
      ∧ meets (.fnc ⟨false, 0, false, false, 0⟩ ⟨true, true, true⟩ .dev (.imm 255)) regs (fun x _ => x.act.isEmpty) = true ∧ ready regs (.ofnc h0) = true
      ∧ meets (.wt h0 .cc (.imm 3)) counted (fun x _ => decide (x.g.counter .cc ≤ 3) && !x.act.isEmpty) = true
      ∧ ([.cc, .mc, .oc] : List Ctr).all (fun c => meets (.wt h0 c (.imm 2)) counted fun x _ => decide (2 < x.g.counter c) && !x.act.isEmpty) = true := by decide +kernel

/-- Barrier 5 of a team: a drop, phase 4, a count and arrivals; the operand is in k11. -/
def barred (count arr : Nat) (n : Word) : State :=
  { regs with teams := regs.teams.map fun t => Team.setBar { t with groups := t.groups.map fun g => { g with k := Cells.set g.k 11 n } } 5 ⟨1, 4, count, arr⟩ }

theorem witness_Barriers :
    ([(0, 0, 0, true), (0, 0, 256, true), (4, 2, 5, true), (4, 2, 4, false), (0, 0, 255, false)] : List (Nat × Nat × Word × Bool)).all (fun p => meets (.bari h0 (.imm 5) (kr 11)) (barred p.1 p.2.1 p.2.2.1) fun x t =>
      match t.team? x.tid with
      | some tm => let r := tm.bar 5; let n := (x.u32 (kr 11)).toNat; !x.act.isEmpty && (t.choice x.c.ctx 8 5 (x.team.t % 2 ^ 31 * 2 ^ 17 + x.party)) == .go t && (n == 0 || decide (255 < n) || (r.arr != 0 && n != r.count)) == p.2.2.2
      | none => false) = true
    ∧ ([(4, 2, 0, false), (4, 3, 0, false), (0, 0, 0, true), (0, 0, 256, true), (4, 2, 5, true), (0, 0, 1, false)] : List (Nat × Nat × Word × Bool)).all (fun p =>
      ([.bara h0 (.k 60 false) (.imm 5) (kr 11), .bard h0 (.k 60 false) (.imm 5) (kr 11)] : List Instr).all fun i => meets i (barred p.1 p.2.1 p.2.2.1) fun x t =>
        match t.team? x.tid with
        | some tm => let r := tm.bar 5; let n := (x.u32 (kr 11)).toNat; !x.act.isEmpty && t.accs.isEmpty && (t.choice x.c.ctx 8 5 (x.team.t % 2 ^ 31 * 2 ^ 17 + x.party)) == .go t && (decide (255 < n) || (n == 0 && r.count == 0) || (n != 0 && r.arr != 0 && n != r.count)) == p.2.2.2
        | none => false) = true
    ∧ ([(true, 0, false, .imm 0), (true, 1, true, .imm 1), (false, 4, false, kr 11), (false, 3, true, kr 11), (false, 9, true, kr 11)] : List (Bool × Word × Bool × Src)).all (fun p =>
      meets (.barw h0 p.1 (.p 2) (.imm 5) p.2.2.2) (barred 4 2 p.2.1) fun x t =>
        match t.team? x.tid with
        | some tm => !x.act.isEmpty && (if p.1 then (tm.bar 5).phase.getLsbD 0 != (x.u32 p.2.2.2).getLsbD 0 else (tm.bar 5).phase != (x.u32 p.2.2.2).extractLsb' 0 16) == p.2.2.1
        | none => false) = true
    ∧ ([.bari ⟨false, 0, false, false, 0⟩ (.imm 5) (kr 11), .bara ⟨false, 0, false, false, 0⟩ (.k 60 false) (.imm 5) (kr 11), .bard ⟨false, 0, false, false, 0⟩ (.k 60 false) (.imm 5) (kr 11)] : List Instr).all (fun i =>
      meets i regs fun x _ => x.act.isEmpty) = true
    ∧ Cells.wf placedTeam.bars = true := by decide +kernel

/-- What the test of a wfl at 0x80 says; the same with the word poisoned and with an operator over it; and where the address fails or lies in a range or on a class-2 page. -/
def waitTests (s : State) (v : BitVec 14) (want : Tested) : Bool :=
  meets (.wfl h0 .eq (.k 20 false) (kp 0) (.imm v)) s fun x t =>
    match t.checkVa x.core x.c (x.u64 (kp 0)) 4 4 .read false false with
    | (.ok k, w) => let w0 := waitOf x .eq (.k 20 false) (kp 0) (.imm v) k; let p := w.probe x.core x.tid x.gix x.c.ctx w0; !x.act.isEmpty && !p.2.blocked && p.2.tested p.1 w0 == want
    | _ => false
def overWord : State := pages.modAgent (stackOf 0x12000080) fun a => { a with holes := [⟨0x12000080 / 8, [{ entryOf .addI32 with gpa := 0x12000080 }]⟩] }
def waitsAt (a : Src) (rg : Bool) (p : Issue → State → Bool) : Bool :=
  meets (.wfl h0 .eq (.k 20 false) a (.imm 1)) { (grouped pages fun g => { g with k := [(0, 0x80), (6, 0x4000000), (8, 0x20000000)] }) with
    ctxs := [{ placedContext with ranges := if rg then [⟨0, 0, 0x84, 4, .rgi⟩, ⟨0, 1, 0x80, 4, .rgi⟩] else [] }] } p

theorem witness_WaitsForWordsAndPhases :
    waitTests pages 0x401 (.holds 0x401) = true ∧ waitTests pages 0x402 .again = true ∧ waitTests { pages with poison := [0x12000080 / 4] } 0x401 .bad = true
    ∧ (waitTests { overWord with mem := overWord.mem.map fun p => if p.1 == 0x10040000 then (p.1, 0xBF) else p } 0x401 .waiting) = true
    ∧ waitsAt (kp 8) false (fun x t => match t.checkVa x.core x.c (x.u64 (kp 8)) 4 4 .read false false with | (.error _, _) => !x.act.isEmpty | _ => false) = true
    ∧ waitsAt (kp 6) false (fun x t => match t.checkVa x.core x.c (x.u64 (kp 6)) 4 4 .read false false with | (.ok k, _) => Pte.cls k.leaf.e == 2 | _ => false) = true
    ∧ waitsAt (kp 0) true (fun x t => match t.checkVa x.core x.c (x.u64 (kp 0)) 4 4 .read false false with | (.ok k, _) => Pte.cls k.leaf.e != 2 && rangeHit x.c (dieOf x.core) (x.u64 (kp 0)).toNat 4 | _ => false) = true
    ∧
    ([(.eq, 0x401, true), (.ne, 0x401, false), (.ltn, 0x402, true), (.gen, 0x402, false), (.lts, 0x402, true), (.ges, -1, true)] : List (WflCond × BitVec 14 × Bool)).all (fun p =>
      meets (.wfl h0 p.1 (.k 20 false) (kp 0) (.imm p.2.1)) pages fun x t =>
        match t.checkVa x.core x.c (x.u64 (kp 0)) 4 4 .read false false with
        | (.ok k, v) => !x.act.isEmpty && t.accs.isEmpty && !(isDevice k.gpa) && Pte.cls k.leaf.e != 2 && Pte.alg k.leaf.e == 0 && !(rangeHit x.c (dieOf x.core) (x.u64 (kp 0)).toNat 4) && k.gpa % 4 == 0 && v.onChip k.gpa
          && (v.hole? (k.gpa / 8)).isNone && !(v.poisoned k.gpa 4) && wflHolds p.1 (BitVec.ofNat 32 (v.readNat k.gpa 4)) (x.u32 (.imm p.2.1)) == p.2.2
        | _ => false) = true
    ∧ ([.phs h0 false .pod, .phs h0 true .dev] : List Instr).all (fun i => meets i regs fun x t => !x.act.isEmpty && t.accs.isEmpty) = true ∧ meets (.phs ⟨false, 0, false, false, 0⟩ false .pod) regs (fun x _ => x.act.isEmpty) = true := by decide +kernel

/-- A team with an allocation of two banks, tag 6, at logical bank 1, its bindings set; k24 to k31 hold a descriptor; the scratchpad has 64 KiB. v30 holds the format word of bf16 (KIND 1). -/
def accTeam : Team :=
  { placedTeam with spadLines := 128, allocs := [⟨6, 1, [0, 1], some ⟨false, 0, 1, []⟩, some ⟨false, 16384, 1, []⟩, []⟩]
                    groups := [group8 (fun j => [(30, 1), (31, BitVec.ofNat 32 (j * 64))]) [(4, 0x06000100), (5, 0x0F07), (6, 0x06000101), (8, 0x06000100), (9, 0xFFFF0F07), (24, 0), (25, 0), (26, 0x06000100), (27, 0x0F07), (28, 2), (29, 0), (30, 0), (31, 8), (40, 64)]] }
def accs : State := { regs with teams := [accTeam], quads := [(0, { Quad.reset with owner := [(0, 0), (1, 0)] })] }

/-- No lane's guard holds. -/
def hN : Hdr := ⟨false, 0, false, false, 0⟩
def idle (s : State) (is : List Instr) : Bool := is.all fun i => meets i s fun x _ => x.act.isEmpty
/-- The engine has a request that names the allocation; or its table is full, or the group's MC. -/
def aReq : MReq := ⟨4, 0, 0, 0, .zero, 6, [], 0, 1, none, [], []⟩
def asked (n : Nat) (s : State) : State := { s with quads := s.quads.map fun q => (q.1, { q.2 with reqs := List.replicate n aReq }) }

theorem witness_AccumulatorsAndTheirWords :
    idle accs [.aalc hN (.k 60 false) (.imm 1), .afre hN (kr 4)] = true ∧ meets (.afre h0 (kr 4)) (asked 1 accs) (fun x t => !x.act.isEmpty && !t.blocked && (t.quad (quadOf x.core)).reqs.any (·.names x.tid 6)) = true
      ∧ meets (.afre h0 (kr 4)) { accs with accs := [access .load (.acc 0 6 16384) 0 (.v 9 false) none], nextId := 6 } (fun x t => !x.act.isEmpty && !(t.force fun y => match y.place with | .acc _ _ _ => true | _ => false).blocked) = true
      ∧ meets (.macw h0 (kr 4) (vr 31) (vr 0)) { accs with teams := accs.teams.map fun t => { t with allocs := [⟨6, 1, [0], none, none, []⟩], groups := t.groups.map fun g => { g with k := [(4, 0x060001FC)] } } } (fun x t => teamAt t x fun tm =>
        match tm.aaFor (x.u32 (kr 4)) 1 with | some al => (x.act.filter fun j => decide (al.endRow ≤ aaRow (x.u32 (kr 4)) + (x.w32 (vr 31) j).toNat / 64)) == [4, 5, 6, 7] && quiet t | none => false) = true ∧
    ([0, 33, 32] : List (BitVec 14)).all (fun n => meets (.aalc h0 (.k 60 false) (.imm n)) accs fun x t => !x.act.isEmpty && teamAt t x fun tm => tm.tid == x.tid && tm.core == x.core
        && (n == 0 || decide (32 < n.toNat) || (tm.freeRun n.toNat).isNone)) = true
      ∧ meets (.aalc h0 (.k 60 false) (.imm 29)) accs (fun x t => !x.act.isEmpty && (t.quad 0).waits.isEmpty && decide (29 ≤ (t.quad 0).freeBanks.length) && teamAt t x fun tm => (tm.freeRun 29) == some 3) = true
      ∧ meets (.aalc h0 (.k 60 false) (.imm 1)) { accs with quads := [(0, { Quad.reset with waits := [⟨9, 0⟩] })] } (fun x t => !x.act.isEmpty && !(t.quad 0).waits.isEmpty && teamAt t x fun tm => (tm.freeRun 1).isSome) = true
      ∧ meets (.afre h0 (kr 4)) accs (fun x t => !x.act.isEmpty && teamAt t x fun tm => ((tm.aaFor (x.u32 (kr 4)) 1).map (·.handle)) == some (x.u32 (kr 4)) && (t.quad (quadOf x.core)).reqs.isEmpty) = true
      ∧ meets (.afre h0 (kr 6)) accs (fun x t => !x.act.isEmpty && teamAt t x fun tm => match tm.aaFor (x.u32 (kr 6)) 1 with | some al => x.u32 (kr 6) != al.handle | none => false) = true
      ∧ ([.macr h0 .s32 (.v 20 false) (kr 4) (vr 31) (some (vr 0)), .macr h0 .n32 (.k 50 false) (kr 4) (kr 40) none, .macw h0 (kr 6) (vr 31) (vr 0)] : List Instr).all (fun i => meets i accs fun x t => !x.act.isEmpty
        && teamAt t x fun tm => (tm.aaFor 0x06000101 1).isSome && (match tm.aaFor 0x06000100 1 with | some al => x.act.all fun j => decide (257 + j < al.endRow) | none => false)) = true
      ∧ ([.macr h0 .n32 (.v 20 false) (kr 5) (vr 31) none, .macw h0 (kr 5) (vr 31) (vr 0)] : List Instr).all (fun i => meets i accs fun x t => teamAt t x fun tm => (tm.aaFor (x.u32 (kr 5)) 1).isNone) = true := by
  decide +kernel

/-- The code of the first check that a request fails, or none. -/
def firstCheck (i : Instr) : Option FCode :=
  match opening i accs with
  | some (x, t) => if x.act.isEmpty then none else (t.team? x.tid).bind fun tm => ((requestChecks x t tm i).find? (·.1)).map (·.2)
  | none => some 255
def mo : MtxMod := ⟨false, true, false⟩

theorem witness_MatrixRequests :
    ([(.mlds h0 false (.imm 16384) (kr 4) (vr 30), none), (.mlds h0 false (.imm 0) (kr 5) (vr 30), some Code.acch), (.mlds h0 false (.imm 0) (kr 4) (vr 31), some Code.fmtdiv), (.mlds h0 false (.imm 8) (kr 4) (vr 30), some Code.align),
      (.mlds h0 true (.imm 1024) (kr 4) (vr 30), some Code.prot), (.mswp h0 (kr 4), none), (.mswp h0 (kr 5), some Code.acch), (.mstr h0 mo .bf16 (.imm 0) (kp 4) (vr 30), none), (.mstr h0 mo .bf16 (.imm 0) (kp 8) (vr 30), some Code.shape),
      (.mstr h0 mo .bf16 (.imm 0) (kp 4) (vr 31), some Code.fmtdiv), (.mstr h0 mo .bf16 (.imm 8) (kp 4) (vr 30), some Code.align), (.mstr h0 mo .bf16 (.imm 0) (kp 40) (vr 30), some Code.acch),
      (.mlp h0 mo .bf16 (.k 24 false false) (vr 30), none), (.mlp h0 mo .bf16 (.k 32 false false) (vr 30), some Code.shape), (.mzro h0 (kr 4) (.imm 512), none), (.mzro h0 (kr 4) (.imm 513), some Code.acch)]
      : List (Instr × Option FCode)).all (fun p => firstCheck p.1 == p.2) = true
    ∧ idle accs [.mlds hN false (.imm 0) (kr 4) (vr 30), .mswp hN (kr 4), .mstr hN mo .bf16 (.imm 0) (kp 4) (vr 30), .mlp hN mo .bf16 (.k 24 false false) (vr 30), .mzro hN (kr 4) (.imm 1)] = true
    ∧ meets (.mswp h0 (kr 4)) (asked 16 accs) (fun x t => !x.act.isEmpty && decide (16 ≤ (t.quad (quadOf x.core)).reqs.length)) = true
    ∧ meets (.mswp h0 (kr 4)) (grouped accs fun g => { g with mc := 65535 }) (fun x _ => !x.act.isEmpty && decide (65535 ≤ x.g.mc)) = true
    ∧ meets (.mswp h0 (kr 4)) accs (fun x t => !(t.await false x.tid x.gix x.act ⟨true, true, true⟩ false 255 .clus).blocked) = true ∧
    meets (.mlds h0 false (.imm 16384) (kr 4) (vr 30)) accs (fun x t => !x.act.isEmpty && t.accs.isEmpty && decide ((t.quad (quadOf x.core)).reqs.length < 16) && decide (x.g.mc < 65535)
        && teamAt t x fun tm => (tm.aaFor (x.u32 (kr 4)) 1).isSome && x.vote (vr 30) == some 1 && (t.operandFault tm false 16384 (Binding.bytes ⟨false, 16384, 1, []⟩)).isNone) = true
      ∧ meets (.mswp h0 (kr 4)) accs (fun x t => !x.act.isEmpty && teamAt t x fun tm => (tm.aaFor (x.u32 (kr 4)) 1).isSome) = true
      ∧ meets (.mstr h0 ⟨false, true, false⟩ .bf16 (.imm 0) (kp 4) (vr 30)) accs (fun x t => !x.act.isEmpty && x.words (kp 4) 2 0 == [0x06000100, 0x0F07] && teamAt t x fun tm =>
        (match tm.aaFor 0x06000100 (shapeM 0x0F07) with | some al => (al.active.map (·.fw)) == some 1 | none => false) && !(shapeBad 0x0F07) && pairs 1 .bf16
          && (t.operandFault tm false 0 (actRegion .bf16 (shapeK 0x0F07) (shapeM 0x0F07))).isNone) = true
      ∧ meets (.mlp h0 ⟨false, true, true⟩ .bf16 (.k 24 false false) (vr 30)) accs (fun x t => !x.act.isEmpty && teamAt t x fun tm =>
        let ws := x.words (.k 24 false false) 8 0
        ws.getD 4 0 == 2 && !(shapeBad (ws.getD 3 0)) && x.vote (vr 30) == some 1 && (tm.aaFor (ws.getD 2 0) 1).isSome && (loopSteps ws 2).all fun p => (tm.aaFor p.aa (shapeM (ws.getD 3 0))).isSome
          && (t.operandFault tm false p.wt (Binding.bytes ⟨false, 0, 1, []⟩)).isNone && (t.operandFault tm false p.act (actRegion .bf16 (shapeK (ws.getD 3 0)) (shapeM (ws.getD 3 0)))).isNone) = true
      ∧ meets (.mzro h0 (kr 4) (.imm 512)) accs (fun x t => !x.act.isEmpty && teamAt t x fun tm => (tm.aaFor (x.u32 (kr 4)) 512).isSome) = true
      ∧ ([.mlds h0 false (.imm 0) (kr 5) (vr 30), .mswp h0 (kr 5), .mzro h0 (kr 4) (.imm 0), .mzro h0 (kr 4) (.imm 8193), .mzro h0 (kr 4) (.imm 513)] : List Instr).all (fun i => meets i accs fun x t => !x.act.isEmpty
        && teamAt t x fun tm => (tm.aaFor (x.u32 (kr 5)) 1).isNone && (tm.aaFor (x.u32 (kr 4)) 513).isNone) = true := by decide +kernel

/-- A record of a box of four words on page 0 at 0x1000, and one of four words at offset 64 of the scratchpad. -/
def boxRecord (space base : Nat) (brand : Nat) : List Byte :=
  toLe 8 base ++ toLe 4 (space + 2 * 256 + 1 * 65536) ++ toLe 4 0 ++ toLe 20 4 ++ toLe 20 0 ++ toLe 12 4 ++ toLe 28 0 ++ toLe 16 brand ++ toLe 16 0
def brandNo (seq : Nat) : Nat := (1 * 2 ^ 24 + 1) * 2 ^ 56 + seq

/-- A chip with one live brand, number 1, of a kind with a payload and a count of references; k12:k15 hold it, k16:k19 the brand of a number without a record and k20:k23 one of another chip's
number. k24 is an operand. The team's shape slot 3 is a source in memory, slot 4 a destination in the scratchpad and slot 5 one in memory with that brand. -/
def branded (kind refs : Nat) (payload : Brand) (n : Word) : State :=
  { pages with brandBase := some 0x20000000, brandSeq := 2, brands := [(probeStart 1 0, ⟨1, kind, 1, 0, refs, 0, payload⟩)]
               teams := [{ (({ placedTeam with spadLines := 8 }.setSlot 3 0 (boxRecord 0 0x1000 0)).setSlot 4 0 (boxRecord 1 64 0)).setSlot 5 0 (boxRecord 0 0x3000 (brandNo 1)) with
                 groups := [group8 addrs [(0, 0x80), (2, 2), (12, 1), (13, 0x01000000), (14, 0x00010000), (16, 5), (17, 0x01000000), (18, 0x00010000), (20, 1), (21, 0x01000000), (22, 0x00070000), (24, n)]] }] }
def claiming : Claim := ⟨BitVec.ofNat 128 (brandNo 1), 1, 1, [], [0]⟩
def claimed1 (s : State) : State := { s with teams := s.teams.map fun t => { t with claims := [claiming] } }

/-- A context that follows a log of marks, and one that makes a log of `n`. -/
def replaying (s : State) (marks : List Nat) : State :=
  { s.write 0x28000000 (marks.flatMap (toLe 8)) with ctxs := [{ placedContext with replay := true, pmbase := 0x28000000, pmlen := marks.length }] }
def logged (n : Nat) (s : State) : State := { s with ctxs := [{ placedContext with log := true, pmbase := 0x28000000, pmlen := n }] }
/-- The next resolve in the log sees brand 1 as a change leaves it, or as it was before. -/
def seesIt (new : Bool) (s : State) : State := replaying s [postmarkOf 5 0 (resolveMark (BitVec.ofNat 128 (brandNo 1)) new), 7]
def awaitsChange (s : State) : State := seesIt true s

/-- What becomes of a copy: it fails a check, waits, or goes. -/
inductive Course where
  | fails
  | waits
  | goes
  deriving DecidableEq

def copies (n : BitVec 5) (cpx : Bool) (want : Course) (s : State) : Bool :=
  meets (if cpx then .cpx h0 n (.imm 3) (.imm 0) (.imm 0) else .cpy h0 n (.imm 3) (.imm 0) (.imm 0)) s fun x t =>
    teamAt t x fun tm =>
      let src := Rec.read (tm.slotBytes 3)
      let dst := Rec.read (tm.slotBytes n.toNat)
      let begun : Option State := if !cpx then some t else if (tm.claim? dst.brand).isNone then none else match resolves x dst.brand t with
        | .got r u => (match r.group with | .ok _ => some u | .error _ => none)
        | _ => none
      !x.act.isEmpty && t.accs.isEmpty && (match begun.map fun t => copyChecks t x tm src dst 0 0 cpx with
        | none => want == .fails
        | some (.error _, _) => want == .fails
        | some (.ok _, u) => !u.blocked && want == if u.copyWaits x tm src dst 0 cpx (if cpx then (targetRanks x.c dst).getD [] else []) then .waits else .goes)

def cgrp1 : State := branded 3 1 (1#128 <<< 80) 1
theorem witness_ShapesAndCopies :
    copies 4 false .goes cgrp1 = true ∧ copies 6 false .fails cgrp1 = true ∧ copies 5 true .goes (claimed1 cgrp1) = true ∧ copies 5 true .fails cgrp1 = true ∧ copies 5 true .fails (claimed1 (branded 2 1 9 0)) = true
      ∧ meets (.cpx h0 5 (.imm 3) (.imm 0) (.imm 0)) (awaitsChange (claimed1 cgrp1)) (fun x t => teamAt t x fun tm => let b := (Rec.read (tm.slotBytes 5)).brand; !x.act.isEmpty && (tm.claim? b).isSome && resolves x b t == .wait) = true
      ∧ copies 4 false .waits (grouped cgrp1 fun g => { g with cc := 65535 }) = true ∧ idle cgrp1 [.shp hN 9 (kp 0) (.imm 1), .cpy hN 4 (.imm 3) (.imm 0) (.imm 0), .cpx hN 5 (.imm 3) (.imm 0) (.imm 0)] = true
      ∧ meets (.cpq h0 4 (.k 60 false)) { (grouped cgrp1 fun g => { g with last := [⟨4, 1, 0, false⟩] }) with launches := [{ placedLaunch with pkt := { placedLaunch.pkt with det := true } }] } (fun x t =>
        !x.act.isEmpty && t.detOrReplay x.team && !((x.g.report 4).getLsbD 31)) = true
      ∧ meets (.shp h0 9 (.imm 0) (.imm 0)) { cgrp1 with teams := cgrp1.teams.map fun t => { t with absent := [1] } } (fun x t => teamAt t x fun tm => !x.act.isEmpty && tm.tid == x.tid && tm.absent == [1]) = true
      ∧ ([.shp h0 9 (kp 0) (.imm 1), .shp h0 9 (kr 0) (.imm 2), .shp h0 9 (kr 0) (.imm 3)] : List Instr).all (fun i => ready cgrp1 i) = true
      ∧ ([(4000, false, true), (4, true, false), (128, true, true), (3968, true, true)] : List (BitVec 14 × Bool × Bool)).all (fun p => meets (.shp h0 9 (.imm p.1) (.imm 0)) cgrp1 fun x t => teamAt t x fun tm =>
        !x.act.isEmpty && t.accs.isEmpty && tm.absent.isEmpty && !x.c.log && decide (p.1.toNat + 128 ≤ tm.spadBytes) == p.2.1 && (p.1.toNat % 8 == 0) == p.2.2) = true
      ∧ meets (.cpq h0 7 (.k 60 false)) cgrp1 (fun x t => !x.act.isEmpty && t.detOrReplay x.team == false && (x.g.report 7).getLsbD 31) = true
      ∧ meets (.cpq ⟨false, 0, false, false, 0⟩ 7 (.k 60 false)) cgrp1 (fun x _ => x.act.isEmpty) = true
      ∧ Cells.wf placedTeam.shapes = true := by decide +kernel

/-- The outcome of a cpc with op 0: SHAPE, 0 for one claim more, 3, 0, 2 or a wait. -/
def claims (s : State) (want : Nat) : Bool :=
  meets (.cpc h0 5 (.k 60 false) (kr 24) (.imm 0)) s fun x t => teamAt t x fun tm =>
    let brand := (Rec.read (tm.slotBytes 5)).brand
    match resolves x brand t with
    | .got r v => match r.group with
      | .error _ => false
      | .ok payload =>
      let k := (x.u32 (kr 24)).toNat
      !x.act.isEmpty && want == if k == 0 || decide (16 < k) then 9 else if tm.claims.any (·.brand == brand) then 8 else match v.portsFor x.c (membersOf x.c payload) with
        | none => 7
        | some ps => if !(v.claimPossible k ps) then 3 else if v.claimFree k ps && !(v.claimBehind brand) then 0 else if tm.claims.isEmpty then 1 else 2
    | _ => false
/-- Rank 0 is a context of chip 1, behind port 2 with courier firmware or without, or without a route. -/
def afar (route valid : Bool) (channels : Nat) (s : State) : State :=
  { s with ctxs := [{ placedContext with rankTable := [(1, 0)] }], routes := (0, .self) :: if route then [(1, .port 2)] else []
           ports := s.ports.modify 2 fun p => { p with valid := valid, channels := channels } }
def otherClaim (s : State) : State := { s with teams := s.teams.map fun t => { t with claims := [{ claiming with brand := 7 }] } }

theorem witness_Claims :
    idle cgrp1 [.cpc hN 5 (.k 60 false) (kr 24) (.imm 0)] = true ∧ meets (.cpc h0 4 (.k 60 false) (kr 24) (.imm 0)) cgrp1 (fun x t => teamAt t x fun tm => !x.act.isEmpty && (match resolves x (Rec.read (tm.slotBytes 4)).brand t with | .got r _ => (match r.group with | .error _ => true | _ => false) | _ => false)) = true
      ∧ meets (.cpc h0 5 (.k 60 false) (kr 24) (.imm 0)) (awaitsChange cgrp1) (fun x t => teamAt t x fun tm => !x.act.isEmpty && resolves x (Rec.read (tm.slotBytes 5)).brand t == .wait) = true
      ∧ claims cgrp1 0 = true ∧ claims (branded 3 1 (1#128 <<< 80) 0) 9 = true ∧ claims (branded 3 1 (1#128 <<< 80) 17) 9 = true ∧ claims (branded 3 1 (1#128 <<< 80) 16) 0 = true ∧ claims (claimed1 cgrp1) 8 = true
      ∧ claims (afar false true 16 cgrp1) 7 = true ∧ claims (afar true false 16 cgrp1) 3 = true ∧ claims (afar true true 16 cgrp1) 0 = true ∧ claims (afar true true 0 cgrp1) 1 = true
      ∧ claims (otherClaim (afar true true 0 cgrp1)) 2 = true ∧ ready (claimed1 cgrp1) (.cpc h0 5 (.k 60 false) (.imm 0) (.imm 1)) = true := by decide +kernel

/-- An algebra image without slots at 0x1000, an image of zeros at 0x2000 and a companding image at 0x3000; k4:k5, k6:k7 and k8:k9 hold the addresses, k10 an index. -/
def images (n : Word) (c : Context) : State :=
  let s := (mapped.write 0x12001000 [1]).write 0x12003000 ((List.range 17).flatMap fun i =>
    let w := toLe 4 ([0, 0x3D800000, 0x3E000000, 0x3E400000, 0x3E800000, 0x3EA00000, 0x3EC00000, 0x3EE00000, 0x3F000000, 0x3F100000, 0x3F200000, 0x3F300000, 0x3F400000, 0x3F500000, 0x3F600000, 0x3F700000, 0x3F800000].getD i 0)
    w ++ w)
  inSlot s { placedTeam with groups := [group8 (fun _ => []) [(4, 0x1000), (6, 0x2000), (8, 0x3000), (10, n), (12, 0xFFFFFF00), (13, 0xFFFFFF)]] } c
def imaged (a : Src) (n align : Nat) (ok : List Byte → Bool) (want : Bool) (x : Issue) (t : State) : Bool :=
  match t.imageAt x (x.u64 a) n align with
  | (.ok img, v) => !x.act.isEmpty && t.accs.isEmpty && ok img == want && (v.matrixWork x.c.ctx).isEmpty && !v.blocked && !x.c.log && !x.c.replay
  | _ => false
def ranged (owner : RangeOwner) (count : Nat) : Context := { placedContext with ranges := (List.range count).map fun i => ⟨0, i, 0x9000, 4, owner⟩ }

/-- An image whose page is not mapped; a context with matrix requests under way; a translation that a copy still goes through. -/
def noImage : State := grouped (images 0 placedContext) fun g => { g with k := [(4, 0x20000000)] }
def busyMatrix : State := { images 0 placedContext with quads := [(0, { Quad.reset with reqs := [aReq] })] }
def throughCopy : State :=
  { images 0 placedContext with cores := [(0, { CoreSt.reset with tlb := [⟨0, 0, 25, 0x1200003F, 0x10040000⟩] })]
                                copies := [⟨4, 0, 0, 0, 0, false, boxRecord 0 0x1000 0, boxRecord 1 64 0, 0, 0, [], [], ⟨[], []⟩, [], none, [], 4, 0, false⟩] }

theorem witness_TablesAndRanges :
    ([(256, 256), (136, 8)] : List (Nat × Nat)).all (fun p => meets (if p.1 == 256 then .algl h0 2 (kp 4) else .cmpl h0 2 (kp 4)) noImage fun x t => !x.act.isEmpty && (match t.imageAt x (x.u64 (kp 4)) p.1 p.2 with | (.error f, _) => f.code == Code.pgf | _ => false)) = true
      ∧ meets (.cmpl h0 2 (kp 8)) busyMatrix (fun x t => match t.imageAt x (x.u64 (kp 8)) 136 8 with | (.ok img, v) => cmpOk (cmpPairs img) && !v.blocked && (v.matrixWork x.c.ctx) == [4] | _ => false) = true
      ∧ meets (.tlbi h0 none) throughCopy (fun x t => !x.act.isEmpty && x.privileged && t.copies.any (·.through (t.tlbVictims x.c.ctx none))) = true
      ∧ idle (images 0 placedContext) [.algl hN 2 (kp 4), .algq hN 0 (.k 60 false) (.imm 1), .cmpl hN 2 (kp 8), .rgi hN (.k 60 false) (kp 4) (.imm 4), .rgr hN (.imm 1), .tlbi hN none] = true ∧
    meets (.algl h0 2 (kp 4)) (images 0 placedContext) (imaged (kp 4) 256 256 algOk true) = true ∧ meets (.algl h0 2 (kp 6)) (images 0 placedContext) (imaged (kp 6) 256 256 algOk false) = true
      ∧ meets (.cmpl h0 2 (kp 8)) (images 0 placedContext) (imaged (kp 8) 136 8 (fun i => cmpOk (cmpPairs i)) true) = true
      ∧ meets (.cmpl h0 2 (kp 6)) (images 0 placedContext) (imaged (kp 6) 136 8 (fun i => cmpOk (cmpPairs i)) false) = true
      ∧ ([63, 64] : List (BitVec 14)).all (fun n => ready (images 0 placedContext) (.algq h0 0 (.k 60 false) (.imm n))) = true
      ∧ ([(0, false, 0), (1, true, 0), (0x100, true, 0), (0x101, false, 0)] : List (Word × Bool × Nat)).all (fun p => meets (.rgi h0 (.k 60 false) (kp 12) (kr 10)) (images p.1 placedContext) fun x _ =>
        !x.act.isEmpty && (decide ((x.u64 (kp 12)).toNat + (x.u32 (kr 10)).toNat ≤ 2 ^ 56) && x.u32 (kr 10) != 0) == p.2.1) = true
      ∧ meets (.rgi h0 (.k 60 false) (kp 4) (.imm 4)) (images 0 (ranged .rgi 64)) (fun x t => !x.act.isEmpty && ((t.ctx? x.c.ctx).map fun k => (List.range 64).all fun i => k.ranges.any fun r => r.die == dieOf x.core && r.index == i) == some true) = true
      ∧ meets (.rgi h0 (.k 60 false) (kp 4) (.imm 4)) (images 0 (ranged .rgi 63)) (fun x t => !x.act.isEmpty && ((t.ctx? x.c.ctx).map fun k => k.ranges.all fun r => r.index != 63) == some true) = true
      ∧ meets (.rgr h0 (.imm 1)) (images 0 (ranged .rgi 3)) (fun x t => !x.act.isEmpty && ((t.ctx? x.c.ctx).map fun k => k.ranges.any fun r => r.die == dieOf x.core && r.index == 1 && r.owner == .rgi) == some true) = true
      ∧ ([ranged .rgi 1, ranged (.source 9) 3] : List Context).all (fun c => meets (.rgr h0 (.imm 1)) (images 0 c) fun x t =>
        !x.act.isEmpty && ((t.ctx? x.c.ctx).map fun k => k.ranges.all fun r => !(r.die == dieOf x.core && r.index == 1 && r.owner == .rgi)) == some true) = true
      ∧ ([.tlbi h0 none, .tlbi h0 (some (kp 4))] : List Instr).all (fun i => meets i (images 0 placedContext) (fun x t => !x.act.isEmpty && x.privileged && t.accs.isEmpty && t.copies.isEmpty)
        && meets i (images 0 { placedContext with priv := false }) fun x _ => !x.act.isEmpty && !x.privileged) = true := by decide +kernel

def brandIn (kind refs : Nat) (p : Issue → State → Bool) (i : Instr) : Bool := meets i (branded kind refs 9 0) fun x t => !x.act.isEmpty && t.accs.isEmpty && !x.c.log && !x.c.replay && p x t
def k12 : Src := .k 12 false false
def k16 : Src := .k 16 false false
def k20 : Src := .k 20 false false

/-- A change of brand 1 by another group is under way. -/
def changed : State := { branded 3 1 9 0 with pasts := [⟨BitVec.ofNat 128 (brandNo 1), ⟨1, 3, 1, 0, 1, 0, 8⟩, 7, 0⟩] }
def sees (new : Bool) : State := seesIt new changed
/-- Brands of number 7 have their home on chip 9, which a port reaches. -/
def abroad : State := { branded 3 1 9 0 with homes := (7, 1, 9) :: State.reset.homes, routes := [(0, .self), (9, .port 2)] }

theorem witness_Brands :
    idle (branded 3 1 9 0) [.bnew hN .stream (.k 40 false) k12, .bres hN none (.k 40 false) k12 (.p 3), .bshd hN, .bcas hN (.k 60 false) k12 k16 (.imm 0), .bkil hN k12, .bref hN k12, .bdrp hN k12] = true
      ∧ ([branded 3 1 9 0, logged 9 (branded 3 1 9 0)] : List State).all (fun s => meets (.bnew h0 .stream (.k 40 false) k12) s fun x t => !x.act.isEmpty && (match t.choice x.c.ctx 7 0 x.party with | .go _ => true | _ => false)) = true
      ∧ ([true, false] : List Bool).all (fun new => meets (.bres h0 none (.k 40 false) k12 (.p 3)) (sees new) fun x t => !x.act.isEmpty && ((t.siteMarks x.c (postmarkOf 5 x.team.lcore 0)).head?.map (·.2 % 2 ^ 48)) == some (resolveMark (x.brand k12) new)
        && (t.past? (x.brand k12)).isSome && (match t.choice x.c.ctx 5 x.team.lcore (resolveMark (x.brand k12) new) with | .go _ => true | _ => false)) = true
      ∧ meets (.bres h0 none (.k 40 false) k12 (.p 3)) (logged 9 changed) (fun x t => !x.act.isEmpty && x.c.log && (match t.freeBool.2.choice x.c.ctx 5 x.team.lcore (resolveMark (x.brand k12) t.freeBool.1) with | .go _ => true | _ => false)) = true
      ∧ ([.bres h0 none (.k 40 false) k12 (.p 3)] : List Instr).all (fun i => meets i (awaitsChange (branded 3 1 9 0)) fun x t => !x.act.isEmpty && !x.c.fence && resolves x (x.brand k12) t == .wait) = true
      ∧ (match changed.mint 0 3 9 with | (b, s) => b != 0 && s.brandSeq == 3) = true ∧ ({ changed with brandSeq := 0 } : State).mint 0 3 9 = (0, { changed with brandSeq := 0 })
      ∧ ([.bcas h0 (.k 60 false) k20 k12 (.imm 0), .bkil h0 k20, .bref h0 k20, .bdrp h0 k20] : List Instr).all (fun i => meets i abroad fun x t => !x.act.isEmpty && t.home (x.brand k20) == .away) = true
      ∧ (changed.findRec (BitVec.ofNat 128 (brandNo 1))).isSome = true ∧ Cells.wf ([(12, 1)] : Cells 32) = true ∧
    brandIn 3 1 (fun _ _ => true) (.bnew h0 .stream (.k 40 false) k12) = true ∧ brandIn 3 1 (fun x _ => x.privileged) (.bnew h0 .queue (.k 40 false) k12) = true
      ∧ meets (.bnew h0 .ctx (.k 40 false) k12) { branded 3 1 9 0 with ctxs := [{ placedContext with priv := false }] } (fun x _ => !x.act.isEmpty && !x.privileged) = true
      ∧ (freeSlot (branded 3 1 9 0) (probeStart 2 0)).isSome = true ∧ (branded 3 1 9 0).brandBase ≠ none ∧ (branded 3 1 9 0).brandSeq = 2
      ∧ ([(k12, .p 3), (k16, .p 7), (k20, .p 0)] : List (Src × Src)).all (fun p => brandIn 3 1 (fun _ _ => true) (.bres h0 none (.k 40 false) p.1 p.2)) = true
      ∧ brandIn 3 1 (fun _ _ => true) (.bres h0 (some .cgrp) (.k 40 false) k12 (.p 3)) = true
      ∧ brandIn 3 1 (fun x t => match t.home (x.brand k12) with | .here r => r.version == x.u32 (.imm 0) | _ => false) (.bcas h0 (.k 60 false) k12 k16 (.imm 0)) = true
      ∧ brandIn 3 1 (fun x t => match t.home (x.brand k12) with | .here r => r.version != x.u32 (.imm 1) | _ => false) (.bcas h0 (.k 60 false) k12 k16 (.imm 1)) = true
      ∧ ([0, 1, 2, 0xFFFFE, 0xFFFFF] : List Nat).all (fun n => ([.bkil h0 k12, .bref h0 k12, .bdrp h0 k12] : List Instr).all fun i => brandIn 3 n (fun x t => match t.home (x.brand k12) with | .here r => r.refs == n | _ => false) i) = true
      ∧ ([.bcas h0 (.k 60 false) k16 k12 (.imm 0), .bkil h0 k16, .bref h0 k16, .bdrp h0 k16] : List Instr).all (brandIn 3 1 fun x t => match t.home (x.brand k16) with | .gone => true | _ => false) = true
      ∧ ([.bcas h0 (.k 60 false) k20 k12 (.imm 0), .bkil h0 k20, .bref h0 k20, .bdrp h0 k20] : List Instr).all (brandIn 3 1 fun x t => match t.home (x.brand k20) with | .unreach => true | _ => false) = true
      ∧ brandIn 3 1 (fun _ _ => true) (.bshd h0) = true := by decide +kernel

/-- What becomes of an event of kind 8, site 5 and payload 3 under a log: it happens, is held, or stops the context. -/
def chooses (s : State) : Nat := match s.choice 0 8 5 3 with | .go _ => 0 | .hold => 1 | .stop _ => 2
/-- The same for an lgm of site 0 whose operand is 0x80. -/
def marksAt (s : State) (want : Nat) : Bool :=
  meets (.lgm h0 (kp 0)) s fun x t => !x.act.isEmpty && want == match t.choice x.c.ctx 14 (x.team.t % 128 * 32 + x.g.gix % 32) ((x.u64 (kp 0)).toNat % 2 ^ 48) with | .go _ => 0 | .hold => 1 | .stop _ => 2

theorem witness_RandomAndCounters :
    ([(pages, 0), (logged 2 pages, 0), (logged 1 pages, 0), (replaying pages [postmarkOf 8 5 3, 7], 0), (replaying pages [postmarkOf 8 5 3], 0), (replaying pages [postmarkOf 8 5 4, postmarkOf 8 5 3], 1),
      (replaying pages [postmarkOf 8 5 4], 2)] : List (State × Nat)).all (fun p => chooses p.1 == p.2) = true
      ∧ ([(replaying pages [postmarkOf 14 0 0x80, 7], 0), (replaying pages [postmarkOf 14 0 0x84, postmarkOf 14 0 0x80], 1), (replaying pages [], 2)] : List (State × Nat)).all (fun p => marksAt p.1 p.2) = true
      ∧ idle pages [.lgm hN (kp 0), .rsal hN 3 k12, .rsfr hN 3, .pcr hN (.k 20 true) (.imm 0)] = true
      ∧ ([(k16, Resolved.gone), (k20, .unreach)] : List (Src × Resolved)).all (fun p => brandIn 4 1 (fun x t => (t.resolveCached x.core (x.brand p.1)).1 == p.2) (.rsal h0 3 p.1)) = true ∧
    ([.rnd h0 3 (.v 20 false) (vr 0), .rndu h0 3 (.k 20 false) (.imm 0)] : List Instr).all (fun i => meets i streaming (fun x t => ((t.ctx? x.c.ctx).bind fun k => k.stream? 3).isSome && !x.act.isEmpty)
        && meets i regs fun x t => ((t.ctx? x.c.ctx).bind fun k => k.stream? 3).isNone) = true
      ∧ ([4, 3] : List Nat).all (fun kind => brandIn kind 1 (fun x t => match t.resolveCached x.core (x.brand k12) with | (.live r, _) => r.kind == kind | _ => false) (.rsal h0 3 k12)) = true
      ∧ brandIn 4 1 (fun _ _ => true) (.rsfr h0 3) = true
      ∧ ([0x00, 0x01, 0x02, 0x03, 0x04, 0x05, 0x10, 0x11, 0x20, 0x31, 0x32, 0x40, 0x51, 0x52, 0x60, 0x61, 0x62, 0x63, 0x64, 0x70, 0x71, 0x72, 0x1FFF] : List (BitVec 14)).all (fun n =>
        meets (.pcr h0 (.k 20 true) (.imm n)) regs fun x t => !x.act.isEmpty && (x.u32 (.imm n)).toNat == n.toNat && (t.port? 0x11).isSome && (t.port? 0).isSome) = true
      ∧ ready regs (.lgm h0 (kp 0)) = true ∧ meets (.lgm h0 (kp 0)) (inSlot State.reset { placedTeam with groups := [group8 (fun _ => []) []] } { placedContext with log := true }) (fun x t =>
        !x.act.isEmpty && ((t.ctx? x.c.ctx).map (·.log)) == some true) = true := by decide +kernel

/-- A queue brand whose packet lies at 0x4000 of page 0, a mark. -/
def queued : State :=
  let s := branded 5 1 (queuePayload 0x30000000 4 1) 0
  { s.write 0x12004000 (toLe 64 4) with
    queues := [{ q := 1, brand := BitVec.ofNat 128 (brandNo 1), ctx := 0, base := 0x30000000, m := 4, prio := 1, mark := 0, rd := 0, wr := 0, age := 0, ripe := false, refs := [], flights := [], waiting := none, held := [] }] }

/-- The completion word of a packet in flight lies on a page that needs an entry in a full dirty log: the end of its context waits. -/
def flown : Queue := { q := 1, brand := 7, ctx := 0, base := 0x30000000, m := 4, prio := 1, mark := 0, rd := 3, wr := 3, age := 0, ripe := false, refs := [], flights := [⟨2, 0x1000⟩], waiting := none, held := [] }
def stuckEnd : State := { pages with ctxs := [{ fullLog with ctx := 3 }], queues := [{ flown with ctx := 3, flights := [⟨2, 0x8000000⟩] }] }
/-- lnch of that packet, of bytes that are none, to a full queue and to a queue that is not there, as the packet's status. -/
def submits (s : State) (bs : List Byte) (want : Option Nat) : Bool :=
  meets (.lnch h0 (.k 60 false) k12 (vp 30)) s fun x t =>
    match t.resolveCached x.core (x.brand k12) with
    | (.live r, y) => y.home (x.brand k12) != .away && ((y.submit x (x.brand k12) r bs).map (·.1.toNat)) == want
    | _ => false
def full1 (s : State) : State := { s with queues := s.queues.map fun q => { q with wr := 16 } }

theorem witness_SystemInstructions :
    idle regs [.sysr hN (.k 20 false) (.imm 0), .sysw hN (.imm 0x12) (kr 0), .hlt hN, .lnch hN (.k 60 false) k12 (vp 30)] = true
      ∧ (stuckEnd.dieWrite 0 0x038 0x20003).isNone = true ∧ meets (.hlt h0) (regs.modDie 0 fun d => { d with fbhead := 1024 }) (fun x t => !x.act.isEmpty && x.privileged && ((t.die? (dieOf x.team.core)).map (·.count)) == some 1024) = true
      ∧ ([(k16, Resolved.gone), (k20, .unreach)] : List (Src × Resolved)).all (fun p => brandIn 5 1 (fun x t => (t.resolveCached x.core (x.brand p.1)).1 == p.2) (.lnch h0 (.k 60 false) p.1 (vp 30))) = true
      ∧ ([(queued, toLe 64 4, some 0), (full1 queued, toLe 64 4, some 1), (queued, toLe 64 9, some 2), ({ queued with queues := [] }, toLe 64 4, some 2)] : List (State × List Byte × Option Nat)).all (fun p => submits p.1 p.2.1 p.2.2) = true
      ∧ meets (.lnch h0 (.k 60 false) k12 (vp 8)) queued (fun x t => match t.imageAt x (x.w64 (vp 8) x.low) 64 64 with | (.error f, _) => f.code == Code.pgf | _ => false) = true
      ∧ submits { queued with ctxs := [{ fullLog with priv := true }], queues := [] } (toLe 56 9 ++ toLe 8 0x8000000) none = true ∧
    ([0x000, 0x00D, 0x010, 0x012, 0x020, 0x021, 0x036, 0x045] : List (BitVec 14)).all (fun n => meets (.sysr h0 (.k 20 false) (.imm n)) regs fun x _ => !x.act.isEmpty && x.privileged) = true
      ∧ ([0x000, 0x003, 0x004, 0x00A, 0x00D, 0x010, 0x011, 0x012, 0x022, 0x025, 0x030, 0x031, 0x032, 0x033, 0x035, 0x037, 0x040, 0x041, 0x043, 0x044, 0x045] : List (BitVec 14)).all (fun n =>
        meets (.sysw h0 (.imm n) (kr 0)) regs fun x t => !x.act.isEmpty && x.privileged && (t.dieWrite (dieOf x.core) n.toNat (x.w32 (kr 0) x.low)).any (!·.blocked)) = true
      ∧ meets (.sysw h0 (.imm 0x020) (kr 9)) regs (fun x _ => !x.act.isEmpty && (x.w32 (kr 9) x.low).toNat / 2 ^ 16 % 2 ^ 15 == x.c.ctx) = true
      ∧ meets (.hlt h0) regs (fun x t => !x.act.isEmpty && x.privileged && ((t.die? (dieOf x.team.core)).map fun d => d.heldFaults.isEmpty && decide (d.count < 1024)) == some true) = true
      ∧ meets (.lnch h0 (.k 60 false) k12 (vp 30)) { queued with teams := queued.teams.map fun t => { t with groups := t.groups.map fun g => { g with lanes := g.lanes.map fun l => { l with v := [(30, 0x4000)] } } } } (fun x t =>
        !x.act.isEmpty && t.accs.isEmpty && (match t.resolveCached x.core (x.brand k12) with
          | (.live r, v) => r.kind == kindQueue && (match v.imageAt x (x.w64 (vp 30) x.low) 64 64 with
            | (.ok bs, y) => (match y.submit x (x.brand k12) r bs with | some (c, z) => c == 0 && !z.blocked | none => false)
            | _ => false)
          | _ => false)) = true
      ∧ brandIn 3 1 (fun x t => match t.resolveCached x.core (x.brand k12) with | (.live r, _) => r.kind != kindQueue | _ => false) (.lnch h0 (.k 60 false) k12 (vp 0)) = true
      ∧ ready regs (.icinv h0 (vp 0) (.imm 64)) = true := by decide +kernel

/-- The event happens. -/
def happens (i : Instr) (s : State) : Bool := match exec i s with | .next _ => true | _ => false

/-- A store behind a load of its lane and word. -/
def behindLoad : State := { pages with accs := [{ access .load (.mem 0x12001000) 0 (.v 9 false) none with id := 4, instr := 4 }, access .store (.mem 0x12001000) 0 .none none], nextId := 6 }
/-- A load with a table behind its lane's store, which is in the core's path: it takes the store's bytes at once (R258). -/
def forwarding : State :=
  { pages with accs := [{ access .store (.mem 0x12001000) 1 .none none with id := 4, instr := 4, path := some 0 }, access .load (.mem 0x12001000) 1 (.v 9 false) none], nextId := 6 }
theorem test_load_with_a_table_takes_the_path :
    (match exec (.entryArrival 5) (holed forwarding) with | .next t => (t.acc? 5).bind (·.val) == some [1, 2, 3, 4] | _ => false) = true := by decide +kernel
/-- A head that must stay until the second entry's swap with one that is still to come. -/
def keptHead : State := replaying (holed pages) [postmarkOf 1 (stackOf 0x12001000) (0x12001000 / 8 * 2 ^ 11), postmarkOf 2 (stackOf 0x12001000) (0x12001000 / 8 * 2 ^ 11 + 2 ^ 7 + rewriteCode .swap * 2 ^ 4)]

theorem witness_AccessesArrive :
    (behindLoad.acc? 5).any (fun a => !(behindLoad.before a).isEmpty) = true ∧ pages.acc? 5 = none ∧ keptHead.headHeld (0x12001000 / 8) = true ∧ pages.hole? (0x12001000 / 8) = none
      ∧ (let stores := [{ access .store (.mem 0x12001000) 0 .none none with data := [9, 8, 7, 6] }, access .store (.mem 0x12001002) 0 .none none]; forwardAt stores (.mem 0x12001000) [0, 0, 0, 0] == [9, 8, 1, 2]) = true
      ∧ (let a := access .load (.mem 0x12001000) 0 (.v 9 false) (some [1, 2, 3, 4]); happens (.loadDataArrival 5) (outstanding a) && decide (a.lanes.Nodup))
      ∧ happens (.operatorReturn 5) (outstanding (access (.fetch .addI32) (.mem 0x12001000) 1 (.v 9 false) (some [1, 2, 3, 4]))) = true
      ∧ (let a := access .load (.mem 0x12001000) 0 (.v 9 false) none; let s := outstanding a
        happens (.loadDataArrival 5) s && s.onChip 0x12001000 && (s.before a).isEmpty && (s.pathStores a).isEmpty && (s.hole? (0x12001000 / 8)).isNone && !(s.poisoned 0x12001000 4))
      ∧ ([.mem 0x12001000, .spad 0 64] : List Place).all (fun p => let a := access .store p 0 .none none; (outstanding a).before a == [] && happens (.storePerformedAtHome 5) (outstanding a))
      ∧ (let a := access (.tx 0) (.mem 0x12001000) 0 .none none; (outstanding a).before a == [] && happens (.storePerformedAtHome 5) (outstanding a))
      ∧ ([.load, .store, .fetch .addI32, .post .addI32] : List AccKind).all (fun k => let a := access k (.mem 0x12001000) 2 (.v 9 false) none
        [outstanding a, holed (outstanding a)].all fun s => s.enters a && s.before a == [] && happens (.entryArrival 5) s && decide (((s.hole? (0x12001000 / 8)).map (·.entries.length)).getD 0 < 16))
      ∧ (let s := holed pages; happens (.entryRetire (0x12001000 / 8)) s && !(s.headHeld (0x12001000 / 8)) && (s.hole? (0x12001000 / 8)).isSome && !(s.poisoned 0x12001000 4)) := by decide +kernel

/-- A pair of entries under an algebra table with the slots STORE, ADD.I32 and LOAD and every relation; ADD composes by addition and cancels where the sum is zero. -/
def algebra : List Byte := toLe 64 (1 + 256 * 3) ++ toLe 4 1 ++ toLe 4 (2 + 256 + 2048) ++ toLe 56 0 ++ toLe 128 (0xFFF + 0xFFF * 2 ^ 64 + 0xFFF * 2 ^ 128)
def pairOf (p q : Opr) (bs : List Byte) : State :=
  ({ pages with ctxs := [{ placedContext with alg := [(1, algebra)] }] } : State).modAgent (stackOf 0x12001000) fun a => { a with holes := [⟨0x12001000 / 8,
    [{ entryOf p with table := some (0, 1) }, { entryOf q with table := some (0, 1), data := bs, lanes := [(0, 0, 2)] }]⟩] }

/-- A lookup record at 0x4000 of one row of two words, with its list, table, output and flag; one too long; one misaligned. -/
def lookupRecord (count out : Nat) : List Byte :=
  toLe 8 0x5000 ++ toLe 4 count ++ toLe 2 2 ++ toLe 2 0 ++ toLe 8 0x6000 ++ toLe 4 8 ++ toLe 4 4 ++ toLe 8 out ++ toLe 8 0x7100 ++ toLe 4 9 ++ toLe 12 0
def walking : State :=
  let s := (pages.write 0x12004000 (lookupRecord 1 0x7000)).write 0x12006000 (toLe 8 0x3F8000003F000000)
  s.modAgent 3 fun a => { a with walker := [⟨0x4000, 0, none, s.asItStands⟩] }

/-- A chip whose only launch may kill, idempotent or not, with a pool and an allocation. -/
def killing (idem : Bool) (kills : Nat) : State :=
  { accs with launches := [{ placedLaunch with kern := { placedLaunch.kern with idem := idem } }], pools := [⟨0, 0, 0x1000, [], []⟩], teams := [{ accTeam with kills := kills }] }

/-- The same in a frozen partition. -/
def chilled : State := { walking with ctxs := [{ placedContext with frozen := true }] }

theorem witness_AgentsAndErrors :
    ([(.swap, .store, .addI32, [1, 2, 3, 4]), (.swap, .addI32, .load, []), (.absorb, .addI32, .store, [1, 2, 3, 4]), (.forward, .store, .load, []), (.compose, .addI32, .addI32, [9, 0, 0, 0]),
      (.cancel, .addI32, .addI32, [0xFF, 0xFD, 0xFC, 0xFB])] : List (Rewrite × Opr × Opr × List Byte)).all (fun p => let s := pairOf p.2.1 p.2.2.1 p.2.2.2
        happens (.entryRewrite (0x12001000 / 8) 0 p.1) s && (match s.hole? (0x12001000 / 8) with | some ⟨_, [e, f]⟩ => (s.rewritten p.1 e f).isSome && (s.relation e f).isSome | _ => false)) = true
      ∧ ([0, 1] : List Nat).all (fun n => happens (.retirementBound (0x12001000 / 8) n) (pairOf .load .load [])) = true
      ∧ happens (.dirtyLogTailAdvance 0 3) pages = true ∧ pages.linkUp = true ∧ ({ pages with ucies := pages.ucies.map fun u => { u with up := false } } : State).linkUp = false
      ∧ (match ((walking.agent 3).walker.map (walking.serveLookup 3)).head? with
        | some (.done ws [] v) => ws.length == 3 && ws.all (fun w => v.onChip w.gpa && !(isDevice w.gpa) && (v.hole? (w.gpa / 8)).isNone) && happens (.walkerRecord 3) walking
        | _ => false) = true
      ∧ (LRec.read (lookupRecord 65536 0x7000)).bad = true ∧ (LRec.read (lookupRecord 65536 0x7000)).misaligned = false ∧ (LRec.read (lookupRecord 1 0x7001)).bad = false
      ∧ (LRec.read (lookupRecord 1 0x7001)).misaligned = true ∧ happens (.uncorrectableError (.dram 0x4800400)) pages = true ∧ isDram 0x12001000 = true
      ∧ ([(true, 0), (true, 4), (false, 0)] : List (Bool × Nat)).all (fun p => ([.regs 0, .spad 0, .peer 0, .pool 0 0 0 5, .acc 0 1] : List ErrAt).all fun e => happens (.uncorrectableError e) (killing p.1 p.2)) = true
      ∧ ((killing true 0).quad 0).owner.find? (·.1 == 1) = some (1, 0) ∧ ((killing true 0).quad 0).owner.find? (·.1 == 5) = none ∧ (((killing true 0).pool? 0 0).map (·.bytes)) = some 0x1000
      ∧ ({ keptHead with ctxs := keptHead.ctxs } : State).rewriteNamed 0 (0x12001000 / 8) (postmarkOf 2 (stackOf 0x12001000) 0) = false ∧ ((chilled.agent 3).walker.length == 1 && (chilled.ctx? 0).any (·.frozen)) = true := by
  decide +kernel

/-! ### Copies -/

/-- What an instruction leaves. -/
def afterRun (i : Instr) (s : State) : State := match exec i s with | .next t => t | _ => State.reset
/-- A copy that is under way: a cpy of slot 3 to slot 4, or a cpx to slot 5 of the states with a brand. -/
def flying (cpx : Bool) : State := afterRun (if cpx then .cpx h0 5 (.imm 3) (.imm 0) (.imm 0) else .cpy h0 4 (.imm 3) (.imm 0) (.imm 0)) (claimed1 cgrp1)
/-- Change the records of a team; the copies of a state; its context. -/
def slotted (n : Nat) (r : List Byte) (s : State) : State := { s with teams := s.teams.map fun t => t.setSlot n 0 r }
def recopied (s : State) (f : Copy → Copy) : State := { s with copies := s.copies.map f }
def inCtx (c : Context) (s : State) : State := { s with ctxs := [c] }
/-- A cpy to a page that needs an entry in the dirty log, which is full from its issue on, and one from a bad word of the pool. -/
def flyingFull : State := inCtx fullLog (afterRun (.cpy h0 7 (.imm 3) (.imm 0) (.imm 0)) (slotted 7 (boxRecord 0 0x8001000 0) cgrp1))
def flyingPool : State := { afterRun (.cpy h0 4 (.imm 8) (.imm 0) (.imm 0)) (slotted 8 (boxRecord 2 64 0) { cgrp1 with pools := [⟨0, 0, 0x1000, [], []⟩] }) with pools := [⟨0, 0, 0x1000, [], [16]⟩] }
/-- The same with elements of two bytes. -/
def narrowRecord (space base : Nat) : List Byte := (boxRecord space base 0).set 9 1
def flyingNarrow : State := afterRun (.cpy h0 10 (.imm 9) (.imm 0) (.imm 0)) (slotted 9 (narrowRecord 0 0x1000) (slotted 10 (narrowRecord 1 64) cgrp1))
def firstCopy (s : State) (p : Copy → Team → Bool) : Bool := match s.copies, s.team? 0 with | [c], some t => p c t | _, _ => false
/-- The pieces of a unit that are left come, all of them or none, to `want`: 0 they are over, 1 the log is full, 2 the pool is bad. -/
def arrives (s : State) (unit want : Nat) (none' : Bool) : Bool :=
  firstCopy s fun c t =>
    let left := c.piecesWhere fun p => p.unit == unit && !p.done
    let ends (now : List Nat) : Nat := match ({ s with fresh := s.fresh + 1 } : State).landPieces t c now with | .done _ => 0 | .full => 1 | .poolBad _ => 2
    !c.cpx && t.st == .resident && !(s.frozen c.ctx) && !left.isEmpty && ends left == want && (!none' || ends [] == 0)
/-- Each sector has arrived; the flag of the record lies at an address. -/
def arrivedCopy (flag : Nat) : State :=
  recopied (flying false) fun c => { c with pieces := c.pieces.map (fun p => { p with done := true }), dstRec := c.dstRec.take 88 ++ toLe 8 flag ++ c.dstRec.drop 96 }
def flagged (s : State) : Option Bool :=
  match s.copies, s.team? 0 with
  | [c], some t => (s.writeFlag ⟨c.ctx, 1, t.lcore, .copyUnit c.core⟩ (Rec.read c.dstRec) c.td (((s.ctx? c.ctx).map s.rankOf).getD 0) c.status).map fun w => (w.2.group? 0 0).isSome
  | _, _ => some false

/-- The tile of the cpx that is under way goes to a chip: this one, one that cannot be reached, one behind a port. -/
def tileTo (s : State) (chip : Nat) (reach : Bool) : Bool :=
  firstCopy s fun c t => c.cpx && c.targets == [0] && !(s.frozen c.ctx) && (match s.cpxRead t c with
    | (none, v) => (((s.ctx? c.ctx).map (·.rankTable)).getD []).getD 0 (s.chip, c.ctx) == (chip, 0) && v.reachable chip == reach && v.tiles.isEmpty && (v.copy? c.id).isSome
        && (chip == s.chip || ((v.port? (v.portOf chip)).map fun q => !(q.steps.contains c.id)).getD false)
    | _ => false)
def toChip (route valid : Bool) : State := afar route valid 16 (flying true)

/-- A tile of four words for brand 1, begun or not; and what its moving on meets. -/
def aTile (begun : Bool) (base : Nat) : Tile := ⟨50, none, 0, boxRecord 0 base (brandNo 1), 0, 0, List.replicate 4 (some [1, 2, 3, 4]), begun, [], false⟩
def moves (s : State) (x : Tile) (p : Context → State → Bool) : Bool := match s.ctx? x.ctx with | some c => p c (s.resolve (Rec.read x.shape).brand).2 | none => false
def boxIs (good : Bool) (x : Tile) (c : Context) (v : State) : Bool := (match v.boxOn (c.lmap.headD 0) c (Rec.read x.shape) x.td true with | .ok els _ => els.length == 4 | .flt _ _ => false) == good
def claimedHere : State := claimed1 cgrp1
def brandless : State := { claimedHere with brands := [] }

/-- A group that waits for a claim of `n`. -/
def waitingClaim (n : Nat) (s : State) : State := grouped s fun g => { g with wait := some (.claim (BitVec.ofNat 128 (brandNo 1)) n (.k 60 false) (List.range 8) 1 false) }
/-- Of that claim: ready, never possible, or possible though not yet free. -/
def claimIs (s : State) (want : Nat) : Bool :=
  match s.team? 0, s.ctx? 0, (s.resolve (BitVec.ofNat 128 (brandNo 1))).1 with
  | some t, some c, .live r => t.st == .resident && !(s.claimBehind (BitVec.ofNat 128 (brandNo 1))) && want == if (s.claimReady t (BitVec.ofNat 128 (brandNo 1)) 2).isSome then 0
      else match s.portsFor c (membersOf c r.payload) with | some ps => if s.claimPossible 2 ps then 2 else 1 | none => 1
  | _, _, _ => false
/-- A port with a step of the cpx under way, or with a tile to forward. -/
def ported (steps : List Nat) (fw : List Forward) (s : State) : State := { s with ports := s.ports.modify 2 fun p => { p with valid := true, steps := steps, forwards := fw } }

theorem witness_CopiesProceed :
    arrives (flying false) 1 0 true = true ∧ arrives flyingFull ((flyingFull.copies.flatMap (·.pieces)).map (·.unit) |>.headD 0) 1 false = true ∧ arrives flyingPool 1 2 true = true
    ∧ firstCopy (flying true) (fun c _ => c.cpx) = true
    ∧ firstCopy (flying false) (fun c t => c.pieces.all fun p => p.page.isNone && (Rec.read c.dstRec).red == 0 && (match p.dst, p.src with
        | .spad tid _, some (.mem g) => (State.team? (flying false) tid).isSome && (flying false).onChip g && !(isDevice g) && p.pad.length == 4 && ((flying false).hole? (g / 8)).isNone && !((flying false).poisoned g 4)
            && c.snap.bytes (flying false) g 4 == (flying false).read g 4 && c.got.isEmpty && t.ctx == 0 | _, _ => false)) = true
    ∧ firstCopy flyingNarrow (fun c _ => (Rec.read c.dstRec).red == 0 && (Rec.read c.dstRec).size == 2 && c.got.isEmpty && !c.pieces.isEmpty && c.pieces.all fun p => p.page.isNone && (match p.dst, p.src with
        | .spad tid _, some (.mem g) => (State.team? flyingNarrow tid).isSome && flyingNarrow.onChip (g / 4 * 4) && !(isDevice g) && p.pad.length == 2 && decide (g % 4 + 2 ≤ 4) && ((flyingNarrow).hole? (g / 8)).isNone
            && !(flyingNarrow.poisoned (g / 4 * 4) 4) && c.snap.bytes flyingNarrow (g / 4 * 4) 4 == flyingNarrow.read (g / 4 * 4) 4 | _, _ => false)) = true
    ∧ ([(0, some true), (0x1000, some true), (0x20000000, some true)] : List (Nat × Option Bool)).all (fun p => flagged (arrivedCopy p.1) == p.2) = true ∧ flagged (inCtx fullLog (arrivedCopy 0x8000000)) = none
    ∧ firstCopy (arrivedCopy 0) (fun c t => c.pieces.all (·.done) && !c.cpx && t.st == .resident) = true
    ∧ firstCopy (recopied (flying true) fun c => { c with targets := [] }) (fun c _ => c.cpx && c.targets.isEmpty) = true ∧ (State.group? (flying true) 0 0).isSome = true
    ∧ tileTo (flying true) 0 true = true ∧ tileTo (toChip false true) 1 false = true ∧ tileTo (toChip true true) 1 true = true
    ∧ (let r := Rec.read (boxRecord 0 0x3000 (brandNo 1)); !(r.bad true true) && r.tiles == 1 && r.count == 4) = true ∧ (toChip true true).rankFar { placedContext with rankTable := [(1, 0)] } 0 = true
    ∧ (State.tile? { claimedHere with tiles := [aTile true 0x3000] } 50).isSome = true ∧ ((State.port? (ported [] [] claimedHere) 2).any fun p => p.valid && p.up) = true ∧ claimedHere.linkUp = true
    ∧ ({ claimedHere with ctxs := [] } : State).ctx? 0 = none ∧ (brandless.resolve (BitVec.ofNat 128 (brandNo 1))).1 = .gone
    ∧ moves claimedHere (aTile false 0x3000) (fun c v => v.mayBegin c (aTile false 0x3000) && boxIs true (aTile false 0x3000) c v && c.dies.all fun d => (c.freeRange d).isSome) = true
    ∧ moves claimedHere (aTile false 0x20000000) (fun c v => v.mayBegin c (aTile false 0x3000) && boxIs false (aTile false 0x20000000) c v) = true
    ∧ moves cgrp1 (aTile false 0x3000) (fun c v => !(v.mayBegin c (aTile false 0x3000))) = true
    ∧ moves (inCtx (ranged .rgi 64) claimedHere) (aTile false 0x3000) (fun c _ => c.dies.any fun d => (c.freeRange d).isNone) = true
    ∧ ([(0x3000, true), (0x20000000, false)] : List (Nat × Bool)).all (fun p => moves brandless (aTile true p.1) (boxIs p.2 (aTile true p.1))) = true
    ∧ (match claimedHere.boxOn 0 placedContext (Rec.read (aTile true 0x3000).shape) 0 true with
      | .ok els v => let us := (Rec.read (aTile true 0x3000).shape).units 0 els (aTile true 0x3000).data
          us.length == 4 && us.all (fun u => u.data.isSome && v.onChip u.gpa && !(isDevice u.gpa) && (v.hole? (u.gpa / 8)).isNone) && ([us, us.take 2].all fun now => match v.dirtyUnits 0 now with | some (.ok _) => true | _ => false)
      | _ => false) = true
    ∧ ((claimedHere.dropRanges 0 (RangeOwner.isTile 50)).writeFlag (claimedHere.tileParty (aTile true 0x3000)) (Rec.read (aTile true 0x3000).shape) 0 0 0).isSome = true
    ∧ claimIs (waitingClaim 2 cgrp1) 0 = true ∧ claimIs (waitingClaim 2 (afar true false 16 cgrp1)) 1 = true ∧ claimIs (waitingClaim 2 (afar true true 0 cgrp1)) 2 = true
    ∧ (inCtx { placedContext with frozen := true } (waitingClaim 2 cgrp1)).frozen 0 = true
    ∧ (State.team? (waitingClaim 2 claimedHere) 0).any (fun t => t.claims.any (·.brand == BitVec.ofNat 128 (brandNo 1))) = true
    ∧ ({ waitingClaim 2 cgrp1 with teams := (waitingClaim 2 cgrp1).teams ++ [{ placedTeam with tid := 1, groups := [{ placedGroup with wait := some (.claim (BitVec.ofNat 128 (brandNo 1)) 1 (.k 60 false) [0] 1 false) }] }] } : State).claimBehind
        (BitVec.ofNat 128 (brandNo 2)) = true
    ∧ ([false, true] : List Bool).all (fun fz => let s := inCtx { placedContext with frozen := fz } (ported ((flying true).copies.map (·.id)) [] (flying true)); (State.port? s 2).any (fun p => p.steps.length == 1) && s.frozen 0 == fz) = true
    ∧ ((State.port? (ported [] [⟨0, 9, 256⟩] claimedHere) 2).any fun p => p.steps.isEmpty && p.forwards.length == 1) = true := by
  decide +kernel

/-! ### Engines, phases and schedulers -/

/-- A matrix request that has just been posted. -/
def requested (i : Instr) : State := match exec i accs with | .next t => t | _ => State.reset
def pass1 : State := requested (.mstr h0 ⟨false, true, false⟩ .bf16 (.imm 0) (kp 4) (vr 30))
def zero1 : State := requested (.mzro h0 (kr 4) (.imm 1))
def granted1 : State := { zero1 with quads := zero1.quads.map fun q => (q.1, { q.2 with reqs := q.2.reqs.map fun r => { r with grant := some 3, writes := [⟨6, 16384, 0, 5⟩] } }) }
def waitingBanks : State :=
  grouped { accs with quads := [(0, { Quad.reset with owner := [(0, 0), (1, 0)], waits := [⟨0, 0⟩] })] } fun g => { g with wait := some (.banks 29 (.k 60 false) (List.range 8) 1 false) }
def aWfl : Wfl := ⟨List.range 8, 0x80, 0x12000080, 0, .eq, 0x401, .k 20 false, 1, none⟩
def testing : State := grouped pages fun g => { g with wfls := [aWfl], lanes := g.lanes.map fun l => { l with st := .parked (.word 1) } }
def phased (idle : Bool) : State := { grouped regs fun g => { g with lanes := g.lanes.map fun l => { l with st := .parked (.phase false 1) } } with ctxs := [{ placedContext with phases := [.lanes 0 0 false idle] }] }

/-- Requests of the engine, of groups 0 and 1 with a priority each; the second of a table waits behind the first. -/
def bind1 : State := requested (.mswp h0 (kr 4))
def rivals (a b : Nat) : State := { accs with quads := [(0, { Quad.reset with reqs := [{ aReq with prio := a }, { aReq with id := 5, gix := 1, prio := b }] })] }
/-- The same where the team has two groups: each grant orders them. -/
def rivalGroups (a b : Nat) : State := { rivals a b with teams := [{ accTeam with groups := accTeam.groups ++ [{ group8 (fun _ => []) [] with gix := 1, slotNo := 1 }] }] }
/-- A pass that reads the pool, which holds a bad word. -/
def badPool : State :=
  { pass1 with quads := pass1.quads.map (fun q => (q.1, { q.2 with reqs := q.2.reqs.map fun r => { r with passes := r.passes.map fun p => { p with pool := true } } })), pools := [⟨0, 0, 0x1000, [], [0]⟩] }
/-- Whether a request of a table is the one that is granted next, and may be, with whether another waits for common rows. -/
def grantsNext (s : State) (idx : Nat) (next rival : Bool) (p : MReq → Team → Bool) : Bool :=
  match (s.quad 0).reqs[idx]?, s.team? 0, s.ctx? 0 with
  | some r, some t, some _ =>
    ((s.nextGrant ((s.quad 0).reqs.filter fun x => !(((s.team? x.tid).bind fun t => (s.ctx? t.ctx).map (·.frozen)).getD false))).map (·.id) == some r.id && r.present t) == next
      && ((s.quad 0).reqs.any fun x => x.grant.isNone && !r.sameGroup x && r.touches x) == rival && p r t
  | _, _, _ => false
def completes0 (s : State) (idx : Nat) (want : Bool) (p : MReq → Team → Bool) : Bool :=
  match (s.quad 0).reqs[idx]?, s.team? 0 with
  | some r, some t => (s.quad 0).completable r == want && p r t
  | _, _ => false
/-- The test of a waiting wfl, on memory, where its word holds, and where it does not. -/
def tests (s : State) (w : Wfl) (want : Tested) : Bool :=
  match s.team? 0, s.group? 0 0 with
  | some t, some g => t.st == .resident && g.wfls == [w] && w.probe.isNone && (let p := s.probe t.core 0 0 t.ctx w; p.2.tested p.1 w == want)
  | _, _ => false
def fullBanks : State := { waitingBanks with quads := [(0, { Quad.reset with owner := (List.range 5).map (fun b => (b, 0)), waits := [⟨0, 0⟩] })] }
def testing2 : State := grouped testing fun g => { g with wfls := [{ aWfl with v := 0x402 }] }

theorem witness_EnginesAndPhases :
    (match (rivals 1 2).nextGrant ((rivals 1 2).quad 0).reqs with | some r => r.id == 5 && ((rivals 1 2).quad 0).reqs.all (fun y => !((rivals 1 2).detReq y)) | none => false) = true
    ∧ ([pass1, zero1] : List State).all (fun s => grantsNext s 0 true false fun r t => r.kind != .bind && !(s.readsBad t r)) = true
    ∧ grantsNext (rivals 1 1) 0 true true (fun r t => !((rivals 1 1).readsBad t r) && r.kind == .zero && !(r.ordered t)) = true
    ∧ grantsNext (rivalGroups 1 1) 0 true true (fun r t => !((rivalGroups 1 1).readsBad t r) && r.ordered t && (match (rivalGroups 1 1).choice t.ctx 6 t.lcore ((rivalGroups 1 1).partyOf r.tid r.gix) with | .go _ => true | _ => false)) = true
    ∧ grantsNext (rivals 1 1) 1 false true (fun _ _ => true) = true ∧ grantsNext badPool 0 true false (fun r t => badPool.readsBad t r) = true
    ∧ grantsNext bind1 0 true false (fun r t => r.kind == .bind && !(bind1.readsBad t r) && ((bind1.quad 0).reqs.find? (MReq.sameGroup r)) == some r && decide (((bind1.quad 0).reqs.map (·.id)).Nodup) && (bind1.group? r.tid r.gix).isSome) = true
    ∧ completes0 granted1 0 true (fun r t => r.writes.all (fun w => (t.allocs.find? (·.tag == w.tag)).any fun al => Cells.wf al.words && Cells.get al.words w.idx == w.old) && decide (r.writes.Pairwise fun a b => ¬(a.tag = b.tag ∧ a.idx = b.idx))
        && (granted1.quad 0).reqs.all (·.kind != .bind)) = true
    ∧ completes0 zero1 0 false (fun _ _ => true) = true
    ∧ ((waitingBanks.team? 0).any fun t => (t.freeRun 29).isSome && decide (29 ≤ (waitingBanks.quad 0).freeBanks.length)) = true ∧ (regs.quad 0).waits = []
    ∧ (({ waitingBanks with ctxs := [{ placedContext with frozen := true }] } : State).frozen 0 && !(waitingBanks.frozen 0)) = true
    ∧ ((fullBanks.team? 0).isSome && decide ((fullBanks.quad 0).freeBanks.length < 29) && (fullBanks.quad 0).waits == [⟨0, 0⟩]) = true
    ∧ (testing.onChip aWfl.gpa && !(isDevice aWfl.gpa) && testing.accs.isEmpty && (testing.hole? (aWfl.gpa / 8)).isNone && !(testing.poisoned aWfl.gpa 4)
        && wflHolds aWfl.cond (BitVec.ofNat 32 (testing.readNat aWfl.gpa 4)) aWfl.v && !(wflHolds aWfl.cond (BitVec.ofNat 32 (testing.readNat aWfl.gpa 4)) 0x402)) = true
    ∧ tests testing aWfl (.holds 0x401) = true ∧ tests testing2 { aWfl with v := 0x402 } .again = true
    ∧ (({ testing with teams := testing.teams.map fun t => { t with st := .saved } } : State).team? 0).any (·.st == .saved) = true
    ∧ ([true, false] : List Bool).all (fun b => ((phased b).ctx? 0).any fun c => (phased b).holesOf 0 == [] && c.balanced && ((phased b).retireCtx 0).isSome && c.phases == [.lanes 0 0 false b]) = true
    ∧ ({ placedContext with traffic := [⟨.host, 1, 0⟩] } : Context).balanced = false ∧ placedContext.phases = []
    ∧ (let b := BitVec.ofNat 128 (brandNo 1); ((cgrp1.core 7).brands.find? (·.brand == b)).isNone && (match cgrp1.home b with | .here _ => true | _ => false)) = true
    ∧ (let b := BitVec.ofNat 128 ((7 * 2 ^ 24 + 1) * 2 ^ 56 + 1); let s := { abroad with routes := [(0, .self)] }
      s.homeOf b == some 9 && s.chip == 0 && (match s.home b with | .unreach => true | _ => false)) = true := by decide +kernel

/-- A launch of two teams with nothing placed yet, normal or deterministic, fresh or again; one of high priority that fits nowhere while the team of `regs` stands; and that team saved. -/
def aLaunch : Launch := { placedLaunch with pkt := { placedLaunch.pkt with nx := 2 }, next := 0, live := 2 }
def placing (det : Bool) (again : List (Nat × Nat × Nat)) : State :=
  { State.reset with launchOpen := true, ctxs := [placedContext]
                     launches := [{ aLaunch with pkt := { aLaunch.pkt with det := det }, again := again, next := if again.isEmpty then 0 else 2 }] }
/-- An older launch, of higher priority, stands before it. -/
def behindOther (s : State) : State := { s with launches := { aLaunch with lid := 7, prio := 9 } :: s.launches }
def bigLaunch : Launch := { aLaunch with lid := 1, prio := 5, pkt := { aLaunch.pkt with spadLines := 2048 } }
def starving : State := { regs with launchOpen := true, slot := none, launches := [placedLaunch, bigLaunch] }
/-- The same with a saved team of that launch beside its next one, which finds no room either; and where the team that holds the core waits for the rest of its grid. -/
def starvingTwo : State :=
  { starving with launches := [placedLaunch, { bigLaunch with pkt := { bigLaunch.pkt with nx := 3 }, next := 1, live := 2 }]
                  teams := starving.teams ++ [{ placedTeam with tid := 4, lid := 1, t := 0, prio := 5, spadLines := 2048, st := .saved, groups := [] }] }
def heldByWaiting : State := { starving with teams := starving.teams.map fun t => { t with st := .waiting } }
def savedTeam : State := { regs with launchOpen := true, slot := none, teams := regs.teams.map fun t => { t with st := .saved } }

/-- What the sorters find for launch 0. -/
def placesNext (s : State) (others : Bool) (p : Launch → Nat → Nat → Nat → Bool) : Bool :=
  match s.launch? 0 with
  | none => false
  | some l => s.canPlace l && match s.placeNext l with
    | some (t, _, core, lcore) => (s.fitOn l core).isSome && s.othersFirst (l.sorter core) l.prio l.lid == others && p l t core lcore
    | none => false
def canResumeOn (s : State) (core : Nat) (can others listed fits : Bool) : Bool :=
  (s.team? 0).any fun t => s.canResume t == can && s.othersFirst (((s.launch? t.lid).map (·.sorter core)).getD (dieOf core)) t.prio t.lid == others && (s.resumeCores t).contains core == listed && (s.resumeOn t core).isSome == fits

theorem witness_TeamsArePlaced :
    ([true, false] : List Bool).all (fun det => ([[], [(1, 2, 0)]] : List (List (Nat × Nat × Nat))).all fun again => placesNext (placing det again) false fun l t core lcore => t == again.length && core == 0
      && l.pkt.det == det && (det || match (placing det again).choice l.ctx 4 (lcore % 2 ^ 11) (t % 2 ^ 32 * 2 ^ 16 + (l.queue.getD 0) % 256 * 2 ^ 8) with
        | .go y => ((y.modCtx l.ctx fun c => { c with heldEvents := c.heldEvents.filter (·.2 != .teamPlace 0) }).launch? 0) == some l
        | _ => false)) = true
    ∧ placesNext (behindOther (placing true [])) true (fun _ _ _ _ => true) = true
    ∧ (({ placing true [] with launchOpen := false } : State).launch? 0).any (fun l => !(({ placing true [] with launchOpen := false } : State).canPlace l)) = true
    ∧ ((placing false []).ctx? 0).any (fun c => !c.replay) = true
    ∧ (match starving.launch? 1, starving.ctx? 0 with
      | some l, some k => k.runs && (match starving.displaced l with
        | [v] => (starving.preemptAll (starving.victims v)).isSome && starving.team? v.tid == some v && (starving.ctx? v.ctx).isSome && (starving.launch? v.lid).any (!·.pkt.cores) && starving.accs.isEmpty
          && starving.copies.isEmpty && (starving.quad (quadOf v.core)).reqs.isEmpty && v.groups.all (fun g => g.wfls.isEmpty)
          && v.st == .resident && decide (v.prio < l.prio) && ((starving.victimFor l.prio (l.fitsFor 0)).map (·.tid)) == some v.tid
        | _ => false)
      | _, _ => false) = true
    ∧ (starvingTwo.launch? 1).any (fun l => (starvingTwo.displaced l).length == 2 && (starvingTwo.displaced l).all fun v => (starvingTwo.freeNat.2.preemptAll (starvingTwo.freeNat.2.victims v)).isSome) = true
    ∧ (heldByWaiting.launch? 1).any (fun l => (heldByWaiting.displaced l).map (·.st) == [.waiting]) = true
    ∧ (starving.launch? 0).any (fun l => (starving.displaced l).isEmpty) = true ∧ (placedContext.runs && !(({ placedContext with st := .stopped } : Context).runs)) = true
    ∧ canResumeOn savedTeam 0 true false true true = true ∧ (savedTeam.launch? 0).any (!·.pkt.cores) = true ∧ canResumeOn regs 0 false false true true = true
    ∧ canResumeOn (behindOther savedTeam) 0 true true true true = true ∧ canResumeOn savedTeam 5 true false false true = true
    ∧ canResumeOn { savedTeam with quads := savedTeam.quads, ctxs := [{ placedContext with lmap := [0, 4] }]
                                   teams := savedTeam.teams ++ (List.range 16).map fun i => { placedTeam with tid := i + 1, groups := [] } } 0 true false true false = true := by
  decide +kernel

/-- A width that waits, a chain that is over, a lane that leaves, a team with nothing left, a launch with no team left, an event that is held. -/
def closed (s : State) : State := { s with slot := none }
def widening : State := closed (grouped regs fun g => { g with wait := some (.width 9 2), grch := true })
def chained (n : Nat) : State := grouped regs fun g => { g with chain := n, tip := [0, 1, 2], lanes := g.lanes.map fun l => { l with lastHold := true } }
def leaving : State := grouped regs fun g => { g with lanes := g.lanes.map fun l => { l with st := .parked .exiting } }
def doneTeam (live : Nat) : State := { closed (grouped regs fun g => { g with lanes := g.lanes.map fun l => { l with st := .exited } }) with launches := [{ placedLaunch with live := live }] }
def doneLaunch (q : Option Nat) : State := { pages with teams := [], slot := none, queues := [flown], launches := [{ placedLaunch with live := 0, queue := q, seq := 2 }] }
/-- An event waits for its place in a log that is over, or in one that has not reached it or has. -/
def heldBack (replay : Option Nat) : State :=
  { replaying State.reset replay.toList with ctxs := [{ placedContext with replay := replay.isSome, pmbase := 0x28000000, pmlen := replay.toList.length, heldEvents := [(5, .coldReset)] }] }
/-- Two groups that share a slice, the first in a HOLD chain. -/
def pairOnSlice (chain : Nat) (urgent : Option (Nat × Nat)) : State :=
  { closed { regs with teams := [{ placedTeam with groups := [{ group8 (fun _ => []) [] with chain := chain, tip := [0] }, { group8 (fun _ => []) [] with gix := 1, slotNo := 1, octets := [⟨0, 256⟩] }] }] } with urgent := urgent }
def mayMove (slice octet : Nat) (want : Bool) (s : State) : Bool :=
  match s.team? 0, s.group? 0 0 with
  | some t, some g => t.st != .saved && !(s.isFixed t.ctx) && decide (octet < g.octets.length) && decide (slice < 8) && s.slot.isNone
      && (!((g.octets.map (·.slice)).contains slice) && (holdIn (s.coreSpans t.core) slice ⟨0, regAlloc false g.budget, false, .octet 0 0 octet⟩).isSome) == want
  | _, _ => false
def widens (s : State) (want : Bool) : Bool :=
  match s.team? 0, s.group? 0 0, s.ctx? 0 with
  | some t, some g, some c => t.st == .resident && c.runs && g.wait == some (.width 9 2) && (s.foldedFor t g 2).isSome == want && (g.lane 0).live && g.lanes.length == g.grant
  | _, _, _ => false
def spanA : Span := ⟨0, 256, false, .octet 0 0 0⟩

theorem witness_SchedulerMoves :
    mayMove 7 0 true (closed regs) = true ∧ mayMove 0 0 false (closed regs) = true ∧ (regs.slot.any fun sl => sl.tid == 0 && sl.gix == 0) = true ∧ (regs.team? 0).isSome = true
    ∧ ((holdSpan [spanA] { spanA with holder := .octet 0 1 0 }).isSome && [spanA].all fun q => decide (q.base + q.size ≤ 2048) && q.base % q.size == 0) = true
    ∧ widens widening true = true ∧ widens { widening with teams := widening.teams ++ (rigid false).teams.drop 1 } false = true ∧ quiet regs = true
    ∧ (match regs.team? 0, regs.group? 0 0 with | some t, some g => (closed regs).slot.isNone && (closed regs).canIssue t g && !((closed leaving).canIssue t ((leaving.group? 0 0).getD g)) | _, _ => false) = true
    ∧ ((closed regs).ready.1.length == 1 && (pairOnSlice 3 none).ready.1.length == 1) = true
    ∧ ((pairOnSlice 3 (some (0, 1))).claimStands && !((pairOnSlice 3 none).claimStands)) = true
    ∧ (let s := pairOnSlice 3 (some (0, 1)); s.urgent == some (0, 1) && s.candidates.any (fun a => a.2.gix == 1) && s.candidates.all (fun a => a.2.gix != 1 || s.keptBack a)) = true
    ∧ (let s := pairOnSlice 0 (some (0, 1)); s.candidates.any (fun a => a.2.gix == 1 && !(s.keptBack a)) && s.ready.1.map (·.2.gix) == [1]) = true
    ∧ ((chained 64).group? 0 0).any (fun g => 64 ≤ g.chain && decide (g.tip.Nodup)) = true ∧ ((chained 3).group? 0 0).any (fun g => decide (g.chain < 64)) = true
    ∧ ((leaving.lane? 0 0 3).any (·.st == .parked .exiting) && !(leaving.owes 0 0 3) && (leaving.group? 0 0).any fun g => Cells.wf g.j) = true ∧ (regs.lane? 0 0 3).any (·.st != .parked .exiting) = true
    ∧ ([1, 2] : List Nat).all (fun n => ((doneTeam n).team? 0).any (fun t => (doneTeam n).teamDone t && (doneTeam n).accs.isEmpty && ((doneTeam n).launch? t.lid).any (·.live == n))) = true
    ∧ ((closed regs).team? 0).any (fun t => !((closed regs).teamDone t)) = true ∧ (regs.launch? 0).any (·.live != 0) = true
    ∧ ([none, some 1] : List (Option Nat)).all (fun q => let s := doneLaunch q; (s.launch? 0).any (fun l => l.live == 0 && l.queue == q && s.accs.isEmpty && (({ s with launches := [] } : State).writeStatus l.ctx (if q.isNone then l.pkt.compl else 0x1000) l.status).isSome)
      && (s.queue? 1).any fun x => (x.flights.find? (·.seq == 2)).isSome) = true
    ∧ ([(none, true), (some 5, true), (some 7, false)] : List (Option Nat × Bool)).all (fun p => let s := heldBack p.1
      (s.ctx? 0).any fun c => c.heldEvents == [(5, .coldReset)] && (c.replay == false || ((s.siteMarks c 5).head?.map (·.2)) == some 5) == p.2) = true
    ∧ regs.issue?.any (fun p => !p.1.lanes.isEmpty && !p.1.aFault) = true := by decide +kernel

/-! ### Queues, letterboxes, faults, contexts and links -/

def packet (kind brand arg payload : Nat) : List Byte := toLe 8 kind ++ toLe 16 brand ++ toLe 8 arg ++ toLe 16 payload ++ toLe 8 0 ++ toLe 8 0x1000
def kernelPayload : Brand := BitVec.ofNat 128 (8 * 2 ^ 64 + 32 * 2 ^ 80)
/-- A queue with one packet, on a chip whose brand 1 is of a kind. -/
def queueOf1 (kind : Nat) (payload : Brand) (bs : List Byte) : State :=
  let s := (branded kind 1 payload 0).write 0x30000000 bs
  { s with launchOpen := true, slot := none, queues := [{ flown with rd := 0, wr := 1, flights := [], refs := [BitVec.ofNat 128 (brandNo 1)], brand := BitVec.ofNat 128 (brandNo 1) }] }
/-- The arbiter chooses that packet, which has a place in the sorters; what then holds of the packet and the state without it. -/
def dispatched (kind : Nat) (s : State) (p : Packet → State → Bool) : Bool :=
  match (s.age 0).choose 0 with
  | some x => (match (s.age 0).headPacket x with | some k => x.q == 1 && k.kind == kind && (s.age 0).dispatchable x && p k ((s.age 0).takeHead x k) | none => false)
  | none => false
/-- The packet then completes: its completion word can be written. -/
def mayFinish (v : State) : Bool := (v.queue? 1).any fun q => (q.flights.find? (·.seq == 0)).any fun f => (v.writeStatus q.ctx f.compl 0x16).isSome
def launching (p : Packet) (kind : Nat) : State := queueOf1 kind kernelPayload (packetBytes { p with brand := BitVec.ofNat 128 (brandNo 1) })
def wholeGrid (n : Nat) : Packet := { placedLaunch.pkt with nx := n, cores := true }
/-- A queue brand's number is of chip 7, which no route reaches; the queue waits for a mark of it. -/
def farBrand : Nat := (7 * 2 ^ 24 + 1) * 2 ^ 56 + 1
def awaiting (b : Nat) (mark : Dword) : State :=
  { queueOf1 5 (queuePayload 0x30000000 4 1) [] with queues := [{ flown with waiting := some (BitVec.ofNat 128 b, 4), mark := mark }] }

/-- Brand 1 is being changed, and the log of the replay names no resolve of it: whichever state a resolve at logical core 0 sees, it stops the context. -/
def unlogged (s : State) : State := replaying { s with pasts := changed.pasts } [7]
def stopsAt (v : State) (b : Brand) : Bool :=
  (v.past? b).isSome && ((v.ctx? 0).bind fun c => v.nextMeets c 0 b).isNone
    && [true, false].all fun new => match v.freeBool.2.choice 0 5 0 (resolveMark b new) with | .stop _ => true | _ => false

theorem witness_PacketsAreDispatched :
    ([(placedLaunch.pkt, kindKernel), (wholeGrid 1, kindKernel), (wholeGrid 17, kindKernel)] : List (Packet × Nat)).all (fun p =>
      dispatched 1 (launching p.1 p.2) fun k v => match v.resolveLaunch 0 k with
        | .got r w => mayFinish w && (w.checkLaunch 0 k r).any fun kern => !k.cores || w.fitsWhole 0 k kern == (k.nx == 1)
        | _ => false) = true
    ∧ dispatched 1 (launching placedLaunch.pkt 4) (fun k v => match v.resolveLaunch 0 k with | .got r w => mayFinish w && (w.checkLaunch 0 k r).isNone | _ => false) = true
    ∧ ([1, 5] : List Nat).all (fun kind => let s (k : Nat) := if kind == 1 then launching placedLaunch.pkt k else queueOf1 2 9 (packet 5 (brandNo 1) 6 0)
      dispatched kind (awaitsChange (s kindKernel)) (fun k v => v.resolveLaunch 0 k == .wait)
        && dispatched kind (unlogged (s kindKernel)) fun k v => stopsAt v k.brand) = true
    ∧ ([(brandNo 1, 0, 0), (brandNo 1, 9, 1), (brandNo 5, 0, 2)] : List (Nat × Nat × Nat)).all (fun b => dispatched 2 (queueOf1 3 9 (packet 2 b.1 b.2.1 77)) fun k v =>
      match v.casBrand k.brand k.payload (k.arg.extractLsb' 0 32) with
        | .done w => b.2.2 == 0 && mayFinish w | .differs w => b.2.2 == 1 && mayFinish w | .gone w => b.2.2 == 2 && mayFinish w | _ => false) = true
    ∧ ([(brandNo 1, true), (brandNo 5, false)] : List (Nat × Bool)).all (fun b => dispatched 3 (queueOf1 2 9 (packet 3 b.1 0 0)) fun k v =>
      ((queueOf1 2 9 []).queues.any (fun x => x.refs.contains k.brand)) == b.2 && (b.2 || !(v.spareRef k.brand)) && mayFinish v && (!b.2 || match v.dropBrand k.brand with | .done w => mayFinish w | _ => false)) = true
    ∧ dispatched 3 { queueOf1 2 9 (packet 3 (brandNo 5) 0 0) with queues := (queueOf1 2 9 []).queues.map fun q => { q with refs := [BitVec.ofNat 128 (brandNo 5)] } } (fun k v =>
      match v.dropBrand k.brand with | .gone w => mayFinish w | _ => false) = true
    ∧ dispatched 4 (queueOf1 2 9 (packet 4 0 6 0)) (fun k v => k.arg == 6 && mayFinish v) = true
    ∧ ([(brandNo 1, 5, 2), (brandNo 1, 2, 1), (brandNo 5, 5, 0), (farBrand, 5, 3)] : List (Nat × Nat × Nat)).all (fun b => dispatched 5 (queueOf1 b.2.1 9 (packet 5 b.1 6 0)) fun k v =>
      match v.resolveLaunch 0 k with | .got .gone w => b.2.2 == 0 && mayFinish w | .got .unreach _ => b.2.2 == 3 | .got (.live r) w => mayFinish w && b.2.2 == (if r.kind == kindQueue then 2 else 1) | _ => false) = true
    ∧ ([(brandNo 1, 4, 0), (brandNo 1, 3, 0), (brandNo 5, 4, 1), (farBrand, 4, 2)] : List (Nat × Dword × Nat)).all (fun b => let s := awaiting b.1 b.2.1
      (s.queue? 1).any (fun x => x.waiting.isSome && (x.flights.getLast?).isSome) && match s.home (BitVec.ofNat 128 b.1) with | .here r => b.2.2 == 0 && (s.queueOf r.payload).any (·.mark == b.2.1) | .gone => b.2.2 == 1 | .unreach => b.2.2 == 2 | _ => false) = true
    ∧ ([3, 5] : List Nat).all (fun n => dispatched 6 (queueOf1 2 9 (packet 6 0 n 0)) fun k _ => k.arg.toNat == n) = true
    ∧ dispatched 4 (queueOf1 2 9 (packet 6 0 5 0)) (fun _ _ => true) = false
    ∧ (let s := queueOf1 2 9 (packet 4 0 6 0); (s.choose 0).any fun q => s.eligible q && (s.headPacket q).any (·.kind == 4)) = true
    ∧ (match pages.engineWrite ⟨0, 3, 0, .host⟩ 0x1000 (toLe 4 0x16) 4, pages.engineWrite ⟨0, 3, 0, .host⟩ 0x20000000 (toLe 4 0x16) 4 with | some (.ok _), some (.error _) => true | _, _ => false) = true := by decide +kernel

/-- Every module of the host's link is down. -/
def linkless (s : State) : State := { s with ucies := s.ucies.map fun u => { u with up := false } }
/-- A queue with room or none, and a mark or bytes that are no packet at 0x1000. -/
def ringing (full : Bool) (held : List Dword) (bs : List Byte) : State :=
  let s := (branded 5 1 9 0).write 0x12001000 bs
  { s with queues := [{ flown with rd := 0, wr := if full then 16 else 3, held := held }] }
def aBox : Letterbox :=
  { lb := 2, ctx := 0, prio := 3, walker := false, die := 0, width := 8, groups := 1, consumers := 0, lanes := 0, spadLines := 1, pool := 0, flags := 0, compl := 0, brandLo := BitVec.ofNat 64 (brandNo 1 % 2 ^ 64)
    brandHi := BitVec.ofNat 64 (brandNo 1 / 2 ^ 64), arg := 5, taken := 0, reject := 0, held := [] }
def boxed (b : Letterbox) (kind : Nat) : State := { branded kind 1 kernelPayload 0 with letterboxes := [b] }
/-- A sorter that is full. -/
def crowded (s : State) : State := { s with launches := List.replicate 256 { placedLaunch with next := 0, live := 1 } }
def oneTeam : Dword := 0x0001000100000001
/-- What becomes of GRID: the launch is refused by the checks, or its grid does not fit whole, or it is taken. -/
def gridIs (b : Letterbox) (kind want : Nat) (x : Dword) : Bool :=
  match (boxed b kind).resolveLaunch 0 (boxPacket b x) with
  | .wait => false
  | .stop _ => false
  | .got r v => match v.checkLaunch 0 (boxPacket b x) r with
  | none => want == 0
  | some k => want == if (boxPacket b x).cores && !(v.fitsWhole 0 (boxPacket b x) k) then 1 else 2
/-- What a record given to a walker letterbox meets. -/
def recordIs (s : State) (x : Dword) (want : Nat) : Bool :=
  (s.ctx? 0).any fun c => match s.checkVa (c.lmap.headD 0) c x 64 64 .read false true with
    | (.error _, _) => want == 0
    | (.ok k, v) => want == if Pte.cls k.leaf.e == 2 then 1 else if 256 ≤ (v.agent (stackOf k.gpa)).walker.length then 2 else 3

theorem witness_QueuesAndLetterboxes :
    (let s := branded 5 1 9 0; s.linkUp && (s.ctx? 0).isSome && s.queues.isEmpty && (s.cross.mint 0 kindQueue (queuePayload 0x30000000 4 1)).1 != 0 && !((linkless s).linkUp)) = true
    ∧ ((ringing false [] []).queue? 1).any (fun q => decide (q.wr - q.rd < 2 ^ q.m) && q.held.isEmpty) = true ∧ ((ringing true [] []).queue? 1).any (fun q => decide (2 ^ q.m ≤ q.wr - q.rd)) = true
    ∧ ((ringing false [0x1040] []).queue? 1).any (·.held == [0x1040]) = true
    ∧ ([(packet 4 0 6 0, true), (packet 9 0 0 0, false)] : List (List Byte × Bool)).all (fun p => (parsePacket p.1).isSome == p.2 && (ringing false [] p.1).linkUp && match ((ringing false [] p.1).cross).doorbellRead 0 0x1000 with
        | (.ok bs, w) => bs == p.1 && (p.2 || (w.writeStatus 0 (complOf bs) 0x16).isSome) && (w.hole? ((0x30000000 + 64 * 3) / 8)).isNone | _ => false) = true
    ∧ (match (ringing false [] []).cross.doorbellRead 0 0x20000000 with | (.error _, _) => true | _ => false) = true
    ∧ ([(boxed aBox 1, true), (crowded (boxed aBox 1), false)] : List (State × Bool)).all (fun p => (p.1.box? 2).any fun b => b.held.isEmpty && !b.walker && p.1.sorterRoom b.ctx (some b.die) == p.2 && (p.1.boxTake b 0x018 oneTeam).isSome == p.2) = true
    ∧ ((boxed { aBox with held := [(0x018, 1)] } 1).box? 2).any (·.held == [(0x018, 1)]) = true
    ∧ ([true, false] : List Bool).all (fun room => let b := { aBox with held := [(0x018, oneTeam)] }; let s := if room then boxed b 1 else crowded (boxed b 1)
      ((s.modBox 2 fun b => { b with held := [] }).boxTake { b with held := [] } 0x018 oneTeam).isSome == room) = true
    ∧ gridIs aBox 1 2 oneTeam = true ∧ gridIs aBox 4 0 oneTeam = true ∧ gridIs { aBox with flags := 1 } 1 2 oneTeam = true ∧ gridIs { aBox with flags := 1 } 1 1 0x0001000100000011 = true
    ∧ (awaitsChange (boxed aBox 1)).resolveLaunch 0 (boxPacket aBox oneTeam) = .wait
    ∧ stopsAt (unlogged (boxed aBox 1)) (boxPacket aBox oneTeam).brand = true
    ∧ recordIs (boxed { aBox with walker := true } 1) 0x20000000 0 = true ∧ recordIs (boxed { aBox with walker := true } 1) 0x4000000 1 = true
    ∧ recordIs { boxed { aBox with walker := true } 1 with agents := List.replicate 64 { Agent.reset with walker := List.replicate 256 ⟨0, 0, none, ⟨[], []⟩⟩ } } 0x1000 2 = true
    ∧ recordIs (boxed { aBox with walker := true } 1) 0x1000 3 = true := by decide +kernel

/-- An entry at index 4 on which lanes wait, and one that is held. -/
def anEntry : FEntry := ⟨0, 0, 0, Flt.mk' Code.pgf, false, false, false, 0xFF, 0, some (0, 0), 1⟩
def buffered : State := { (grouped regs fun g => { g with lanes := g.lanes.map fun l => { l with st := .parked (.buffer 0 4 anEntry 0 1) } }).modDie 0 (fun d => { d with fbhead := 5 }) with slot := none }
def heldFault : State := regs.modDie 1 fun d => { d with heldFaults := [anEntry] }
def shepherding (progress : Dword) (frozen : Bool) : State := { regs with slot := none, ctxs := [{ placedContext with progress := progress.toNat, frozen := frozen }] }

def someIslands (f : Island → Island) : State := { State.reset with islands := State.reset.islands.modify 8 f }

theorem witness_FaultsAndIslands :
    (heldFault.die? 1).any (fun d => d.heldFaults == [anEntry] && decide (d.count < 1024)) = true ∧ (heldFault.die? 0).any (·.heldFaults.isEmpty) = true
    ∧ ((heldFault.modDie 1 fun d => { d with fbhead := 1030 }).die? 1).any (fun d => decide (1024 ≤ d.count)) = true
    ∧ (buffered.die? 0).any (fun d => decide (0 < d.fbhead) && decide (4 < d.fbhead)) = true ∧ buffered.linkUp = true ∧ (linkless buffered).linkUp = false
    ∧ (buffered.teams.any fun t => t.groups.any fun g => g.lanes.any fun l => (buffered.die? 0).any fun d => l.entryAt 0 (d.latest 4) == some anEntry) = true
    ∧ (buffered.die? 8).isNone = true ∧ (buffered.ctx? 0).isSome = true ∧ buffered.ctx? 9 = none
    ∧ (buffered.cross.destroyCtx 0).isSome = true ∧ (stuckEnd.linkUp && (stuckEnd.ctx? 3).isSome && (stuckEnd.cross.destroyCtx 3).isNone) = true
    ∧ ([(0, true), (0, false), (3, false)] : List (Dword × Bool)).all (fun p => ((shepherding p.1 p.2).ctx? 0).any fun c => c.frozen == p.2) = true
    ∧ (shepherding 0 false).workRemains placedContext = true
    ∧ ([0x01F, 0x030, 0x033, 0x045] : List Nat).all (fun n => decide (n < 0x020) || reachOf n == .ro || (buffered.cross.dieWrite 0 n 7).isSome) = true ∧ (reachOf 0x045 == .ro && reachOf 0x033 != .ro) = true
    ∧ (boxOk aBox && !(boxOk { aBox with prio := 16 }) && boxOk (boxOfMap 2 0 3 false 0 8 1 0 0 1 0 0 0) && !(boxOk (boxOfMap 256 0 3 false 0 8 1 0 0 1 0 0 0))) = true
    ∧ (regs.die? 0).any (fun d => (regs.islands[d.islsel]?).isSome) = true
    ∧ ([true, false] : List Bool).all (fun b => ((someIslands fun i => { i with freq := 900, settling := b }).islands[8]?).any (·.settling == b)) = true
    ∧ ([(500, 900), (400, 1050)] : List (Nat × Nat)).all (fun p => let s := someIslands fun i => { i with freq := p.2 }
      s.islands.length == 16 && (s.islands[8]?).any (fun k => decide (400 ≤ p.1) && decide (p.1 ≤ 1050) && decide (p.1 < k.freq) && decide (p.1 ≤ k.cap)) && (List.range 16).all fun m => (s.islands[m]?).any fun y => decide (y.freq < p.2) || m == 8) = true
    ∧ ((State.reset.islands[8]?).any fun k => decide (¬(500 < k.freq)) && decide (¬(1051 ≤ 1050))) = true := by
  decide +kernel

/-- A die whose limit is the least temperature is over it at every temperature but that; one at the greatest never is. -/
theorem witness_TemplimExceeded (t : Word) (d : Die) : (d.templim = 0x80000000 → t ≠ 0x80000000 → d.overLimit t = true) ∧ (d.templim = 0x7FFFFFFF → d.overLimit t = false) := by
  have low : (0x80000000 : Word).toInt = -2147483648 := by decide
  have high : (0x7FFFFFFF : Word).toInt = 2147483647 := by decide
  have least : -2147483648 ≤ t.toInt ∧ t.toInt ≤ 2147483647 := by have := BitVec.le_toInt t; have := BitVec.toInt_lt (x := t); omega
  refine ⟨fun h hne => ?_, fun h => ?_⟩
  · have : t.toInt ≠ -2147483648 := fun e => hne (BitVec.eq_of_toInt_eq (e.trans low.symm))
    simp only [Die.overLimit, BitVec.slt, h, low, decide_eq_true_eq]
    omega
  · simp only [Die.overLimit, BitVec.slt, h, high, decide_eq_false_iff_not]
    omega

/-- A context record at 0x18000000 of the chip: context 5 with one core and a table at 0x10000000. -/
def recorded : State :=
  (pages.write 0x18000000 (toLe 8 0x10000000)).write 0x18000032 (toLe 2 5 ++ toLe 4 1)
def contextAt (st : CtxSt) (saving : Option Nat) : State := { regs with slot := none, teams := [], launches := [], ctxs := [{ placedContext with st := st, saving := saving }] }
/-- A context whose team is about to issue, so that it cannot stop yet. -/
def midInstruction (st : CtxSt) : State := { regs with ctxs := [{ placedContext with st := st }] }

/-- An image of no more than its header, at 0x1A000000 of the chip, with a magic number, a version, a context's number and a digest; the digest of nothing is that of FIPS 180-4. -/
def digestOfNothing : List Byte :=
  [0xE3, 0xB0, 0xC4, 0x42, 0x98, 0xFC, 0x1C, 0x14, 0x9A, 0xFB, 0xF4, 0xC8, 0x99, 0x6F, 0xB9, 0x24, 0x27, 0xAE, 0x41, 0xE4, 0x64, 0x9B, 0x93, 0x4C, 0xA4, 0x95, 0x99, 0x1B, 0x78, 0x52, 0xB8, 0x55]
def imageAt (magic version ctx : Nat) (digest : List Byte) (s : State) : State :=
  (s.write 0x1A000000 (toLe 8 magic ++ toLe 2 version ++ toLe 2 ctx ++ toLe 84 0 ++ digest)).modDie 0 fun d => { d with csimg := 0x1A000000, csrec := 0x180000 }
def magicNumber : Nat := 0x4B580801494D4147
/-- What a restore of context `n` finds: ERR 7 for one that is there, 3, 1, 7 for the record or the number, 2 or 0. -/
def restoreIs (s : State) (n want : Nat) : Bool :=
  (s.die? 0).any fun die =>
    let at' := s.gpaOf (die.csimg.toNat % 2 ^ 50)
    let head := s.read at' 256
    let bs := s.read at' (1024 * pf head 12 4)
    if (s.ctx? n).any (·.st != .saved) then want == 7
    else if pf head 0 8 != magicNumber || pf head 8 2 != 1 then want == 3
    else if sha256 (bs.drop 256) != (head.drop 96).take 32 then want == 1
    else match s.contextFrom (256 * die.csrec.toNat) with
      | none => want == 6
      | some k => if k.ctx != n || pf head 10 2 != n then want == 5 else (s.rebuild k (s.imageOfBytes k bs (sha256 (bs.drop 256)))).isSome == (want == 0) && (want == 0 || want == 2)
/-- The chip saved that image itself, with a queue, where every queue number is taken. -/
def crammed (s : State) : State :=
  match s.contextFrom 0x18000000 with
  | some k => { s with images := [{ s.imageIn k [] digestOfNothing with queues := [flown] }], queues := (List.range 256).map fun n => { flown with q := n } }
  | none => s

theorem witness_ContextsAreSaved :
    (recorded.cross.contextFrom 0x18000000).isSome = true ∧ (recorded.cross.contextFrom 0x18000001).isNone = true ∧ recorded.linkUp = true
    ∧ ([.running, .saved] : List CtxSt).all (fun st => (({ recorded with ctxs := [{ placedContext with ctx := 5, st := st }] } : State).ctx? 5).any (·.st == st)) = true
    ∧ ([.running, .replayEnded, .stopped, .logFull, .saved, .restoring] : List CtxSt).all (fun st => ((contextAt st none).ctx? 0).any fun c => c.st == st && c.atRest == (st == .stopped || st == .logFull)) = true
    ∧ ((contextAt .stopped none).stopTeams 0).isSome = true ∧ ((midInstruction .stopping).stopTeams 0).isNone = true ∧ ((contextAt .stopped none).destroyCtx 0).isSome = true
    ∧ restoreIs (imageAt magicNumber 1 5 digestOfNothing (contextAt .running none)) 0 7 = true ∧ restoreIs (imageAt 5 1 5 digestOfNothing recorded) 5 3 = true ∧ restoreIs (imageAt magicNumber 2 5 digestOfNothing recorded) 5 3 = true
    ∧ restoreIs (imageAt magicNumber 1 5 (0 :: digestOfNothing.drop 1) recorded) 5 1 = true ∧ restoreIs (imageAt magicNumber 1 5 digestOfNothing pages) 5 6 = true
    ∧ restoreIs (imageAt magicNumber 1 4 digestOfNothing recorded) 5 5 = true ∧ restoreIs (imageAt magicNumber 1 5 digestOfNothing recorded) 5 0 = true
    ∧ restoreIs (crammed (imageAt magicNumber 1 5 digestOfNothing recorded)) 5 2 = true
    ∧ ([.stopped, .logFull] : List CtxSt).all (fun st => let s := contextAt st (some 2); s.copies.isEmpty && s.agents.all (·.walker.isEmpty) && (s.ctx? 0).any fun c => c.saving == some 2) = true
    ∧ (let s := contextAt .sealed (some 2); !(s.landing 0) && s.accs.isEmpty && (s.holesOf 0).isEmpty && (s.writeImage 2 0).any (!·.blocked)) = true
    ∧ ({ contextAt .sealed (some 2) with tiles := [aTile true 0x3000] } : State).landing 0 = true := by decide +kernel

/-- A port that has sent flits, and a module that has. -/
def sending : State :=
  { State.reset with ports := State.reset.ports.modify 4 fun p => { p with flits := { p.flits with replay := [⟨7, 0, 0⟩, ⟨8, 0, 0⟩] } }, ucies := State.reset.ucies.modify 1 fun u => { u with flits := { u.flits with replay := [⟨3, 0, 0⟩] } } }

/-- Contexts that are saved or not, for the records that a move leaves. -/
def oneCtx (st : CtxSt) : State := { sending with ctxs := [{ placedContext with st := st }] }

/-- A module that the compute dies have sent by; only one module up; addresses of a doorbell, a die's register, a letterbox's page and nothing. -/
def answering : State := { sending with ucies := sending.ucies.modify 2 fun u => { u with far := { u.far with replay := [⟨5, 0, 0⟩] } } }
def oneModule : State := { sending with ucies := sending.ucies.zipIdx.map fun p => { p.1 with up := p.2 == 1 } }
def doorbellAt (q : Nat) : Nat := 0x2000080000000 + 8 * q
def registerAt (d n : Nat) : Nat := 0x20000C0000000 + 4096 * d + 8 * n
/-- R417: a flit of a module carries 240 bytes. -/
theorem test_flits_of_a_module : [1, 240, 241, 480, 481].map ucieFlits = [1, 1, 2, 2, 3] := by decide

theorem witness_LinksAndBringUp :
    (answering.ucies[2]?).any (fun y => y.up && y.far.holds 5 && !(y.flits.holds 5)) = true ∧ (oneModule.lastModule 1 && !(sending.lastModule 1) && !(oneModule.lastModule 2)) = true
    ∧ State.reset.ucies.all (fun y => decide (y.flits.seq < 4096) && y.far.taken == y.flits.seq && decide (y.far.seq < 4096) && y.flits.taken == y.far.seq) = true
    ∧ ([(doorbellAt 3, 8, true), (doorbellAt 3, 4, false), (registerAt 2 5, 8, true), (registerAt 2 5, 4, true), (0x2000000001000, 8, false), (0x20000FFFFFFF8, 8, false)] : List (Nat × Nat × Bool)).all (fun p =>
      sending.onChip p.1 && isDevice p.1 && (deviceAct p.1 (toLe p.2.1 1)).isSome == p.2.2) = true
    ∧ ([(sending.chip, 1, true), (sending.chip, 0, false), (9, 1, false)] : List (Nat × Nat × Bool)).all (fun p =>
      let sr : BitVec 48 := if p.2.1 == 1 then sending.serial + 1 else sending.serial
      (p.1 == sending.chip && sr != sending.serial && !(sending.origins.contains (sr, 0)) && decide (sending.origins.length < 4095)) == p.2.2) = true
    ∧ ([[], [0x55]] : List (List Byte)).all (fun fw => ({ sending with setup := [0, 1, 2, 3, 4, 5, 6, 7, 9, 10], hostFw := fw } : State).launchOpen == false && setupOver (insertNat 8 [0, 1, 2, 3, 4, 5, 6, 7, 9, 10])) = true
    ∧ (sending.port? 4).any (fun p => p.up && p.flits.holds 8 && !(p.flits.holds 9)) = true ∧ (({ sending with ports := sending.ports.map fun p => { p with up := false } } : State).port? 4).any (!·.up) = true
    ∧ (sending.ucies[1]?).any (fun y => y.up && y.flits.holds 3 && !(y.flits.holds 4)) = true ∧ ((linkless sending).ucies[1]?).any (!·.up) = true ∧ sending.linkUp = true ∧ (linkless sending).linkUp = false
    ∧ State.reset.ports.all (fun p => decide (p.flits.seq < 4096) && decide (p.flits.replay.length ≤ 512)) = true
    ∧ (sending.onChip 0x1000 && !(isDevice 0x1000) && decide (localOf 0x1000 + 3 ≤ 0xC000000000) && (sending.hole? (0x1000 / 8)).isNone && sending.ctxs.all (fun k => !k.log && !k.replay)) = true
    ∧ (sending.onChip 0x2000000000000 && isDevice 0x2000000000000) = true ∧ (sending.onChip (2 ^ 50 + 0x1000) == false && decide (0xC000000000 < localOf 0xBFFFFFFFFF + 3) && !(isDevice 0xBFFFFFFFFF)) = true
    ∧ sending.chip = 0 ∧ ([(0, Route.self), (9, .port 17)] : List (Nat × Route)).all (fun p => decide (p.1 < 1024) && (p.1 == sending.chip) == (p.2 == .self) && (match p.2 with | .port f => decide (f < 18) | _ => true)) = true
    ∧ ([.running, .saved] : List CtxSt).all (fun st => ((oneCtx st).ctx? 0).any (·.st == st)) = true ∧ sending.ctx? 0 = none
    ∧ (0x20000000 + 2 ^ 25 ≤ 0xC000000000 ∧ 0xC000000000 < 0xC000000000 + 2 ^ 25) ∧ (setupOver [0, 1, 2, 3, 4, 5, 6, 7, 8, 9, 10] && !(setupOver [0, 1, 2, 3, 4, 5, 6, 7, 8, 9])) = true
    ∧ (let s := queueOf1 2 9 (packet 4 0 6 0); let s : State := { s with launchOpen := false }; (s.queue? 1).any fun q => s.eligible q && (s.headPacket q).isSome) = true
    ∧ sending.port? 18 = none ∧ (sending.port? 17).isSome = true ∧ firmwareOk sending.otpKey [1] = false
    ∧ ([0, 5] : List Nat).all (fun n => ({ sending with otpLeft := n } : State).otpLeft == n) = true ∧ (List.replicate 32 (0 : Byte)).length = 32
    ∧ ([0xFFFFFF, 1] : List (BitVec 24)).all (fun b => ({ sending with boot := b } : State).boot == b) = true ∧ sending.hostFw = [] := by decide +kernel

theorem sha256_length (bs : List Byte) : (sha256 bs).length = 32 := by
  have round (v : List Word) (x : Word × Word) (h : v.length = 8) : (Sha.round v x).length = 8 := by unfold Sha.round; split <;> simp_all
  have rounds (l : List (Word × Word)) : ∀ v : List Word, v.length = 8 → (l.foldl Sha.round v).length = 8 := by
    induction l with
    | nil => exact fun v h => h
    | cons x xs ih => exact fun v h => ih _ (round v x h)
  have blocks (n : Nat) : ∀ (bs : List Byte) (v : List Word), v.length = 8 → (Sha.blocks n bs v).length = 8 := by
    induction n with
    | zero => exact fun _ v h => h
    | succ n ih => exact fun bs v h => ih _ _ (by simp [Sha.compress, rounds _ v h, h])
  have bytes (l : List Word) : (l.flatMap Sha.beBytes).length = 4 * l.length := by
    induction l with
    | nil => rfl
    | cons x xs ih => simp [List.flatMap_cons, Sha.beBytes, ih]; omega
  rw [sha256, bytes, blocks _ _ _ rfl]

/-- A firmware image of three bytes with its key and its signature of one level, under LMS of height 5 and LM-OTS of 4-bit digits: every value that the signer may choose is zero, and the key's root is the one that the
scheme then gives. -/
def signature : List Byte := Lms.toBe 4 0 ++ Lms.toBe 4 3 ++ List.replicate (32 + 67 * 32) 0 ++ Lms.toBe 4 5 ++ List.replicate (5 * 32) 0
def signedRoot : List Byte :=
  Lms.rootOf (toLe 16 0) ((List.range 5).map fun i => Lms.field signature (2188 + 32 * i) 32) 32
    (sha256 (toLe 16 0 ++ Lms.toBe 4 32 ++ Lms.toBe 2 0x8282 ++ Lms.otsKey (toLe 16 0) 0 4 67 4 (Lms.field signature 4 2180) [0x55, 0x55, 0x55]))
def keyHead : List Byte := Lms.toBe 4 5 ++ Lms.toBe 4 3 ++ toLe 16 0
def signedKey : List Byte := Lms.toBe 4 1 ++ (keyHead ++ signedRoot)
def signedImage : List Byte := Lms.toBe 4 2352 ++ (signedKey ++ ((Lms.toBe 4 0 ++ signature) ++ [0x55, 0x55, 0x55]))

theorem witness_FirmwareVerifies : firmwareOk (sha256 signedKey) signedImage = true := by
  have rootOf (id : List Byte) (path : List (List Byte)) : ∀ node hash, hash.length = 32 → (Lms.rootOf id path node hash).length = 32 := by
    induction path with
    | nil => exact fun _ _ h => h
    | cons x xs ih => exact fun _ _ _ => ih _ _ (sha256_length _)
  have rootLen : signedRoot.length = 32 := rootOf _ _ _ _ (sha256_length _)
  have before (a b : List Byte) (off n : Nat) (h : off + n ≤ a.length) : Lms.field (a ++ b) off n = Lms.field a off n := by
    unfold Lms.field
    rw [List.drop_append_of_le_length (by omega), List.take_append_of_le_length (by simp; omega)]
  have dropped (a b : List Byte) (k : Nat) (h : a.length = k) : (a ++ b).drop k = b := by rw [← h, List.drop_left]
  have taken (a b : List Byte) (k : Nat) (h : a.length = k) : (a ++ b).take k = a := by rw [← h, List.take_left]
  have whole (a : List Byte) (k : Nat) (h : a.length = k) : a.take k = a := by rw [← h, List.take_length]
  have headLen : keyHead.length = 24 := by decide +kernel
  have keyLen : signedKey.length = 60 := by simp [signedKey, headLen, rootLen, show (Lms.toBe 4 1).length = 4 by decide +kernel]
  have sigLen : (Lms.toBe 4 0 ++ signature).length = 2352 := by decide +kernel
  have lenLen : (Lms.toBe 4 2352).length = 4 := by decide +kernel
  have one : (Lms.toBe 4 1).length = 4 := by decide +kernel
  have parts : firmwareParts signedImage = (signedKey, Lms.toBe 4 0 ++ signature, [0x55, 0x55, 0x55]) := by
    have n : Lms.beNat (signedImage.take 4) = 2352 := by
      rw [signedImage, List.take_append_of_le_length (by omega)]
      decide +kernel
    have key : Lms.field signedImage 4 60 = signedKey := by
      rw [Lms.field, signedImage, dropped _ _ _ lenLen, taken _ _ _ keyLen]
    have rest : signedImage.drop 64 = (Lms.toBe 4 0 ++ signature) ++ [0x55, 0x55, 0x55] := by
      rw [signedImage, show 64 = 4 + 60 by rfl, ← List.drop_drop, dropped _ _ _ lenLen, dropped _ _ _ keyLen]
    have sig : Lms.field signedImage 64 2352 = Lms.toBe 4 0 ++ signature := by
      rw [Lms.field, rest, taken _ _ _ sigLen]
    have fw : signedImage.drop (64 + 2352) = [0x55, 0x55, 0x55] := by
      rw [← List.drop_drop, rest, dropped _ _ _ sigLen]
    simp only [firmwareParts, n, key, sig, fw]
  have verified : Lms.verifies (keyHead ++ signedRoot) signature [0x55, 0x55, 0x55] = true := by
    have ots : Lms.otsOf (Lms.beNat (Lms.field signature 4 4)) = some (4, 67, 4) := by decide +kernel
    have len : Lms.sigLength signature = some 2348 := by decide +kernel
    have leaf : Lms.beNat (Lms.field signature 0 4) = 0 := by decide +kernel
    have high : (Lms.heightOf (Lms.beNat (Lms.field signature (40 + 32 * 67) 4))).getD 0 = 5 := by decide +kernel
    have id : Lms.field (keyHead ++ signedRoot) 8 16 = toLe 16 0 := by rw [before _ _ _ _ (by omega)]; decide +kernel
    have kind : Lms.field (keyHead ++ signedRoot) 0 4 = Lms.field signature (40 + 32 * 67) 4 := by rw [before _ _ _ _ (by omega)]; decide +kernel
    have kind' : Lms.field (keyHead ++ signedRoot) 4 4 = Lms.field signature 4 4 := by rw [before _ _ _ _ (by omega)]; decide +kernel
    have root : Lms.field (keyHead ++ signedRoot) 24 32 = signedRoot := by rw [Lms.field, dropped _ _ _ headLen, whole _ _ rootLen]
    have all : (keyHead ++ signedRoot).length = 56 := by simp [headLen, rootLen]
    have sl : signature.length = 2348 := by decide +kernel
    simp only [Lms.verifies, ots, len, high, leaf, id, kind, kind', root, all, sl]
    simp [signedRoot]
  have levels : Lms.beNat (Lms.field signedKey 0 4) = 1 := by rw [signedKey, before _ _ _ _ (by omega)]; decide +kernel
  have zero : Lms.beNat (Lms.field (Lms.toBe 4 0 ++ signature) 0 4) = 0 := by decide +kernel
  have tail : signedKey.drop 4 = keyHead ++ signedRoot := by rw [signedKey, dropped _ _ _ one]
  have tail' : (Lms.toBe 4 0 ++ signature).drop 4 = signature := by decide +kernel
  simp only [firmwareOk, parts, Lms.hssVerifies, levels, zero, keyLen, tail, tail', verified]
  simp

/-- A word with a latch and vector registers, on a group with a budget that its registers meet or not. -/
theorem witness_SourcesAndFieldFaults :
    (([8, 256] : List Nat).all fun n =>
      let s := grouped regs fun g => { g with budget := n }
      match formOf (.iadd h0 .s32 false (.v 8 false) (.latch 1) (vr 2)), s.issue? with
      | some fm, some (sl, t, g, c) =>
        let o := openForm fm s sl t g c
        g.budget == n && o.1.g.budget == n && !o.1.act.isEmpty && (if n == 8 then (formV fm).any (n ≤ ·) else (formV fm).all (· < n)) && !o.2.1.isEmpty
      | _, _ => false) = true := by decide +kernel

theorem witness_DecodeInvertsEncode : (Instr.hlt h0).wellFormed = true ∧ ((encode (.hlt h0)).map fun w => match decode w with | .ok (.hlt h) => h == h0 | _ => false) = some true := by decide +kernel

/-- The first word after reset; its group stands at another PC, or has no page there; and the next instruction is word B of an open slot. -/
def placedWord (w : Nat) : State := State.reset.withFetchWord 96 w
def atPc (pc : Dword) (s : State) : State := { s with teams := s.teams.map fun t => { t with groups := t.groups.map fun g => { g with lanes := g.lanes.map fun l => { l with pc := pc } } } }
/-- What the fetch of the slot meets: 0 a PC that is not well formed, 1 a fault, 2 a bad header, 3 an invalid slot, 4 a word that encodes no instruction, 5 one that does, 6 one that a lane goes to that could not fetch before, 7 a line without a slot for it. -/
def fetches (t : State) (want : Nat) : Bool :=
  match t.issue? with
  | none => false
  | some (sl, tm, g, c) =>
    !t.blocked && want == if !(pcOk (shownPc sl.pc)) then 0 else match t.fetchLine tm.core c g.ahead (pcLine sl.pc) with
      | (.flt _, _) => 1
      | (.line bits, f) =>
        let pc := if pcOpen sl.pc then landed sl.pc bits else sl.pc
        let v := if pc == sl.pc then f else f.landOn sl pc
        if pcOpen pc && pc != sl.pc then 7 else if !(headerOk bits) then 2 else if !(slotValid bits (pcSlot pc)) then 3
        else if (v.successor tm.core c g.ahead pc bits).2.blocked then 9 else match decode (slotWord bits (pcSlot pc)) with
          | .error _ => 4
          | .ok _ => if pc == sl.pc then 5 else 6
/-- The group issues next, as the device has nothing else to do or it must. -/
def issuesNext (s : State) (want : Nat) : Bool :=
  s.slot.isNone && s.overdue.isNone && s.events.isEmpty && (s.urgentNow.isSome || s.moves.isEmpty) && match s.openNext with | some t => fetches t want | none => false
def nopWord : Nat := 0xf15c00001800000000000000
def packed (pc : Dword) : State := { onPages addrs [] with mem := (State.reset.withFetchWord 96 nopWord).mem, slot := pages.slot.map fun sl => { sl with other := some (pc, [0, 1]) } }

theorem witness_StepRunsTheDecodedWord :
    issuesNext (placedWord nopWord) 5 = true ∧ issuesNext (placedWord 0) 4 = true ∧ issuesNext (atPc 0x0A (placedWord nopWord)) 0 = true ∧ issuesNext (atPc 0x20000000 (placedWord nopWord)) 1 = true
    ∧ issuesNext (atPc 0x100 (placedWord nopWord)) 2 = true ∧ issuesNext (atPc 1 (placedWord nopWord)) 3 = true ∧ issuesNext (atPc 0x7F (placedWord nopWord)) 5 = true
    ∧ ([(0, 5), (0x7F, 6), (0x74, 7)] : List (Dword × Nat)).all (fun p => (packed p.1).slot.isSome && fetches (packed p.1).secondWord p.2) = true
    ∧ (let s := { State.reset with events := [.coldReset] }; s.slot.isNone && s.overdue.isNone && s.openNext.isNone && s.hostHeld.isEmpty) = true := by decide +kernel

theorem witness_StepKeepsMemoryForm : (match step (placedWord 0) with | .next t => Memory.wf t.mem | _ => false) = true ∧ Memory.wf State.reset.mem = true := by decide +kernel
/-- A group of sixteen lanes with octets in two slices, its lanes 0 to 7 at one PC and 8 to 15 at another. -/
def group16 (gix a b : Nat) (pa pb : Dword) : Group :=
  { placedGroup with gix := gix, grant := 16, octets := [⟨a, 0⟩, ⟨b, 256⟩], lanes := (List.range 16).map fun j => { placedLane with pc := if j < 8 then pa else pb } }

/-- Both octets of a word A and a word B in one slice are two passes, in two slices one (R35). -/
theorem test_passes_of_two_words : (group16 0 3 3 0 16).morePasses (List.range 8) [8, 9] = 1 ∧ (group16 0 3 4 0 16).morePasses (List.range 8) [8, 9] = 0 := by decide +kernel

/-- What a group of a kernel issues in a cycle in which another has issued word A at PC 0 and, where given, word B: its PC, the PC of the slot's other word and of word B. -/
def joins (b : Option Dword) (k : Nat × Brand) (g : Group) : Option (Dword × Option Dword × Option Dword) :=
  let kern : Nat × Brand := (0, 5)
  let cy : Cycle := ⟨0, (kern, 0), b.map fun pc => (kern, pc), [(0, 0)], [3], [], 1⟩
  (cy.join 9 k placedTeam g).map fun r => (r.1.pc, r.1.other.map (·.1), r.2.b.map (·.2))

/-- A group joins a cycle at the PC of word A with its kernel, or as word B where that is free or at its own PC, and on slices that the cycle leaves free (R34). -/
theorem test_packing_of_a_cycle :
    joins none (0, 5) (group16 1 4 5 16 32) = some (16, none, some 16) ∧ joins (some 32) (0, 5) (group16 1 4 5 16 32) = some (32, none, some 32)
    ∧ joins (some 48) (0, 5) (group16 1 4 5 16 32) = none ∧ joins none (0, 5) (group16 1 3 5 16 32) = none
    ∧ joins none (0, 5) (group16 1 4 5 0 32) = some (0, some 32, some 32) ∧ joins none (0, 6) (group16 1 4 5 0 32) = some (0, none, some 0) := by decide +kernel

/-- Spans of slices of which two have room for some vector registers. -/
def slicesWith (a b : Nat) : Held := ([], ([a, b] ++ List.replicate 6 0).map fun room => if room = 2048 then [] else [⟨0, 2048 - room, true, .octet 9 9 9⟩])

/-- A group of one octet and one of two, with room for one octet in slice 0 and for two in slice 1: no group is folded (R47). -/
theorem test_resume_folds_only_where_it_must :
    (holdFolded 0 false [[⟨0, 0, 1024, none⟩], [⟨1, 0, 1024, none⟩, ⟨1, 1, 1024, none⟩]] (slicesWith 1024 2048)).map (fun w => (w.octets 0, w.octets 1))
      = some ([⟨1, 0⟩], [⟨0, 1024⟩, ⟨1, 1024⟩]) := by decide +kernel

/-- A buddy range moves to make room for a fixed range at any line (R51, R52). -/
theorem test_fixed_lines_at_any_line :
    (holdSpan [⟨0, 3, true, .lines 1⟩, ⟨4, 2, false, .lines 2⟩, ⟨8, 2040, true, .lines 3⟩] ⟨0, 3, true, .lines 4⟩).map (fun r => (r.1, r.2.map (·.base))) = some (3, [0, 8, 3, 6]) := by decide +kernel

end Sys2Proof.Tests
end

section
/-! SUPPORT. The integer operations of Table 5-4 as exact results (R120), and the other integer operations bit by bit (R122 to R127). -/

namespace Sys2Proof

/-! ### The bits of integers in two's complement -/

/-- Bit `p` of an integer in two's complement, without an upper end. -/
def intBit (z : Int) (p : Nat) : Bool := decide (z / 2 ^ p % 2 = 1)

theorem intBit_natCast (n p : Nat) : intBit n p = n.testBit p := by
  rw [intBit, Nat.testBit_eq_decide_div_mod_eq]
  congr 1
  rw [show ((n : Int) / 2 ^ p % 2 = ((n / 2 ^ p % 2 : Nat) : Int)) by push_cast; rfl]
  exact propext (by omega)

/-- Dividing by a power of 2 moves the bits down. -/
theorem intBit_ediv (z : Int) (s p : Nat) : intBit (z / 2 ^ s) p = intBit z (s + p) := by
  rw [intBit, intBit, Int.ediv_ediv_of_nonneg (by positivity), ← pow_add]

/-- Taking a power of 2 away leaves the bits below it. -/
theorem intBit_sub_two_pow (z : Int) {w p : Nat} (h : p < w) : intBit (z - 2 ^ w) p = intBit z p := by
  obtain ⟨k, rfl⟩ : ∃ k, w = p + 1 + k := ⟨w - (p + 1), by omega⟩
  have hz : z - 2 ^ (p + 1 + k) = z - 2 ^ (1 + k) * 2 ^ p := by rw [← pow_add]; congr 2; omega
  rw [intBit, intBit, hz, Int.sub_mul_ediv_right _ _ (by positivity), pow_add]
  congr 1
  exact propext (by omega)

/-- The bits of a remainder modulo a power of 2. -/
theorem testBit_toNat_emod (z : Int) (w i : Nat) : (z % 2 ^ w).toNat.testBit i = (decide (i < w) && intBit z i) := by
  have hr : (((z % 2 ^ w).toNat : Nat) : Int) = z % 2 ^ w := Int.toNat_of_nonneg (Int.emod_nonneg _ (by positivity))
  have hlt : (z % 2 ^ w).toNat < 2 ^ w := by
    have := Int.emod_lt_of_pos z (show (0 : Int) < 2 ^ w by positivity)
    zify; rwa [hr]
  by_cases hi : i < w
  · obtain ⟨k, rfl⟩ : ∃ k, w = i + 1 + k := ⟨w - (i + 1), by omega⟩
    have hz : z % 2 ^ (i + 1 + k) = z - (z / 2 ^ (i + 1 + k) * 2 ^ (1 + k)) * 2 ^ i := by
      rw [Int.emod_def, mul_assoc, ← pow_add, mul_comm]
      congr 3; omega
    rw [← intBit_natCast, hr, hz, intBit, intBit, Int.sub_mul_ediv_right _ _ (by positivity), pow_add 2 1 k, mul_left_comm]
    simp only [hi, decide_true, Bool.true_and]
    congr 1
    exact propext (by omega)
  · rw [Nat.testBit_lt_two_pow (lt_of_lt_of_le hlt (Nat.pow_le_pow_right (by decide) (by omega)))]
    simp [hi]

/-- A natural number of `w` bits, or that number less `2 ^ w` where `neg`, bit by bit: its own bits below `w`, and `neg` from there on. -/
theorem intBit_twos {n w : Nat} (h : n < 2 ^ w) (neg : Bool) (p : Nat) :
    intBit (if neg then (n : Int) - 2 ^ w else n) p = if p < w then n.testBit p else neg := by
  by_cases hp : p < w
  · cases neg <;> simp [hp, intBit_sub_two_pow, intBit_natCast]
  · have hle : 2 ^ w ≤ 2 ^ p := Nat.pow_le_pow_right (by decide) (by omega)
    cases neg with
    | false => simp [hp, intBit_natCast, Nat.testBit_lt_two_pow (lt_of_lt_of_le h hle)]
    | true =>
      have hq : ((n : Int) - 2 ^ w) / 2 ^ p = -1 := by
        refine ((Int.ediv_emod_unique (r := (n : Int) - 2 ^ w + 2 ^ p) (by positivity)).2 ⟨by ring, ?_, ?_⟩).1 <;> zify at h hle <;> omega
      simp [hp, intBit, hq]

/-- A natural number of `w` bits is in the upper half of its range where its highest bit is set. -/
theorem le_iff_testBit_pred {n w : Nat} (h : n < 2 ^ w) (hw : 0 < w) : 2 ^ (w - 1) ≤ n ↔ n.testBit (w - 1) = true := by
  refine ⟨fun hl => ?_, Nat.ge_two_pow_of_testBit⟩
  have h2 : 2 ^ w = 2 * 2 ^ (w - 1) := by rw [← pow_succ']; congr 1; omega
  have hd : n / 2 ^ (w - 1) = 1 := Nat.div_eq_of_lt_le (by omega) (by omega)
  rw [Nat.testBit_eq_decide_div_mod_eq, hd]; rfl

namespace IntTy

/-! ### Results of arithmetic -/

theorem elem_eq_val_emod (ty : IntTy) (x : Dword) (e : Nat) : ((ty.elem x e : Nat) : Int) = ty.val x e % 2 ^ ty.width := by
  rw [← ty.fit_wraps, IntTy.val, ty.toInt_fit _ (ty.elem_lt x e)]

/-- A result each of whose elements is the fitted exact result of the elements of two operands. -/
theorem result_map2 (ty : IntTy) (sat : Bool) (op : Int → Int → Int) (a b : Dword) :
    ty.Result sat (fun e => op (ty.val a e) (ty.val b e)) (ty.map2 (fun x y => ty.fit sat (op (ty.toInt x) (ty.toInt y))) a b) :=
  ty.result_of_fit sat _ _ fun e he => ty.elem_map2 _ a b e he fun _ => ty.fit_lt _ _

theorem result_map1 (ty : IntTy) (sat : Bool) (op : Int → Int) (a : Dword) :
    ty.Result sat (fun e => op (ty.val a e)) (ty.map1 (fun x => ty.fit sat (op (ty.toInt x))) a) :=
  ty.result_of_fit sat _ _ fun e he => ty.elem_map1 _ a e he fun _ => ty.fit_lt _ _

/-- A result whose elements have the exact values wraps nothing away. -/
theorem result_of_val (ty : IntTy) (exact : Nat → Int) (r : Dword) (h : ∀ e, e < ty.count → ty.val r e = exact e) : ty.Result false exact r := by
  intro e he
  rw [if_neg (by decide), elem_eq_val_emod, h e he]

/-! ### The bits of an operand -/

theorem width_pos (ty : IntTy) : 0 < ty.width := by cases ty <;> decide
theorem width_le (ty : IntTy) : ty.width ≤ 64 := by cases ty <;> decide

theorem elems_headD (ty : IntTy) (a : Dword) : (ty.elems a).headD 0 = ty.elem a 0 := by
  rw [elems_eq]; cases ty <;> rfl

theorem elem_zero (ty : IntTy) (a : Dword) : ty.elem a 0 = a.toNat % 2 ^ ty.width := by simp [elem]

theorem testBit_elem_zero (ty : IntTy) (a : Dword) (i : Nat) : (ty.elem a 0).testBit i = (decide (i < ty.width) && a.getLsbD i) := by
  rw [elem_zero, Nat.testBit_mod_two_pow, BitVec.testBit_toNat]

/-- The bits of an operand of one element, read as its type reads it (R122). -/
theorem intBit_toInt (ty : IntTy) (a : Dword) (p : Nat) : intBit (ty.toInt (ty.elem a 0)) p = fieldBit ty a p := by
  have hs : (ty.signed && decide (2 ^ (ty.width - 1) ≤ ty.elem a 0)) = (ty.signed && a.getLsbD (ty.width - 1)) := by
    have hb : (ty.elem a 0).testBit (ty.width - 1) = a.getLsbD (ty.width - 1) := by simp [testBit_elem_zero, ty.width_pos]
    rw [← hb, Bool.eq_iff_iff]
    simp [le_iff_testBit_pred (ty.elem_lt a 0) ty.width_pos]
  rw [toInt, hs, intBit_twos (ty.elem_lt a 0), fieldBit]
  by_cases hp : p < ty.width <;> simp [hp, testBit_elem_zero]

theorem getLsbD_fit (ty : IntTy) (z : Int) {i : Nat} (hi : i < ty.width) : (BitVec.ofNat 64 (ty.fit false z)).getLsbD i = intBit z i := by
  have hw := ty.width_le
  rw [BitVec.getLsbD_ofNat, fit, if_neg (by decide), testBit_toNat_emod]
  simp [hi, show i < 64 by omega]

end IntTy

namespace IntOp

/-! ### Exact results (R120) -/

theorem mul_low_result (ty : IntTy) (sat : Bool) (a b : Dword) :
    ty.Result sat (fun e => ty.val a e * ty.val b e) (mul ty sat false a b) := ty.result_map2 sat (· * ·) a b

theorem mul_high_result (ty : IntTy) (sat : Bool) (a b : Dword) :
    ty.Result false (fun e => ty.val a e * ty.val b e / 2 ^ ty.width) (mul ty sat true a b) :=
  ty.result_map2 false (fun x y => x * y / 2 ^ ty.width) a b

theorem mad_result (ty : IntTy) (sat : Bool) (a b c : Dword) :
    ty.Result sat (fun e => ty.val a e * ty.val b e + ty.val c e) (mad ty sat a b c) :=
  ty.result_of_fit sat _ _ fun e he => ty.elem_mad sat a b c e he

theorem min_result (ty : IntTy) (a b : Dword) : ty.Result false (fun e => Min.min (ty.val a e) (ty.val b e)) (min ty a b) := by
  refine ty.result_of_val _ _ fun e he => ?_
  rw [IntTy.val, min, ty.elem_map2 _ a b e he fun i => by split <;> exact ty.elem_lt _ i]
  simp only [IntTy.val]
  split <;> omega

theorem max_result (ty : IntTy) (a b : Dword) : ty.Result false (fun e => Max.max (ty.val a e) (ty.val b e)) (max ty a b) := by
  refine ty.result_of_val _ _ fun e he => ?_
  rw [IntTy.val, max, ty.elem_map2 _ a b e he fun i => by split <;> exact ty.elem_lt _ i]
  simp only [IntTy.val]
  split <;> omega

/-! ### Bit fields and counts (R122, R123) -/

/-- The field that a descriptor names, as a natural number (R122). -/
def field (ty : IntTy) (a fd : Dword) : Nat := (ty.toInt (ty.elem a 0) / 2 ^ fieldStart fd % 2 ^ fieldLen ty fd).toNat

theorem field_cast (ty : IntTy) (a fd : Dword) : ((field ty a fd : Nat) : Int) = ty.toInt (ty.elem a 0) / 2 ^ fieldStart fd % 2 ^ fieldLen ty fd :=
  Int.toNat_of_nonneg (Int.emod_nonneg _ (by positivity))

theorem field_lt (ty : IntTy) (a fd : Dword) : field ty a fd < 2 ^ fieldLen ty fd := by
  have := Int.emod_lt_of_pos (ty.toInt (ty.elem a 0) / 2 ^ fieldStart fd) (show (0 : Int) < 2 ^ fieldLen ty fd by positivity)
  zify
  rwa [field_cast]

theorem testBit_field (ty : IntTy) (a fd : Dword) {p : Nat} (hp : p < fieldLen ty fd) :
    (field ty a fd).testBit p = fieldBit ty a (fieldStart fd + p) := by
  rw [field, testBit_toNat_emod, intBit_ediv, ty.intBit_toInt]
  simp [hp]

/-- Whether a field is read as negative: its type is signed, and its highest bit is set (R122). -/
def fieldNeg (ty : IntTy) (a fd : Dword) : Bool :=
  ty.signed && (decide (0 < fieldLen ty fd) && fieldBit ty a (fieldStart fd + fieldLen ty fd - 1))

theorem fieldNeg_iff (ty : IntTy) (a fd : Dword) :
    fieldNeg ty a fd = (ty.signed && decide (0 < fieldLen ty fd) && decide ((2 ^ (fieldLen ty fd - 1) : Int) ≤ field ty a fd)) := by
  rw [fieldNeg, Bool.and_assoc]
  by_cases h0 : 0 < fieldLen ty fd
  · have hb := testBit_field ty a fd (p := fieldLen ty fd - 1) (by omega)
    rw [← Nat.add_sub_assoc h0] at hb
    have hl := le_iff_testBit_pred (field_lt ty a fd) h0
    rw [← hb, Bool.eq_iff_iff]
    zify at hl
    simp [hl]
  · simp [h0]

/-- `bfe` reads the field in two's complement where it is negative. -/
theorem bfe_eq (ty : IntTy) (a fd : Dword) :
    bfe ty a fd = BitVec.ofNat 64 (ty.fit false (if fieldNeg ty a fd then (field ty a fd : Int) - 2 ^ fieldLen ty fd else field ty a fd)) := by
  rw [fieldNeg_iff, field_cast, ← ty.elems_headD]
  rfl

/-- A field of an operand, extended by its highest bit or by zeros, bit by bit (R122). -/
theorem bfe_bit (ty : IntTy) (a fd : Dword) {i : Nat} (hi : i < ty.width) :
    (bfe ty a fd).getLsbD i = if i < fieldLen ty fd then fieldBit ty a (fieldStart fd + i) else fieldNeg ty a fd := by
  rw [bfe_eq, ty.getLsbD_fit _ hi, intBit_twos (field_lt ty a fd)]
  split
  next h => exact testBit_field ty a fd h
  next => rfl

/-- A field put over another operand, bit by bit (R122). -/
theorem bfi_bit (ty : IntTy) (a b fd : Dword) {i : Nat} (hi : i < ty.width) :
    (bfi ty a b fd).getLsbD i = if fieldStart fd ≤ i ∧ i < fieldStart fd + fieldLen ty fd then a.getLsbD (i - fieldStart fd) else b.getLsbD i := by
  have hw := ty.width_le
  have hmask : (2 ^ fieldLen ty fd - 1) * 2 ^ fieldStart fd % 2 ^ ty.width < 2 ^ ty.width := Nat.mod_lt _ (Nat.two_pow_pos _)
  show (BitVec.ofNat 64 ((a.toNat * 2 ^ fieldStart fd % 2 ^ ty.width &&& (2 ^ fieldLen ty fd - 1) * 2 ^ fieldStart fd % 2 ^ ty.width) |||
    (b.toNat % 2 ^ ty.width &&& (2 ^ ty.width - 1 - (2 ^ fieldLen ty fd - 1) * 2 ^ fieldStart fd % 2 ^ ty.width)))).getLsbD i = _
  rw [Nat.sub_sub, Nat.add_comm 1]
  simp only [BitVec.getLsbD_ofNat, Nat.testBit_or, Nat.testBit_and, Nat.testBit_two_pow_sub_succ hmask, Nat.testBit_mod_two_pow, Nat.testBit_mul_two_pow,
    Nat.testBit_two_pow_sub_one, BitVec.testBit_toNat, hi, show i < 64 by omega, decide_true, Bool.true_and]
  by_cases hs : fieldStart fd ≤ i
  · have hl : i - fieldStart fd < fieldLen ty fd ↔ i < fieldStart fd + fieldLen ty fd := by omega
    by_cases h : i < fieldStart fd + fieldLen ty fd <;> simp [hs, hl, h]
  · simp [hs]

/-- The set bits of a number, counted. -/
theorem ones_eq_length (n x : Nat) : ones n x = ((List.range n).filter x.testBit).length := by
  induction n generalizing x with
  | zero => rfl
  | succ n ih =>
    have hc : (x.testBit ∘ Nat.succ) = (x / 2).testBit := funext fun i => by simp [Nat.testBit_succ]
    rw [ones, ih, List.range_succ_eq_map, List.filter_cons, List.filter_map, hc, Nat.testBit_zero]
    rcases Nat.mod_two_eq_zero_or_one x with h | h <;> simp [h, Nat.add_comm]

theorem popc_count (ty : IntTy) (a : Dword) : (popc ty a).toNat = ((List.range ty.width).filter fun i => a.getLsbD i).length := by
  have hf : (List.range ty.width).filter (a.toNat % 2 ^ ty.width).testBit = (List.range ty.width).filter fun i => a.getLsbD i := by
    refine List.filter_congr fun i hi => ?_
    rw [Nat.testBit_mod_two_pow, BitVec.testBit_toNat]
    simp [List.mem_range.1 hi]
  have hl := List.length_filter_le (fun i => a.getLsbD i) (List.range ty.width)
  have hw := ty.width_le
  rw [List.length_range] at hl
  rw [popc, ones_eq_length, hf, BitVec.toNat_ofNat, Nat.mod_eq_of_lt (by omega)]

/-- The zero bits above the highest set bit: all of them where there is none. -/
theorem clz_spec (ty : IntTy) (a : Dword) :
    (clz ty a).toNat ≤ ty.width ∧ (∀ i, ty.width - (clz ty a).toNat ≤ i → i < ty.width → a.getLsbD i = false) ∧
      ((clz ty a).toNat < ty.width → a.getLsbD (ty.width - 1 - (clz ty a).toNat) = true) := by
  have hw := ty.width_le
  have hbit : ∀ i, i < ty.width → a.getLsbD i = (ty.elem a 0).testBit i := fun i hi => by simp [ty.testBit_elem_zero, hi]
  have hlt := ty.elem_lt a 0
  have hc : clz ty a = BitVec.ofNat 64 (if ty.elem a 0 = 0 then ty.width else ty.width - 1 - (ty.elem a 0).log2) := by
    rw [ty.elem_zero, clz]; simp
  by_cases h0 : ty.elem a 0 = 0
  · have hv : (clz ty a).toNat = ty.width := by rw [hc, if_pos h0, BitVec.toNat_ofNat, Nat.mod_eq_of_lt (by omega)]
    rw [hv]
    exact ⟨le_rfl, fun i _ hi => by rw [hbit i hi, h0, Nat.zero_testBit], fun h => absurd h (lt_irrefl _)⟩
  · have hlog := (Nat.log2_lt h0).2 hlt
    have hv : (clz ty a).toNat = ty.width - 1 - (ty.elem a 0).log2 := by rw [hc, if_neg h0, BitVec.toNat_ofNat, Nat.mod_eq_of_lt (by omega)]
    rw [hv]
    refine ⟨by omega, fun i hl hi => ?_, fun _ => ?_⟩
    · rw [hbit i hi]
      exact Nat.testBit_lt_two_pow (lt_of_lt_of_le Nat.lt_log2_self (Nat.pow_le_pow_right (by decide) (by omega)))
    · rw [hbit _ (by omega), show ty.width - 1 - (ty.width - 1 - (ty.elem a 0).log2) = (ty.elem a 0).log2 by omega]
      exact Nat.testBit_log2 h0

theorem reverse_lt (n x : Nat) : reverse n x < 2 ^ n := by
  induction n generalizing x with
  | zero => exact Nat.one_pos
  | succ n ih =>
    have h := ih (x / 2)
    rw [reverse, pow_succ]
    rcases Nat.mod_two_eq_zero_or_one x with h2 | h2 <;> rw [h2] <;> omega

theorem testBit_reverse (n x : Nat) {i : Nat} (hi : i < n) : (reverse n x).testBit i = x.testBit (n - 1 - i) := by
  induction n generalizing x with
  | zero => omega
  | succ n ih =>
    rw [reverse, mul_comm, Nat.testBit_two_pow_mul_add _ (reverse_lt n _)]
    split
    next h => rw [ih _ h, show n + 1 - 1 - i = (n - 1 - i) + 1 by omega, Nat.testBit_succ]
    next h =>
      obtain rfl : i = n := by omega
      simp [Nat.testBit_zero]

theorem brev_bit (ty : IntTy) (a : Dword) {i : Nat} (hi : i < ty.width) : (brev ty a).getLsbD i = a.getLsbD (ty.width - 1 - i) := by
  have hw := ty.width_le
  rw [brev, BitVec.getLsbD_ofNat, testBit_reverse _ _ hi, Nat.testBit_mod_two_pow, BitVec.testBit_toNat]
  simp [show i < 64 by omega, show ty.width - 1 - i < ty.width by omega]

/-! ### Comparisons and sums (R124, R126, R127) -/

/-- A comparison says whether its condition holds of the operands as integers (R124). -/
theorem compare_iff (cond : ICond) (ty : IntTy) (a b : Dword) : compare cond ty a b = true ↔ icondHolds cond (ty.val a 0) (ty.val b 0) := by
  rw [compare.eq_def, ty.elems_headD, ty.elems_headD]
  cases cond <;> simp [icondHolds, IntTy.val]

/-- A sum with a shifted value, modulo `2^64`, takes the value's integer reading as well as its natural one. -/
theorem add_shiftLeft_toNat (a z : Dword) (n : Nat) : ((a + z <<< n).toNat : Int) = (a.toNat + z.toInt * 2 ^ n) % 2 ^ 64 := by
  have hz : (z.toNat : Int) ≡ z.toInt [ZMOD 2 ^ 64] := by rw [BitVec.toInt_eq_toNat_bmod]; exact Int.bmod_emod.symm
  rw [BitVec.toNat_add, BitVec.toNat_shiftLeft, Nat.shiftLeft_eq]
  push_cast
  exact ((Int.mod_modEq _ _).trans (hz.mul_right _)).add_left _

/-- The address of `lea` (R126). -/
theorem lea_toNat (ty : IntTy) (sh : BitVec 3) (a b : Dword) : ((lea ty sh a b).toNat : Int) =
    (a.toNat + (if ty.signed then (b.extractLsb' 0 32).toInt else ((b.extractLsb' 0 32).toNat : Int)) * 2 ^ sh.toNat) % 2 ^ 64 := by
  rw [lea, add_shiftLeft_toNat]
  cases ty.signed with
  | true => simp only [if_true, BitVec.toInt_signExtend_of_le (show 32 ≤ 64 by decide)]
  | false =>
    have hlt := (b.extractLsb' 0 32).isLt
    simp only [Bool.false_eq_true, if_false, BitVec.zeroExtend_eq_setWidth, BitVec.toInt_setWidth]
    rw [Int.bmod_eq_of_le (by omega) (by omega)]

/-- The carry that `iaddc` writes and the sum it keeps come from the sum of R127. -/
theorem addc_eq (a b c : Dword) : addc a b c = (a.extractLsb' 0 32).toNat + (b.extractLsb' 0 32).toNat + (c.extractLsb' 0 32).toNat % 2 := by
  simp [addc, BitVec.extractLsb'_toNat]

end IntOp

end Sys2Proof
end

section
/-! The statements about class INT: each instruction is a value in each lane (`runValue_completes`), which the laws above describe. -/

namespace Sys2Proof.Machine

/-- Every instruction of Table 5-4 is a value in each lane, which is the exact result saturated or wrapped. -/
theorem exec_exactArith {i : Instr} {ty : IntTy} {sat : Bool} {d : Dst} {exact : Issue → Nat → Nat → Int}
    (h : exactArith i = some (ty, sat, d, exact)) :
    ∃ f, (∀ s, exec i s = runValue i d f s) ∧ ∀ x j, ty.Result sat (exact x j) (f x j) := by
  unfold exactArith at h
  split at h <;> cases h
  case h_1 => -- iadd
    exact ⟨_, fun _ => rfl, fun x j => ty.result_map2 sat (· + ·) _ _⟩
  case h_2 => -- isub
    exact ⟨_, fun _ => rfl, fun x j => ty.result_map2 sat (· - ·) _ _⟩
  case h_3 => -- imul, the low half
    exact ⟨_, fun _ => rfl, fun x j => IntOp.mul_low_result ty sat _ _⟩
  case h_4 => -- imul, the high half
    exact ⟨_, fun _ => rfl, fun x j => IntOp.mul_high_result ty _ _ _⟩
  case h_5 => -- imad
    exact ⟨_, fun _ => rfl, fun x j => IntOp.mad_result ty sat _ _ _⟩
  case h_6 => -- imin
    exact ⟨_, fun _ => rfl, fun x j => IntOp.min_result ty _ _⟩
  case h_7 => -- imax
    exact ⟨_, fun _ => rfl, fun x j => IntOp.max_result ty _ _⟩
  case h_8 => -- iabs
    exact ⟨_, fun _ => rfl, fun x j => ty.result_map1 sat (fun z => (z.natAbs : Int)) _⟩
  case h_9 => -- and
    exact ⟨_, fun _ => rfl, fun x j => ty.result_of_elem _ _ fun e _ => ty.elem_and _ _ e⟩
  case h_10 => -- or
    exact ⟨_, fun _ => rfl, fun x j => ty.result_of_elem _ _ fun e _ => ty.elem_or _ _ e⟩
  case h_11 => -- xor
    exact ⟨_, fun _ => rfl, fun x j => ty.result_of_elem _ _ fun e _ => ty.elem_xor _ _ e⟩
  case h_12 => -- andn
    exact ⟨_, fun _ => rfl, fun x j => ty.result_of_elem _ _ fun e he => ty.elem_andn _ _ e he⟩

/-- Settles O1: every instruction of Table 5-4 gives each lane a value whose elements are the exact results, fitted to the type. -/
theorem integerArithmetic : Obligations.IntegerArithmetic := by
  intro i ty sat d exact s x t he ho
  obtain ⟨f, hx, hf⟩ := exec_exactArith he
  exact ⟨f x, fun j _ => hf x j, runValue_completes ho (hx s)⟩

/-- Settles O3: the five operations bit by bit, each the only effect of its instruction. -/
theorem integerFieldsAndCounts : Obligations.IntegerFieldsAndCounts := by
  intro h ty d a b c s x t
  refine ⟨fun ho => ⟨_, fun j _ i hi => ?_, runValue_completes ho rfl⟩, fun ho => ⟨_, fun j _ i hi => ?_, runValue_completes ho rfl⟩,
    fun ho => ⟨_, fun j _ => ?_, runValue_completes ho rfl⟩, fun ho => ⟨_, fun j _ => ?_, runValue_completes ho rfl⟩,
    fun ho => ⟨_, fun j _ i hi => ?_, runValue_completes ho rfl⟩⟩
  · exact IntOp.bfe_bit ty _ _ hi
  · exact IntOp.bfi_bit ty _ _ _ hi
  · exact IntOp.popc_count ty _
  · exact IntOp.clz_spec ty _
  · exact IntOp.brev_bit ty _ hi

/-- Each is a value in each lane, which the laws of its operation describe (R124 to R126). -/
theorem compareSelectMoveLea : CompareSelectMoveLea := by
  intro h ty d a b c s x t
  refine ⟨fun cond ho => ⟨_, fun j _ => ?_, runValue_completes ho rfl⟩, fun ho => runValue_completes ho rfl, fun ho => runValue_completes ho rfl,
    fun imm ho => runValue_completes ho rfl, fun sh ho => ⟨_, fun j _ => ?_, runValue_completes ho rfl⟩⟩
  · rw [← IntOp.compare_iff]
    cases hc : IntOp.compare cond ty (x.int ty a j) (x.int ty b j) with
    | true => exact .inl ⟨rfl, rfl⟩
    | false => exact .inr ⟨Bool.false_ne_true, rfl⟩
  · exact IntOp.lea_toNat ty sh _ _

/-- What `iaddc` does to its group: the sums, and then the carries (R127). -/
def Issue.sumAndCarry (x : Issue) (co : BitVec 3) (d : Dst) (a b c : Src) (g : Group) : Group :=
  (g.put d (x.act.map fun j => (j, BitVec.ofNat 64 (carrySum x a b c j % 2 ^ 32)))).onLanes (x.act.map fun j => (j, carrySum x a b c j))
    fun n l => l.setPred co (decide (2 ^ 32 ≤ n))

/-- The sum is received as any value is, and then the carry goes to the predicate of the lanes of act alone (R127). -/
theorem addWithCarry : AddWithCarry := by
  intro h co d a b c s x t ho
  have hn := (opening_lanes ho).2.1
  have hsum : ∀ j, IntOp.addc (x.int32 a j) (x.int32 b j) (x.int32 c j) = carrySum x a b c j := fun j => IntOp.addc_eq _ _ _
  refine completes_of_group (f := x.sumAndCarry co d a b c) ho rfl ?_ (fun g => put_gix d _ g) fun g _ => ?_
  · simp only [hsum, List.map_map, Function.comp_def]; rfl
  · refine ⟨_, ?_, Group.onLanes_eq _ _ _, Group.onLanes_length _ _ _, fun j l hl => ?_⟩
    · have hr := received_put x hn d (fun j => BitVec.ofNat 64 (carrySum x a b c j % 2 ^ 32)) 0 g
      rwa [orFlags_zero] at hr
    · rw [Issue.sumAndCarry, Group.onLanes_pairs _ x.act _ _ hn, hl]; rfl

/-- Settles O4: the moves and sums are the only effects of their instructions. -/
theorem comparesMovesAndCarries : Obligations.ComparesMovesAndCarries := ⟨compareSelectMoveLea, addWithCarry⟩

end Sys2Proof.Machine
end

section
/-! SUPPORT. The floating-point arithmetic: what rounding makes of a magnitude (R87), how encodings read, and the operations case by case
(R86, R91, R130 to R134). A rounded magnitude is a rounded quotient by its last place, and no finite number lies in the gap between two last places. -/

namespace Sys2Proof

theorem FpFmt.infBits_lt (f : FpFmt) : f.infBits < f.signBit := by cases f <;> decide

/-- The exponent of the largest numbers. -/
def FpFmt.qmax (f : FpFmt) : Int := f.qmin + 2 ^ f.ebits - 3

/-- NX among the flags of a rounding. -/
theorem FpFlags.nx_rounding : ∀ inexact tiny : Bool, (when inexact nx ||| when (tiny && inexact) uf).getLsbD 0 = inexact := by decide

namespace Rounding

/-! ### Rounding a quotient -/

/-- Whether the quotient of `v` by `Q` is rounded away from zero, by its remainder (R87). -/
def quotUp (rc : Rnd) (neg : Bool) (v Q : Nat) : Bool :=
  match rc with
  | .rtz => false
  | .rpi => v % Q != 0 && !neg
  | .rmi => v % Q != 0 && neg
  | .rne => decide (Q < 2 * (v % Q)) || (2 * (v % Q) == Q && v / Q % 2 == 1)

/-- The quotient of `v` by `Q`, rounded. -/
def roundQuot (rc : Rnd) (neg : Bool) (v Q : Nat) : Nat := v / Q + if quotUp rc neg v Q then 1 else 0

theorem quotUp_mul_right (rc : Rnd) (neg : Bool) (v Q : Nat) {c : Nat} (hc : 0 < c) : quotUp rc neg (v * c) (Q * c) = quotUp rc neg v Q := by
  have hne : (v % Q * c != 0) = (v % Q != 0) := by simp [bne, hc.ne']
  cases rc with
  | rtz => rfl
  | rpi => simp only [quotUp, Nat.mul_mod_mul_right, hne]
  | rmi => simp only [quotUp, Nat.mul_mod_mul_right, hne]
  | rne =>
    have heq : (2 * (v % Q) * c == Q * c) = (2 * (v % Q) == Q) := by rw [Bool.eq_iff_iff]; simp [hc.ne']
    simp only [quotUp, Nat.mul_mod_mul_right, Nat.mul_div_mul_right _ _ hc, ← mul_assoc, heq, Nat.mul_lt_mul_right hc]

/-- A quotient without remainder is not rounded. -/
theorem quotUp_of_dvd (rc : Rnd) (neg : Bool) (v : Nat) {Q : Nat} (hQ : 0 < Q) (h : v % Q = 0) : quotUp rc neg v Q = false := by
  cases rc <;> simp [quotUp, h, hQ.ne]

/-- The model's own test for rounding up, for bits that are cut off at a power of 2. -/
theorem roundsUp_eq_quotUp (rc : Rnd) (neg : Bool) (m : Nat) {sh : Nat} (hs : 0 < sh) :
    roundsUp rc neg (m / 2 ^ sh) (m % 2 ^ sh) sh false = quotUp rc neg m (2 ^ sh) := by
  have hne : (sh != 0) = true := by simpa using hs.ne'
  cases rc <;> simp [roundsUp, quotUp, hne]

/-- A quotient below a half is rounded to zero, but for a direction away from zero. -/
theorem quotUp_of_lt (rc : Rnd) (neg : Bool) {m Q : Nat} (h : 2 * m < Q) :
    quotUp rc neg m Q = (m != 0 && ((rc == .rpi && !neg) || (rc == .rmi && neg))) := by
  have hm : m % Q = m := Nat.mod_eq_of_lt (by omega)
  have hlt : ¬ Q < 2 * m := by omega
  have hne : (2 * m == Q) = false := beq_false_of_ne h.ne
  cases rc <;> simp [quotUp, hm, hlt, hne, beq_eq_decide]

/-- Cutting a magnitude at `2 ^ q` rounds its quotient by `2 ^ q`, both as multiples of `2 ^ lo`; the result is inexact where there is a remainder. -/
theorem cutTo_eq (rc : Rnd) (neg : Bool) (m : Nat) {e q lo : Int} (he : lo ≤ e) (hq : lo ≤ q) :
    cutTo rc neg m e q false = (roundQuot rc neg (scaled m e lo) (scaled 1 q lo), scaled m e lo % scaled 1 q lo != 0) := by
  unfold cutTo
  split
  next hqe =>
    have hv : scaled m e lo = m * 2 ^ (e - q).toNat * scaled 1 q lo := by
      rw [scaled, scaled, one_mul, mul_assoc, ← pow_add]; congr 2; omega
    have hQ : 0 < scaled 1 q lo := by rw [scaled]; positivity
    have hup : quotUp rc neg (scaled m e lo) (scaled 1 q lo) = false := quotUp_of_dvd _ _ _ hQ (by rw [hv, Nat.mul_mod_left])
    have hro : roundsUp rc neg 0 0 0 false = false := by cases rc <;> rfl
    rw [roundQuot, hup, hro, hv, Nat.mul_div_cancel _ hQ, Nat.mul_mod_left]
    rfl
  next hqe =>
    have hc : 0 < 2 ^ (e - lo).toNat := by positivity
    have hQ : scaled 1 q lo = 2 ^ (q - e).toNat * 2 ^ (e - lo).toNat := by
      rw [scaled, one_mul, ← pow_add]; congr 1; omega
    have hr : (m % 2 ^ (q - e).toNat * 2 ^ (e - lo).toNat != 0) = (m % 2 ^ (q - e).toNat != 0) := by simp [bne]
    rw [roundQuot, hQ, scaled, quotUp_mul_right _ _ _ _ hc, Nat.mul_div_mul_right _ _ hc, Nat.mul_mod_mul_right, hr]
    simp only [Bool.or_false]
    split
    next hsmall =>
      have hlt : 2 * m < 2 ^ (q - e).toNat :=
        calc 2 * m < 2 * 2 ^ (m.log2 + 1) := by have := @Nat.lt_log2_self m; omega
          _ = 2 ^ (m.log2 + 2) := by ring
          _ ≤ 2 ^ (q - e).toNat := Nat.pow_le_pow_right (by decide) hsmall.le
      rw [quotUp_of_lt _ _ hlt, Nat.mod_eq_of_lt (by omega), Nat.div_eq_of_lt (by omega), Nat.zero_add]
    next => rw [roundsUp_eq_quotUp _ _ _ (by omega)]

/-! ### The best of the values beside a quotient -/

/-- `y` is the best of `y` and `z` for `v`, as the rounding code says (R87); `even` says that `y` takes a tie. -/
def Best (rc : Rnd) (neg : Bool) (v y z : Nat) (even : Prop) : Prop :=
  if rc = .rne then apart y v ≤ apart z v ∧ (apart y v = apart z v → y = z ∨ even)
  else if rc = (if neg then .rmi else .rpi) then v ≤ y ∧ (v ≤ z → y ≤ z)
  else y ≤ v ∧ (z ≤ v → z ≤ y)

/-- Whether a magnitude may be rounded up: to nearest, or in the direction away from zero. -/
def Outward (rc : Rnd) (neg : Bool) : Prop := rc = .rne ∨ rc = if neg then .rmi else .rpi

theorem quotUp_of_not_outward {rc : Rnd} {neg : Bool} (h : ¬ Outward rc neg) (v Q : Nat) : quotUp rc neg v Q = false := by
  cases rc <;> cases neg <;> simp_all [Outward, quotUp]

theorem quotUp_of_directed {rc : Rnd} {neg : Bool} (h : rc = if neg then .rmi else .rpi) (v Q : Nat) : quotUp rc neg v Q = (v % Q != 0) := by
  subst h
  cases neg <;> simp [quotUp]

/-- A rounded quotient is the best of the multiples of the divisor, and of all that lies outside the gap in which the dividend lies. -/
theorem best_roundQuot (rc : Rnd) (neg : Bool) {v Q z : Nat} (hQ : 0 < Q) (hz : z ≤ v / Q * Q ∨ (v / Q + 1) * Q ≤ z) :
    Best rc neg v (roundQuot rc neg v Q * Q) z (roundQuot rc neg v Q % 2 = 0) := by
  have hv : v / Q * Q + v % Q = v := Nat.div_add_mod' v Q
  have hr : v % Q < Q := Nat.mod_lt _ hQ
  rw [Nat.succ_mul] at hz
  by_cases ho : Outward rc neg
  · rcases ho with rfl | hd
    · have hup : quotUp .rne neg v Q = true ↔ Q < 2 * (v % Q) ∨ 2 * (v % Q) = Q ∧ v / Q % 2 = 1 := by simp [quotUp]
      rw [Best, if_pos rfl, roundQuot, apart, apart]
      cases hu : quotUp .rne neg v Q with
      | true =>
        have h := hup.1 hu
        rw [if_pos rfl, Nat.succ_mul]
        omega
      | false =>
        have h := mt hup.2 (by simp [hu])
        rw [if_neg Bool.false_ne_true, Nat.add_zero]
        omega
    · have hne : rc ≠ .rne := by subst hd; cases neg <;> decide
      rw [Best, if_neg hne, if_pos hd, roundQuot, quotUp_of_directed hd]
      by_cases h0 : v % Q = 0
      · simp only [h0, bne_self_eq_false, Bool.false_eq_true, if_false, Nat.add_zero]
        omega
      · rw [if_pos (by simpa using h0), Nat.succ_mul]
        omega
  · obtain ⟨h1, h2⟩ := not_or.1 ho
    rw [Best, if_neg h1, if_neg h2, roundQuot, quotUp_of_not_outward ho, if_neg Bool.false_ne_true, Nat.add_zero]
    omega

theorem Best.mono {rc : Rnd} {n : Bool} {v y z : Nat} {p q : Prop} (h : Best rc n v y z p) (hpq : p → q) : Best rc n v y z q := by
  unfold Best at *
  split at h
  next hr => rw [if_pos hr]; exact ⟨h.1, fun ht => (h.2 ht).imp_right hpq⟩
  next hr => rw [if_neg hr]; exact h

end Rounding

namespace Fp

/-! ### Encodings of finite values -/

/-- The sign bit of a code with a sign over it. -/
theorem sign_code {f : FpFmt} {c : Nat} (hc : c < f.signBit) (n : Bool) : (c + bit n f.signBit) / f.signBit % 2 = if n then 1 else 0 := by
  have hpos : 0 < f.signBit := by omega
  cases n <;> simp [bit, Nat.add_div_right _ hpos, Nat.div_eq_of_lt hc]

/-- A code below the sign bit, with a sign over it, read by its exponent and its fraction. -/
theorem read_code (f : FpFmt) (n : Bool) {c : Nat} (hc : c < f.signBit) :
    read f false (c + bit n f.signBit) =
      if c / 2 ^ f.fbits = 2 ^ f.ebits - 1 then (if c % 2 ^ f.fbits = 0 then .inf n else .nan (c % 2 ^ f.fbits < 2 ^ (f.fbits - 1)))
      else if c / 2 ^ f.fbits = 0 then .fin n (c % 2 ^ f.fbits) f.qmin
      else .fin n (2 ^ f.fbits + c % 2 ^ f.fbits) (f.qmin + (c / 2 ^ f.fbits : Nat) - 1) := by
  have hs : f.signBit = 2 ^ f.ebits * 2 ^ f.fbits := by cases f <;> rfl
  have hneg : ((c + bit n f.signBit) / f.signBit % 2 == 1) = n := by
    rw [sign_code hc]
    cases n <;> rfl
  have hex : (c + bit n f.signBit) / 2 ^ f.fbits % 2 ^ f.ebits = c / 2 ^ f.fbits := by
    have hlt : c / 2 ^ f.fbits < 2 ^ f.ebits := (Nat.div_lt_iff_lt_mul (by positivity)).2 (hs ▸ hc)
    cases n <;> simp [bit, hs, Nat.add_mul_div_right, Nat.mod_eq_of_lt hlt]
  have hfr : (c + bit n f.signBit) % 2 ^ f.fbits = c % 2 ^ f.fbits := by
    cases n <;> simp [bit, hs]
  simp only [read, hneg, hex, hfr, beq_iff_eq, Bool.false_eq_true, if_false]

/-- The finite numbers of a format (R85). -/
theorem read_fin_bounds {f : FpFmt} {b : Nat} {k : Bool} {m : Nat} {e : Int} (h : read f false b = .fin k m e) :
    m < 2 * 2 ^ f.fbits ∧ f.qmin ≤ e ∧ e ≤ f.qmax := by
  have hfr : b % 2 ^ f.fbits < 2 ^ f.fbits := Nat.mod_lt _ (by positivity)
  have hex : b / 2 ^ f.fbits % 2 ^ f.ebits < 2 ^ f.ebits := Nat.mod_lt _ (by positivity)
  have heb : 4 ≤ 2 ^ f.ebits := by cases f <;> decide
  have hqm : f.qmax = f.qmin + (2 ^ f.ebits : Nat) - 3 := by simp [FpFmt.qmax]
  unfold read at h
  simp only [beq_iff_eq, Bool.false_eq_true, if_false] at h
  split at h
  · split at h <;> cases h
  · split at h <;> cases h <;> omega

/-- A code made of an exponent and a significand reads as their value; a significand of one bit too many is the next exponent's least. -/
theorem read_exp_significand (f : FpFmt) (n : Bool) {k r : Nat} (hk : k = 0 ∨ 2 ^ f.fbits ≤ r) (hr : r ≤ 2 * 2 ^ f.fbits)
    (hfit : k * 2 ^ f.fbits + r < f.infBits) :
    ∃ m e, read f false (k * 2 ^ f.fbits + r + bit n f.signBit) = .fin n m e ∧
      (m = r ∧ e = f.qmin + k ∨ r = 2 * 2 ^ f.fbits ∧ m = 2 ^ f.fbits ∧ e = f.qmin + k + 1) := by
  have hp : 0 < 2 ^ f.fbits := by positivity
  have hinf : (k * 2 ^ f.fbits + r) / 2 ^ f.fbits ≠ 2 ^ f.ebits - 1 := ((Nat.div_lt_iff_lt_mul hp).2 hfit).ne
  rw [read_code f n (hfit.trans f.infBits_lt), if_neg hinf]
  by_cases h1 : r < 2 ^ f.fbits
  · obtain rfl : k = 0 := hk.resolve_right (by omega)
    have hd : (0 * 2 ^ f.fbits + r) / 2 ^ f.fbits = 0 := by simp [Nat.div_eq_of_lt h1]
    refine ⟨_, _, if_pos hd, .inl ⟨by simp [Nat.mod_eq_of_lt h1], by simp⟩⟩
  · obtain ⟨r', rfl⟩ : ∃ r', r = 2 ^ f.fbits + r' := ⟨r - 2 ^ f.fbits, by omega⟩
    by_cases h2 : r' < 2 ^ f.fbits
    · have hd : (k * 2 ^ f.fbits + (2 ^ f.fbits + r')) / 2 ^ f.fbits = k + 1 := by
        rw [← Nat.add_assoc, ← Nat.succ_mul, Nat.mul_comm, Nat.mul_add_div hp, Nat.div_eq_of_lt h2]
      have hm : (k * 2 ^ f.fbits + (2 ^ f.fbits + r')) % 2 ^ f.fbits = r' := by
        rw [← Nat.add_assoc, ← Nat.succ_mul, Nat.mul_add_mod_of_lt h2]
      rw [hd, hm, if_neg (by omega)]
      exact ⟨_, _, rfl, .inl ⟨rfl, by push_cast; ring⟩⟩
    · obtain rfl : r' = 2 ^ f.fbits := by omega
      have hc : k * 2 ^ f.fbits + (2 ^ f.fbits + 2 ^ f.fbits) = (k + 2) * 2 ^ f.fbits := by ring
      rw [hc, Nat.mul_div_cancel _ hp, Nat.mul_mod_left, if_neg (by omega)]
      exact ⟨_, _, rfl, .inr ⟨by ring, by ring, by push_cast; ring⟩⟩

/-- An infinity and the largest number of each sign. -/
theorem read_inf (f : FpFmt) (n : Bool) : read f false (f.infBits + bit n f.signBit) = .inf n := by cases f <;> cases n <;> decide
theorem read_maxFin (f : FpFmt) (n : Bool) : read f false (f.infBits - 1 + bit n f.signBit) = .fin n (2 * 2 ^ f.fbits - 1) f.qmax := by
  cases f <;> cases n <;> decide

end Fp

namespace Rounding

/-! ### Magnitudes on a common scale -/

theorem scaled_eq (m : Nat) (e lo : Int) : scaled m e lo = m * scaled 1 e lo := by simp [scaled]

theorem scaled_one_pos (e lo : Int) : 0 < scaled 1 e lo := by rw [scaled]; positivity

theorem scaled_one_le {q e lo : Int} (h : q ≤ e) : scaled 1 q lo ≤ scaled 1 e lo := by
  rw [scaled, scaled, one_mul, one_mul]
  exact Nat.pow_le_pow_right (by decide) (by omega)

theorem scaled_one_shift {q lo : Int} (h : lo ≤ q) (d : Nat) : scaled 1 (q + d) lo = 2 ^ d * scaled 1 q lo := by
  rw [scaled, scaled, one_mul, one_mul, ← pow_add]
  congr 1
  omega

theorem scaled_one_succ {q lo : Int} (h : lo ≤ q) : scaled 1 (q + 1) lo = 2 * scaled 1 q lo := scaled_one_shift h 1

/-- No number of the format lies between neighbouring multiples of `2 ^ q` whose significands have all their bits, or that are multiples of the smallest subnormal. -/
theorem finite_outside_gap {p mz K : Nat} {ez q qmin lo : Int} (hm : mz < 2 * p) (hlo : lo ≤ qmin) (hez : qmin ≤ ez) (hq : qmin ≤ q)
    (hK : q = qmin ∨ p ≤ K) : scaled mz ez lo ≤ K * scaled 1 q lo ∨ (K + 1) * scaled 1 q lo ≤ scaled mz ez lo := by
  rw [scaled_eq mz]
  by_cases h : q ≤ ez
  · obtain ⟨d, rfl⟩ : ∃ d : Nat, ez = q + d := ⟨(ez - q).toNat, by omega⟩
    rw [scaled_one_shift (by omega), ← mul_assoc]
    rcases Nat.lt_or_ge K (mz * 2 ^ d) with hlt | hge
    · exact .inr (Nat.mul_le_mul_right _ hlt)
    · exact .inl (Nat.mul_le_mul_right _ hge)
  · have hp : p ≤ K := hK.resolve_left (by omega)
    left
    calc mz * scaled 1 ez lo ≤ p * (2 * scaled 1 ez lo) := by rw [← mul_assoc, mul_comm p]; exact Nat.mul_le_mul_right _ hm.le
      _ = p * scaled 1 (ez + 1) lo := by rw [scaled_one_succ (by omega)]
      _ ≤ K * scaled 1 q lo := Nat.mul_le_mul hp (scaled_one_le (by omega))

/-! ### The one rounding (R87) -/

/-- The exponent of the last bit that is kept. -/
def lastExp (f : FpFmt) (m : Nat) (e : Int) : Int := max (e + m.log2 - f.fbits) f.qmin

/-- The magnitude `m * 2 ^ e` as a multiple of the smallest step in which it and the format's numbers can be counted. -/
def magnitude (f : FpFmt) (m : Nat) (e : Int) : Nat := scaled m e (min e f.qmin)

/-- The last place that is kept, as a multiple of the same step. -/
def lastPlace (f : FpFmt) (m : Nat) (e : Int) : Nat := scaled 1 (lastExp f m e) (min e f.qmin)

theorem lastPlace_pos (f : FpFmt) (m : Nat) (e : Int) : 0 < lastPlace f m e := scaled_one_pos _ _

theorem magnitude_eq (f : FpFmt) (m : Nat) (e : Int) : magnitude f m e = m * scaled 1 e (min e f.qmin) := scaled_eq m e _

theorem two_pow_mul_lastPlace (f : FpFmt) (m : Nat) (e : Int) (d : Nat) : 2 ^ d * lastPlace f m e = scaled 1 (lastExp f m e + d) (min e f.qmin) :=
  (scaled_one_shift ((min_le_right _ _).trans (le_max_right _ _)) d).symm

/-- The kept bits of a magnitude, rounded. -/
def keptBits (f : FpFmt) (rc : Rnd) (n : Bool) (m : Nat) (e : Int) : Nat :=
  roundQuot rc n (magnitude f m e) (lastPlace f m e)

/-- Whether bits are cut off. -/
def inexact (f : FpFmt) (m : Nat) (e : Int) : Bool := magnitude f m e % lastPlace f m e != 0

/-- The code of a rounded magnitude, without its sign. -/
def roundedCode (f : FpFmt) (rc : Rnd) (n : Bool) (m : Nat) (e : Int) : Nat :=
  (lastExp f m e - f.qmin).toNat * 2 ^ f.fbits + keptBits f rc n m e

/-- The overflowed results (Table 4-2): an infinity where the rounding may go outward, and else the largest number. -/
theorem overflowed_outward {f : FpFmt} {rc : Rnd} {n : Bool} (h : Outward rc n) : overflowed f rc n = f.inf n := by
  rcases h with rfl | rfl
  · rfl
  · cases n <;> rfl

theorem overflowed_inward {f : FpFmt} {rc : Rnd} {n : Bool} (h : ¬ Outward rc n) : overflowed f rc n = f.maxFin n := by
  cases rc <;> cases n <;> simp_all [Outward, overflowed]

theorem overflowed_code (f : FpFmt) (rc : Rnd) (n : Bool) : ∃ c, c < f.signBit ∧ overflowed f rc n = c + bit n f.signBit := by
  have h := f.infBits_lt
  by_cases ho : Outward rc n
  · exact ⟨f.infBits, h, overflowed_outward ho⟩
  · exact ⟨f.infBits - 1, by omega, overflowed_inward ho⟩

section
variable (f : FpFmt) (rc : Rnd) (n : Bool) (m : Nat) (e : Int)

theorem cutTo_lastExp : cutTo rc n m e (lastExp f m e) false = (keptBits f rc n m e, inexact f m e) :=
  cutTo_eq rc n m (min_le_left _ _) ((min_le_right _ _).trans (le_max_right _ _))

theorem roundTo_of_overflow (z : Bool) (hm : 0 < m) (h : f.infBits ≤ roundedCode f rc n m e) :
    roundTo f rc z n m e false = ⟨overflowed f rc n, FpFlags.of ||| FpFlags.nx⟩ := by
  have hc := cutTo_lastExp f rc n m e
  unfold roundTo
  rw [if_neg (by simpa using hm.ne')]
  unfold roundedCode lastExp at *
  simp only [hc, if_pos h]

theorem roundTo_of_fits (hm : 0 < m) (h : roundedCode f rc n m e < f.infBits) :
    ∃ tiny, roundTo f rc false n m e false = ⟨roundedCode f rc n m e + bit n f.signBit,
      FpFlags.when (inexact f m e) FpFlags.nx ||| FpFlags.when (tiny && inexact f m e) FpFlags.uf⟩ := by
  have hc := cutTo_lastExp f rc n m e
  unfold roundTo
  rw [if_neg (by simpa using hm.ne')]
  unfold roundedCode lastExp at *
  simp only [hc, if_neg (Nat.not_le.2 h), Bool.false_and, Bool.false_eq_true, if_false]
  exact ⟨_, rfl⟩

/-- A magnitude lies from the power of 2 of its highest bit up to the next one. -/
theorem magnitude_bounds (hm : 0 < m) :
    scaled 1 (e + m.log2) (min e f.qmin) ≤ magnitude f m e ∧ magnitude f m e < scaled 1 (e + (m.log2 + 1 : Nat)) (min e f.qmin) := by
  rw [magnitude_eq, scaled_one_shift (min_le_left _ _), scaled_one_shift (min_le_left _ _)]
  exact ⟨Nat.mul_le_mul_right _ (Nat.log2_self_le hm.ne'), Nat.mul_lt_mul_of_pos_right Nat.lt_log2_self (scaled_one_pos _ _)⟩

/-- A magnitude is at least `2 ^ fbits` of its last places, unless the last place is the smallest subnormal; it is below `2 ^ (fbits + 1)` of them. -/
theorem quot_lastPlace_bounds (hm : 0 < m) :
    (lastExp f m e = f.qmin ∨ 2 ^ f.fbits ≤ magnitude f m e / lastPlace f m e) ∧ magnitude f m e / lastPlace f m e < 2 * 2 ^ f.fbits := by
  obtain ⟨hlow, hhigh⟩ := magnitude_bounds f m e hm
  have htop : e + m.log2 ≤ lastExp f m e + f.fbits := by
    have : e + m.log2 - f.fbits ≤ lastExp f m e := le_max_left _ _
    omega
  rw [Nat.le_div_iff_mul_le (lastPlace_pos f m e), Nat.div_lt_iff_lt_mul (lastPlace_pos f m e), ← pow_succ', two_pow_mul_lastPlace, two_pow_mul_lastPlace]
  constructor
  · by_cases h : lastExp f m e = f.qmin
    · exact .inl h
    · have hq : lastExp f m e + f.fbits = e + m.log2 := by unfold lastExp at *; omega
      exact .inr (hq ▸ hlow)
  · exact hhigh.trans_le (scaled_one_le (by push_cast; omega))

theorem keptBits_bounds (hm : 0 < m) : (lastExp f m e = f.qmin ∨ 2 ^ f.fbits ≤ keptBits f rc n m e) ∧ keptBits f rc n m e ≤ 2 * 2 ^ f.fbits := by
  obtain ⟨h1, h2⟩ := quot_lastPlace_bounds f m e hm
  unfold keptBits roundQuot
  constructor
  · exact h1.imp_right fun h => h.trans (Nat.le_add_right _ _)
  · split <;> omega

/-- Every finite number lies outside the gap of last places in which a magnitude lies. -/
theorem finite_outside_last_place (hm : 0 < m) {b : Nat} {kz : Bool} {mz : Nat} {ez : Int} (hb : Fp.read f false b = .fin kz mz ez) :
    scaled mz ez (min e f.qmin) ≤ magnitude f m e / lastPlace f m e * lastPlace f m e ∨
      (magnitude f m e / lastPlace f m e + 1) * lastPlace f m e ≤ scaled mz ez (min e f.qmin) := by
  obtain ⟨hmz, hez, -⟩ := Fp.read_fin_bounds hb
  exact finite_outside_gap hmz (min_le_right _ _) hez (le_max_right _ _) (quot_lastPlace_bounds f m e hm).1

/-- A rounded magnitude that fits reads back with its sign, as its kept bits of last places; it is even where they are. -/
theorem read_roundTo_of_fits (hm : 0 < m) (h : roundedCode f rc n m e < f.infBits) :
    ∃ m' e', Fp.read f false (roundTo f rc false n m e false).bits = .fin n m' e' ∧
      scaled m' e' (min e f.qmin) = keptBits f rc n m e * lastPlace f m e ∧ (keptBits f rc n m e % 2 = 0 → m' % 2 = 0) := by
  obtain ⟨hlow, hhigh⟩ := keptBits_bounds f rc n m e hm
  obtain ⟨tiny, hr⟩ := roundTo_of_fits f rc n m e hm h
  have hk : f.qmin + ((lastExp f m e - f.qmin).toNat : Int) = lastExp f m e := by
    have : f.qmin ≤ lastExp f m e := le_max_right _ _
    omega
  obtain ⟨m', e', hread, hval⟩ := Fp.read_exp_significand f n (k := (lastExp f m e - f.qmin).toNat) (hlow.imp_left (by omega)) hhigh h
  refine ⟨m', e', by rw [hr]; exact hread, ?_⟩
  rw [hk] at hval
  obtain ⟨rfl, rfl⟩ | ⟨hr, rfl, rfl⟩ := hval
  · exact ⟨scaled_eq _ _ _, id⟩
  · refine ⟨?_, fun _ => by cases f <;> decide⟩
    have hnext : scaled 1 (lastExp f m e + 1) (min e f.qmin) = 2 * lastPlace f m e := (two_pow_mul_lastPlace f m e 1).symm
    rw [scaled_eq, hnext, hr]
    ring

/-- A rounded magnitude that overflows is past the largest number by at least its last place. -/
theorem past_largest_le_of_overflow (hm : 0 < m) (h : f.infBits ≤ roundedCode f rc n m e) :
    2 * 2 ^ f.fbits * scaled 1 f.qmax (min e f.qmin) ≤ keptBits f rc n m e * lastPlace f m e := by
  obtain ⟨hlow, hhigh⟩ := keptBits_bounds f rc n m e hm
  have heb : 4 ≤ 2 ^ f.ebits := by cases f <;> decide
  have hqm : f.qmax = f.qmin + (2 ^ f.ebits : Nat) - 3 := by simp [FpFmt.qmax]
  have hq : f.qmin ≤ lastExp f m e := le_max_right _ _
  have hle : min e f.qmin ≤ f.qmin := min_le_right _ _
  by_cases hbig : f.qmax + 1 ≤ lastExp f m e
  · have hkept : 2 ^ f.fbits ≤ keptBits f rc n m e := hlow.resolve_left (by omega)
    calc 2 * 2 ^ f.fbits * scaled 1 f.qmax (min e f.qmin) = 2 ^ f.fbits * scaled 1 (f.qmax + 1) (min e f.qmin) := by
          rw [scaled_one_succ (by omega)]; ring
      _ ≤ _ := Nat.mul_le_mul hkept (scaled_one_le hbig)
  · have hcode : (2 ^ f.ebits - 1) * 2 ^ f.fbits ≤ (lastExp f m e - f.qmin).toNat * 2 ^ f.fbits + keptBits f rc n m e := h
    have hk : 2 ^ f.ebits - 1 ≤ (lastExp f m e - f.qmin).toNat + 2 := by
      refine Nat.le_of_mul_le_mul_right ?_ (show 0 < 2 ^ f.fbits by positivity)
      rw [Nat.add_mul]; omega
    have hkept : 2 * 2 ^ f.fbits ≤ keptBits f rc n m e := by
      have hk' : 2 ^ f.ebits - 1 = (lastExp f m e - f.qmin).toNat + 2 := by omega
      rw [hk', Nat.add_mul] at hcode; omega
    exact Nat.mul_le_mul hkept (scaled_one_le (by omega))

/-- No finite number is above the largest one. -/
theorem finite_le_largest {b : Nat} {kz : Bool} {mz : Nat} {ez lo : Int} (hb : Fp.read f false b = .fin kz mz ez) :
    scaled mz ez lo ≤ scaled (2 * 2 ^ f.fbits - 1) f.qmax lo := by
  obtain ⟨hmz, -, hez⟩ := Fp.read_fin_bounds hb
  rw [scaled_eq, scaled_eq (2 * 2 ^ f.fbits - 1)]
  exact Nat.mul_le_mul (by omega) (scaled_one_le hez)

/-- A magnitude whose rounded code overflows is above every finite number. -/
theorem finite_lt_of_overflow (hm : 0 < m) (h : f.infBits ≤ roundedCode f rc n m e) {b : Nat} {kz : Bool} {mz : Nat} {ez : Int}
    (hb : Fp.read f false b = .fin kz mz ez) : scaled mz ez (min e f.qmin) < magnitude f m e := by
  have hQ := lastPlace_pos f m e
  have hp : 0 < 2 ^ f.fbits := by positivity
  have hz : scaled mz ez (min e f.qmin) < keptBits f rc n m e * lastPlace f m e :=
    calc scaled mz ez (min e f.qmin) ≤ scaled (2 * 2 ^ f.fbits - 1) f.qmax (min e f.qmin) := finite_le_largest f hb
      _ < 2 * 2 ^ f.fbits * scaled 1 f.qmax (min e f.qmin) := by rw [scaled_eq]; exact Nat.mul_lt_mul_of_pos_right (by omega) (scaled_one_pos _ _)
      _ ≤ _ := past_largest_le_of_overflow f rc n m e hm h
  have hgap := finite_outside_last_place f m e hm hb
  have hdiv := Nat.div_add_mod' (magnitude f m e) (lastPlace f m e)
  unfold keptBits roundQuot at hz
  cases hu : quotUp rc n (magnitude f m e) (lastPlace f m e) with
  | false => rw [hu, if_neg Bool.false_ne_true, Nat.add_zero] at hz; omega
  | true =>
    rw [hu, if_pos rfl] at hz
    have hrem : magnitude f m e % lastPlace f m e ≠ 0 := fun h0 => by
      rw [quotUp_of_dvd rc n _ hQ h0] at hu; cases hu
    have := hgap.resolve_right (Nat.not_le.2 hz)
    omega

/-- A rounded magnitude equals the magnitude exactly where no bits are cut off. -/
theorem keptBits_mul_ne_iff : inexact f m e = true ↔
    keptBits f rc n m e * lastPlace f m e ≠ magnitude f m e := by
  have hQ := lastPlace_pos f m e
  unfold inexact keptBits roundQuot
  rw [bne_iff_ne, not_iff_not]
  constructor
  · intro h0
    rw [quotUp_of_dvd rc n _ hQ h0, if_neg Bool.false_ne_true, Nat.add_zero]
    exact Nat.div_mul_cancel (Nat.dvd_of_mod_eq_zero h0)
  · intro h
    rw [← h, Nat.mul_mod_left]

end

/-! ### The signs of rounded results (R131) -/

/-- A rounded result is a code with the sign of the value over it, flushed or not (R87, R88, R131). -/
theorem roundTo_code (f : FpFmt) (rc : Rnd) (z n : Bool) (m : Nat) (e : Int) (jam : Bool) :
    ∃ c, c < f.signBit ∧ (roundTo f rc z n m e jam).bits = c + bit n f.signBit := by
  have h := f.infBits_lt
  have hzero : ∃ c, c < f.signBit ∧ f.zero n = c + bit n f.signBit := ⟨0, by omega, (Nat.zero_add _).symm⟩
  unfold roundTo
  split
  · exact hzero
  · simp only
    split
    · exact overflowed_code f rc n
    next hfit =>
      split
      · exact hzero
      · exact ⟨_, (Nat.not_le.1 hfit).trans h, rfl⟩

theorem roundTo_sign (f : FpFmt) (rc : Rnd) (z n : Bool) (m : Nat) (e : Int) (jam : Bool) :
    (roundTo f rc z n m e jam).bits / f.signBit % 2 = if n then 1 else 0 := by
  obtain ⟨c, hc, hb⟩ := roundTo_code f rc z n m e jam
  rw [hb, Fp.sign_code hc]

theorem roundTo_zero (f : FpFmt) (rc : Rnd) (z n : Bool) (e : Int) (jam : Bool) : roundTo f rc z n 0 e jam = ⟨f.zero n, 0⟩ := rfl

end Rounding

namespace Fp

/-! ### Sums and products (R86, R130, R131) -/

theorem addFin_of_ne (f : FpFmt) (rc : Rnd) (z : Bool) {n m e n' m' e'} (h : signedAt n m e (min e e') + signedAt n' m' e' (min e e') ≠ 0) :
    addFin f rc z n m e n' m' e' = roundTo f rc z (decide (signedAt n m e (min e e') + signedAt n' m' e' (min e e') < 0))
      (signedAt n m e (min e e') + signedAt n' m' e' (min e e')).natAbs (min e e') false := by
  unfold addFin
  exact if_neg (by simpa using h)

theorem addFin_of_eq (f : FpFmt) (rc : Rnd) (z : Bool) {n m e n' m' e'} (h : signedAt n m e (min e e') + signedAt n' m' e' (min e e') = 0) :
    addFin f rc z n m e n' m' e' = ⟨f.zero (if m = 0 ∧ m' = 0 ∧ n = n' then n else decide (rc = .rmi)), 0⟩ := by
  unfold addFin
  simp only [h, beq_self_eq_true, if_true, beq_eq_decide, Bool.and_eq_true, decide_eq_true_eq, and_assoc]

theorem signalFlags_two (a b : Fp) : signalFlags [a, b] = if a.isSignalling || b.isSignalling then FpFlags.nv else 0 := by
  simp [signalFlags, FpFlags.when]

theorem isSignalling_of_not_nan {a : Fp} (h : a.isNan = false) : a.isSignalling = false := by
  cases a with
  | nan s => cases h
  | inf n => rfl
  | fin n m e => rfl

theorem isNan_iff {a : Fp} : a.isNan = true ↔ ∃ s, a = .nan s := by
  cases a <;> simp [isNan]

/-- A NaN operand gives the canonical NaN, and a signalling one its flag (R86). -/
theorem add_nan (f : FpFmt) (rc : Rnd) (z : Bool) {a b : Fp} (h : a.isNan = true ∨ b.isNan = true) : add f rc z a b = ⟨f.nan, signalFlags [a, b]⟩ := by
  simp only [isNan_iff] at h
  obtain ⟨s, rfl⟩ | ⟨s, rfl⟩ := h
  · rfl
  · cases a <;> rfl

theorem product_nan {a b : Fp} (h : a.isNan = true ∨ b.isNan = true) : ∃ s, product a b = some (.nan s) := by
  simp only [isNan_iff] at h
  obtain ⟨s, rfl⟩ | ⟨s, rfl⟩ := h
  · exact ⟨s, rfl⟩
  · cases a <;> exact ⟨_, rfl⟩

theorem mul_nan (f : FpFmt) (rc : Rnd) (z : Bool) {a b : Fp} (h : a.isNan = true ∨ b.isNan = true) : mul f rc z a b = ⟨f.nan, signalFlags [a, b]⟩ := by
  obtain ⟨s, hs⟩ := product_nan h
  rw [mul, hs]

theorem signedAt_zero (n : Bool) (e goal : Int) : signedAt n 0 e goal = 0 := by cases n <;> simp [signedAt]

/-! ### The order of numbers -/

theorem order_swap (a b : Fp) : order b a = -order a b := by
  cases a with
  | nan s => cases b <;> rfl
  | inf n =>
    cases b with
    | nan s => rfl
    | inf k => cases n <;> cases k <;> rfl
    | fin k m e => cases n <;> rfl
  | fin n m e =>
    cases b with
    | nan s => rfl
    | inf k => cases k <;> rfl
    | fin k m' e' => simp only [order]; rw [min_comm]; omega

theorem less_iff (a b : Fp) : less a b = true ↔ order a b < 0 ∨ order a b = 0 ∧ a.isNeg = true ∧ b.isNeg = false := by
  simp [less, and_assoc]

theorem less_asymm {a b : Fp} (h : less a b = true) : less b a = false := by
  have hs := order_swap a b
  rw [less_iff] at h
  rw [← Bool.not_eq_true, less_iff]
  rintro (h' | ⟨h', hb, -⟩)
  · omega
  · obtain h | ⟨-, -, hb'⟩ := h
    · omega
    · rw [hb] at hb'; cases hb'

theorem order_zeros (n : Bool) (e : Int) (n' : Bool) (e' : Int) : order (.fin n 0 e) (.fin n' 0 e') = 0 := by
  simp only [order, signedAt_zero, sub_zero]

/-! ### Minima and maxima (R91, R133) -/

theorem minMax_flags (f : FpFmt) (mx : Bool) (a b : Fp) : (minMax f mx a b).flags = signalFlags [a, b] := by
  unfold minMax
  simp only
  split
  · rfl
  · split
    · rfl
    · split <;> rfl

theorem minMax_one_nan (f : FpFmt) (mx : Bool) {a b : Fp} (ha : a.isNan = true) (hb : b.isNan = false) :
    (minMax f mx a b).bits = b.write f ∧ (minMax f mx b a).bits = b.write f := by
  simp [minMax, ha, hb]

theorem minMax_two_nans (f : FpFmt) (mx : Bool) {a b : Fp} (ha : a.isNan = true) (hb : b.isNan = true) : (minMax f mx a b).bits = f.nan := by
  simp [minMax, ha, hb]

theorem min_bits (f : FpFmt) {a b : Fp} (ha : a.isNan = false) (hb : b.isNan = false) :
    (minMax f false a b).bits = (if less b a = true then b else a).write f := by
  simp [minMax, ha, hb]

theorem max_bits (f : FpFmt) {a b : Fp} (ha : a.isNan = false) (hb : b.isNan = false) :
    (minMax f true a b).bits = (if less a b = true then b else a).write f := by
  simp [minMax, ha, hb]

/-- An unordered comparison (Table 5-8). -/
theorem compare_nan (cond : FCond) {a b : Fp} (h : a.isNan = true ∨ b.isNan = true) :
    compare cond a b = (cond == .ne || cond == .un,
      if a.isSignalling || b.isSignalling || cond == .lt || cond == .le || cond == .gt || cond == .ge then FpFlags.nv else 0) := by
  have hun : (a.isNan || b.isNan) = true := by simpa using h
  unfold compare
  rw [signalFlags_two, hun]
  cases cond <;> cases a.isSignalling || b.isSignalling <;> rfl

end Fp

end Sys2Proof
end

section
/-! The statement about the arithmetic of class FP, part by part. -/

namespace Sys2Proof

open Rounding

/-- R87: a rounded magnitude fits, or overflows to an infinity or to the largest number. -/
theorem correctRounding : CorrectRounding := by
  intro f rc n m e hm
  by_cases hov : f.infBits ≤ roundedCode f rc n m e
  · have hr := roundTo_of_overflow f rc n m e false hm hov
    by_cases ho : Outward rc n
    · have hread : Fp.read f false (roundTo f rc false n m e false).bits = .inf n := by
        rw [hr, overflowed_outward ho]; exact Fp.read_inf f n
      simp only [hread]
      exact ⟨trivial, by rw [hr], ho, fun b kz mz ez hb => finite_lt_of_overflow f rc n m e hm hov hb⟩
    · have hread : Fp.read f false (roundTo f rc false n m e false).bits = .fin n (2 * 2 ^ f.fbits - 1) f.qmax := by
        rw [hr, overflowed_inward ho]; exact Fp.read_maxFin f n
      have hlt := finite_lt_of_overflow f rc n m e hm hov hread
      simp only [hread]
      refine ⟨trivial, ?_, fun b kz mz ez hb => ?_⟩
      · rw [hr]; exact iff_of_true (show (FpFlags.of ||| FpFlags.nx).getLsbD 0 = true by decide) hlt.ne
      · obtain ⟨h1, h2⟩ := not_or.1 ho
        rw [if_neg h1, if_neg h2]
        exact ⟨hlt.le, fun _ => finite_le_largest f hb⟩
  · obtain ⟨m', e', hread, hval, heven⟩ := read_roundTo_of_fits f rc n m e hm (Nat.not_le.1 hov)
    obtain ⟨tiny, hr⟩ := roundTo_of_fits f rc n m e hm (Nat.not_le.1 hov)
    simp only [hread]
    refine ⟨trivial, ?_, fun b kz mz ez hb => ?_⟩
    · rw [hr, hval, FpFlags.nx_rounding]
      exact keptBits_mul_ne_iff f rc n m e
    · rw [hval]
      exact (best_roundQuot rc n (scaled_one_pos _ _) (finite_outside_last_place f m e hm hb)).mono heven

/-- R130: each operation is the rounding of its exact result, and without a NaN `ffma` adds no flag of its own. -/
theorem roundedOnce : RoundedOnce := by
  refine ⟨fun f rc z n m e n' m' e' h => Fp.addFin_of_ne f rc z h, fun f rc z n m e n' m' e' => rfl, fun f rc z n m e n' m' e' c hc => ?_⟩
  have hflags : Fp.signalFlags [.fin n m e, .fin n' m' e', c] = 0 := by
    have hs : [.fin n m e, .fin n' m' e', c].any Fp.isSignalling = c.isSignalling := Bool.or_false _
    rw [Fp.signalFlags, hs, Fp.isSignalling_of_not_nan hc]
    rfl
  show (⟨_, _ ||| Fp.signalFlags [.fin n m e, .fin n' m' e', c]⟩ : FRes) = _
  simp [hflags]

/-- R131: an exact zero has its sign by rule, and every other result that of the value that is rounded. -/
theorem signsOfZeros : SignsOfZeros := by
  refine ⟨fun f rc z n m e n' m' e' h => Fp.addFin_of_eq f rc z h, fun f rc z n m e n' m' e' h => ?_, fun f rc z n m e n' m' e' => ?_,
    fun f rc z n m e => roundTo_sign f rc z n m e false⟩
  · show roundTo f rc z (n != n') (m * m') (e + e') false = _
    rw [Nat.mul_eq_zero.2 h, roundTo_zero]
  · exact roundTo_sign f rc z (n != n') (m * m') (e + e') false

/-- R86: the NaNs come through the sum and the product; the invalid operations are the model's own cases. -/
theorem invalidOperations : InvalidOperations := by
  refine ⟨fun f rc z a b h => ?_, fun f rc z a b h => ?_, fun f rc z n => ?_, fun f rc z n k e => ⟨rfl, rfl⟩, fun f rc z n k e c => rfl, fun f rc z a b c h => ?_⟩
  · rw [Fp.add_nan f rc z h, Fp.signalFlags_two]
  · rw [Fp.mul_nan f rc z h, Fp.signalFlags_two]
  · cases n <;> rfl
  · obtain ⟨s, hs⟩ := Fp.product_nan (b := b) (.inl h)
    have hadd := Fp.add_nan f rc z (a := .nan s) (b := c) (.inl rfl)
    simp only [Fp.fma, hs, hadd]

/-- R133, R134: minima and maxima follow the order of numbers, of which one direction alone can hold. -/
theorem minMaxAndUnordered : MinMaxAndUnordered := by
  refine ⟨fun f mx a b => Fp.minMax_one_nan f mx, fun f mx a b => Fp.minMax_two_nans f mx, fun f a b ha hb h => ?_, fun e e' => ?_, fun f mx a b => ?_,
    fun cond a b => Fp.compare_nan cond, fun n e n' e' => ?_⟩
  · have h' := Fp.less_asymm h
    simp [Fp.min_bits, Fp.max_bits, ha, hb, h, h']
  · simp [Fp.less, Fp.order_zeros, Fp.isNeg]
  · rw [Fp.minMax_flags, Fp.signalFlags_two]
  · simp [Fp.compare, Fp.order_zeros, Fp.isNan]

/-- Settles O8: a result is rounded once, as R87 says; the signs of zeros, the invalid operations, minima and comparisons follow case by case. -/
theorem floatArithmetic : Obligations.FloatArithmetic := ⟨correctRounding, roundedOnce, signsOfZeros, invalidOperations, minMaxAndUnordered⟩

end Sys2Proof
end

section
/-! Rejoin (R37, R175, R176): `enrol` is a change of one mask, bit by bit, and `join` parks lanes of its group and then releases the mask if that has become due. -/

namespace Sys2Proof.Machine

/-! ### Masks of lanes -/

/-- Setting one bit after another leaves every bit that was set. -/
theorem getLsbD_foldl_laneMask (js : List Nat) (m : Dword) {j : Nat} (hj : j < 64) :
    (js.foldl (fun m i => m ||| (1#64 <<< i)) m).getLsbD j = (m.getLsbD j || decide (j ∈ js)) := by
  induction js generalizing m with
  | nil => simp
  | cons i rest ih =>
    have hbit : (1#64 <<< i).getLsbD j = decide (j = i) := by
      rw [BitVec.getLsbD_shiftLeft, BitVec.getLsbD_one, Bool.eq_iff_iff]
      simp only [Bool.and_eq_true, Bool.not_eq_true', decide_eq_true_eq, decide_eq_false_iff_not]
      omega
    rw [List.foldl_cons, ih, BitVec.getLsbD_or, hbit, Bool.or_assoc, ← Bool.decide_or]
    simp only [List.mem_cons]

/-- A mask of lanes holds the bits of those lanes. -/
@[simp] theorem getLsbD_laneMask (js : List Nat) {j : Nat} (hj : j < 64) : (laneMask js).getLsbD j = decide (j ∈ js) := by
  rw [laneMask, getLsbD_foldl_laneMask js 0 hj, show (0 : Dword).getLsbD j = false from BitVec.getLsbD_zero, Bool.false_or]

namespace Group

/-- Set the bits of lanes in one rejoin mask (R175). -/
def enrol (g : Group) (m : Nat) (js : List Nat) : Group := { g with j := Cells.set g.j m (Cells.get g.j m ||| laneMask js) }

/-- The mask named gains the lanes; a bit already set stays set (R175). -/
theorem enrol_getLsbD {g : Group} (hw : Cells.wf g.j = true) (m : Nat) (js : List Nat) {j : Nat} (hj : j < 64) :
    (Cells.get (g.enrol m js).j m).getLsbD j = ((Cells.get g.j m).getLsbD j || decide (j ∈ js)) := by
  rw [enrol, Cells.get_set hw, if_pos rfl, BitVec.getLsbD_or, getLsbD_laneMask js hj]

theorem enrol_get_other {g : Group} (hw : Cells.wf g.j = true) (m : Nat) (js : List Nat) {n : Nat} (hn : n ≠ m) :
    Cells.get (g.enrol m js).j n = Cells.get g.j n := by
  rw [enrol, Cells.get_set hw, if_neg hn]

/-! ### Releases -/

theorem release_of_ready {g : Group} {m : Nat} (h : g.joinReady m = true) :
    g.release m = { g with j := Cells.set g.j m 0, lanes := g.lanes.map (Lane.leaveJoin m) } := if_pos h

theorem release_of_not_ready {g : Group} {m : Nat} (h : g.joinReady m = false) : g.release m = g := if_neg (by simp [h])

@[simp] theorem release_gix (g : Group) (m : Nat) : (g.release m).gix = g.gix := by
  unfold release
  split <;> rfl

/-- Only the lanes of a group that changes its lanes. -/
theorem eachLane_eq (g : Group) (js : List Nat) (f : Lane → Lane) : g.eachLane js f = { g with lanes := (g.eachLane js f).lanes } := rfl

end Group

/-- An instruction whose own effect is a change of its group, which deals with the lanes of `stay`, completes in the state that this change gives. -/
theorem completesTo_of_group {i : Instr} {s : State} {x : Issue} {t : State} (h : opening i s = some (x, t))
    {body : Issue → State → Res} (he : exec i s = run i body s) {f : Group → Group} {stay : List Nat}
    (hb : body x t = { s := t.modIssue x f, stay := stay }) : CompletesTo i s x stay (fun _ => x.next) (t.modIssue x f) := by
  obtain ⟨u, hu, hs⟩ := run_settles h hb rfl rfl rfl rfl
  exact ⟨u, he.trans hu, hs, fun a => by rw [Settles_mem hs]⟩

/-- The lanes of act that park at a `join`: those enrolled in its mask (R176). -/
def Issue.enrolled (x : Issue) (m : Nat) : List Nat := x.act.filter fun j => (Cells.get x.g.j m).getLsbD j

/-- The enrolled lanes of act parked at the join, each with the successor it goes on to. -/
def Issue.parkEnrolled (x : Issue) (m : Nat) (g : Group) : Group := g.eachLane (x.enrolled m) fun l => l.park (.join m x.next)

/-- Each enrolled lane of act is parked at the join, and every other lane is as it was. -/
theorem parkEnrolled_get {x : Issue} (hn : x.act.Nodup) (m : Nat) (g : Group) {j : Nat} {l : Lane} (hl : g.lanes[j]? = some l) :
    (x.parkEnrolled m g).lanes[j]? = some (if j ∈ x.enrolled m then { l with st := .parked (.join m x.next) } else l) := by
  rw [Issue.parkEnrolled, Group.eachLane_get g (x.enrolled m) _ (hn.filter _), hl]
  rfl

/-- `enrol` sets the bits of the lanes of act in one mask and changes no other (R175). -/
theorem enrol_completes {h : Hdr} {m : BitVec 3} {s : State} {x : Issue} {t : State} (ho : opening (.enrol h m) s = some (x, t)) :
    Completes (.enrol h m) s x t fun g g' => g' = g.enrol m.toNat x.act :=
  completes_of_group (f := fun g => g.enrol m.toNat x.act) ho rfl rfl (fun _ => rfl) fun _ _ => rfl

/-- `join` parks the enrolled lanes of act, and then the release happens if it has become due (R37, R176). -/
theorem join_completes {h : Hdr} {m : BitVec 3} {s : State} {x : Issue} {t : State} (ho : opening (.join h m) s = some (x, t)) :
    CompletesTo (.join h m) s x (x.enrolled m.toNat) (fun _ => x.next) (t.modIssue x fun g => (x.parkEnrolled m.toNat g).release m.toNat) :=
  completesTo_of_group ho rfl rfl

/-- Settles O19: `enrol` changes one mask bit by bit; `join` parks lanes and then releases the mask or leaves the group so. -/
theorem enrolAndJoin : Obligations.EnrolAndJoin := by
  refine ⟨fun h m s x t ho => ?_, fun h m s x t ho => ?_⟩
  · obtain ⟨w, u, hu, hg, hs, hmem⟩ := enrol_completes ho
    refine ⟨w, u, hu, GroupStep.mono hg ?_, hs, hmem⟩
    rintro g _ rfl
    exact ⟨rfl, fun hw j hj => Group.enrol_getLsbD hw m.toNat x.act hj, fun hw n hn => Group.enrol_get_other hw m.toNat x.act hn⟩
  · have hact : x.act.Nodup := (opening_lanes ho).2.1
    refine ⟨_, x.enrolled m.toNat, rfl, join_completes ho, fun _ => rfl, groupStep_modGroup (fun _ => Group.release_gix _ _) fun g _ => ?_⟩
    exact ⟨x.parkEnrolled m.toNat g, Group.eachLane_eq g _ _, Group.eachLane_length g _ _, fun j l hl => parkEnrolled_get hact m.toNat g hl,
      Group.release_of_not_ready, Group.release_of_ready⟩

end Sys2Proof.Machine
end
